-- ==== Sys2Proof/Word.lean ====
section
/-! DEFINITION. The value types of 00_scope.md rules R9 and R10: bytes and command words (bit 0 least significant),
levels, eight-level bytes, and the carrier of analog readings. -/

namespace Sys2Proof

/-- An unsigned 8-bit value (R10). -/
abbrev Byte := BitVec 8

/-- A 32-bit command or response word (10_state.md R32, R33). -/
abbrev Word := BitVec 32

/-- The state of a line or of one latch bit (R10): 0, 1, or `x`, unknown. -/
inductive Level where
  | lo
  | hi
  | x
deriving DecidableEq, Repr, Inhabited

/-- The level of a known bit. -/
def Level.ofBool : Bool → Level
  | false => .lo
  | true => .hi

/-- The bit of a known level; `none` for `x`. -/
def Level.toBool? : Level → Option Bool
  | .lo => some false
  | .hi => some true
  | .x => none

/-- `LByte` (R10): eight levels; field `b7` is bit 7, of weight 128 (R9). -/
structure LByte where
  b7 : Level
  b6 : Level
  b5 : Level
  b4 : Level
  b3 : Level
  b2 : Level
  b1 : Level
  b0 : Level
deriving DecidableEq, Repr, Inhabited

/-- Eight times the same level. -/
def LByte.fill (l : Level) : LByte := ⟨l, l, l, l, l, l, l, l⟩

/-- `XXXXXXXX`: every bit unknown. -/
def LByte.unknown : LByte := .fill .x

/-- The carrier of analog values (10_state.md R44). The spec leaves `Volts` abstract; the model carries a rational
number and never computes with it except through the opaque operations of Config.
DESIGN CHOICE, log 4; safe for every claim that does not look inside a reading. -/
structure Volts where
  val : Rat
deriving DecidableEq, Repr, Inhabited

/-- Text of a monitor label (10_state.md R43), as its characters; the empty list is the empty (unused) label.
DESIGN CHOICE, log 17; safe. -/
abbrev Label := List Char

end Sys2Proof
end

