-- ==== Sys2Proof/Config.lean ====
section
/-! DEFINITION. The configuration (10_state.md R40 to R44, 00_scope.md R7): what is fixed before reset is released;
the constants every configuration shares; and the free values, opaque constants of which nothing can be proved. -/

namespace Sys2Proof

/-- Board family (00_scope.md R2). -/
inductive Family where
  | f80
  | f8
deriving DecidableEq, Repr, Inhabited

/-- A latch group `(dm, lg)`, both numbered from 1 (90_conflicts.md C2). -/
structure Group where
  dm : Nat
  lg : Nat
deriving DecidableEq, Repr, Inhabited

/-- A bit offset of a device descriptor (10_state.md R41). -/
inductive Off where
  | fixed (k : Nat)
  | banded (t : Nat)
deriving DecidableEq, Repr, Inhabited

/-- Polarity of a sub-switch (42_switch_state.md R171). -/
inductive Polarity where
  | high
  | low
deriving DecidableEq, Repr, Inhabited

/-- The device kinds (10_state.md R41). -/
inductive DeviceKind where
  | switch
  | xover
  | polhyb
  | sbhyb
deriving DecidableEq, Repr, Inhabited

/-- The names of the logical states (42_switch_state.md R170). -/
inductive LogicalState where
  | bypass | engage
  | through | crossed
  | linear | circular
  | iq | ul
deriving DecidableEq, Repr, Inhabited

/-- What the state bit of a device of this kind means (42_switch_state.md R170). -/
def DeviceKind.meaning : DeviceKind → Bool → LogicalState
  | .switch, false => .bypass
  | .switch, true => .engage
  | .xover, false => .through
  | .xover, true => .crossed
  | .polhyb, false => .linear
  | .polhyb, true => .circular
  | .sbhyb, false => .iq
  | .sbhyb, true => .ul

/-- A sub-switch descriptor (10_state.md R41). -/
structure SubSwitch where
  ctlGrp : Group
  ctlOff : Off
  rbGrp : Group
  rbOff : Off
  pol : Polarity
deriving DecidableEq, Repr, Inhabited

/-- An entry of `DEVTAB` (10_state.md R41). -/
structure Device where
  kind : DeviceKind
  subs : List SubSwitch
deriving DecidableEq, Repr, Inhabited

/-- One valid row of a band map: this band and chain have this bit offset. -/
structure BandRow where
  band : Nat
  chain : Nat
  off : Fin 8
deriving DecidableEq, Repr, Inhabited

/-- `BANDMAP[t]` (10_state.md R42) as its list of valid rows; a `(band, chain)` with no row is `invalid`. -/
abbrev BandMap := List BandRow

/-- Calibration categories (30_encoding.md R98). -/
inductive Category where
  | current
  | vlow
  | vhigh
  | temp
deriving DecidableEq, Repr, Inhabited

/-- The two analog sub-banks (10_state.md R43). -/
inductive Bank where
  | a
  | b
deriving DecidableEq, Repr, Inhabited

/-- One select write of a monitor point: the group and the whole byte written to it (10_state.md R43). -/
structure Select where
  grp : Group
  val : Byte
deriving DecidableEq, Repr, Inhabited

/-- An output of a monitor point (10_state.md R43). -/
structure MonOut where
  bank : Bank
  ch : Nat
  label : Label
  cat : Category
deriving DecidableEq, Repr, Inhabited

/-- An entry of `MONTAB` (10_state.md R43): the select writes of sub-bank A and sub-bank B, and two or three outputs. -/
structure MonEntry where
  selA : Select
  selB : Select
  out1 : MonOut
  out2 : MonOut
  out3 : Option MonOut
deriving DecidableEq, Repr, Inhabited

/-- The outputs of a monitor point in table order. -/
def MonEntry.outs (e : MonEntry) : List MonOut := [e.out1, e.out2] ++ e.out3.toList

/-- A configuration (00_scope.md R7, 10_state.md R40 to R44). No command writes it. -/
structure Config where
  /-- `FAMILY`. -/
  family : Family
  /-- `NDM`, the number of digital modules. -/
  ndm : Nat
  /-- `BASE`, the addressing base. -/
  base : Nat
  /-- `MB2`, the first address of module 2's block (F8 only, 90_conflicts.md C1). -/
  mb2 : Option Nat
  /-- `DEVTAB`; `ND` is its length. -/
  devtab : List Device
  /-- `BANDMAP`. -/
  bandmap : List BandMap
  /-- `MONTAB[1 ..]`, entry 1 first. -/
  montab : List MonEntry
  /-- `K_VLOW` (OPEN). -/
  kVlow : Volts
  /-- `T_OFF` (OPEN). -/
  tOff : Volts
  /-- `T_SCALE` (OPEN). -/
  tScale : Volts
  /-- `T_SETTLE`; no step reads it (41_latch_protocol.md R124). DESIGN CHOICE: a whole number of milliseconds, where the spec
  asks for a delay above 0 only (70_reset_and_hazards.md R312; log 15). -/
  tSettle : Nat
  /-- `RMW_ATOMIC` (42_switch_state.md R193). -/
  rmwAtomic : Bool
  /-- `NREQ`, the number of host requesters. -/
  nreq : Nat
deriving DecidableEq, Repr, Inhabited

/-- `NLG`: latch groups per digital module (00_scope.md R7). -/
def Config.nlg : Nat := 4

/-- `NCHAIN`: receiver chains (00_scope.md R7). -/
def Config.nchain : Nat := 2

/-- `N_MON`: monitor points (43_monitor_mux.md R220). -/
def Config.nMon : Nat := 8

/-- `N_ACH`: analog channels (00_scope.md R7). -/
def Config.nAch : Nat := 8

/-- `I_OFF = 0.004` (10_state.md R44). -/
def Config.iOff : Volts := ⟨mkRat 4 1000⟩

/-- `K_VHIGH = 10.5542` (10_state.md R44). -/
def Config.kVhigh : Volts := ⟨mkRat 105542 10000⟩

/-! Free values. Nothing constrains them: a statement about one holds for every value (log 3, log 4). -/

/-- `vsub`, total and otherwise unknown (10_state.md R44; log 4). -/
opaque Config.vsub : Volts → Volts → Volts

/-- `vmul`, total and otherwise unknown (10_state.md R44; log 4). -/
opaque Config.vmul : Volts → Volts → Volts

/-- The n-th unscripted answer of `IoDraw()` (41_latch_protocol.md R125). -/
opaque Config.freeIo : Nat → Bool

/-- The n-th unscripted address-port readback (20_memory.md R69). -/
opaque Config.freePort : Nat → Byte

/-- The n-th unscripted status byte `SENSE` (20_memory.md R66). -/
opaque Config.freeSense : Nat → Byte

/-- The n-th unscripted `SOUT` bit (20_memory.md R65). -/
opaque Config.freeSout : Nat → Bool

/-- The n-th unscripted data byte of a read after a dirty start (41_latch_protocol.md R140). -/
opaque Config.freeReadByte : Nat → Byte

/-- The n-th unscripted analog reading (20_memory.md R70). -/
opaque Config.freeVolts : Nat → Volts

/-- The n-th unscripted choice among the agents that can move and idling (60_exceptions.md R286). -/
opaque Config.freeChoice : Nat → Nat

/-- The word of the n-th unscripted command a requester submits (60_exceptions.md R285). -/
opaque Config.freeWord : Nat → Word

/-- The `raw` operand of the n-th unscripted command a requester submits, or its absence. -/
opaque Config.freeRaw : Nat → Option Volts

/-! The example configuration of 95_test_vectors.md section 2, which `State.reset` holds (log 1, log 5). -/

/-- A `FIXED(k)` sub-switch whose control and readback bits are the same bit of one group. -/
def Config.simpleSub (g : Group) (o : Off) (p : Polarity) : SubSwitch := ⟨g, o, g, o, p⟩

/-- The digit character of a label of the examples. -/
def Config.digit (i : Nat) : Char := Char.ofNat (48 + i)

/-- `MONTAB[i]` of CFG-SW. -/
def Config.swMon (i : Nat) : MonEntry where
  selA := ⟨⟨1, 3⟩, BitVec.ofNat 8 (i - 1)⟩
  selB := ⟨⟨1, 4⟩, BitVec.ofNat 8 (i - 1)⟩
  out1 := ⟨.a, 4, ['I', Config.digit i], .current⟩
  out2 := ⟨.b, 6, ['V', Config.digit i], .vhigh⟩
  out3 := none

/-- CFG-SW of 95_test_vectors.md section 2 (family F80). Its OPEN constants are the model's choice (log 5). -/
def Config.cfgSw : Config where
  family := .f80
  ndm := 1
  base := 80
  mb2 := none
  devtab := [
    ⟨.switch, [Config.simpleSub ⟨1, 1⟩ (.fixed 3) .high]⟩,
    ⟨.xover, [Config.simpleSub ⟨1, 2⟩ (.fixed 0) .high, Config.simpleSub ⟨1, 2⟩ (.fixed 1) .high]⟩,
    ⟨.polhyb, [Config.simpleSub ⟨1, 1⟩ (.banded 0) .high]⟩,
    ⟨.sbhyb, [Config.simpleSub ⟨1, 2⟩ (.fixed 2) .low]⟩]
  bandmap := [[⟨0, 0, 0⟩, ⟨1, 0, 1⟩, ⟨2, 0, 2⟩, ⟨0, 1, 7⟩, ⟨1, 1, 6⟩, ⟨2, 1, 5⟩]]
  montab := [1, 2, 3, 4, 5, 6, 7, 8].map Config.swMon
  kVlow := ⟨1⟩
  tOff := ⟨0⟩
  tScale := ⟨1⟩
  tSettle := 10
  rmwAtomic := true
  nreq := 1

/-- `MONTAB[i]` of CFG-MON. -/
def Config.monMon (i : Nat) : MonEntry where
  selA := ⟨⟨1, 1⟩, BitVec.ofNat 8 i⟩
  selB := ⟨⟨1, 2⟩, BitVec.ofNat 8 (i * 16)⟩
  out1 := ⟨.a, 0, ['I', Config.digit i], .current⟩
  out2 := ⟨.a, 1, ['V', Config.digit i], .vhigh⟩
  out3 := if i = 8 then some ⟨.b, 2, [], .vlow⟩ else none

/-- CFG-MON of 95_test_vectors.md section 2. -/
def Config.cfgMon : Config :=
  { Config.cfgSw with
    devtab := [⟨.switch, [Config.simpleSub ⟨1, 3⟩ (.fixed 0) .high]⟩]
    bandmap := []
    montab := [1, 2, 3, 4, 5, 6, 7, 8].map Config.monMon }

end Sys2Proof
end

