-- ==== Sys2Proof/Machine/Address.lean ====
section
/-! DEFINITION. Latch-group addresses (41_latch_protocol.md R127, 20_memory.md R61) and the lookups in the
configuration's tables, as pure functions. -/

namespace Sys2Proof

/-- `MB(dm)`: `MB(1) = BASE` and, on F8, `MB(2) = MB2` (10_state.md R40). -/
def Config.mb (c : Config) (dm : Nat) : Nat :=
  if dm = 1 then c.base else c.mb2.getD 0

/-- `W(dm, lg) = MB(dm) + (lg - 1)` (R127). -/
def Config.writeAddr (c : Config) (g : Group) : Nat := c.mb g.dm + (g.lg - 1)

/-- `R(dm, lg) = W(dm, lg) + 4` (R127). -/
def Config.readAddr (c : Config) (g : Group) : Nat := c.writeAddr g + 4

/-- `GroupAddr(dm, lg, rd) = W(dm, lg) + 4 * rd` (R127). -/
def Config.groupAddr (c : Config) (g : Group) (rd : Bool) : Nat :=
  c.writeAddr g + 4 * rd.toNat

/-- The valid groups are those with `1 ≤ dm ≤ NDM` and `1 ≤ lg ≤ 4` (10_state.md R40, R128). -/
def Config.validGroup (c : Config) (g : Group) : Bool :=
  1 ≤ g.dm && g.dm ≤ c.ndm && 1 ≤ g.lg && g.lg ≤ Config.nlg

/-- The latch groups of the board, in address order within each module (10_state.md R40). -/
def Config.groups (c : Config) : List Group :=
  (List.range c.ndm).flatMap fun d => (List.range Config.nlg).map fun l => ⟨d + 1, l + 1⟩

/-- The write addresses of the board: the addresses that hold an `OUT` and an `SR` (10_state.md R39). -/
def Config.writeAddrs (c : Config) : List Nat := c.groups.map c.writeAddr

/-- The read addresses of the board. -/
def Config.readAddrs (c : Config) : List Nat := c.groups.map c.readAddr

/-- The band map's offset for `(band, chain)`; `none` is `invalid` (10_state.md R42). -/
def BandMap.lookup (m : BandMap) (band chain : Nat) : Option Nat :=
  (m.find? fun r => r.band == band && r.chain == chain).map fun r => r.off.val

/-- `ResolveOff` (42_switch_state.md R172); `none` where it raises `BAD_INDEX`. `FIXED` ignores band and chain. -/
def Config.resolveOff (c : Config) (off : Off) (band chain : Nat) : Option Nat :=
  match off with
  | .fixed k => some k
  | .banded t => c.bandmap[t]?.bind fun m => m.lookup band chain

/-- `DEVTAB[dev]`; `none` exactly where `CheckDev` raises (42_switch_state.md R175). -/
def Config.device (c : Config) (dev : Nat) : Option Device := c.devtab[dev]?

/-- `MONTAB[i]`, entries numbered from 1; `none` where `CheckMon` raises (43_monitor_mux.md R220). -/
def Config.monEntry (c : Config) (i : Nat) : Option MonEntry :=
  if 1 ≤ i ∧ i ≤ Config.nMon then c.montab[i - 1]? else none

end Sys2Proof
end

