-- ==== Sys2Proof/Machine/Levels.lean ====
section
/-! DEFINITION. Bit operations on bytes of levels and on bytes (00_scope.md R9, R10; 20_memory.md R64; 42_switch_state.md
R171, R174). -/

namespace Sys2Proof

/-- A `Byte` converts to an `LByte` bitwise (R10). -/
def LByte.ofByte (b : Byte) : LByte where
  b7 := .ofBool (b.getLsbD 7)
  b6 := .ofBool (b.getLsbD 6)
  b5 := .ofBool (b.getLsbD 5)
  b4 := .ofBool (b.getLsbD 4)
  b3 := .ofBool (b.getLsbD 3)
  b2 := .ofBool (b.getLsbD 2)
  b1 := .ofBool (b.getLsbD 1)
  b0 := .ofBool (b.getLsbD 0)

/-- The levels of a latch address. -/
def LByte.ofAddr (a : Nat) : LByte := .ofByte (BitVec.ofNat 8 a)

/-- Bit `i`, of weight `2^i` (R9). -/
def LByte.get (v : LByte) : Fin 8 → Level
  | 0 => v.b0
  | 1 => v.b1
  | 2 => v.b2
  | 3 => v.b3
  | 4 => v.b4
  | 5 => v.b5
  | 6 => v.b6
  | 7 => v.b7

/-- The byte of levels with bit `i` replaced. -/
def LByte.set (v : LByte) (i : Fin 8) (l : Level) : LByte :=
  match i with
  | 0 => { v with b0 := l }
  | 1 => { v with b1 := l }
  | 2 => { v with b2 := l }
  | 3 => { v with b3 := l }
  | 4 => { v with b4 := l }
  | 5 => { v with b5 := l }
  | 6 => { v with b6 := l }
  | 7 => { v with b7 := l }

/-- `SR[6:0] : l`: one place toward bit 7, `l` entering at bit 0 (R64). -/
def LByte.shift (v : LByte) (l : Level) : LByte := ⟨v.b6, v.b5, v.b4, v.b3, v.b2, v.b1, v.b0, l⟩

/-- The bits of a byte in bus order, bit 7 first (20_memory.md R71). -/
def Byte.msbFirst (b : Byte) : List Bool :=
  [b.getLsbD 7, b.getLsbD 6, b.getLsbD 5, b.getLsbD 4, b.getLsbD 3, b.getLsbD 2, b.getLsbD 1, b.getLsbD 0]

/-- The byte assembled from received bits, the first received the most significant (20_memory.md R71). -/
def Byte.ofMsbFirst (bits : List Bool) : Byte := bits.foldl BitVec.shiftConcat 0#8

/-- A level as a bit, an unknown one as the bit drawn for it. -/
def Level.orDraw (l : Level) (d : Bool) : Bool := l.toBool?.getD d

/-- The byte whose known bits are those of `v` and whose unknown bits are those drawn in `d` (R66, R69). -/
def LByte.orDraw (v : LByte) (d : Byte) : Byte :=
  Byte.ofMsbFirst [
    v.b7.orDraw (d.getLsbD 7), v.b6.orDraw (d.getLsbD 6), v.b5.orDraw (d.getLsbD 5), v.b4.orDraw (d.getLsbD 4),
    v.b3.orDraw (d.getLsbD 3), v.b2.orDraw (d.getLsbD 2), v.b1.orDraw (d.getLsbD 1), v.b0.orDraw (d.getLsbD 0)]

/-- Whether every bit is known. -/
def LByte.known (v : LByte) : Bool :=
  [v.b7, v.b6, v.b5, v.b4, v.b3, v.b2, v.b1, v.b0].all fun l => l != .x

/-- `Level(st, pol) = st ^ [pol = LOW]` (42_switch_state.md R171). -/
def Polarity.level (p : Polarity) (st : Bool) : Bool := st ^^ decide (p = .low)

/-- `State(lvl, pol) = lvl ^ [pol = LOW]` (42_switch_state.md R171). -/
def Polarity.state (p : Polarity) (lvl : Bool) : Bool := lvl ^^ decide (p = .low)

/-- `BitState(v, o, pol)` (42_switch_state.md R174). -/
def bitState (v : Byte) (o : Nat) (p : Polarity) : Bool := p.state (v.getLsbD o)

/-- `WithBit(v, o, lvl) = (v & (0xFF ^ (1 << o))) | (lvl << o)` (42_switch_state.md R174). -/
def withBit (v : Byte) (o : Nat) (lvl : Bool) : Byte :=
  (v &&& (0xFF#8 ^^^ (1#8 <<< o))) ||| (BitVec.ofNat 8 lvl.toNat <<< o)

end Sys2Proof
end

