-- ==== Sys2Proof/Syntax.lean ====
section
/-! DEFINITION. The nine commands of 30_encoding.md R91 as one inductive, one constructor per row of the opcode table,
and the command record a requester submits (10_state.md R32). Fields are unsigned integers (R97); one-bit fields are
booleans and the byte to write is a byte. -/

namespace Sys2Proof

/-- One constructor per row of the opcode table (30_encoding.md R91). -/
inductive Instr where
  /-- `LG_ADDR dm, lg, rd` (41_latch_protocol.md R133). -/
  | lgAddr (dm lg : Nat) (rd : Bool)
  /-- `LG_WRITE dm, lg, byte` (41_latch_protocol.md R130). -/
  | lgWrite (dm lg : Nat) (data : Byte)
  /-- `LG_READ dm, lg` (41_latch_protocol.md R140). -/
  | lgRead (dm lg : Nat)
  /-- `SW_GET dev, band, chain` (42_switch_state.md R180). -/
  | swGet (dev band chain : Nat)
  /-- `SW_SET dev, band, chain, state` (42_switch_state.md R190). -/
  | swSet (dev band chain : Nat) (st : Bool)
  /-- `MON_SELECT idx` (43_monitor_mux.md R221). -/
  | monSelect (idx : Nat)
  /-- `MON_READ idx` (43_monitor_mux.md R223). -/
  | monRead (idx : Nat)
  /-- `MON_CONVERT cat, raw` (43_monitor_mux.md R225); `raw` is the side operand of R96. -/
  | monConvert (cat : Nat) (raw : Volts)
  /-- `MON_SWEEP` (43_monitor_mux.md R230). -/
  | monSweep
deriving DecidableEq, Repr, Inhabited

/-- The pseudo-instruction `LG_WADDR dm, lg` (30_encoding.md R103). -/
def Instr.lgWaddr (dm lg : Nat) : Instr := .lgAddr dm lg false

/-- The pseudo-instruction `LG_RADDR dm, lg` (30_encoding.md R103). -/
def Instr.lgRaddr (dm lg : Nat) : Instr := .lgAddr dm lg true

/-- A command (10_state.md R32): the word and, beside it, the `raw` operand or its absence. -/
structure Command where
  word : Word
  raw : Option Volts
deriving DecidableEq, Repr, Inhabited

end Sys2Proof
end

