-- ==== Sys2Proof/Machine/State.lean ====
section
/-! DEFINITION. The machine's state as plain data (10_state.md R20 to R39), the reasons a step can stop, and the state
right after reset (R46). -/

namespace Sys2Proof.Machine

/-- The output lines (10_state.md R22 to R26). -/
inductive Line where
  | a (i : Fin 8)
  | clk
  | din
  | load
  | busen
deriving DecidableEq, Repr

/-- The drive on every output line (R22 to R26). -/
structure Lines where
  /-- `LINE_A[7:0]`. -/
  addr : LByte
  /-- `LINE_CLK`. -/
  clk : Level
  /-- `LINE_DIN`. -/
  din : Level
  /-- `LINE_LOAD`, active low. -/
  load : Level
  /-- `LINE_BUSEN`, active low. -/
  busen : Level
deriving DecidableEq, Repr

/-- The contents of one latch group: its outputs `OUT[a]` and its shift register `SR[a]` (R39). -/
structure Latch where
  out : LByte
  sr : LByte
deriving DecidableEq, Repr

/-- What an unlisted write address reads as: every bit unknown, the reset contents of R46. -/
def Latch.unknown : Latch := ⟨.unknown, .unknown⟩

/-- The latch contents by write address, in one canonical form (`Memory.wf`): addresses strictly rising and no entry
equal to `Latch.unknown`. Its cells hold levels, not bytes: a byte cannot say that a bit is unknown (log 12). -/
abbrev Memory := List (Nat × Latch)

/-- Status codes of a response (60_exceptions.md R261). -/
inductive Status where
  | ok
  | ioFail
  | addrMismatch
  | inconsistent
  | badIndex
  | badLabel
  | illegal
  | partialSweep
deriving DecidableEq, Repr

/-- An element of `VALS` (R33): of `MON_READ`, of `MON_CONVERT`, of `MON_SWEEP`. -/
inductive Val where
  | reading (ch : Nat) (v : Volts)
  | converted (v : Volts)
  | labelled (l : Label) (v : Volts)
deriving DecidableEq, Repr

/-- A response (R33). -/
structure Response where
  status : Status
  haz : BitVec 2
  data : Byte
  exp : Byte
  obs : Byte
  vals : List Val
deriving DecidableEq, Repr

/-- An event of the bus trace (R36); a failed drive has `ok = false`, a failed read has no value. -/
inductive Event where
  | beginCmd (q : Nat) (word : Word)
  | endCmd (q : Nat) (r : Response)
  | drive (l : Line) (v : Bool) (ok : Bool)
  | readPort (v : Option Byte)
  | readIn (v : Option Bool)
  | readAnalog (ch : Nat) (v : Option Volts)
  | settle
deriving DecidableEq, Repr

/-- Where an adapter operation failed (R37, `io(line or port)`). -/
inductive IoPlace where
  | line (l : Line)
  | addrPort
  | sout
  | analog (ch : Nat)
deriving DecidableEq, Repr

/-- A record of `LOG` (R37). -/
inductive LogRec where
  | io (p : IoPlace)
  | addr (expected observed : Byte)
  | inconsistent (dev : Nat) (st0 st1 : Bool)
  | label (cat : Nat)
deriving DecidableEq, Repr

/-- Progress of a `MON_SWEEP` (R38). -/
structure Sweep where
  next : Nat
  acc : List (Label × Volts)
  failed : Bool
deriving DecidableEq, Repr

/-- The place inside a `SW_SET` that runs as separate units (`RMW_ATOMIC = false`, 42_switch_state.md R193; log 9). -/
inductive RmwPlace where
  /-- Next: read the control byte of sub `j`. -/
  | read (j : Nat)
  /-- Next: write the control byte of sub `j`, which read as `cur`. -/
  | write (j : Nat) (cur : Byte)
  /-- Next: the confirming read of sub `j`; the states of the subs before it are `st`. -/
  | confirm (j : Nat) (st : List Bool)
deriving DecidableEq, Repr

/-- What is held per requester (60_exceptions.md R278). -/
structure Requester where
  /-- `PENDING[q]` (R29). -/
  pending : Option Command
  /-- `RSP[q]` (R35). -/
  rsp : Option Response
  /-- `SWEEP[q]` (R38). -/
  sweep : Option Sweep
  /-- The place inside a non-atomic `SW_SET` (log 9). -/
  rmw : Option RmwPlace
  /-- The commands the requester submits next, first one first: an input of the machine (R21, R29; log 6). After them it
  may submit any command (60_exceptions.md R285). -/
  toSubmit : List Command
deriving DecidableEq, Repr

/-- A requester at reset (R46): nothing pending, no response, no sweep. -/
def Requester.idle : Requester := ⟨none, none, none, none, []⟩

/-- The environment (00_scope.md R6, R13, R14): which launch premises are in force, the answers scripted for the draws
to come (first one first), and how many free values have been taken. A draw takes the next scripted answer, and a free
value of Config where the script is empty. The model's own fields, not the spec's state (log 2, log 3). -/
structure Env where
  /-- `NoIOFail` (R14): every pin primitive succeeds. -/
  noIOFail : Bool
  /-- `HealthyBus` (R14): a port read returns the levels driven. -/
  healthyBus : Bool
  /-- `Loopback` (R14): `SENSE = OUT`. -/
  loopback : Bool
  /-- Scripted answers of `IoDraw()`. -/
  io : List Bool
  /-- Scripted address-port readbacks. -/
  port : List Byte
  /-- Scripted status bytes. -/
  sense : List Byte
  /-- Scripted `SOUT` bits. -/
  sout : List Bool
  /-- Scripted data bytes of reads after a dirty start. -/
  readByte : List Byte
  /-- Scripted analog readings. -/
  analog : List Volts
  /-- Scripted choices among the agents that can move and idling (60_exceptions.md R286, R288; log 7). -/
  sched : List Nat
  /-- Free values taken so far. -/
  drawn : Nat
deriving DecidableEq, Repr

/-- The environment of `State.reset`: no premise assumed, nothing scripted (log 2). -/
def Env.open : Env where
  noIOFail := false
  healthyBus := false
  loopback := false
  io := []
  port := []
  sense := []
  sout := []
  readByte := []
  analog := []
  sched := []
  drawn := 0

/-- The machine (10_state.md sections 1 to 3), with its configuration and its environment. -/
structure State where
  /-- The configuration (section 4); no step writes it (log 1). -/
  cfg : Config
  /-- The output lines (R22 to R26). -/
  lines : Lines
  /-- `OUT` and `SR` of every latch group (R39). -/
  latches : Memory
  /-- `BUS_OWNER` (R28). -/
  busOwner : Option Nat
  /-- `HAZ` (R30): bit 0 `DIRTY`, bit 1 `LOADEN`. -/
  haz : BitVec 2
  /-- The requesters `0 .. NREQ-1` (60_exceptions.md R278). -/
  reqs : List Requester
  /-- `TRACE`, oldest event first (R36). -/
  trace : List Event
  /-- `LOG`, oldest record first (R37). -/
  log : List LogRec
  /-- The environment's answers (log 2). -/
  env : Env
deriving DecidableEq, Repr

/-- Why the machine stops with a fault. -/
inductive Fault where
  /-- Raised by a meaning called while `BUS_OWNER = none`, that is outside a locked unit (R28). `step` grants the bus
  before it calls a meaning, so no step raises it. Safe (log 10). -/
  | noGrant
deriving DecidableEq, Repr

/-- Why the machine has no run. -/
inductive Refusal where
  /-- Raised by `exec` for an instruction that has no meaning yet. No arm raises it. Safe. -/
  | notModelled (mnemonic : String)
  /-- Raised by `step` for a configuration that is not well formed: "the model refuses such a configuration and has no
  run from it" (00_scope.md R8). Safe. -/
  | illFormedConfig
deriving DecidableEq, Repr

/-- The lines at reset (R46): a clean bus, address lines and data line 0. -/
def Lines.reset : Lines := ⟨.fill .lo, .hi, .lo, .hi, .hi⟩

/-- The launch state of a configuration (R46, 70_reset_and_hazards.md R300). -/
def State.launch (c : Config) : State where
  cfg := c
  lines := .reset
  latches := []
  busOwner := none
  haz := 0#2
  reqs := List.replicate c.nreq .idle
  trace := []
  log := []
  env := .open

/-- The machine right after reset, with the example configuration CFG-SW (log 1). -/
def State.reset : State := .launch Config.cfgSw

end Sys2Proof.Machine
end

