-- ==== Sys2Proof/Machine/Flags.lean ====
section
/-! DEFINITION. The status a command produces: the sticky `HAZ` bits (10_state.md R30), the status codes (60_exceptions.md
R261) and the packed response word (10_state.md R33). There are no other flags (10_state.md R31). -/

namespace Sys2Proof.Machine

/-- `HAZ[0]`, `DIRTY`. -/
def hazDirty : BitVec 2 := 0b01#2

/-- `HAZ[1]`, `LOADEN`. -/
def hazLoaden : BitVec 2 := 0b10#2

/-- Set hazard bits; none is ever cleared (10_state.md R30). -/
def State.setHaz (s : State) (bits : BitVec 2) : State := { s with haz := s.haz ||| bits }

/-- The bus is clean (41_latch_protocol.md R129). -/
def Lines.clean (l : Lines) : Bool := l.busen == .hi && l.load == .hi && l.clk == .hi

/-- The code of a status (R261). -/
def Status.code : Status → BitVec 4
  | .ok => 0#4
  | .ioFail => 1#4
  | .addrMismatch => 2#4
  | .inconsistent => 3#4
  | .badIndex => 4#4
  | .badLabel => 5#4
  | .illegal => 6#4
  | .partialSweep => 7#4

/-- The packed response word `OBS | EXP | DATA | 0 | HAZ | STATUS` (10_state.md R33). -/
def Response.word (r : Response) : Word :=
  r.obs ++ r.exp ++ r.data ++ 0#2 ++ r.haz ++ r.status.code

/-- The byte that carries the two states of an `INCONSISTENT` device (42_switch_state.md R181). -/
def inconsistentData (st0 st1 : Bool) : Byte := BitVec.ofNat 8 (st0.toNat + 2 * st1.toNat)

end Sys2Proof.Machine
end

