-- ==== Sys2Proof/Machine/Ops.lean ====
section
/-! DEFINITION. The named operations over the state: latch memory, draws, the latch-device edge rules (20_memory.md R63
to R70), the pin primitives (41_latch_protocol.md R120 to R125), and how a command ends: with its response, or by raising
a failure (60_exceptions.md R260). -/

namespace Sys2Proof.Machine

/-! ## Latch memory -/

/-- The contents of the group at write address `a`; an unlisted address is unknown (10_state.md R46). -/
def Memory.get : Memory → Nat → Latch
  | [], _ => .unknown
  | (k, v) :: m, a => if k = a then v else Memory.get m a

/-- The memory with new contents at `a`, in canonical form: unknown contents are not listed. -/
def Memory.set : Memory → Nat → Latch → Memory
  | [], a, v => if v = .unknown then [] else [(a, v)]
  | (k, u) :: m, a, v =>
    if k < a then (k, u) :: Memory.set m a v
    else if k = a then (if v = .unknown then m else (a, v) :: m)
    else (if v = .unknown then (k, u) :: m else (a, v) :: (k, u) :: m)

/-- The canonical form: addresses strictly rising, no entry unknown. -/
def Memory.wf : Memory → Bool
  | [] => true
  | (k, v) :: m => v != .unknown && m.all (fun e => decide (k < e.1)) && Memory.wf m

/-! ## Small state updates -/

/-- Append to `TRACE` (10_state.md R36). -/
def State.event (s : State) (e : Event) : State := { s with trace := s.trace ++ [e] }

/-- Append to `LOG` (10_state.md R37). -/
def State.record (s : State) (r : LogRec) : State := { s with log := s.log ++ [r] }

/-- The level of a line. -/
def Lines.get (l : Lines) : Line → Level
  | .a i => l.addr.get i
  | .clk => l.clk
  | .din => l.din
  | .load => l.load
  | .busen => l.busen

/-- The lines with one of them at a new level. -/
def Lines.set (l : Lines) (n : Line) (v : Level) : Lines :=
  match n with
  | .a i => { l with addr := l.addr.set i v }
  | .clk => { l with clk := v }
  | .din => { l with din := v }
  | .load => { l with load := v }
  | .busen => { l with busen := v }

/-- Put a line at a level. -/
def State.setLine (s : State) (n : Line) (v : Level) : State := { s with lines := s.lines.set n v }

/-- Make every address line unknown (41_latch_protocol.md R126). -/
def State.loseAddr (s : State) : State := { s with lines := { s.lines with addr := .unknown } }

/-- Write `OUT[a]`. -/
def State.setOut (s : State) (a : Nat) (v : LByte) : State :=
  { s with latches := s.latches.set a { s.latches.get a with out := v } }

/-- Write `SR[a]`. -/
def State.setSr (s : State) (a : Nat) (v : LByte) : State :=
  { s with latches := s.latches.set a { s.latches.get a with sr := v } }

/-- `OUT[a] <- XXXXXXXX; SR[a] <- XXXXXXXX`. -/
def State.forget (s : State) (a : Nat) : State := { s with latches := s.latches.set a .unknown }

/-- `OUT[a] <- XXXXXXXX; SR[a] <- XXXXXXXX` for every latch group of the board (41_latch_protocol.md R129). -/
def State.forgetAll (s : State) : State :=
  { s with latches := s.cfg.writeAddrs.foldl (fun m a => m.set a .unknown) s.latches }

/-- The record of requester `q`; a requester that does not exist is idle. -/
def State.req (s : State) (q : Nat) : Requester := s.reqs[q]?.getD .idle

/-- Write the record of requester `q`. -/
def State.setReq (s : State) (q : Nat) (r : Requester) : State := { s with reqs := s.reqs.set q r }

/-! ## Draws (00_scope.md R13, R14): the next scripted answer, else a free value (log 2, log 3) -/

/-- Count one free value taken. -/
def State.countDraw (s : State) : State := { s with env := { s.env with drawn := s.env.drawn + 1 } }

/-- `IoDraw()` (41_latch_protocol.md R125): true under `NoIOFail`, else a draw. -/
def State.ioDraw (s : State) : Bool × State :=
  if s.env.noIOFail then (true, s)
  else match s.env.io with
    | b :: rest => (b, { s with env := { s.env with io := rest } })
    | [] => (Config.freeIo s.env.drawn, s.countDraw)

/-- A draw of an address-port readback. -/
def State.portDraw (s : State) : Byte × State :=
  match s.env.port with
  | b :: rest => (b, { s with env := { s.env with port := rest } })
  | [] => (Config.freePort s.env.drawn, s.countDraw)

/-- A draw of a status byte. -/
def State.senseDraw (s : State) : Byte × State :=
  match s.env.sense with
  | b :: rest => (b, { s with env := { s.env with sense := rest } })
  | [] => (Config.freeSense s.env.drawn, s.countDraw)

/-- A draw of a `SOUT` bit. -/
def State.soutDraw (s : State) : Bool × State :=
  match s.env.sout with
  | b :: rest => (b, { s with env := { s.env with sout := rest } })
  | [] => (Config.freeSout s.env.drawn, s.countDraw)

/-- A draw of the data of a read after a dirty start. -/
def State.readByteDraw (s : State) : Byte × State :=
  match s.env.readByte with
  | b :: rest => (b, { s with env := { s.env with readByte := rest } })
  | [] => (Config.freeReadByte s.env.drawn, s.countDraw)

/-- A draw of `Volts` (20_memory.md R70). -/
def State.voltsDraw (s : State) : Volts × State :=
  match s.env.analog with
  | v :: rest => (v, { s with env := { s.env with analog := rest } })
  | [] => (Config.freeVolts s.env.drawn, s.countDraw)

/-- A free choice (60_exceptions.md R286), as a number. -/
def State.choiceDraw (s : State) : Nat × State :=
  match s.env.sched with
  | k :: rest => (k, { s with env := { s.env with sched := rest } })
  | [] => (Config.freeChoice s.env.drawn, s.countDraw)

/-! ## The latch devices (20_memory.md R63 to R70) -/

/-- The write address of the group whose write address is on the address lines, every bit known (R63). -/
def State.atWrite (s : State) : Option Nat :=
  s.cfg.writeAddrs.find? fun w => s.lines.addr == LByte.ofAddr w

/-- The write address of the group whose read address is on the address lines (R63). -/
def State.atRead (s : State) : Option Nat :=
  s.cfg.writeAddrs.find? fun w => s.lines.addr == LByte.ofAddr (w + 4)

/-- The write-selected group (R63). -/
def State.writeSelected (s : State) : Option Nat := if s.lines.busen = .lo then s.atWrite else none

/-- The read-selected group (R63). -/
def State.readSelected (s : State) : Option Nat := if s.lines.busen = .lo then s.atRead else none

/-- A rising edge of the clock (R64): the selected group shifts, `LINE_DIN` or an unknown level entering. -/
def State.shiftSelected (s : State) : State :=
  match s.writeSelected with
  | some w => s.setSr w ((s.latches.get w).sr.shift s.lines.din)
  | none =>
    match s.readSelected with
    | some w => s.setSr w ((s.latches.get w).sr.shift .x)
    | none => s

/-- `SENSE` of a group at a capture (R66): its outputs under `Loopback`, an unknown bit drawn; else a draw. -/
def State.sense (s : State) (w : Nat) : Byte × State :=
  if s.env.loopback then
    if (s.latches.get w).out.known then ((s.latches.get w).out.orDraw 0#8, s)
    else ((s.latches.get w).out.orDraw s.senseDraw.1, s.senseDraw.2)
  else s.senseDraw

/-- A rising edge of the load-strobe (R67): the group whose read address is on the address lines captures `SENSE`; while
bus-enable is not deselected, its shift register becomes unknown (41_latch_protocol.md R141). -/
def State.capture (s : State) : State :=
  match s.atRead with
  | none => s
  | some w =>
    if s.lines.busen = .hi then (s.sense w).2.setSr w (.ofByte (s.sense w).1)
    else s.setSr w .unknown

/-- Bus-enable going from 0 to 1 (R68): the group that was write-selected copies `OUT <- SR`. -/
def State.transfer (s : State) : State :=
  match s.atWrite with
  | some w => s.setOut w (s.latches.get w).sr
  | none => s

/-- The edge rules R64, R67, R68 for `Drive(line, v)` on a line that was at `old`. Only a change from 0 to 1 is a rising
edge: from an unknown level there is none (log 16). -/
def State.edge (s : State) (n : Line) (old : Level) (v : Bool) : State :=
  if old = .lo ∧ v = true then
    match n with
    | .clk => s.shiftSelected
    | .load => s.capture
    | .busen => s.transfer
    | .a _ => s
    | .din => s
  else s

/-! ## Running a command -/

/-- What a command may raise (60_exceptions.md R260, R261). -/
inductive Failure where
  | ioFail
  | addrMismatch (exp obs : Byte)
  | inconsistent (st0 st1 : Bool)
  | badIndex
  | badLabel
  | illegal
deriving DecidableEq, Repr

/-- A part of a command: it ends with a value or raises a failure, and either way leaves a state; nothing done before a
failure is undone (20_memory.md R74). -/
abbrev Run := EStateM Failure State

/-- Run `m`; where it raises a failure, change the state it left and raise the failure again. -/
def onFailure {α : Type} (f : State → State) (m : Run α) : Run α := fun s =>
  match m s with
  | .ok a t => .ok a t
  | .error e t => .error e (f t)

/-! ## Pin primitives (41_latch_protocol.md R120 to R124) -/

/-- One adapter operation (R125): where `IoDraw()` answers true it does its work and gives its value, else it leaves what
a failure leaves and raises `IO_FAIL`. No retry is made and nothing is undone. -/
def pinOp {α : Type} (work : State → α × State) (failed : State → State) : Run α := fun s =>
  if s.ioDraw.1 then .ok (work s.ioDraw.2).1 (work s.ioDraw.2).2 else .error .ioFail (failed s.ioDraw.2)

/-- A successful `Drive`: the line moves and the devices see the edge (R120). -/
def State.moveLine (s : State) (n : Line) (v : Bool) : State :=
  (s.setLine n (.ofBool v)).edge n (s.lines.get n) v

/-- `Drive(line, v)` (R120): on failure the line is unknown, and the failure is logged and raised. -/
def drive (n : Line) (v : Bool) : Run Unit :=
  pinOp (fun s => ((), (s.moveLine n v).event (.drive n v true)))
    (fun s => ((s.setLine n .x).event (.drive n v false)).record (.io (.line n)))

/-- The address-port answer (20_memory.md R69): the levels driven under `HealthyBus`, else a draw. -/
def State.portAnswer (s : State) : Byte × State :=
  if s.env.healthyBus then
    if s.lines.addr.known then (s.lines.addr.orDraw 0#8, s)
    else (s.lines.addr.orDraw s.portDraw.1, s.portDraw.2)
  else s.portDraw

/-- `ReadPort(ADDR)` (R121). -/
def readPort : Run Byte :=
  pinOp (fun s => (s.portAnswer.1, s.portAnswer.2.event (.readPort (some s.portAnswer.1))))
    (fun s => (s.event (.readPort none)).record (.io .addrPort))

/-- The `SOUT` answer (20_memory.md R65): `SR[7]` of the read-selected group; a draw where it is unknown or no group is
read-selected. -/
def State.soutAnswer (s : State) : Bool × State :=
  match s.readSelected with
  | none => s.soutDraw
  | some w =>
    match (s.latches.get w).sr.b7.toBool? with
    | some b => (b, s)
    | none => s.soutDraw

/-- `ReadIn(SOUT)` (R122). -/
def readIn : Run Bool :=
  pinOp (fun s => (s.soutAnswer.1, s.soutAnswer.2.event (.readIn (some s.soutAnswer.1))))
    (fun s => (s.event (.readIn none)).record (.io .sout))

/-- `ReadAnalog(ch)` (R123). -/
def readAnalog (ch : Nat) : Run Volts :=
  pinOp (fun s => (s.voltsDraw.1, s.voltsDraw.2.event (.readAnalog ch (some s.voltsDraw.1))))
    (fun s => (s.event (.readAnalog ch none)).record (.io (.analog ch)))

/-- `Settle()` (R124): a trace event and nothing else; the model has no time (log 15). -/
def settle : Run Unit := fun s => .ok () (s.event .settle)

/-! ## How a command ends (60_exceptions.md R260, R287) -/

/-- What a command answers when it succeeds: `DATA` and `VALS`. -/
structure Reply where
  data : Byte
  vals : List Val
deriving DecidableEq, Repr

/-- The response of a success (10_state.md R34). -/
def Reply.response (r : Reply) (haz : BitVec 2) : Response := ⟨.ok, haz, r.data, 0#8, 0#8, r.vals⟩

/-- The response of a failure (R260): `DATA` is 0 except for `INCONSISTENT`, `EXP` and `OBS` are 0 except for
`ADDR_MISMATCH`. -/
def Failure.response (f : Failure) (haz : BitVec 2) : Response :=
  match f with
  | .ioFail => ⟨.ioFail, haz, 0#8, 0#8, 0#8, []⟩
  | .addrMismatch exp obs => ⟨.addrMismatch, haz, 0#8, exp, obs, []⟩
  | .inconsistent st0 st1 => ⟨.inconsistent, haz, inconsistentData st0 st1, 0#8, 0#8, []⟩
  | .badIndex => ⟨.badIndex, haz, 0#8, 0#8, 0#8, []⟩
  | .badLabel => ⟨.badLabel, haz, 0#8, 0#8, 0#8, []⟩
  | .illegal => ⟨.illegal, haz, 0#8, 0#8, 0#8, []⟩

/-- The end of a unit that does not end its command: only the bus is released (R287). -/
def State.release (s : State) : State := { s with busOwner := none }

/-- The end of a command of `q` (R287, 10_state.md R36): the `end` event, `RSP[q]`, nothing pending or in progress, and
the bus released. -/
def State.deliver (s : State) (q : Nat) (r : Response) : State :=
  ((s.event (.endCmd q r)).setReq q
    { s.req q with pending := none, rsp := some r, sweep := none, rmw := none }).release

/-- Raising a failure (R260), the one operation by which every command fails: the response with its status, and the bus
released. There is no trap, no saved state and no return from it (R271, R272). -/
def State.raise (s : State) (q : Nat) (f : Failure) : State := s.deliver q (f.response s.haz)

/-- The state after a whole command of `q`. -/
def State.finish (q : Nat) : EStateM.Result Failure State Reply → State
  | .ok r t => t.deliver q (r.response t.haz)
  | .error f t => t.raise q f

/-- One locked unit that is a whole command of the bus owner (R286, R287). -/
def wholeCommand (m : Run Reply) (s : State) : Host.Outcome State Fault Refusal :=
  match s.busOwner with
  | none => .fault .noGrant
  | some q => .next (.finish q (m s))

end Sys2Proof.Machine
end

