-- ==== Sys2Proof/Machine/Operands.lean ====
section
/-! DEFINITION. The operand checks, which touch no line: CheckGroup (41_latch_protocol.md R128), CheckDev
(42_switch_state.md R175), ResolveOff (R172) and CheckMon (43_monitor_mux.md R220). Each raises `BAD_INDEX`. -/

namespace Sys2Proof.Machine

/-- A looked-up value, or `BAD_INDEX`. -/
def orBadIndex {α : Type} (o : Option α) : Run α := fun s =>
  match o with
  | some a => .ok a s
  | none => .error .badIndex s

/-- `CheckGroup(dm, lg)` (41_latch_protocol.md R128). -/
def checkGroup (g : Group) : Run Unit := fun s =>
  if s.cfg.validGroup g then .ok () s else .error .badIndex s

/-- `CheckDev(dev)` and the table entry (42_switch_state.md R175). -/
def checkDev (dev : Nat) : Run Device := fun s => orBadIndex (s.cfg.device dev) s

/-- `ResolveOff(off, band, chain)` (42_switch_state.md R172). -/
def resolveOff (off : Off) (band chain : Nat) : Run Nat := fun s =>
  orBadIndex (s.cfg.resolveOff off band chain) s

/-- `CheckMon(i)` and the table entry (43_monitor_mux.md R220). -/
def checkMon (i : Nat) : Run MonEntry := fun s => orBadIndex (s.cfg.monEntry i) s

end Sys2Proof.Machine
end

