-- ==== Sys2Proof/Machine/Bus.lean ====
section
/-! DEFINITION. Latch transactions (41_latch_protocol.md R126 to R132, R140 to R143): the only way a command reaches a
latch group. -/

namespace Sys2Proof.Machine

/-- Drive some address lines, in the order listed, with their bits of `v`. -/
def driveAddrLines (v : Byte) : List (Fin 8) → Run Unit
  | [] => pure ()
  | i :: is => do
    drive (.a i) (v.getLsbD i)
    driveAddrLines v is

/-- `DriveAddr(v)` (R126): `A7` first; if a drive fails every address line is unknown. -/
def driveAddr (a : Nat) : Run Unit := do
  onFailure State.loseAddr (driveAddrLines (BitVec.ofNat 8 a) [7, 6, 5, 4, 3, 2, 1, 0])
  settle

/-- `StartTransaction()` (R129): whether the start is dirty; a dirty start sets `HAZ[0]` and makes every latch content
unknown. -/
def startTransaction : Run Bool := fun s =>
  if s.lines.clean then .ok false s else .ok true ((s.setHaz hazDirty).forgetAll)

/-- An address mismatch (R132, R143): logged with both addresses, then raised. -/
def mismatch (sent : Nat) (rb : Byte) : Run Unit := fun s =>
  .error (.addrMismatch (BitVec.ofNat 8 sent) rb) (s.record (.addr (BitVec.ofNat 8 sent) rb))

/-- The address verification: the readback must be one of the accepted addresses (R132, R143). -/
def verify (sent : Nat) (accepted : List Nat) : Run Unit := do
  let rb ← readPort
  if accepted.contains rb.toNat then pure () else mismatch sent rb

/-- Clock one bit out: `Drive(DIN, v); Drive(CLK, 0); Drive(CLK, 1); Settle()` (R130 step 4). -/
def writeBit (v : Bool) : Run Unit := do
  drive .din v
  drive .clk false
  drive .clk true
  settle

/-- Clock bits out, first one first. -/
def writeBits : List Bool → Run Unit
  | [] => pure ()
  | v :: vs => do
    writeBit v
    writeBits vs

/-- Steps 3 to 5 of a write: enable, eight bits, disable (R130). -/
def sendByte (b : Byte) : Run Unit := do
  drive .busen false
  settle
  writeBits (Byte.msbFirst b)
  drive .busen true
  settle

/-- After a dirty start the written group's outputs are unknown (R130, R131). -/
def forgetOutIf (dirty : Bool) (w : Nat) : Run Unit := fun s =>
  .ok () (if dirty then s.setOut w .unknown else s)

/-- The write address of a group, from the configuration. -/
def writeAddrOf (g : Group) : Run Nat := fun s => .ok (s.cfg.writeAddr g) s

/-- `LatchWrite(dm, lg, b)` (R130, R131). -/
def latchWrite (g : Group) (b : Byte) : Run Unit := do
  checkGroup g
  let w ← writeAddrOf g
  let dirty ← startTransaction
  driveAddr w
  verify w [w]
  onFailure (fun s => s.forget w) (sendByte b)
  forgetOutIf dirty w

/-- A load-strobe pulse with bus-enable not deselected is a hazard (R141). -/
def checkLoadHazard : Run Unit := fun s =>
  .ok () (if s.lines.busen = .hi then s else s.setHaz hazLoaden)

/-- Receive `n + 1` bits, first one first, with a clock pulse between bits and none after the last (R140 step 4). -/
def readBits : Nat → Run (List Bool)
  | 0 => do
    let v ← readIn
    pure [v]
  | n + 1 => do
    let v ← readIn
    drive .clk false
    drive .clk true
    settle
    let vs ← readBits n
    pure (v :: vs)

/-- Steps 3 to 6 of a read: capture, select, eight bits, disable (R140). -/
def receiveByte : Run Byte := do
  drive .load false
  drive .load true
  settle
  drive .busen false
  settle
  let bits ← readBits 7
  drive .busen true
  settle
  pure (Byte.ofMsbFirst bits)

/-- After a dirty start the byte read is a draw (R140, R141). -/
def drawIf (dirty : Bool) (v : Byte) : Run Byte := fun s =>
  if dirty then .ok s.readByteDraw.1 s.readByteDraw.2 else .ok v s

/-- `LatchRead(dm, lg)` (R140 to R143). -/
def latchRead (g : Group) : Run Byte := do
  checkGroup g
  let w ← writeAddrOf g
  let dirty ← startTransaction
  driveAddr (w + 4)
  verify (w + 4) [w + 4, w]
  checkLoadHazard
  let v ← receiveByte
  drawIf dirty v

end Sys2Proof.Machine
end

