-- ==== Sys2Proof/Machine/Latch.lean ====
section
/-! DEFINITION. The latch commands LG_ADDR (41_latch_protocol.md R133), LG_WRITE (R130) and LG_READ (R140). -/

namespace Sys2Proof.Machine

/-- The body of `LG_ADDR`: the index check, then the group's address; no pin primitive (R133). -/
def lgAddr (g : Group) (rd : Bool) : Run Reply := do
  checkGroup g
  fun s => .ok ⟨BitVec.ofNat 8 (s.cfg.groupAddr g rd), []⟩ s

/-- `LG_ADDR dm, lg, rd` (R133). -/
def execLgAddr (dm lg : Nat) (rd : Bool) (s : State) : Host.Outcome State Fault Refusal :=
  wholeCommand (lgAddr ⟨dm, lg⟩ rd) s

/-- The body of `LG_WRITE`: on success the response is `(OK, DATA = 0)` (R130). -/
def lgWrite (g : Group) (b : Byte) : Run Reply := do
  latchWrite g b
  pure ⟨0#8, []⟩

/-- `LG_WRITE dm, lg, byte` (R130 to R132). -/
def execLgWrite (dm lg : Nat) (b : Byte) (s : State) : Host.Outcome State Fault Refusal :=
  wholeCommand (lgWrite ⟨dm, lg⟩ b) s

/-- The body of `LG_READ`: on success the response is `(OK, DATA = v)` (R140). -/
def lgRead (g : Group) : Run Reply := do
  let v ← latchRead g
  pure ⟨v, []⟩

/-- `LG_READ dm, lg` (R140 to R143). -/
def execLgRead (dm lg : Nat) (s : State) : Host.Outcome State Fault Refusal :=
  wholeCommand (lgRead ⟨dm, lg⟩) s

end Sys2Proof.Machine
end

