-- ==== Sys2Proof/Machine/Monitor.lean ====
section
/-! DEFINITION. The analog-monitor multiplexer: MON_SELECT (43_monitor_mux.md R221), MON_READ (R223), MON_CONVERT (R225)
and MON_SWEEP (R230 to R232, R236). -/

namespace Sys2Proof.Machine

/-- The two select writes of a monitor point, sub-bank A then B, whole bytes with no read first (R221). -/
def selectEntry (e : MonEntry) : Run Unit := do
  latchWrite e.selA.grp e.selA.val
  latchWrite e.selB.grp e.selB.val

/-- The body of `MON_SELECT` (R221). -/
def monSelect (i : Nat) : Run Reply := do
  let e ← checkMon i
  selectEntry e
  pure ⟨0#8, []⟩

/-- `MON_SELECT idx` (R221). -/
def execMonSelect (i : Nat) (s : State) : Host.Outcome State Fault Refusal :=
  wholeCommand (monSelect i) s

/-- Read every output's channel, in table order (R223). -/
def readOuts : List MonOut → Run (List (MonOut × Volts))
  | [] => pure []
  | o :: os => do
    let v ← readAnalog o.ch
    let vs ← readOuts os
    pure ((o, v) :: vs)

/-- `MonRead(i)` (R223): select, then read; each value with the output it belongs to. -/
def monReadings (i : Nat) : Run (List (MonOut × Volts)) := do
  let e ← checkMon i
  selectEntry e
  readOuts e.outs

/-- The body of `MON_READ`: `VALS` is the list of `(channel, Volts)` (R223). -/
def monRead (i : Nat) : Run Reply := do
  let vals ← monReadings i
  pure ⟨0#8, vals.map fun p => .reading p.1.ch p.2⟩

/-- `MON_READ idx` (R223). -/
def execMonRead (i : Nat) (s : State) : Host.Outcome State Fault Refusal :=
  wholeCommand (monRead i) s

/-- The category a code names (30_encoding.md R98); codes 4 to 15 name none. -/
def categoryOf : Nat → Option Category
  | 0 => some .current
  | 1 => some .vlow
  | 2 => some .vhigh
  | 3 => some .temp
  | _ => none

/-- `Convert(cat, r)` (R224). -/
def convert (c : Config) (cat : Category) (r : Volts) : Volts :=
  match cat with
  | .current => Config.vsub r Config.iOff
  | .vlow => Config.vmul r c.kVlow
  | .vhigh => Config.vmul r Config.kVhigh
  | .temp => Config.vmul (Config.vsub r c.tOff) c.tScale

/-- `MonConvert(cat, raw)` (R225): no pin primitive; a code that names no category is logged and raised. -/
def monConvert (cat : Nat) (raw : Volts) : Run Reply := fun s =>
  match categoryOf cat with
  | some k => .ok ⟨0#8, [.converted (convert s.cfg k raw)]⟩ s
  | none => .error .badLabel (s.record (.label cat))

/-- `MON_CONVERT cat, raw` (R225). -/
def execMonConvert (cat : Nat) (raw : Volts) (s : State) : Host.Outcome State Fault Refusal :=
  wholeCommand (monConvert cat raw) s

/-- The labelled, converted values of a point: outputs with an empty label add nothing (R231). -/
def labelledValues (c : Config) (vals : List (MonOut × Volts)) : List (Label × Volts) :=
  (vals.filter fun p => !p.1.label.isEmpty).map fun p => (p.1.label, convert c p.1.cat p.2)

/-- `SWEEP[q]` as the grant of the command sets it (R230). -/
def Sweep.start : Sweep := ⟨1, [], false⟩

/-- `SweepPoint` (R231): a failed point contributes nothing and never stops the sweep. -/
def sweepPoint (p : Sweep) (s : State) : Sweep × State :=
  match monReadings p.next s with
  | .ok vals t => (⟨p.next + 1, p.acc ++ labelledValues s.cfg vals, p.failed⟩, t)
  | .error _ t => (⟨p.next + 1, p.acc, true⟩, t)

/-- The response at the end of a sweep (R232). -/
def Sweep.response (p : Sweep) (haz : BitVec 2) : Response where
  status := if p.failed then .partialSweep else .ok
  haz := haz
  data := 0#8
  exp := 0#8
  obs := 0#8
  vals := p.acc.map fun e => .labelled e.1 e.2

/-- The state after one point: the progress is kept and the bus released (R231, R236). -/
def State.finishPoint (q : Nat) (r : Sweep × State) : State :=
  (r.2.setReq q { r.2.req q with sweep := some r.1 }).release

/-- `MON_SWEEP` (R230, R236): the grant that starts it runs point 1; each later grant runs the next point or, after
point `N_MON`, the end (log 8). -/
def execMonSweep (s : State) : Host.Outcome State Fault Refusal :=
  match s.busOwner with
  | none => .fault .noGrant
  | some q =>
    let p := (s.req q).sweep.getD .start
    if p.next ≤ Config.nMon then .next (.finishPoint q (sweepPoint p s))
    else .next (s.deliver q (p.response s.haz))

end Sys2Proof.Machine
end

