-- ==== Sys2Proof/Machine/Switch.lean ====
section
/-! DEFINITION. The switch-state decoder: SW_GET (42_switch_state.md R180, R181) and SW_SET (R190 to R194), as one unit
or, with `RMW_ATOMIC = false`, one transaction a unit (R193). -/

namespace Sys2Proof.Machine

/-- Resolve the readback offset of every sub-switch, before any bus use (R180). -/
def resolveReadback (band chain : Nat) : List SubSwitch → Run (List Nat)
  | [] => pure []
  | s :: ss => do
    let o ← resolveOff s.rbOff band chain
    let os ← resolveReadback band chain ss
    pure (o :: os)

/-- Resolve the control offset of every sub-switch, checking its readback offset with it (R190). -/
def resolveControl (band chain : Nat) : List SubSwitch → Run (List Nat)
  | [] => pure []
  | s :: ss => do
    let c ← resolveOff s.ctlOff band chain
    let _ ← resolveOff s.rbOff band chain
    let cs ← resolveControl band chain ss
    pure (c :: cs)

/-- Read one sub-switch's logical state from its readback bit (R180, R174). -/
def readSub (s : SubSwitch) (o : Nat) : Run Bool := do
  let v ← latchRead s.rbGrp
  pure (bitState v o s.pol)

/-- Read every sub-switch, sub 0 first, each with its own transaction (R180). -/
def readSubs : List (SubSwitch × Nat) → Run (List Bool)
  | [] => pure []
  | (s, o) :: rest => do
    let st ← readSub s o
    let sts ← readSubs rest
    pure (st :: sts)

/-- Two sub-switches disagree (R181): logged, then raised with both states. -/
def disagree (dev : Nat) (st0 st1 : Bool) : Run Reply := fun s =>
  .error (.inconsistent st0 st1) (s.record (.inconsistent dev st0 st1))

/-- The reply that reports a logical state. -/
def Reply.ofState (st : Bool) : Reply := ⟨BitVec.ofNat 8 st.toNat, []⟩

/-- What a device's readback states say (R180, R181). A well-formed device has one or two subs, so the last case is
empty (10_state.md R45 item 5). -/
def agree (dev : Nat) : List Bool → Run Reply
  | [st] => pure (.ofState st)
  | [st0, st1] => if st0 = st1 then pure (.ofState st0) else disagree dev st0 st1
  | _ => fun s => .error .badIndex s

/-- `SwGet(dev, band, chain)` (R180). -/
def swGet (dev band chain : Nat) : Run Reply := do
  let d ← checkDev dev
  let os ← resolveReadback band chain d.subs
  let sts ← readSubs (d.subs.zip os)
  agree dev sts

/-- `SW_GET dev, band, chain` (R180, R181). -/
def execSwGet (dev band chain : Nat) (s : State) : Host.Outcome State Fault Refusal :=
  wholeCommand (swGet dev band chain) s

/-- The byte written back to a sub-switch's control group: the byte read with one bit changed (R190, R191). -/
def newControl (cur : Byte) (c : Nat) (p : Polarity) (st : Bool) : Byte := withBit cur c (p.level st)

/-- Read, modify and write back every sub-switch's control byte, sub 0 first (R190). -/
def writeSubs (st : Bool) : List (SubSwitch × Nat) → Run Unit
  | [] => pure ()
  | (s, c) :: rest => do
    let cur ← latchRead s.ctlGrp
    latchWrite s.ctlGrp (newControl cur c s.pol st)
    writeSubs st rest

/-- `SwSet(dev, band, chain, st)` as one unit (R190, R192). -/
def swSet (dev band chain : Nat) (st : Bool) : Run Reply := do
  let d ← checkDev dev
  let cs ← resolveControl band chain d.subs
  writeSubs st (d.subs.zip cs)
  swGet dev band chain

/-- What one unit of a non-atomic `SW_SET` leaves: a place to go on from, or the command's reply (R193, R287). -/
inductive SwSetStep where
  | more (next : RmwPlace)
  | done (r : Reply)
deriving DecidableEq, Repr

/-- One unit of a non-atomic `SW_SET`: the checks, and the one transaction at `place` (R193; log 9). -/
def swSetUnit (dev band chain : Nat) (st : Bool) (place : RmwPlace) : Run SwSetStep := do
  let d ← checkDev dev
  let cs ← resolveControl band chain d.subs
  match place with
  | .read j => do
    let s ← orBadIndex d.subs[j]?
    let cur ← latchRead s.ctlGrp
    pure (.more (.write j cur))
  | .write j cur => do
    let s ← orBadIndex d.subs[j]?
    let c ← orBadIndex cs[j]?
    latchWrite s.ctlGrp (newControl cur c s.pol st)
    pure (.more (if j + 1 < d.subs.length then .read (j + 1) else .confirm 0 []))
  | .confirm j sts => do
    let s ← orBadIndex d.subs[j]?
    let o ← resolveOff s.rbOff band chain
    let v ← readSub s o
    if j + 1 < d.subs.length then pure (.more (.confirm (j + 1) (sts ++ [v])))
    else do
      let r ← agree dev (sts ++ [v])
      pure (.done r)

/-- The state after one unit of a non-atomic `SW_SET` of `q` (R287). -/
def State.finishSwSetUnit (q : Nat) : EStateM.Result Failure State SwSetStep → State
  | .ok (.more p) t => (t.setReq q { t.req q with rmw := some p }).release
  | .ok (.done r) t => t.deliver q (r.response t.haz)
  | .error f t => t.raise q f

/-- The unit of a non-atomic `SW_SET` that the bus owner is at; a new command begins by reading sub 0 (log 9). -/
def swSetNextUnit (dev band chain : Nat) (st : Bool) (s : State) : Host.Outcome State Fault Refusal :=
  match s.busOwner with
  | none => .fault .noGrant
  | some q => .next (.finishSwSetUnit q (swSetUnit dev band chain st ((s.req q).rmw.getD (.read 0)) s))

/-- `SW_SET dev, band, chain, state` (R190 to R194). -/
def execSwSet (dev band chain : Nat) (st : Bool) (s : State) : Host.Outcome State Fault Refusal :=
  if s.cfg.rmwAtomic then wholeCommand (swSet dev band chain st) s
  else swSetNextUnit dev band chain st s

end Sys2Proof.Machine
end

