-- ==== Sys2Proof/Machine/Dispatch.lean ====
section
/-! DEFINITION. One arm per command, each one call of its meaning. A meaning is one locked unit of the bus owner
(60_exceptions.md R286). -/

namespace Sys2Proof.Machine

def exec (i : Instr) (s : State) : Host.Outcome State Fault Refusal :=
  match i with
  | .lgAddr dm lg rd => Sys2Proof.Machine.execLgAddr dm lg rd s
  | .lgWrite dm lg b => Sys2Proof.Machine.execLgWrite dm lg b s
  | .lgRead dm lg => Sys2Proof.Machine.execLgRead dm lg s
  | .swGet dev band chain => Sys2Proof.Machine.execSwGet dev band chain s
  | .swSet dev band chain st => Sys2Proof.Machine.execSwSet dev band chain st s
  | .monSelect idx => Sys2Proof.Machine.execMonSelect idx s
  | .monRead idx => Sys2Proof.Machine.execMonRead idx s
  | .monConvert cat raw => Sys2Proof.Machine.execMonConvert cat raw s
  | .monSweep => Sys2Proof.Machine.execMonSweep s

end Sys2Proof.Machine
end

