-- ==== Sys2Proof/WellFormed.lean ====
section
/-! DEFINITION. Well-formed configurations (10_state.md R45, one check per item, with the parameter range of
00_scope.md R7 before them) and well-formed instructions (every field fits its field of 30_encoding.md R92 to R95). -/

namespace Sys2Proof

/-- No element occurs twice. -/
def distinct {α : Type} [DecidableEq α] : List α → Bool
  | [] => true
  | a :: as => !as.contains a && distinct as

/-- R7: `NREQ ≥ 1`. -/
def Config.requestersOk (c : Config) : Bool := decide (1 ≤ c.nreq)

/-- R45 item 1: `NDM` and `BASE` agree with `FAMILY`; on F8, `MB2` is 16 or 160. -/
def Config.familyOk (c : Config) : Bool :=
  match c.family with
  | .f80 => c.ndm == 1 && c.base == 80
  | .f8 => c.ndm == 2 && c.base == 8 && (c.mb2 == some 16 || c.mb2 == some 160)

/-- R45 item 2: addresses in 0..255 and without duplicates. -/
def Config.addressesOk (c : Config) : Bool :=
  let all := c.writeAddrs ++ c.readAddrs
  all.all (fun a => decide (a ≤ 255)) && distinct all

/-- Every sub-switch of the device table. -/
def Config.allSubs (c : Config) : List SubSwitch := c.devtab.flatMap Device.subs

/-- Every select write of the monitor table. -/
def Config.allSelects (c : Config) : List Select := c.montab.flatMap fun e => [e.selA, e.selB]

/-- R45 item 3: every group named in `DEVTAB` or `MONTAB` is valid. -/
def Config.groupsOk (c : Config) : Bool :=
  c.allSubs.all (fun s => c.validGroup s.ctlGrp && c.validGroup s.rbGrp) &&
    c.allSelects.all (fun s => c.validGroup s.grp)

/-- R45 item 4 for one offset. -/
def Config.offOk (c : Config) : Off → Bool
  | .fixed k => decide (k ≤ 7)
  | .banded t => decide (t < c.bandmap.length)

/-- R45 item 4: every `FIXED(k)` has `k ≤ 7` and every `BANDED(t)` names a band map. -/
def Config.offsetsOk (c : Config) : Bool :=
  c.allSubs.all fun s => c.offOk s.ctlOff && c.offOk s.rbOff

/-- R45 item 5 for one entry. -/
def Device.subsOk (d : Device) : Bool :=
  (d.subs.length == 1 || d.subs.length == 2) && (d.kind != .xover || d.subs.length == 2)

/-- R45 item 5: one or two subs; two for every `XOVER`. -/
def Config.devicesOk (c : Config) : Bool := c.devtab.all Device.subsOk

/-- R45 item 6: `ND ≤ 256` and exactly eight monitor points. -/
def Config.sizesOk (c : Config) : Bool :=
  decide (c.devtab.length ≤ 256) && c.montab.length == Config.nMon

/-- The select write of a sub-bank. -/
def MonEntry.select (e : MonEntry) : Bank → Select
  | .a => e.selA
  | .b => e.selB

/-- R45 item 7 for one entry: each channel is one of the two of its bank's select group (43_monitor_mux.md R222). -/
def MonEntry.channelsOk (e : MonEntry) : Bool :=
  e.outs.all fun o =>
    let lg := (e.select o.bank).grp.lg
    o.ch == 2 * (lg - 1) || o.ch == 2 * (lg - 1) + 1

/-- Every non-empty label of the monitor table, in table order. -/
def Config.labels (c : Config) : List Label :=
  (c.montab.flatMap fun e => e.outs.map MonOut.label).filter fun l => !l.isEmpty

/-- R45 item 7: channels follow the select groups, and no non-empty label occurs twice. -/
def Config.outputsOk (c : Config) : Bool := c.montab.all MonEntry.channelsOk && distinct c.labels

/-- R45 item 8: `T_SETTLE > 0`. -/
def Config.settleOk (c : Config) : Bool := decide (0 < c.tSettle)

/-- R45 item 9: no group is both a select group and a control group. -/
def Config.selectsOk (c : Config) : Bool :=
  c.allSelects.all fun s => c.allSubs.all fun d => s.grp != d.ctlGrp

/-- A configuration the controller may be started with (00_scope.md R8, 10_state.md R45). -/
def Config.wf (c : Config) : Bool :=
  c.requestersOk && c.familyOk && c.addressesOk && c.groupsOk && c.offsetsOk && c.devicesOk && c.sizesOk &&
    c.outputsOk && c.settleOk && c.selectsOk

/-- Every field fits its place in the command word (30_encoding.md R92 to R95). -/
def Instr.wf : Instr → Bool
  | .lgAddr dm lg _ => decide (dm < 16) && decide (lg < 16)
  | .lgWrite dm lg _ => decide (dm < 16) && decide (lg < 16)
  | .lgRead dm lg => decide (dm < 16) && decide (lg < 16)
  | .swGet dev band chain => decide (dev < 256) && decide (band < 256) && decide (chain < 2)
  | .swSet dev band chain _ => decide (dev < 256) && decide (band < 256) && decide (chain < 2)
  | .monSelect idx => decide (idx < 256)
  | .monRead idx => decide (idx < 256)
  | .monConvert cat _ => decide (cat < 16)
  | .monSweep => true

end Sys2Proof
end

