-- ==== Sys2Proof/Decode.lean ====
section
/-! DEFINITION. The decoder (30_encoding.md R90 to R101), total on every 32-bit word and rejecting by name, the
encoder written from the same rows, and the host's `decodeTableWord`. -/

namespace Sys2Proof

/-- Why a command is ILLEGAL (30_encoding.md R99). -/
inductive Reject where
  /-- `OPC` is 0x0 or in 0xA..0xF. -/
  | reservedOpcode
  /-- A bit that must be 0 for this opcode is 1. -/
  | reservedBits
  /-- `MON_CONVERT` without its `raw` operand (R96). -/
  | rawAbsent
  /-- A `raw` operand beside another command (R96). -/
  | rawPresent
deriving DecidableEq, Repr

/-- What a command decodes to: an instruction, or ILLEGAL for a reason. -/
inductive Decoded where
  | instr (i : Instr)
  | illegal (why : Reject)
deriving DecidableEq, Repr

/-- The mask and match of an opcode-table row. -/
structure Row where
  mask : Word
  pattern : Word
deriving DecidableEq, Repr

/-- `word & mask = match` (R99). -/
def Row.holds (r : Row) (w : Word) : Bool := w &&& r.mask == r.pattern

/-- Row `LG_ADDR`, encoding `0001ddddggggr0000000000000000000` (R92). -/
def Row.lgAddr : Row := ⟨0xF007FFFF#32, 0x10000000#32⟩

/-- Row `LG_WRITE`, encoding `0010ddddgggg000000000000bbbbbbbb` (R92). -/
def Row.lgWrite : Row := ⟨0xF00FFF00#32, 0x20000000#32⟩

/-- Row `LG_READ`, encoding `0011ddddgggg00000000000000000000` (R92). -/
def Row.lgRead : Row := ⟨0xF00FFFFF#32, 0x30000000#32⟩

/-- Row `SW_GET`, encoding `0100vvvvvvvvc000nnnnnnnn00000000` (R93). -/
def Row.swGet : Row := ⟨0xF00700FF#32, 0x40000000#32⟩

/-- Row `SW_SET`, encoding `0101vvvvvvvvc00snnnnnnnn00000000` (R93). -/
def Row.swSet : Row := ⟨0xF00600FF#32, 0x50000000#32⟩

/-- Row `MON_SELECT`, encoding `011000000000000000000000iiiiiiii` (R94). -/
def Row.monSelect : Row := ⟨0xFFFFFF00#32, 0x60000000#32⟩

/-- Row `MON_READ`, encoding `011100000000000000000000iiiiiiii` (R94). -/
def Row.monRead : Row := ⟨0xFFFFFF00#32, 0x70000000#32⟩

/-- Row `MON_CONVERT`, encoding `10000000000000000000kkkk00000000` (R94). -/
def Row.monConvert : Row := ⟨0xFFFFF0FF#32, 0x80000000#32⟩

/-- Row `MON_SWEEP`, the single word `0x90000000` (R95). -/
def Row.monSweep : Row := ⟨0xFFFFFFFF#32, 0x90000000#32⟩

/-- The opcode table's nine rows. -/
def Row.all : List Row :=
  [.lgAddr, .lgWrite, .lgRead, .swGet, .swSet, .monSelect, .monRead, .monConvert, .monSweep]

/-- The row an instruction is encoded by. -/
def Instr.row : Instr → Row
  | .lgAddr _ _ _ => .lgAddr
  | .lgWrite _ _ _ => .lgWrite
  | .lgRead _ _ => .lgRead
  | .swGet _ _ _ => .swGet
  | .swSet _ _ _ _ => .swSet
  | .monSelect _ => .monSelect
  | .monRead _ => .monRead
  | .monConvert _ _ => .monConvert
  | .monSweep => .monSweep

/-! Fields of the command word, unsigned (R97). -/

/-- `OPC`, bits 31..28. -/
def Word.opc (w : Word) : Nat := (w.extractLsb' 28 4).toNat
/-- `DM`, bits 27..24. -/
def Word.dm (w : Word) : Nat := (w.extractLsb' 24 4).toNat
/-- `LG`, bits 23..20. -/
def Word.lg (w : Word) : Nat := (w.extractLsb' 20 4).toNat
/-- `RD`, bit 19. -/
def Word.rd (w : Word) : Bool := w.getLsbD 19
/-- `DATA`, bits 7..0. -/
def Word.data (w : Word) : Byte := w.extractLsb' 0 8
/-- `DEV`, bits 27..20. -/
def Word.dev (w : Word) : Nat := (w.extractLsb' 20 8).toNat
/-- `CHAIN`, bit 19. -/
def Word.chain (w : Word) : Nat := (w.extractLsb' 19 1).toNat
/-- `STATE`, bit 16. -/
def Word.st (w : Word) : Bool := w.getLsbD 16
/-- `BAND`, bits 15..8. -/
def Word.band (w : Word) : Nat := (w.extractLsb' 8 8).toNat
/-- `IDX`, bits 7..0. -/
def Word.idx (w : Word) : Nat := (w.extractLsb' 0 8).toNat
/-- `CAT`, bits 11..8. -/
def Word.cat (w : Word) : Nat := (w.extractLsb' 8 4).toNat

/-- A command that takes no `raw` operand: its row's bits, then the absence of `raw` (R96, R99). -/
def decodePlain (r : Row) (c : Command) (i : Instr) : Decoded :=
  if r.holds c.word then
    match c.raw with
    | none => .instr i
    | some _ => .illegal .rawPresent
  else .illegal .reservedBits

/-- `MON_CONVERT`: its row's bits, then the presence of `raw` (R96, R99). -/
def decodeConvert (c : Command) : Decoded :=
  if Row.monConvert.holds c.word then
    match c.raw with
    | some v => .instr (.monConvert (Word.cat c.word) v)
    | none => .illegal .rawAbsent
  else .illegal .reservedBits

/-- The decoder (R91, R99, R101): `OPC` alone picks the row. -/
def decode (c : Command) : Decoded :=
  let w := c.word
  match Word.opc w with
  | 1 => decodePlain .lgAddr c (.lgAddr (Word.dm w) (Word.lg w) (Word.rd w))
  | 2 => decodePlain .lgWrite c (.lgWrite (Word.dm w) (Word.lg w) (Word.data w))
  | 3 => decodePlain .lgRead c (.lgRead (Word.dm w) (Word.lg w))
  | 4 => decodePlain .swGet c (.swGet (Word.dev w) (Word.band w) (Word.chain w))
  | 5 => decodePlain .swSet c (.swSet (Word.dev w) (Word.band w) (Word.chain w) (Word.st w))
  | 6 => decodePlain .monSelect c (.monSelect (Word.idx w))
  | 7 => decodePlain .monRead c (.monRead (Word.idx w))
  | 8 => decodeConvert c
  | 9 => decodePlain .monSweep c .monSweep
  | _ => .illegal .reservedOpcode

/-! The encoder, from the encoding strings of R92 to R95, first field leftmost (bit 31). -/

/-- The command word of an instruction. -/
def Instr.word : Instr → Word
  | .lgAddr dm lg rd => 1#4 ++ BitVec.ofNat 4 dm ++ BitVec.ofNat 4 lg ++ BitVec.ofBool rd ++ 0#19
  | .lgWrite dm lg b => 2#4 ++ BitVec.ofNat 4 dm ++ BitVec.ofNat 4 lg ++ 0#12 ++ b
  | .lgRead dm lg => 3#4 ++ BitVec.ofNat 4 dm ++ BitVec.ofNat 4 lg ++ 0#20
  | .swGet dev band chain =>
    4#4 ++ BitVec.ofNat 8 dev ++ BitVec.ofNat 1 chain ++ 0#3 ++ BitVec.ofNat 8 band ++ 0#8
  | .swSet dev band chain st =>
    5#4 ++ BitVec.ofNat 8 dev ++ BitVec.ofNat 1 chain ++ 0#2 ++ BitVec.ofBool st ++ BitVec.ofNat 8 band ++ 0#8
  | .monSelect idx => 6#4 ++ 0#20 ++ BitVec.ofNat 8 idx
  | .monRead idx => 7#4 ++ 0#20 ++ BitVec.ofNat 8 idx
  | .monConvert cat _ => 8#4 ++ 0#16 ++ BitVec.ofNat 4 cat ++ 0#8
  | .monSweep => 9#4 ++ 0#28

/-- The `raw` operand an instruction carries (R96). -/
def Instr.raw? : Instr → Option Volts
  | .monConvert _ v => some v
  | _ => none

/-- The command that encodes an instruction. -/
def encode (i : Instr) : Command := ⟨i.word, i.raw?⟩

/-- A word of the table as a command: a `MON_CONVERT` word, whose `raw` operand the table's bits do not hold, is
given the reading 0 as its side operand, every other word none (log 6). -/
def tableCommand (w : Word) : Command :=
  ⟨w, if Word.opc w = 8 then some ⟨0⟩ else none⟩

/-- The host's question: what the decoder reads from a command whose bits are `w`. A command is one 32-bit word and
has no byte order (20_memory.md R71), so bit 0 of `w` is bit 0 of the word. -/
def decodeTableWord (nbits w : Nat) : Option Instr :=
  if nbits ≤ 32 then
    match decode (tableCommand (BitVec.ofNat 32 (w % 2 ^ nbits))) with
    | .instr i => some i
    | .illegal _ => none
  else none

end Sys2Proof
end

