-- ==== Sys2Proof/Machine/Scheduler.lean ====
section
/-! DEFINITION. The scheduler that serializes the requesters (60_exceptions.md R285 to R288): which agents can move, the
free choice among them, submitting, granting, and what a granted unit runs. -/

namespace Sys2Proof.Machine

/-- A move of one agent: a requester submits its next command (R285), or the controller grants a requester and runs one
locked unit for it (R286). -/
inductive Move where
  | submit (q : Nat)
  | grant (q : Nat)
deriving DecidableEq, Repr

/-- `q` may submit: nothing pending, no sweep in progress (R285). -/
def State.canSubmit (s : State) (q : Nat) : Bool := (s.req q).pending.isNone && (s.req q).sweep.isNone

/-- `q` is waiting: a command pending or a sweep in progress (R286). -/
def State.waiting (s : State) (q : Nat) : Bool := (s.req q).pending.isSome || (s.req q).sweep.isSome

/-- The controller may grant `q`: nobody owns the bus and `q` is waiting (R286). -/
def State.canGrant (s : State) (q : Nat) : Bool := s.busOwner.isNone && s.waiting q

/-- The requesters `0 .. NREQ-1`. -/
def State.requesters (s : State) : List Nat := List.range s.reqs.length

/-- Every move some agent can make, grants first. -/
def State.moves (s : State) : List Move :=
  (s.requesters.filter s.canGrant).map .grant ++ (s.requesters.filter s.canSubmit).map .submit

/-- The move that happens next, as a draw: any enabled one (R286: "the model admits every choice"), or none of them, since
a requester and the controller each "may" move and a waiting requester may starve (R288; log 7). -/
def State.chooseMove (s : State) : Option Move × State :=
  (s.moves[s.choiceDraw.1 % (s.moves.length + 1)]?, s.choiceDraw.2)

/-- Submit (R285): the requester's next command becomes its pending command, and after its last one any command, as a
draw (log 6). -/
def State.submit (s : State) (q : Nat) : State :=
  match (s.req q).toSubmit with
  | [] => s.countDraw.setReq q
    { s.req q with pending := some ⟨Config.freeWord s.env.drawn, Config.freeRaw s.env.drawn⟩ }
  | c :: rest => s.setReq q { s.req q with pending := some c, toSubmit := rest }

/-- The `begin` event of a command (10_state.md R36), at its first unit only: not while a sweep or a non-atomic `SW_SET`
is in progress (log 8, log 9). -/
def State.beginCommand (s : State) (q : Nat) : State :=
  match (s.req q).pending, (s.req q).sweep, (s.req q).rmw with
  | some c, none, none => s.event (.beginCmd q c.word)
  | _, _, _ => s

/-- Grant (R286): `BUS_OWNER <- q`, and the command's `begin` event at its first unit. -/
def State.grant (s : State) (q : Nat) : State := { s with busOwner := some q }.beginCommand q

/-- What a unit granted to `q` runs (R286): the next part of a sweep in progress, else the pending command, decoded. -/
def State.fetch (s : State) (q : Nat) : Option Decoded :=
  if (s.req q).sweep.isSome then some (.instr .monSweep)
  else (s.req q).pending.map decode

/-- Put a table word where the controller takes its next command: pending for requester 0, nothing of an earlier command
in progress, the bus free, and the grant of requester 0 (the first enabled move) the next scripted choice (log 6). -/
def State.place (s : State) (w : Word) : State :=
  { s.setReq 0 { s.req 0 with pending := some (tableCommand w), sweep := none, rmw := none } with
    busOwner := none
    env := { s.env with sched := 0 :: s.env.sched } }

end Sys2Proof.Machine
end

