-- ==== Sys2Proof/Machine/Units.lean ====
section
/-! DEFINITION. The locked units (60_exceptions.md R286): what a granted requester runs, and what a move does. -/

namespace Sys2Proof.Machine

/-- Run one locked unit for `q`, which owns the bus: a command that does not decode is ILLEGAL (30_encoding.md R99,
60_exceptions.md R268), any other runs its meaning. With nothing to run the bus is released. -/
def runUnit (q : Nat) (s : State) : Host.Outcome State Fault Refusal :=
  match s.fetch q with
  | none => .next s.release
  | some (.illegal _) => .next (s.raise q .illegal)
  | some (.instr i) => exec i s

/-- One move. -/
def runMove (m : Move) (s : State) : Host.Outcome State Fault Refusal :=
  match m with
  | .submit q => .next (s.submit q)
  | .grant q => runUnit q (s.grant q)

end Sys2Proof.Machine
end

