-- ==== Sys2Proof/Machine/Step.lean ====
section
/-! DEFINITION. One step of the machine: one move of one agent (60_exceptions.md R285, R286), under a well-formed
configuration (00_scope.md R8). -/

namespace Sys2Proof.Machine

/-- One step: the chosen move, or an idle step, in which no pin primitive happens (10_state.md R47). An ill-formed
configuration has no run (00_scope.md R8). -/
def step (s : State) : Host.Outcome State Fault Refusal :=
  if s.cfg.wf then
    match s.chooseMove.1 with
    | none => .next s.chooseMove.2
    | some m => runMove m s.chooseMove.2
  else .refused .illFormedConfig

/-- The state in which the very next step runs the table word `w` (log 6). -/
def State.withFetchWord (s : State) (nbits w : Nat) : State := s.place (BitVec.ofNat 32 (w % 2 ^ nbits))

end Sys2Proof.Machine
end

