-- ==== Sys2Proof/Safety.lean ====
section
/-! DEFINITION. The terms claims are stated in: premises of a run (00_scope.md R14), what a unit leaves to its requester,
the events of a transaction, and the invariants that hold of every state between steps. -/

namespace Sys2Proof.Machine

/-! ## Premises -/

/-- A locked unit of `q` is running: `BUS_OWNER = q` and `q` is a requester (10_state.md R28). -/
def State.OwnedBy (s : State) (q : Nat) : Prop := s.busOwner = some q ∧ q < s.reqs.length

/-- `NoIOFail` and `HealthyBus` (00_scope.md R14). -/
def State.Healthy (s : State) : Prop := s.env.noIOFail = true ∧ s.env.healthyBus = true

/-- Premises P of 95_test_vectors.md: `NoIOFail`, `HealthyBus` and `Loopback`. -/
def State.Premises (s : State) : Prop := s.Healthy ∧ s.env.loopback = true

/-- The bus is clean (41_latch_protocol.md R129). -/
def State.Clean (s : State) : Prop := s.lines.clean = true

/-- A locked unit of `q` runs on a well-formed configuration and a canonical latch memory, every primitive succeeds and the
port shows the address driven. The bus may be clean or not. -/
def State.Running (s : State) (q : Nat) : Prop :=
  s.OwnedBy q ∧ s.cfg.wf = true ∧ s.latches.wf = true ∧ s.Healthy

/-- `State.Running` on a clean bus. -/
def State.Ready (s : State) (q : Nat) : Prop := s.Running q ∧ s.Clean

/-- `OUT[a]` is the known byte `b`. -/
def State.OutIs (s : State) (a : Nat) (b : Byte) : Prop := (s.latches.get a).out = .ofByte b

/-! ## What a unit leaves to its requester -/

/-- The command of `q` is answered with `r` (60_exceptions.md R287): nothing of it is pending or in progress, the bus is
free, and no other requester's record changed. -/
def Answered (s t : State) (q : Nat) (r : Response) : Prop :=
  t.req q = { s.req q with pending := none, rsp := some r, sweep := none, rmw := none } ∧
    (∀ p, p ≠ q → t.req p = s.req p) ∧ t.reqs.length = s.reqs.length ∧ t.busOwner = none

/-- The command of `q` goes on after this unit: its record is `r`, the bus is free, and no other requester's record
changed (60_exceptions.md R287). -/
def GoesOn (s t : State) (q : Nat) (r : Requester) : Prop :=
  t.req q = r ∧ (∀ p, p ≠ q → t.req p = s.req p) ∧ t.reqs.length = s.reqs.length ∧ t.busOwner = none

/-- The launch premises in force did not change. -/
def SamePremises (s t : State) : Prop :=
  t.env.noIOFail = s.env.noIOFail ∧ t.env.healthyBus = s.env.healthyBus ∧ t.env.loopback = s.env.loopback

/-- The response of a success with no data and no values. -/
def okResponse (haz : BitVec 2) (data : Byte) (vals : List Val) : Response := ⟨.ok, haz, data, 0#8, 0#8, vals⟩

/-- The response of a failure that carries no data. -/
def failResponse (st : Status) (haz : BitVec 2) : Response := ⟨st, haz, 0#8, 0#8, 0#8, []⟩

/-- The response to an address mismatch (60_exceptions.md R263). -/
def mismatchResponse (haz : BitVec 2) (sent : Nat) (rb : Byte) : Response :=
  ⟨.addrMismatch, haz, 0#8, BitVec.ofNat 8 sent, rb, []⟩

/-- The statuses a command may end with (60_exceptions.md R261, last column; R267). -/
def statusesOf : Instr → List Status
  | .lgAddr _ _ _ => [.ok, .badIndex]
  | .lgWrite _ _ _ => [.ok, .ioFail, .addrMismatch, .badIndex]
  | .lgRead _ _ => [.ok, .ioFail, .addrMismatch, .badIndex]
  | .swGet _ _ _ => [.ok, .ioFail, .addrMismatch, .inconsistent, .badIndex]
  | .swSet _ _ _ _ => [.ok, .ioFail, .addrMismatch, .inconsistent, .badIndex]
  | .monSelect _ => [.ok, .ioFail, .addrMismatch, .badIndex]
  | .monRead _ => [.ok, .ioFail, .addrMismatch, .badIndex]
  | .monConvert _ _ => [.ok, .badLabel]
  | .monSweep => [.ok, .partialSweep]

/-! ## What a device reports (42_switch_state.md R180, R181) -/

/-- The response to the states read from a device's sub-switches. -/
def stateReport (haz : BitVec 2) : List Bool → Response
  | [st] => okResponse haz (BitVec.ofNat 8 st.toNat) []
  | [st0, st1] =>
    if st0 = st1 then okResponse haz (BitVec.ofNat 8 st0.toNat) []
    else ⟨.inconsistent, haz, BitVec.ofNat 8 (st0.toNat + 2 * st1.toNat), 0#8, 0#8, []⟩
  | _ => failResponse .badIndex haz

/-- What is logged of them. -/
def stateLog (dev : Nat) : List Bool → List LogRec
  | [st0, st1] => if st0 = st1 then [] else [.inconsistent dev st0 st1]
  | _ => []

/-- The states of sub-switches whose readback bytes are these. -/
def subStates : List SubSwitch → List Nat → List Byte → List Bool
  | sub :: subs, o :: os, v :: vs => bitState v o sub.pol :: subStates subs os vs
  | _, _, _ => []

/-- The bytes that successive captures of the groups at these write addresses take, and the state after the draws. -/
def State.senses (s : State) : List Nat → List Byte × State
  | [] => ([], s)
  | w :: ws => ((s.sense w).1 :: ((s.sense w).2.senses ws).1, ((s.sense w).2.senses ws).2)

/-- The control bytes, by write address, after setting sub-switches one after the other (42_switch_state.md R190). -/
def bytesSet (c : Config) (st : Bool) : List (SubSwitch × Nat) → (Nat → Byte) → Nat → Byte
  | [], f => f
  | (sub, o) :: rest, f =>
    bytesSet c st rest fun a =>
      if a = c.writeAddr sub.ctlGrp then withBit (f a) o (sub.pol.level st) else f a

/-- Readings of successive analog channels, and the state after the draws (20_memory.md R70). -/
def State.voltsDraws (s : State) : Nat → List Volts × State
  | 0 => ([], s)
  | n + 1 => (s.voltsDraw.1 :: (s.voltsDraw.2.voltsDraws n).1, (s.voltsDraw.2.voltsDraws n).2)

/-! ## What a completed transaction leaves, whether it started clean or dirty -/

/-- The latch contents after a completed write of `b` to the group at `w`, from the contents `f` (41_latch_protocol.md
R129 to R131): after a dirty start every output of the board is unknown. -/
def wroteLatch (c : Config) (dirty : Bool) (w : Nat) (b : Byte) (f : Nat → Latch) (a : Nat) : Latch :=
  if a = w then ⟨if dirty then .unknown else .ofByte b, .ofByte b⟩
  else if dirty = true ∧ a ∈ c.writeAddrs then .unknown else f a

/-- The latch contents a transaction that starts now works on (41_latch_protocol.md R129). -/
def State.startLatch (s : State) (a : Nat) : Latch :=
  if s.lines.clean = false ∧ a ∈ s.cfg.writeAddrs then .unknown else s.latches.get a

/-- The hazard bits after a write that starts now (41_latch_protocol.md R129). -/
def State.hazAfterWrite (s : State) : BitVec 2 := if s.lines.clean then s.haz else s.haz ||| 0b01#2

/-- The hazard bits after a read that starts now (41_latch_protocol.md R129, R141). -/
def State.hazAfterRead (s : State) : BitVec 2 :=
  if s.lines.clean then s.haz else s.haz ||| (if s.lines.busen = .hi then 0b01#2 else 0b11#2)

/-- The lines after the select writes of a monitor point (43_monitor_mux.md R221): a write does not touch the
load-strobe. -/
def State.selectedLines (s : State) (e : MonEntry) : Lines :=
  ⟨.ofAddr (s.cfg.writeAddr e.selB.grp), .hi, .ofBool (e.selB.val.getLsbD 0), s.lines.load, .hi⟩

/-- The latch contents after the select writes of a monitor point (43_monitor_mux.md R221): sub-bank A, then sub-bank B,
whose write starts clean exactly when the load-strobe is 1. -/
def State.selectedLatch (s : State) (e : MonEntry) : Nat → Latch :=
  wroteLatch s.cfg (s.lines.load != .hi) (s.cfg.writeAddr e.selB.grp) e.selB.val
    (wroteLatch s.cfg (!s.lines.clean) (s.cfg.writeAddr e.selA.grp) e.selA.val s.latches.get)

/-- `SR` after a read of `v`: seven shifts with unknown levels entering (20_memory.md R64). -/
def srAfterRead (v : Byte) : LByte := ⟨.ofBool (v.getLsbD 0), .x, .x, .x, .x, .x, .x, .x⟩

/-- What a completed read of the group at `w` that returned `v` leaves (41_latch_protocol.md R129, R140 to R142): the byte
is `SENSE` of the group on a clean start and a draw on a dirty one. -/
def ReadLeaves (s t : State) (w : Nat) (v : Byte) : Prop :=
  t.lines = ⟨.ofAddr (w + 4), .hi, s.lines.din, .hi, .hi⟩ ∧ t.haz = s.hazAfterRead ∧ t.cfg = s.cfg ∧
    SamePremises s t ∧
    (∀ a, (t.latches.get a).out = (s.startLatch a).out) ∧ (∀ a, a ≠ w → t.latches.get a = s.startLatch a) ∧
    (s.Clean → v = (s.sense w).1 ∧ (t.latches.get w).sr = srAfterRead v ∧ t.env = (s.sense w).2.env) ∧
    (¬ s.Clean → ∀ x rest, s.env.readByte = x :: rest → v = x)

/-- A byte read shows these levels: it has every bit that is known (20_memory.md R66 under `Loopback`). -/
def Shows (v : Byte) (l : LByte) : Prop := ∀ (i : Fin 8) (b : Bool), l.get i = .ofBool b → v.getLsbD i = b

/-- The bytes written to a device's control groups, from the bytes read there (42_switch_state.md R190, R191). -/
def newBytes (st : Bool) : List SubSwitch → List Nat → List Byte → List Byte
  | sub :: subs, o :: os, v :: vs => withBit v o (sub.pol.level st) :: newBytes st subs os vs
  | _, _, _ => []

/-- The outputs after completed clean writes of these bytes at these addresses, one after the other. -/
def outsAfter : List (Nat × Byte) → (Nat → LByte) → Nat → LByte
  | [], f => f
  | (w, b) :: rest, f => outsAfter rest fun a => if a = w then .ofByte b else f a

/-! ## Which groups a command may change -/

/-- The sub-switches of a device of the table. -/
def subsOf (c : Config) (dev : Nat) : List SubSwitch := ((c.device dev).map Device.subs).getD []

/-- The write addresses of the two groups a monitor point selects through. -/
def selectsOf (c : Config) (i : Nat) : List Nat :=
  ((c.monEntry i).map fun e => [c.writeAddr e.selA.grp, c.writeAddr e.selB.grp]).getD []

/-- The write addresses of the groups a unit of the command may write; `point` is the sweep's point. -/
def writesOf (c : Config) (point : Nat) : Instr → List Nat
  | .lgAddr _ _ _ => []
  | .lgWrite dm lg _ => [c.writeAddr ⟨dm, lg⟩]
  | .lgRead _ _ => []
  | .swGet _ _ _ => []
  | .swSet dev _ _ _ => (subsOf c dev).map fun u => c.writeAddr u.ctlGrp
  | .monSelect idx => selectsOf c idx
  | .monRead idx => selectsOf c idx
  | .monConvert _ _ => []
  | .monSweep => selectsOf c point

/-- The write addresses of the groups a unit of the command may read. -/
def readsOf (c : Config) : Instr → List Nat
  | .lgAddr _ _ _ => []
  | .lgWrite _ _ _ => []
  | .lgRead dm lg => [c.writeAddr ⟨dm, lg⟩]
  | .swGet dev _ _ => (subsOf c dev).map fun u => c.writeAddr u.rbGrp
  | .swSet dev _ _ _ =>
    (subsOf c dev).map (fun u => c.writeAddr u.ctlGrp) ++ (subsOf c dev).map fun u => c.writeAddr u.rbGrp
  | .monSelect _ => []
  | .monRead _ => []
  | .monConvert _ _ => []
  | .monSweep => []

/-! ## The events of a transaction -/

/-- An event of a pin primitive, not a `begin` or `end` (10_state.md R36). -/
def Event.isPin : Event → Bool
  | .beginCmd _ _ => false
  | .endCmd _ _ => false
  | .drive _ _ _ => true
  | .readPort _ => true
  | .readIn _ => true
  | .readAnalog _ _ => true
  | .settle => true

/-- A successful drive. -/
def driven (n : Line) (v : Bool) : Event := .drive n v true

/-- The successful address select of address `a`: eight drives, `A7` first, and a settle (41_latch_protocol.md R126). -/
def selectEvents (a : Nat) : List Event :=
  let v := BitVec.ofNat 8 a
  [driven (.a 7) (v.getLsbD 7), driven (.a 6) (v.getLsbD 6), driven (.a 5) (v.getLsbD 5), driven (.a 4) (v.getLsbD 4),
    driven (.a 3) (v.getLsbD 3), driven (.a 2) (v.getLsbD 2), driven (.a 1) (v.getLsbD 1), driven (.a 0) (v.getLsbD 0),
    .settle]

/-- One data bit clocked out (41_latch_protocol.md R130 step 4). -/
def bitOutEvents (v : Bool) : List Event := [driven .din v, driven .clk false, driven .clk true, .settle]

/-- A successful write of `b` at address `w`: select, verify, enable, eight bits, disable (41_latch_protocol.md R130). -/
def writeEvents (w : Nat) (b : Byte) : List Event :=
  selectEvents w ++ [.readPort (some (BitVec.ofNat 8 w)), driven .busen false, .settle] ++
    (Byte.msbFirst b).flatMap bitOutEvents ++ [driven .busen true, .settle]

/-- Bits received, with a clock pulse between bits and none after the last (41_latch_protocol.md R140 step 4). -/
def bitsInEvents : List Bool → List Event
  | [] => []
  | [v] => [.readIn (some v)]
  | v :: vs => [.readIn (some v), driven .clk false, driven .clk true, .settle] ++ bitsInEvents vs

/-- A successful read of the byte `v` at read address `r`: select, verify, capture, enable, eight bits, disable
(41_latch_protocol.md R140). -/
def readEvents (r : Nat) (v : Byte) : List Event :=
  selectEvents r ++
    [.readPort (some (BitVec.ofNat 8 r)), driven .load false, driven .load true, .settle, driven .busen false, .settle] ++
    bitsInEvents (Byte.msbFirst v) ++ [driven .busen true, .settle]

/-- The reads of the groups at these write addresses, each returning its byte. -/
def readsEvents : List Nat → List Byte → List Event
  | w :: ws, v :: vs => readEvents (w + 4) v ++ readsEvents ws vs
  | _, _ => []

/-- The read and the write of every sub-switch set, in order (42_switch_state.md R190). -/
def setEvents (c : Config) (st : Bool) : List (SubSwitch × Nat) → (Nat → Byte) → List Event
  | [], _ => []
  | (sub, o) :: rest, f =>
    let w := c.writeAddr sub.ctlGrp
    let new := withBit (f w) o (sub.pol.level st)
    readEvents (w + 4) (f w) ++ writeEvents w new ++
      setEvents c st rest fun a => if a = w then new else f a

/-- The read and the write of each control group, for the bytes read and the bytes written. -/
def rewriteEvents : List Nat → List Byte → List Byte → List Event
  | w :: ws, v :: vs, n :: ns => readEvents (w + 4) v ++ writeEvents w n ++ rewriteEvents ws vs ns
  | _, _, _ => []

/-- The drives that succeeded and the ones that failed put the lines where the trace says: a successful drive at its
level, a failed one at `X`, and a failed address drive every address line at `X` (41_latch_protocol.md R120, R126). -/
def Lines.replay (l : Lines) : Event → Lines
  | .drive (.a _) _ false => { l with addr := .unknown }
  | .drive n _ false => l.set n .x
  | .drive n v true => l.set n (.ofBool v)
  | _ => l

/-- Where the adapter operation of an event failed. -/
def Event.failedAt : Event → Option IoPlace
  | .drive n _ false => some (.line n)
  | .readPort none => some .addrPort
  | .readIn none => some .sout
  | .readAnalog ch none => some (.analog ch)
  | _ => none

/-- The place of an adapter failure's record. -/
def LogRec.ioPlace : LogRec → Option IoPlace
  | .io p => some p
  | _ => none

/-- The bus-enable drive that selects a group is among the events, whether it succeeded or not. -/
def enableAttempted (es : List Event) : Prop := ∃ ok, Event.drive .busen false ok ∈ es

/-! ## Units -/

/-- The state after one granted unit of `q`. -/
def State.unit (q : Nat) (s : State) : State :=
  match runUnit q (s.grant q) with
  | .next t => t
  | .fault _ => s
  | .refused _ => s

/-- The state after so many units of `q`, with nothing of another requester between them. -/
def State.units (q : Nat) : Nat → State → State
  | 0, s => s
  | n + 1, s => State.units q n (s.unit q)

/-! ## Runs under a scheduler (60_exceptions.md R286, R288) -/

/-- The state with `n` as its next scripted choice; the step that takes it leaves the script as it was. -/
def State.choosing (s : State) (n : Nat) : State := { s with env := { s.env with sched := n :: s.env.sched } }

/-- The state after one step. -/
def State.stepped (s : State) : State :=
  match step s with
  | .next t => t
  | .fault _ => s
  | .refused _ => s

/-- The run from `s` in which the `n`-th choice is `choices n`: every run of the machine, as its choices range over all
sequences. -/
def State.run (s : State) (choices : Nat → Nat) : Nat → State
  | 0 => s
  | n + 1 => ((s.run choices n).choosing (choices n)).stepped

/-- The `n`-th step of that run grants `q`. -/
def State.Grants (s : State) (choices : Nat → Nat) (n q : Nat) : Prop :=
  ((s.run choices n).choosing (choices n)).chooseMove.1 = some (.grant q)

/-- Weak fairness of the grant (60_exceptions.md R288): a requester that waits forever is eventually granted. -/
def State.WeaklyFair (s : State) (choices : Nat → Nat) : Prop :=
  ∀ q n, (∀ m, n ≤ m → (s.run choices m).waiting q = true) → ∃ m, n ≤ m ∧ s.Grants choices m q

/-! ## Invariants between steps -/

/-- The latch memory is in canonical form and lists groups of the board only (10_state.md R39). -/
def State.MemOk (s : State) : Prop :=
  Memory.wf s.latches = true ∧ ∀ e ∈ s.latches, e.1 ∈ s.cfg.writeAddrs

/-- The address lines hold their reset level, are unknown after a failed address drive, or hold a write or read address
of a group of the board: no other address is ever driven (20_memory.md R62). -/
def State.AddrOk (s : State) : Prop :=
  s.lines.addr = .fill .lo ∨ s.lines.addr = .unknown ∨
    ∃ w ∈ s.cfg.writeAddrs, s.lines.addr = .ofAddr w ∨ s.lines.addr = .ofAddr (w + 4)

/-- The sub-switch a place inside a non-atomic `SW_SET` is at, with one state read for every sub-switch confirmed. -/
def RmwPlace.inRange (p : RmwPlace) (n : Nat) : Prop :=
  match p with
  | .read j => j < n
  | .write j _ => j < n
  | .confirm j sts => j < n ∧ sts.length = j

/-- A requester's record is one a run can leave: a sweep in progress belongs to a pending `MON_SWEEP` and is at a point
1 to `N_MON + 1` (10_state.md R38); a place inside a `SW_SET` belongs to a pending `SW_SET` of a non-atomic configuration
and is in range (42_switch_state.md R193). -/
def Requester.Ok (c : Config) (r : Requester) : Prop :=
  (∀ p, r.sweep = some p → 1 ≤ p.next ∧ p.next ≤ Config.nMon + 1 ∧
    ∃ cmd, r.pending = some cmd ∧ decode cmd = .instr .monSweep) ∧
  (∀ pl, r.rmw = some pl → r.sweep = none ∧ c.rmwAtomic = false ∧
    ∃ cmd dev band chain st d, r.pending = some cmd ∧ decode cmd = .instr (.swSet dev band chain st) ∧
      c.device dev = some d ∧ pl.inRange d.subs.length)

/-- Between steps: `NREQ` requesters, each record one a run can leave, and nobody owns the bus (60_exceptions.md R286,
R287: a locked unit is one atomic step). -/
def State.SchedOk (s : State) : Prop :=
  s.reqs.length = s.cfg.nreq ∧ s.busOwner = none ∧ ∀ r ∈ s.reqs, r.Ok s.cfg

/-- A safe run never faults. -/
def State.Safe (s : State) : Prop := ∀ f, step s ≠ .fault f

end Sys2Proof.Machine
end

