-- ==== Sys2Proof/Certificates/Slice0/Obligations.lean ====
section
/-! DEFINITION. The statements for the provers, in the order of OBLIGATIONS.json: the command word, the configuration,
reset and the scheduler, the latch devices, each command, and the rules every step keeps. -/

open Sys2Proof Sys2Proof.Machine

/-! ## The command word -/

/-- Decoding the encoding of a well-formed instruction gives it back, with every operand at every value its field admits
(30_encoding.md R92 to R97). -/
def Obligations.DecodeEncode : Prop :=
  ∀ i : Instr, i.wf = true → decode (encode i) = .instr i

/-- What decodes is a well-formed instruction, and encoding it gives the command back: no bit of a legal command is
dropped (30_encoding.md R97, R101). -/
def Obligations.EncodeDecode : Prop :=
  ∀ (c : Command) (i : Instr), decode c = .instr i → i.wf = true ∧ encode i = c

/-- The worked encodings: each assembles to its word and the word decodes to it (30_encoding.md R104). `CROSSED` is
state 1 of a crossover switch (42_switch_state.md R170). -/
def Obligations.WorkedEncodings : Prop :=
  (∀ p ∈ [
    (Instr.lgAddr 1 1 false, 0x11100000#32), (Instr.lgAddr 1 1 true, 0x11180000#32),
    (Instr.lgWrite 1 1 0xA5#8, 0x211000A5#32), (Instr.lgRead 1 1, 0x31100000#32), (Instr.lgRead 2 4, 0x32400000#32),
    (Instr.swGet 0 0 0, 0x40000000#32), (Instr.swSet 2 3 1 true, 0x50290300#32),
    (Instr.swSet 1 0 0 true, 0x50110000#32), (Instr.monSelect 1, 0x60000001#32), (Instr.monRead 8, 0x70000008#32),
    (Instr.monSweep, 0x90000000#32)],
    encode p.1 = ⟨p.2, none⟩ ∧ decode ⟨p.2, none⟩ = .instr p.1) ∧
  (∀ r : Volts, encode (.monConvert 2 r) = ⟨0x80000200#32, some r⟩ ∧
    decode ⟨0x80000200#32, some r⟩ = .instr (.monConvert 2 r)) ∧
  categoryOf 2 = some .vhigh ∧ DeviceKind.xover.meaning true = .crossed

/-- A command is legal exactly when its word matches a row of the opcode table and `raw` is there exactly for
`MON_CONVERT`, and no word matches two rows (30_encoding.md R99, R96, R101). -/
def Obligations.LegalExactly : Prop :=
  (∀ c : Command, (∃ i, decode c = .instr i) ↔
    ∃ r ∈ Row.all, r.holds c.word = true ∧ (c.raw.isSome = true ↔ r = Row.monConvert)) ∧
  ∀ (w : Word) (r r' : Row), r ∈ Row.all → r' ∈ Row.all → r.holds w = true → r'.holds w = true → r = r'

/-! ## The configuration -/

/-- A configuration with `NREQ ≥ 1` is well formed exactly when the nine items hold (10_state.md R45). -/
def Obligations.WellFormedExactly : Prop :=
  ∀ c : Config, 1 ≤ c.nreq →
    (c.wf = true ↔
      -- 1
      ((c.family = .f80 ∧ c.ndm = 1 ∧ c.base = 80) ∨
        (c.family = .f8 ∧ c.ndm = 2 ∧ c.base = 8 ∧ (c.mb2 = some 16 ∨ c.mb2 = some 160))) ∧
      -- 2
      ((∀ g, c.validGroup g = true → c.writeAddr g ≤ 255 ∧ c.readAddr g ≤ 255) ∧
        (∀ g h, c.validGroup g = true → c.validGroup h = true →
          (c.writeAddr g = c.writeAddr h → g = h) ∧ (c.readAddr g = c.readAddr h → g = h) ∧
          c.writeAddr g ≠ c.readAddr h)) ∧
      -- 3
      ((∀ d ∈ c.devtab, ∀ u ∈ d.subs, c.validGroup u.ctlGrp = true ∧ c.validGroup u.rbGrp = true) ∧
        (∀ e ∈ c.montab, c.validGroup e.selA.grp = true ∧ c.validGroup e.selB.grp = true)) ∧
      -- 4
      (∀ d ∈ c.devtab, ∀ u ∈ d.subs, ∀ o, o = u.ctlOff ∨ o = u.rbOff →
        (∀ k, o = .fixed k → k ≤ 7) ∧ (∀ t, o = .banded t → ∃ m, c.bandmap[t]? = some m)) ∧
      -- 5
      (∀ d ∈ c.devtab, (d.subs.length = 1 ∨ d.subs.length = 2) ∧ (d.kind = .xover → d.subs.length = 2)) ∧
      -- 6
      (c.devtab.length ≤ 256 ∧ c.montab.length = 8) ∧
      -- 7
      ((∀ e ∈ c.montab, ∀ o ∈ e.outs,
        o.ch = 2 * ((e.select o.bank).grp.lg - 1) ∨ o.ch = 2 * ((e.select o.bank).grp.lg - 1) + 1) ∧
        (((c.montab.flatMap MonEntry.outs).map MonOut.label).filter fun l => !l.isEmpty).Nodup) ∧
      -- 8
      0 < c.tSettle ∧
      -- 9
      (∀ e ∈ c.montab, ∀ g, g = e.selA.grp ∨ g = e.selB.grp → ∀ d ∈ c.devtab, ∀ u ∈ d.subs, g ≠ u.ctlGrp))

/-- The latch address map of each family (20_memory.md R61). -/
def Obligations.AddressMap : Prop :=
  ∀ c : Config, c.wf = true →
    (∀ g, c.validGroup g = true ↔ g ∈ c.groups) ∧
    (∀ g, c.readAddr g = c.writeAddr g + 4) ∧
    (c.family = .f80 → c.writeAddrs = [80, 81, 82, 83] ∧ c.readAddrs = [84, 85, 86, 87]) ∧
    (c.family = .f8 → ∃ m, c.mb2 = some m ∧ (m = 16 ∨ m = 160) ∧
      c.writeAddrs = [8, 9, 10, 11, m, m + 1, m + 2, m + 3] ∧
      c.readAddrs = [12, 13, 14, 15, m + 4, m + 5, m + 6, m + 7])

/-- The address formulas, their agreement with the source's formula, and bit 2 as the read bit (41_latch_protocol.md
R127). -/
def Obligations.AddressFormula : Prop :=
  ∀ c : Config, c.wf = true → ∀ dm lg, c.validGroup ⟨dm, lg⟩ = true →
    (c.mb 1 = c.base ∧ (c.family = .f8 → c.mb2 = some (c.mb 2))) ∧
    c.writeAddr ⟨dm, lg⟩ = c.mb dm + (lg - 1) ∧
    c.readAddr ⟨dm, lg⟩ = c.writeAddr ⟨dm, lg⟩ + 4 ∧
    (∀ rd : Bool, c.groupAddr ⟨dm, lg⟩ rd = c.writeAddr ⟨dm, lg⟩ + 4 * rd.toNat) ∧
    (c.mb dm % 8 = 0 ∧ lg - 1 ≤ 3 ∧ (c.writeAddr ⟨dm, lg⟩).testBit 2 = false ∧
      c.readAddr ⟨dm, lg⟩ = c.writeAddr ⟨dm, lg⟩ ||| 4) ∧
    (∀ rd : Bool, c.groupAddr ⟨dm, lg⟩ rd = c.base + ((dm - 1) <<< 3) + (rd.toNat <<< 2) + (lg - 1) ↔
      (c.family = .f80 ∨ dm = 1 ∨ c.mb2 = some 16))

/-! ## Decoder functions -/

/-- Polarity is the active-low inversion, both ways (42_switch_state.md R171). `WithBit` writes the level to bit `o` and
changes no other bit, writing the bit that is there changes nothing, and `BitState` tests that bit (R174). `FIXED`
offsets ignore band and chain, `BANDED` ones are the band map's entry, and `BAD_INDEX` is raised where there is none
(R172). -/
def Obligations.DecoderFunctions : Prop :=
  (∀ b : Bool, Polarity.high.level b = b ∧ Polarity.low.level b = !b ∧ Polarity.high.state b = b ∧
    Polarity.low.state b = !b) ∧
  (∀ (v : Byte) (o : Nat), o < 8 →
    (∀ (lvl : Bool) (k : Nat), k < 8 → (withBit v o lvl).getLsbD k = if k = o then lvl else v.getLsbD k) ∧
    withBit v o (v.getLsbD o) = v ∧
    ∀ p : Polarity, bitState v o p = p.state (v.getLsbD o)) ∧
  (∀ (s : State) (band chain : Nat),
    (∀ k, resolveOff (.fixed k) band chain s = .ok k s) ∧
    (∀ t m, s.cfg.bandmap[t]? = some m →
      (∀ k, m.lookup band chain = some k → k < 8 ∧ resolveOff (.banded t) band chain s = .ok k s) ∧
      (m.lookup band chain = none → resolveOff (.banded t) band chain s = .error .badIndex s)))

/-! ## Reset and the scheduler -/

/-- Every field takes its reset value, and the configuration is the one set before reset is released (10_state.md R46).
`State.reset` is this state for the configuration it holds. -/
def Obligations.ResetValues : Prop :=
  State.reset = State.launch State.reset.cfg ∧
  ∀ c : Config,
    (State.launch c).lines = ⟨.fill .lo, .hi, .lo, .hi, .hi⟩ ∧ (State.launch c).busOwner = none ∧
    (∀ q, ((State.launch c).req q).pending = none ∧ ((State.launch c).req q).rsp = none ∧
      ((State.launch c).req q).sweep = none) ∧
    (State.launch c).haz = 0#2 ∧ (State.launch c).trace = [] ∧ (State.launch c).log = [] ∧
    (∀ a, (State.launch c).latches.get a = ⟨.unknown, .unknown⟩) ∧ (State.launch c).cfg = c

/-- The invariants of this file hold at reset; the configuration held there is well formed (log 1). -/
def Obligations.ResetInvariants : Prop :=
  State.reset.cfg.wf = true ∧ State.reset.MemOk ∧ State.reset.AddrOk ∧ State.reset.SchedOk ∧ State.reset.Clean

/-- The model refuses an ill-formed configuration (00_scope.md R8, 10_state.md R45), and under a well-formed one every step
answers a next state, whatever the environment does: no failure leaves the controller unable to go on (60_exceptions.md
R260, R287, R288). -/
def Obligations.RunsExactlyWhenWellFormed : Prop :=
  ∀ s : State, (s.cfg.wf = false → step s = .refused .illFormedConfig) ∧ (s.cfg.wf = true → ∃ t, step s = .next t)

/-- A step in which no requester is granted performs no pin primitive: every line holds its level, and nothing but a
submitted command and the schedule changes (10_state.md R47). With no requester waiting no step grants, and an idle step
changes the schedule only. -/
def Obligations.NothingBetweenCommands : Prop :=
  ∀ s t : State, step s = .next t →
    ((∀ q, s.chooseMove.1 ≠ some (.grant q)) →
      t.lines = s.lines ∧ t.trace = s.trace ∧ t.latches = s.latches ∧ t.haz = s.haz ∧ t.log = s.log ∧
        t.busOwner = s.busOwner ∧ SamePremises s t ∧
        ∀ q, (t.req q).rsp = (s.req q).rsp ∧ (t.req q).sweep = (s.req q).sweep ∧ (t.req q).rmw = (s.req q).rmw) ∧
    ((∀ q, q < s.reqs.length → s.waiting q = false) → ∀ q, s.chooseMove.1 ≠ some (.grant q)) ∧
    (s.chooseMove.1 = none → ∃ n rest, t = { s with env := { s.env with drawn := n, sched := rest } })

/-- Submit (60_exceptions.md R285), with the commands to submit and the choice of the move as the environment's (log 6,
log 7): a requester with nothing pending and no sweep may submit its next command, or, with none listed, some command;
that changes its record only, and the count of free values where the command is one; a requester that waits has no
step. -/
def Obligations.SubmitStep : Prop :=
  ∀ (s : State) (q : Nat), s.cfg.wf = true → q < s.reqs.length →
    (s.waiting q = true → Move.submit q ∉ s.moves) ∧
    (∀ (c : Command) (rest : List Command), (s.req q).pending = none → (s.req q).sweep = none →
      (s.req q).toSubmit = c :: rest →
      ∃ n, step (s.choosing n) =
        .next { s with reqs := s.reqs.set q { s.req q with pending := some c, toSubmit := rest } }) ∧
    ((s.req q).pending = none → (s.req q).sweep = none → (s.req q).toSubmit = [] →
      ∃ n c, step (s.choosing n) =
        .next { s with
          reqs := s.reqs.set q { s.req q with pending := some c }
          env := { s.env with drawn := s.env.drawn + 1 } })

/-- Grant and fairness (60_exceptions.md R286, R288), with the choice as the environment's (log 7): when nobody owns the
bus, any requester that waits may be the one granted, and its unit is the step; it need not be, for the step may be idle;
without fairness it may starve, with another requester granted again and again; and under weak fairness a requester that
waits gets its response. -/
def Obligations.AnyWaitingRequesterMayBeGranted : Prop :=
  (∀ (s : State) (q : Nat), s.cfg.wf = true → s.busOwner = none → q < s.reqs.length → s.waiting q = true →
    (∃ n, step (s.choosing n) = runUnit q (s.grant q)) ∧ (∃ n, step (s.choosing n) = .next s)) ∧
  (∀ (s : State) (p q : Nat), s.cfg.wf = true → s.SchedOk → p < s.reqs.length → p ≠ q → s.waiting q = true →
    ∃ choices, ∀ n, (s.run choices n).req q = s.req q ∧ ∃ m, n ≤ m ∧ s.Grants choices m p) ∧
  (∀ (s : State) (choices : Nat → Nat), s.cfg.wf = true → s.SchedOk → s.WeaklyFair choices →
    ∀ q n, (s.run choices n).waiting q = true →
      ∃ m r, n ≤ m ∧ (∃ es, (s.run choices (m + 1)).trace = (s.run choices m).trace ++ es ++ [.endCmd q r]) ∧
        ((s.run choices (m + 1)).req q).rsp = some r ∧ ((s.run choices (m + 1)).req q).pending = none ∧
        ((s.run choices (m + 1)).req q).sweep = none)

/-- A step runs the decoded instruction: when the grant of `q` is the chosen move and its pending command decodes to `i`,
the step is `exec i` for the owner `q`, after the `begin` event (at the first unit of a command); while a sweep is in
progress it is the sweep's next unit. Choosing changes the schedule only. -/
def Obligations.StepRunsDecoded : Prop :=
  ∀ (s : State) (q : Nat), s.cfg.wf = true → s.chooseMove.1 = some (.grant q) →
    (∃ n rest, s.chooseMove.2 = { s with env := { s.env with drawn := n, sched := rest } }) ∧
    (∀ c i, (s.req q).sweep = none → (s.req q).rmw = none → (s.req q).pending = some c → decode c = .instr i →
      step s = exec i
        { s.chooseMove.2 with busOwner := some q, trace := s.trace ++ [.beginCmd q c.word] }) ∧
    (∀ c i p, (s.req q).sweep = none → (s.req q).rmw = some p → (s.req q).pending = some c → decode c = .instr i →
      step s = exec i { s.chooseMove.2 with busOwner := some q }) ∧
    (∀ p, (s.req q).sweep = some p → step s = exec .monSweep { s.chooseMove.2 with busOwner := some q })

/-- An illegal command ends with `ILLEGAL` before any other check and with no pin primitive (30_encoding.md R99,
60_exceptions.md R268): only the requester's record, the bus owner and the trace's `begin` and `end` change, nothing is
recorded in `LOG` (log 19), and the choice of the grant is the environment's (log 7). -/
def Obligations.IllegalCommand : Prop :=
  ∀ (s : State) (q : Nat) (c : Command), s.cfg.wf = true → s.chooseMove.1 = some (.grant q) →
    (s.req q).sweep = none → (s.req q).rmw = none → (s.req q).pending = some c →
    (¬ ∃ r ∈ Row.all, r.holds c.word = true ∧ (c.raw.isSome = true ↔ r = Row.monConvert)) →
    step s = .next
      { s.chooseMove.2 with
        busOwner := none
        reqs := s.reqs.set q { s.req q with pending := none, rsp := some (failResponse .illegal s.haz) }
        trace := s.trace ++ [.beginCmd q c.word, .endCmd q (failResponse .illegal s.haz)] }

/-! ## The latch devices -/

/-- Shift (20_memory.md R64): on a rising edge of the clock (a successful drive of 1 while the line was 0) the selected
group shifts one place toward bit 7, taking the data line if write-selected and an unknown bit if read-selected; every
other group ignores it; and the eight bits of a byte, first one first, fill a shift register with the byte. -/
def Obligations.ClockShifts : Prop :=
  (∀ s t : State, s.lines.clk = .lo → s.latches.wf = true → drive .clk true s = .ok () t →
    (∀ w, s.writeSelected = some w → t.latches.get w =
      { s.latches.get w with sr := (s.latches.get w).sr.shift s.lines.din }) ∧
    (∀ w, s.writeSelected = none → s.readSelected = some w → t.latches.get w =
      { s.latches.get w with sr := (s.latches.get w).sr.shift .x }) ∧
    (∀ a, s.writeSelected ≠ some a → s.readSelected ≠ some a → t.latches.get a = s.latches.get a)) ∧
  (∀ (v : LByte) (l : Level), v.shift l = ⟨v.b6, v.b5, v.b4, v.b3, v.b2, v.b1, v.b0, l⟩) ∧
  (∀ (v : LByte) (b : Byte), (Byte.msbFirst b).foldl (fun r l => r.shift (.ofBool l)) v = .ofByte b)

/-- Capture (20_memory.md R67): on a rising edge of the load-strobe (a successful drive of 1 while the line was 0) the
group whose read address is on the address lines takes `SENSE` into its shift register, or an unknown byte while
bus-enable is not deselected (41_latch_protocol.md R141); no other latch content changes, and none where no group's read
address is there. -/
def Obligations.LoadCaptures : Prop :=
  ∀ s t : State, s.cfg.wf = true → s.latches.wf = true → s.lines.load = .lo → drive .load true s = .ok () t →
    (∀ w ∈ s.cfg.writeAddrs, s.lines.addr = .ofAddr (w + 4) →
      (∀ a, t.latches.get a =
        if a = w then
          { s.latches.get a with sr := if s.lines.busen = .hi then .ofByte (s.ioDraw.2.sense w).1 else .unknown }
        else s.latches.get a) ∧
      (s.lines.busen = .hi → t.env = (s.ioDraw.2.sense w).2.env)) ∧
    ((∀ w ∈ s.cfg.writeAddrs, s.lines.addr ≠ .ofAddr (w + 4)) → t.latches = s.latches) ∧
    t.lines = { s.lines with load := .hi }

/-- Transfer (20_memory.md R68): a write-selected group that is deselected by bus-enable going from 0 to 1 copies its
shift register to its outputs; where no group is write-selected, a read-selected one or none, nothing is copied. -/
def Obligations.DeselectTransfers : Prop :=
  ∀ s t : State, s.latches.wf = true → s.lines.busen = .lo → drive .busen true s = .ok () t →
    (∀ w, s.writeSelected = some w → ∀ a, t.latches.get a =
      if a = w then { s.latches.get a with out := (s.latches.get a).sr } else s.latches.get a) ∧
    (s.writeSelected = none → t.latches = s.latches) ∧ t.lines = { s.lines with busen := .hi }

/-- Selection (20_memory.md R63): with bus-enable 0 exactly the group whose write address is on the address lines is
write-selected and exactly the one whose read address is there is read-selected, never both; with bus-enable not 0
none is. -/
def Obligations.Selection : Prop :=
  ∀ s : State, s.cfg.wf = true →
    (∀ w, s.writeSelected = some w ↔ s.lines.busen = .lo ∧ w ∈ s.cfg.writeAddrs ∧ s.lines.addr = .ofAddr w) ∧
    (∀ w, s.readSelected = some w ↔ s.lines.busen = .lo ∧ w ∈ s.cfg.writeAddrs ∧ s.lines.addr = .ofAddr (w + 4)) ∧
    (s.writeSelected = none ∨ s.readSelected = none)

/-- Status inputs (20_memory.md R66): under `Loopback` a capture takes the group's outputs bit for bit, each unknown bit
drawn (all of them from one drawn byte, which is the model's choice, log 13); without it a draw of one byte. A draw takes
the next scripted answer (log 2). Taking `SENSE` changes the environment's answers only. -/
def Obligations.SenseLaw : Prop :=
  ∀ (s : State) (w : Nat),
    (∃ env, (s.sense w).2 = { s with env := env }) ∧
    (s.env.loopback = true → ∃ d : Byte, ∀ i : Fin 8,
      ((s.sense w).1.getLsbD i) = (((s.latches.get w).out.get i).toBool?).getD (d.getLsbD i)) ∧
    (s.env.loopback = true → (s.latches.get w).out.known = false → ∀ (d : Byte) (rest : List Byte),
      s.env.sense = d :: rest → ∀ i : Fin 8,
        ((s.sense w).1.getLsbD i) = (((s.latches.get w).out.get i).toBool?).getD (d.getLsbD i)) ∧
    (s.env.loopback = false → s.sense w = s.senseDraw ∧ ∀ (d : Byte) (rest : List Byte), s.env.sense = d :: rest →
      s.senseDraw = (d, { s with env := { s.env with sense := rest } }))

/-- The two pin reads where the adapter operation succeeds. `ReadIn(SOUT)` returns `SR[7]` of the read-selected group, a
draw where that bit is unknown or no group is read-selected (20_memory.md R65). `ReadPort(ADDR)` returns the byte on the
address lines under `HealthyBus`, without it a draw (20_memory.md R69). A draw takes the next scripted answer (log 2). -/
def Obligations.PinAnswers : Prop :=
  ∀ s u : State, s.ioDraw = (true, u) →
    (∀ w v, s.readSelected = some w → (s.latches.get w).sr.b7 = .ofBool v →
      readIn s = .ok v (u.event (.readIn (some v)))) ∧
    ((s.readSelected = none ∨ ∃ w, s.readSelected = some w ∧ (s.latches.get w).sr.b7 = .x) →
      readIn s = .ok u.soutDraw.1 (u.soutDraw.2.event (.readIn (some u.soutDraw.1)))) ∧
    (∀ v : Byte, s.env.healthyBus = true → s.lines.addr = .ofByte v →
      readPort s = .ok v (u.event (.readPort (some v)))) ∧
    (s.env.healthyBus = false →
      readPort s = .ok u.portDraw.1 (u.portDraw.2.event (.readPort (some u.portDraw.1)))) ∧
    (∀ d rest, u.env.sout = d :: rest → u.soutDraw = (d, { u with env := { u.env with sout := rest } })) ∧
    (∀ d rest, u.env.port = d :: rest → u.portDraw = (d, { u with env := { u.env with port := rest } }))

/-- `DriveAddr` (41_latch_protocol.md R126): the eight lines are driven, `A7` first, and settle; where the drive of one of
them fails, no later one is driven, every address line is unknown, and `IO_FAIL` is raised. -/
def Obligations.AddressSelect : Prop :=
  ∀ (s : State) (v : Byte),
    (s.env.noIOFail = true → driveAddr v.toNat s = .ok ()
      { s with lines := { s.lines with addr := .ofByte v }, trace := s.trace ++ selectEvents v.toNat }) ∧
    (s.env.noIOFail = false → ∀ rest : List Bool, s.env.io = List.replicate 8 true ++ rest →
      driveAddr v.toNat s = .ok ()
        { s with
          lines := { s.lines with addr := .ofByte v }
          trace := s.trace ++ selectEvents v.toNat
          env := { s.env with io := rest } }) ∧
    (s.env.noIOFail = false → ∀ (k : Fin 8) (rest : List Bool),
      s.env.io = List.replicate k.val true ++ false :: rest →
      driveAddr v.toNat s = .error .ioFail
        { s with
          lines := { s.lines with addr := .unknown }
          trace := s.trace ++ (selectEvents v.toNat).take k.val ++ [.drive (.a k.rev) (v.getLsbD k.rev.val) false]
          log := s.log ++ [.io (.line (.a k.rev))]
          env := { s.env with io := rest } })

/-! ## The latch commands -/

/-- `LG_ADDR` of a valid group (41_latch_protocol.md R133, R127): the response carries the address, nothing wraps, and
nothing but the response, the trace's `end` and the bus owner changes. -/
def Obligations.LgAddrResult : Prop :=
  ∀ (s : State) (q dm lg : Nat) (rd : Bool), s.OwnedBy q → s.cfg.wf = true → s.cfg.validGroup ⟨dm, lg⟩ = true →
    ∃ data : Byte, data.toNat = s.cfg.writeAddr ⟨dm, lg⟩ + 4 * rd.toNat ∧
      exec (.lgAddr dm lg rd) s = .next
        { s with
          busOwner := none
          reqs := s.reqs.set q
            { s.req q with pending := none, rsp := some (okResponse s.haz data []), sweep := none, rmw := none }
          trace := s.trace ++ [.endCmd q (okResponse s.haz data [])] }

/-- The index check of the latch commands (41_latch_protocol.md R128): an index outside `1..NDM` or `1..4` ends each of
them with `BAD_INDEX`, with no pin primitive, no record in `LOG` (log 19) and no other change. -/
def Obligations.LatchBadIndex : Prop :=
  ∀ (s : State) (q dm lg : Nat) (rd : Bool) (b : Byte), s.OwnedBy q →
    ¬ (1 ≤ dm ∧ dm ≤ s.cfg.ndm ∧ 1 ≤ lg ∧ lg ≤ 4) →
    ∀ i ∈ [Instr.lgAddr dm lg rd, Instr.lgWrite dm lg b, Instr.lgRead dm lg],
      exec i s = .next
        { s with
          busOwner := none
          reqs := s.reqs.set q
            { s.req q with pending := none, rsp := some (failResponse .badIndex s.haz), sweep := none, rmw := none }
          trace := s.trace ++ [.endCmd q (failResponse .badIndex s.haz)] }

/-- A successful `LG_WRITE` on a clean bus (41_latch_protocol.md R130, R131, 20_memory.md R64, R68, R71): the group's
outputs and shift register become the byte, no other latch content changes, the lines end as the rule says, and the
trace is the transaction, bit 7 first. -/
def Obligations.LgWriteClean : Prop :=
  ∀ (s : State) (q dm lg : Nat) (b : Byte), s.Ready q → s.cfg.validGroup ⟨dm, lg⟩ = true →
    ∃ t, exec (.lgWrite dm lg b) s = .next t ∧
      Answered s t q (okResponse s.haz 0#8 []) ∧
      t.lines = ⟨.ofAddr (s.cfg.writeAddr ⟨dm, lg⟩), .hi, .ofBool (b.getLsbD 0), .hi, .hi⟩ ∧
      (∀ a, t.latches.get a =
        if a = s.cfg.writeAddr ⟨dm, lg⟩ then ⟨.ofByte b, .ofByte b⟩ else s.latches.get a) ∧
      t.trace = s.trace ++ writeEvents (s.cfg.writeAddr ⟨dm, lg⟩) b ++ [.endCmd q (okResponse s.haz 0#8 [])] ∧
      t.haz = s.haz ∧ t.log = s.log ∧ t.cfg = s.cfg ∧ t.env = s.env

/-- A successful `LG_WRITE` that starts dirty (41_latch_protocol.md R129, R130): `HAZ[0]` is set, every output of the
board is unknown after it, the written group's too, and the bus is clean exactly when the load-strobe was 1. -/
def Obligations.LgWriteDirty : Prop :=
  ∀ (s : State) (q dm lg : Nat) (b : Byte), s.Running q → ¬ s.Clean → s.cfg.validGroup ⟨dm, lg⟩ = true →
    ∃ t, exec (.lgWrite dm lg b) s = .next t ∧
      Answered s t q (okResponse (s.haz ||| 0b01#2) 0#8 []) ∧
      t.lines = ⟨.ofAddr (s.cfg.writeAddr ⟨dm, lg⟩), .hi, .ofBool (b.getLsbD 0), s.lines.load, .hi⟩ ∧
      (t.Clean ↔ s.lines.load = .hi) ∧
      (∀ a, (t.latches.get a).out = if a ∈ s.cfg.writeAddrs then .unknown else (s.latches.get a).out) ∧
      (∀ a, a ≠ s.cfg.writeAddr ⟨dm, lg⟩ →
        (t.latches.get a).sr = if a ∈ s.cfg.writeAddrs then .unknown else (s.latches.get a).sr) ∧
      t.trace = s.trace ++ writeEvents (s.cfg.writeAddr ⟨dm, lg⟩) b ++
        [.endCmd q (okResponse (s.haz ||| 0b01#2) 0#8 [])] ∧
      t.haz = s.haz ||| 0b01#2 ∧ t.log = s.log ∧ t.cfg = s.cfg ∧ t.env = s.env

/-- A successful `LG_READ` on a clean bus (41_latch_protocol.md R140, R142, 20_memory.md R64 to R67, R71): the response
carries `SENSE` of the group as captured, no output changes, only the group's shift register does, and the trace is the
transaction, bit 7 first. -/
def Obligations.LgReadClean : Prop :=
  ∀ (s : State) (q dm lg : Nat), s.Ready q → s.cfg.validGroup ⟨dm, lg⟩ = true →
    let w := s.cfg.writeAddr ⟨dm, lg⟩
    let v := (s.sense w).1
    ∃ t, exec (.lgRead dm lg) s = .next t ∧
      Answered s t q (okResponse s.haz v []) ∧
      t.lines = { s.lines with addr := .ofAddr (w + 4) } ∧
      (∀ a, t.latches.get a =
        if a = w then { s.latches.get a with sr := srAfterRead v } else s.latches.get a) ∧
      t.trace = s.trace ++ readEvents (w + 4) v ++ [.endCmd q (okResponse s.haz v [])] ∧
      t.haz = s.haz ∧ t.log = s.log ∧ t.cfg = s.cfg ∧ t.env = (s.sense w).2.env

/-- A successful `LG_READ` that starts dirty (41_latch_protocol.md R129, R140, R141, 70_reset_and_hazards.md R309): its
data is a draw, `HAZ[0]` is set, and `HAZ[1]` too unless bus-enable was 1, every output of the board is unknown, and the
bus is clean after it. -/
def Obligations.LgReadDirty : Prop :=
  ∀ (s : State) (q dm lg : Nat), s.Running q → ¬ s.Clean → s.cfg.validGroup ⟨dm, lg⟩ = true →
    let haz := s.haz ||| (if s.lines.busen = .hi then 0b01#2 else 0b11#2)
    ∃ t d, exec (.lgRead dm lg) s = .next t ∧
      Answered s t q (okResponse haz d []) ∧
      (∀ x rest, s.env.readByte = x :: rest → d = x) ∧
      t.lines = ⟨.ofAddr (s.cfg.writeAddr ⟨dm, lg⟩ + 4), .hi, s.lines.din, .hi, .hi⟩ ∧ t.Clean ∧
      (∀ a, (t.latches.get a).out = if a ∈ s.cfg.writeAddrs then .unknown else (s.latches.get a).out) ∧
      (∀ a, a ≠ s.cfg.writeAddr ⟨dm, lg⟩ →
        (t.latches.get a).sr = if a ∈ s.cfg.writeAddrs then .unknown else (s.latches.get a).sr) ∧
      t.haz = haz ∧ t.log = s.log ∧ t.cfg = s.cfg ∧ SamePremises s t

/-- Round trip (20_memory.md R77, source property E3): under `Loopback` a byte written to a group on a clean bus is what a
read of that group, granted next to any requester, returns, for every byte. -/
def Obligations.RoundTrip : Prop :=
  ∀ (s t : State) (q p dm lg : Nat) (b : Byte), s.Ready q → s.env.loopback = true →
    s.cfg.validGroup ⟨dm, lg⟩ = true → p < s.reqs.length → exec (.lgWrite dm lg b) s = .next t →
    ∃ u, exec (.lgRead dm lg) (t.grant p) = .next u ∧ Answered (t.grant p) u p (okResponse s.haz b []) ∧
      u.OutIs (s.cfg.writeAddr ⟨dm, lg⟩) b

/-- Write-address verification (41_latch_protocol.md R132), whatever byte the port shows: the exact write address is
accepted; any other byte ends the command with `ADDR_MISMATCH`, logged and reported with both addresses, before
bus-enable is touched and, on a clean start, with no latch content changed (60_exceptions.md R263). -/
def Obligations.WriteVerification : Prop :=
  ∀ (s : State) (q dm lg : Nat) (b rb : Byte) (rest : List Byte), s.OwnedBy q → s.cfg.wf = true →
    s.latches.wf = true → s.env.noIOFail = true → s.env.healthyBus = false → s.env.port = rb :: rest →
    s.cfg.validGroup ⟨dm, lg⟩ = true →
    let w := s.cfg.writeAddr ⟨dm, lg⟩
    ∃ t, exec (.lgWrite dm lg b) s = .next t ∧
      (rb.toNat = w → Answered s t q (okResponse t.haz 0#8 []) ∧ (s.Clean → t.OutIs w b)) ∧
      (rb.toNat ≠ w → Answered s t q (mismatchResponse t.haz w rb) ∧ t.lines = { s.lines with addr := .ofAddr w } ∧
        t.log = s.log ++ [.addr (BitVec.ofNat 8 w) rb] ∧
        t.trace = s.trace ++ selectEvents w ++ [.readPort (some rb), .endCmd q (mismatchResponse t.haz w rb)] ∧
        (s.Clean → t.latches = s.latches ∧ t.haz = s.haz))

/-- Read-address verification (41_latch_protocol.md R143), whatever byte the port shows: the read address and the write
address are accepted; any other byte ends the command with `ADDR_MISMATCH`, logged and reported with the read address
and the byte, before the load-strobe is touched. -/
def Obligations.ReadVerification : Prop :=
  ∀ (s : State) (q dm lg : Nat) (rb : Byte) (rest : List Byte), s.OwnedBy q → s.cfg.wf = true →
    s.latches.wf = true → s.env.noIOFail = true → s.env.healthyBus = false → s.env.port = rb :: rest →
    s.cfg.validGroup ⟨dm, lg⟩ = true →
    let w := s.cfg.writeAddr ⟨dm, lg⟩
    ∃ t, exec (.lgRead dm lg) s = .next t ∧
      (rb.toNat = w + 4 ∨ rb.toNat = w →
        ∃ v, Answered s t q (okResponse t.haz v []) ∧ (s.Clean → v = (s.sense w).1)) ∧
      (rb.toNat ≠ w + 4 → rb.toNat ≠ w → Answered s t q (mismatchResponse t.haz (w + 4) rb) ∧
        t.lines = { s.lines with addr := .ofAddr (w + 4) } ∧ t.log = s.log ++ [.addr (BitVec.ofNat 8 (w + 4)) rb] ∧
        t.trace = s.trace ++ selectEvents (w + 4) ++
          [.readPort (some rb), .endCmd q (mismatchResponse t.haz (w + 4) rb)] ∧
        (s.Clean → t.latches = s.latches ∧ t.haz = s.haz))

/-- The effect of a write on the latches and the lines, whatever the environment answers (41_latch_protocol.md R131):
after success, after a failure before bus-enable was attempted, and after a failure from that drive on. The lines are
where the completed primitives left them, the failed one unknown. -/
def Obligations.WriteEffect : Prop :=
  ∀ (s t : State) (q dm lg : Nat) (b : Byte) (es : List Event) (r : Response), s.OwnedBy q → s.cfg.wf = true →
    s.latches.wf = true → exec (.lgWrite dm lg b) s = .next t → (t.req q).rsp = some r →
    t.trace = s.trace ++ es →
    let w := s.cfg.writeAddr ⟨dm, lg⟩
    let dirty := s.cfg.validGroup ⟨dm, lg⟩ && !s.lines.clean
    -- what a dirty start did to a group that the write did not reach
    (∀ a, a ≠ w ∨ ¬ enableAttempted es →
      (t.latches.get a).out = if dirty = true ∧ a ∈ s.cfg.writeAddrs then .unknown else (s.latches.get a).out) ∧
    (r.status = .ok → enableAttempted es ∧
      (t.latches.get w).out = if s.lines.clean then .ofByte b else .unknown) ∧
    (r.status ≠ .ok → enableAttempted es → t.latches.get w = .unknown ∧ t.lines.busen ≠ .hi ∧
      ∃ n v, (es.filterMap Event.failedAt) = [.line n] ∧ Event.drive n v false ∈ es ∧ t.lines.get n = .x) ∧
    t.lines = es.foldl Lines.replay s.lines

/-- The effect of a read on the latches and the lines, whatever the environment answers (41_latch_protocol.md R142): no
output changes beyond what a dirty start did, and no shift register but the group's; the lines are where the completed
primitives left them, the failed one unknown; a failed read returns no byte, and leaves bus-enable asserted or unknown if
it had asserted it. -/
def Obligations.ReadEffect : Prop :=
  ∀ (s t : State) (q dm lg : Nat) (es : List Event) (r : Response), s.OwnedBy q → s.cfg.wf = true →
    s.latches.wf = true → exec (.lgRead dm lg) s = .next t → (t.req q).rsp = some r →
    t.trace = s.trace ++ es →
    let w := s.cfg.writeAddr ⟨dm, lg⟩
    let dirty := s.cfg.validGroup ⟨dm, lg⟩ && !s.lines.clean
    (∀ a, (t.latches.get a).out = if dirty = true ∧ a ∈ s.cfg.writeAddrs then .unknown else (s.latches.get a).out) ∧
    (∀ a, a ≠ w →
      (t.latches.get a).sr = if dirty = true ∧ a ∈ s.cfg.writeAddrs then .unknown else (s.latches.get a).sr) ∧
    (r.status ≠ .ok → r.data = 0#8 ∧ (Event.drive .busen false true ∈ es → t.lines.busen ≠ .hi)) ∧
    t.lines = es.foldl Lines.replay s.lines

/-! ## The switch commands -/

/-- The index checks of the switch commands (42_switch_state.md R175, R172): a device outside the table, or an offset
with no band-map entry, ends them with `BAD_INDEX`, with no pin primitive, no record in `LOG` (log 19) and no other
change. `SW_GET` resolves the readback offsets, `SW_SET` the control offsets too. -/
def Obligations.SwitchBadIndex : Prop :=
  ∀ (s : State) (q dev band chain : Nat) (st : Bool), s.OwnedBy q →
    ((s.cfg.devtab.length ≤ dev ∨ ∃ d, s.cfg.device dev = some d ∧ ∃ u ∈ d.subs,
        s.cfg.resolveOff u.rbOff band chain = none) →
      exec (.swGet dev band chain) s = .next
        { s with
          busOwner := none
          reqs := s.reqs.set q
            { s.req q with pending := none, rsp := some (failResponse .badIndex s.haz), sweep := none, rmw := none }
          trace := s.trace ++ [.endCmd q (failResponse .badIndex s.haz)] }) ∧
    ((s.cfg.devtab.length ≤ dev ∨ ∃ d, s.cfg.device dev = some d ∧ ∃ u ∈ d.subs,
        s.cfg.resolveOff u.rbOff band chain = none ∨ s.cfg.resolveOff u.ctlOff band chain = none) →
      exec (.swSet dev band chain st) s = .next
        { s with
          busOwner := none
          reqs := s.reqs.set q
            { s.req q with pending := none, rsp := some (failResponse .badIndex s.haz), sweep := none, rmw := none }
          trace := s.trace ++ [.endCmd q (failResponse .badIndex s.haz)] })

/-- `SW_GET` (42_switch_state.md R180, R181), whether it starts clean or dirty (41_latch_protocol.md R129): one read per
sub-switch, sub 0 first, the first leaving the bus clean; each readback bit is the sub-switch's state by its polarity; one
state, or two that agree, are reported, two that differ are `INCONSISTENT` with both states, and logged. No output changes
beyond what a dirty start did. -/
def Obligations.SwGetResult : Prop :=
  ∀ (s : State) (q dev band chain : Nat) (d : Device) (os : List Nat), s.Running q → s.cfg.device dev = some d →
    d.subs.mapM (fun u => s.cfg.resolveOff u.rbOff band chain) = some os →
    let ws := d.subs.map fun u => s.cfg.writeAddr u.rbGrp
    ∃ t u w v, ws.head? = some w ∧ ReadLeaves s u w v ∧
      let vs := v :: (u.senses ws.tail).1
      let sts := subStates d.subs os vs
      exec (.swGet dev band chain) s = .next t ∧ vs.length = d.subs.length ∧
      Answered s t q (stateReport s.hazAfterRead sts) ∧ t.log = s.log ++ stateLog dev sts ∧
      (∀ w', ws.getLast? = some w' → t.lines = ⟨.ofAddr (w' + 4), .hi, s.lines.din, .hi, .hi⟩) ∧
      (∀ a, (t.latches.get a).out = (s.startLatch a).out) ∧
      (∀ a, a ∉ ws → (t.latches.get a).sr = (s.startLatch a).sr) ∧
      t.haz = s.hazAfterRead ∧ t.cfg = s.cfg ∧ t.env = (u.senses ws.tail).2.env ∧
      (s.Clean → vs = (s.senses ws).1 ∧ t.env = (s.senses ws).2.env ∧
        t.trace = s.trace ++ readsEvents ws vs ++ [.endCmd q (stateReport s.hazAfterRead sts)])

/-- `SW_SET` as one unit (42_switch_state.md R190 to R192). First, on a clean bus under `Loopback` with the bytes of the
device's groups known: sub-switch after sub-switch the control byte is read and written back with one bit changed, the
second read seeing the first write; then the device is read again and what it shows is the response. Second, for every
environment in which the primitives succeed and for every start: whatever bytes are read (`SENSE` without `Loopback`, the
known bits under it, a draw at a dirty start), each written byte is the byte read with one bit changed, the outputs end as
the writes in order leave them, known even where they were unknown (70_reset_and_hazards.md R303, log 14), and the response
is that of the confirming reads. -/
def Obligations.SwSetResult : Prop :=
  (∀ (s : State) (q dev band chain : Nat) (st : Bool) (d : Device) (cs os : List Nat) (f : Nat → Byte), s.Ready q →
    s.env.loopback = true → s.cfg.rmwAtomic = true → s.cfg.device dev = some d →
    d.subs.mapM (fun u => s.cfg.resolveOff u.ctlOff band chain) = some cs →
    d.subs.mapM (fun u => s.cfg.resolveOff u.rbOff band chain) = some os →
    (∀ u ∈ d.subs, s.OutIs (s.cfg.writeAddr u.ctlGrp) (f (s.cfg.writeAddr u.ctlGrp)) ∧
      s.OutIs (s.cfg.writeAddr u.rbGrp) (f (s.cfg.writeAddr u.rbGrp))) →
    let g := bytesSet s.cfg st (d.subs.zip cs) f
    let ws := d.subs.map fun u => s.cfg.writeAddr u.rbGrp
    let sts := subStates d.subs os (ws.map g)
    ∃ t, exec (.swSet dev band chain st) s = .next t ∧
      Answered s t q (stateReport s.haz sts) ∧ t.log = s.log ++ stateLog dev sts ∧ t.Clean ∧
      (∀ u ∈ d.subs, t.OutIs (s.cfg.writeAddr u.ctlGrp) (g (s.cfg.writeAddr u.ctlGrp))) ∧
      (∀ a, (∀ u ∈ d.subs, a ≠ s.cfg.writeAddr u.ctlGrp) → (t.latches.get a).out = (s.latches.get a).out) ∧
      (∀ a, (∀ u ∈ d.subs, a ≠ s.cfg.writeAddr u.ctlGrp ∧ a ≠ s.cfg.writeAddr u.rbGrp) →
        t.latches.get a = s.latches.get a) ∧
      t.trace = s.trace ++ setEvents s.cfg st (d.subs.zip cs) f ++ readsEvents ws (ws.map g) ++
        [.endCmd q (stateReport s.haz sts)] ∧
      t.haz = s.haz ∧ t.cfg = s.cfg ∧ t.env = s.env) ∧
  (∀ (s : State) (q dev band chain : Nat) (st : Bool) (d : Device) (cs os : List Nat), s.Running q →
    s.cfg.rmwAtomic = true → s.cfg.device dev = some d →
    d.subs.mapM (fun u => s.cfg.resolveOff u.ctlOff band chain) = some cs →
    d.subs.mapM (fun u => s.cfg.resolveOff u.rbOff band chain) = some os →
    let ctl := d.subs.map fun u => s.cfg.writeAddr u.ctlGrp
    let rb := d.subs.map fun u => s.cfg.writeAddr u.rbGrp
    ∃ (t : State) (vs rs : List Byte), vs.length = d.subs.length ∧ rs.length = d.subs.length ∧
      let news := newBytes st d.subs cs vs
      let outs := fun k => outsAfter ((ctl.zip news).take k) fun a => (s.startLatch a).out
      let sts := subStates d.subs os rs
      exec (.swSet dev band chain st) s = .next t ∧
      Answered s t q (stateReport s.hazAfterRead sts) ∧ t.log = s.log ++ stateLog dev sts ∧ t.Clean ∧
      (∀ a, (t.latches.get a).out = outs d.subs.length a) ∧
      (∀ a, a ∉ ctl → a ∉ rb → t.latches.get a = s.startLatch a) ∧
      -- the bytes read
      (s.env.loopback = true →
        (∀ (j w : Nat) (v : Byte), ctl[j]? = some w → vs[j]? = some v → s.Clean ∨ 0 < j → Shows v (outs j w)) ∧
        (∀ (j w : Nat) (v : Byte), rb[j]? = some w → rs[j]? = some v → Shows v (outs d.subs.length w))) ∧
      (s.env.loopback = false → s.Clean →
        vs ++ rs = (s.senses (ctl ++ rb)).1 ∧ t.env = (s.senses (ctl ++ rb)).2.env) ∧
      (¬ s.Clean → ∀ x rest, s.env.readByte = x :: rest → vs.head? = some x) ∧
      (s.Clean → t.trace = s.trace ++ rewriteEvents ctl vs news ++ readsEvents rb rs ++
        [.endCmd q (stateReport s.hazAfterRead sts)]) ∧
      t.haz = s.hazAfterRead ∧ t.cfg = s.cfg ∧ SamePremises s t)

/-- `SW_SET` changes only the control bits of the device (42_switch_state.md R191, source property E4): in a group that is
no control group of it nothing, and in a control group every bit but those of its sub-switches there is as before. -/
def Obligations.SwSetPreservesBits : Prop :=
  ∀ (s t : State) (q dev band chain : Nat) (st : Bool) (d : Device) (cs : List Nat) (f : Nat → Byte), s.Ready q →
    s.env.loopback = true → s.cfg.rmwAtomic = true → s.cfg.device dev = some d →
    d.subs.mapM (fun u => s.cfg.resolveOff u.ctlOff band chain) = some cs →
    (∀ u ∈ d.subs, s.OutIs (s.cfg.writeAddr u.ctlGrp) (f (s.cfg.writeAddr u.ctlGrp))) →
    exec (.swSet dev band chain st) s = .next t →
    ∀ (a : Nat) (i : Fin 8), (∀ p ∈ d.subs.zip cs, a = s.cfg.writeAddr p.1.ctlGrp → i.val ≠ p.2) →
      (t.latches.get a).out.get i = (s.latches.get a).out.get i

/-- One unit of a non-atomic `SW_SET` at the read of sub `j` (42_switch_state.md R193), whether it starts clean or dirty
(41_latch_protocol.md R129): the byte read is kept for the write, the command stays pending, and the bus is free; a new
command starts at sub 0 (log 9). -/
def Obligations.SwSetReadUnit : Prop :=
  ∀ (s : State) (q dev band chain j : Nat) (st : Bool) (d : Device) (cs os : List Nat) (u : SubSwitch), s.Running q →
    s.cfg.rmwAtomic = false → s.cfg.device dev = some d →
    d.subs.mapM (fun u => s.cfg.resolveOff u.ctlOff band chain) = some cs →
    d.subs.mapM (fun u => s.cfg.resolveOff u.rbOff band chain) = some os → d.subs[j]? = some u →
    ((s.req q).rmw = some (.read j) ∨ ((s.req q).rmw = none ∧ j = 0)) →
    let w := s.cfg.writeAddr u.ctlGrp
    ∃ t v, exec (.swSet dev band chain st) s = .next t ∧ ReadLeaves s t w v ∧
      GoesOn s t q { s.req q with rmw := some (.write j v) } ∧ t.log = s.log ∧
      (s.Clean → t.trace = s.trace ++ readEvents (w + 4) v)

/-- One unit of a non-atomic `SW_SET` at the write of sub `j` (42_switch_state.md R193, R190), whether it starts clean or
dirty (41_latch_protocol.md R129): the byte read before is written back with one bit changed, and the next unit is the next
sub's read or the confirming read of sub 0. -/
def Obligations.SwSetWriteUnit : Prop :=
  ∀ (s : State) (q dev band chain j : Nat) (st : Bool) (d : Device) (cs os : List Nat) (u : SubSwitch) (o : Nat)
    (cur : Byte), s.Running q →
    s.cfg.rmwAtomic = false → s.cfg.device dev = some d →
    d.subs.mapM (fun u => s.cfg.resolveOff u.ctlOff band chain) = some cs →
    d.subs.mapM (fun u => s.cfg.resolveOff u.rbOff band chain) = some os → d.subs[j]? = some u → cs[j]? = some o →
    (s.req q).rmw = some (.write j cur) →
    let w := s.cfg.writeAddr u.ctlGrp
    let new := withBit cur o (u.pol.level st)
    ∃ t, exec (.swSet dev band chain st) s = .next t ∧
      GoesOn s t q
        { s.req q with rmw := some (if j + 1 < d.subs.length then .read (j + 1) else .confirm 0 []) } ∧
      (∀ a, t.latches.get a = wroteLatch s.cfg (!s.lines.clean) w new s.latches.get a) ∧
      t.lines = ⟨.ofAddr w, .hi, .ofBool (new.getLsbD 0), s.lines.load, .hi⟩ ∧
      t.trace = s.trace ++ writeEvents w new ∧ t.haz = s.hazAfterWrite ∧ t.log = s.log ∧ t.cfg = s.cfg

/-- One unit of a non-atomic `SW_SET` at the confirming read of sub `j` (42_switch_state.md R193, R192), whether it starts
clean or dirty (41_latch_protocol.md R129): the state read is kept, or, at the last sub, all of them are reported as
`SW_GET` reports them. -/
def Obligations.SwSetConfirmUnit : Prop :=
  ∀ (s : State) (q dev band chain j : Nat) (st : Bool) (d : Device) (cs os : List Nat) (u : SubSwitch) (o : Nat)
    (sts : List Bool), s.Running q →
    s.cfg.rmwAtomic = false → s.cfg.device dev = some d →
    d.subs.mapM (fun u => s.cfg.resolveOff u.ctlOff band chain) = some cs →
    d.subs.mapM (fun u => s.cfg.resolveOff u.rbOff band chain) = some os → d.subs[j]? = some u → os[j]? = some o →
    (s.req q).rmw = some (.confirm j sts) → sts.length = j →
    let w := s.cfg.writeAddr u.rbGrp
    ∃ t v, exec (.swSet dev band chain st) s = .next t ∧ ReadLeaves s t w v ∧
      let all := sts ++ [bitState v o u.pol]
      let r := stateReport s.hazAfterRead all
      (j + 1 < d.subs.length → GoesOn s t q { s.req q with rmw := some (.confirm (j + 1) all) } ∧
        t.log = s.log ∧ (s.Clean → t.trace = s.trace ++ readEvents (w + 4) v)) ∧
      (d.subs.length ≤ j + 1 → Answered s t q r ∧ t.log = s.log ++ stateLog dev all ∧
        (s.Clean → t.trace = s.trace ++ readEvents (w + 4) v ++ [.endCmd q r]))

/-! ## The monitor commands -/

/-- The index check of the monitor commands (43_monitor_mux.md R220): an index outside `1..8` ends them with `BAD_INDEX`,
with no pin primitive, no record in `LOG` (log 19) and no other change. -/
def Obligations.MonitorBadIndex : Prop :=
  ∀ (s : State) (q idx : Nat), s.OwnedBy q → ¬ (1 ≤ idx ∧ idx ≤ 8) →
    ∀ i ∈ [Instr.monSelect idx, Instr.monRead idx],
      exec i s = .next
        { s with
          busOwner := none
          reqs := s.reqs.set q
            { s.req q with pending := none, rsp := some (failResponse .badIndex s.haz), sweep := none, rmw := none }
          trace := s.trace ++ [.endCmd q (failResponse .badIndex s.haz)] }

/-- `MON_SELECT` (43_monitor_mux.md R221): the whole byte of sub-bank A is written and then that of sub-bank B, with no
read first; where both name one group the second wins; no other latch content changes beyond what a dirty start did
(41_latch_protocol.md R129), and after one that found the load-strobe high the second write is clean. -/
def Obligations.MonSelectResult : Prop :=
  ∀ (s : State) (q idx : Nat), s.Running q → 1 ≤ idx → idx ≤ 8 →
    ∃ e, s.cfg.montab[idx - 1]? = some e ∧
    let r := okResponse s.hazAfterWrite 0#8 []
    ∃ t, exec (.monSelect idx) s = .next t ∧
      Answered s t q r ∧
      (∀ a, t.latches.get a = s.selectedLatch e a) ∧ t.lines = s.selectedLines e ∧
      t.trace = s.trace ++ writeEvents (s.cfg.writeAddr e.selA.grp) e.selA.val ++
        writeEvents (s.cfg.writeAddr e.selB.grp) e.selB.val ++ [.endCmd q r] ∧
      t.haz = s.hazAfterWrite ∧ t.log = s.log ∧ t.cfg = s.cfg ∧ t.env = s.env

/-- `MON_READ` (43_monitor_mux.md R223, 20_memory.md R70): the select, clean or dirty as `MON_SELECT`'s, then one analog
read per output in table order, labelled or not; the response carries each channel with the reading drawn. -/
def Obligations.MonReadResult : Prop :=
  ∀ (s : State) (q idx : Nat), s.Running q → 1 ≤ idx → idx ≤ 8 →
    ∃ e, s.cfg.montab[idx - 1]? = some e ∧
    let vs := (s.voltsDraws e.outs.length).1
    let r := okResponse s.hazAfterWrite 0#8 (e.outs.zipWith (fun o v => .reading o.ch v) vs)
    ∃ t, exec (.monRead idx) s = .next t ∧ vs.length = e.outs.length ∧
      Answered s t q r ∧
      (∀ a, t.latches.get a = s.selectedLatch e a) ∧ t.lines = s.selectedLines e ∧
      t.trace = s.trace ++ writeEvents (s.cfg.writeAddr e.selA.grp) e.selA.val ++
        writeEvents (s.cfg.writeAddr e.selB.grp) e.selB.val ++
        e.outs.zipWith (fun o v => .readAnalog o.ch (some v)) vs ++ [.endCmd q r] ∧
      t.haz = s.hazAfterWrite ∧ t.log = s.log ∧ t.cfg = s.cfg ∧ t.env = (s.voltsDraws e.outs.length).2.env

/-- `MON_CONVERT` of a category (43_monitor_mux.md R224, R225): the four conversions, each a function of the reading with
the configuration's operations and constants, the offset 0.004 and the scale 10.5542 (10_state.md R44) among them; no line, latch or hazard changes. -/
def Obligations.MonConvertResult : Prop :=
  ∀ (s : State) (q cat : Nat) (raw : Volts), s.OwnedBy q → cat ≤ 3 →
    Config.iOff.val = 4 / 1000 ∧ Config.kVhigh.val = 105542 / 10000 ∧
    let value :=
      if cat = 0 then Config.vsub raw Config.iOff
      else if cat = 1 then Config.vmul raw s.cfg.kVlow
      else if cat = 2 then Config.vmul raw Config.kVhigh
      else Config.vmul (Config.vsub raw s.cfg.tOff) s.cfg.tScale
    exec (.monConvert cat raw) s = .next
      { s with
        busOwner := none
        reqs := s.reqs.set q
          { s.req q with
            pending := none, rsp := some (okResponse s.haz 0#8 [.converted value]), sweep := none, rmw := none }
        trace := s.trace ++ [.endCmd q (okResponse s.haz 0#8 [.converted value])] }

/-- `MON_CONVERT` with a code that names no category (60_exceptions.md R266): `BAD_LABEL`, the log record `label(cat)`, and
no pin primitive. -/
def Obligations.MonConvertBadLabel : Prop :=
  ∀ (s : State) (q cat : Nat) (raw : Volts), s.OwnedBy q → 4 ≤ cat →
    exec (.monConvert cat raw) s = .next
      { s with
        busOwner := none
        reqs := s.reqs.set q
          { s.req q with pending := none, rsp := some (failResponse .badLabel s.haz), sweep := none, rmw := none }
        log := s.log ++ [.label cat]
        trace := s.trace ++ [.endCmd q (failResponse .badLabel s.haz)] }

/-- A successful sweep point (43_monitor_mux.md R231, R236), whether its select starts clean or dirty (vector V-M6): the
point is selected and read as `MON_READ` does, each labelled output's converted value is appended in order, the next unit
is the next point, and the bus is free. A new sweep starts at point 1 (R230, log 8). -/
def Obligations.SweepPointResult : Prop :=
  ∀ (s : State) (q : Nat) (p : Sweep), s.Running q → (s.req q).sweep.getD ⟨1, [], false⟩ = p → 1 ≤ p.next →
    p.next ≤ 8 →
    ∃ e, s.cfg.montab[p.next - 1]? = some e ∧
    let vs := (s.voltsDraws e.outs.length).1
    let values := ((e.outs.zip vs).filter fun x => !x.1.label.isEmpty).map fun x =>
      (x.1.label, convert s.cfg x.1.cat x.2)
    ∃ t, exec .monSweep s = .next t ∧
      GoesOn s t q { s.req q with sweep := some ⟨p.next + 1, p.acc ++ values, p.failed⟩ } ∧
      (∀ a, t.latches.get a = s.selectedLatch e a) ∧ t.lines = s.selectedLines e ∧
      t.trace = s.trace ++ writeEvents (s.cfg.writeAddr e.selA.grp) e.selA.val ++
        writeEvents (s.cfg.writeAddr e.selB.grp) e.selB.val ++
        e.outs.zipWith (fun o v => .readAnalog o.ch (some v)) vs ∧
      t.haz = s.hazAfterWrite ∧ t.log = s.log ∧ t.cfg = s.cfg

/-- A sweep point whatever the environment answers (43_monitor_mux.md R231): it advances by one point; where it fails it
contributes nothing and marks the sweep, and it never stops the sweep. -/
def Obligations.SweepPointGoesOn : Prop :=
  ∀ (s : State) (q : Nat) (p : Sweep), s.OwnedBy q → (s.req q).sweep.getD ⟨1, [], false⟩ = p → p.next ≤ 8 →
    ∃ t p', exec .monSweep s = .next t ∧ GoesOn s t q { s.req q with sweep := some p' } ∧ p'.next = p.next + 1 ∧
      ((∃ vs recs, monReadings p.next s = .ok vs recs ∧ p'.failed = p.failed ∧
          p'.acc = p.acc ++ (vs.filter fun x => !x.1.label.isEmpty).map fun x =>
            (x.1.label, convert s.cfg x.1.cat x.2)) ∨
        (∃ f u, monReadings p.next s = .error f u ∧ p'.failed = true ∧ p'.acc = p.acc))

/-- The end of a sweep (43_monitor_mux.md R232): the accumulated values with `OK`, or `PARTIAL` if a point failed, and no
sweep in progress; nothing else changes. -/
def Obligations.SweepEnd : Prop :=
  ∀ (s : State) (q : Nat) (p : Sweep), s.OwnedBy q → (s.req q).sweep = some p → 8 < p.next →
    let r : Response := ⟨if p.failed then .partialSweep else .ok, s.haz, 0#8, 0#8, 0#8,
      p.acc.map fun x => .labelled x.1 x.2⟩
    exec .monSweep s = .next
      { s with
        busOwner := none
        reqs := s.reqs.set q { s.req q with pending := none, rsp := some r, sweep := none, rmw := none }
        trace := s.trace ++ [.endCmd q r] }

/-- A sweep ends (43_monitor_mux.md R230 to R232, R236, 60_exceptions.md R288): whatever the environment answers, nine
consecutive units of a requester whose pending command is `MON_SWEEP` (nothing of another requester between them) answer
it, with `OK` or `PARTIAL`. -/
def Obligations.SweepFinishes : Prop :=
  ∀ (s : State) (q : Nat) (c : Command), q < s.reqs.length → (s.req q).pending = some c →
    decode c = .instr .monSweep → (s.req q).sweep = none →
    ∃ r, ((State.units q 9 s).req q).rsp = some r ∧ (r.status = .ok ∨ r.status = .partialSweep) ∧
      ((State.units q 9 s).req q).pending = none ∧ ((State.units q 9 s).req q).sweep = none ∧
      (State.units q 9 s).busOwner = none

/-! ## Responses -/

/-- The packed response word (10_state.md R33): `OBS`, `EXP`, `DATA`, `HAZ` and the code of `STATUS` each at its place, and
bits 7..6 zero. -/
def Obligations.ResponseWord : Prop :=
  ∀ r : Response,
    r.word.extractLsb' 24 8 = r.obs ∧ r.word.extractLsb' 16 8 = r.exp ∧ r.word.extractLsb' 8 8 = r.data ∧
    r.word.extractLsb' 6 2 = 0#2 ∧ r.word.extractLsb' 4 2 = r.haz ∧ r.word.extractLsb' 0 4 = r.status.code

/-- The status codes, and which command may end with which (60_exceptions.md R261, R267), whatever the state and the
environment. -/
def Obligations.StatusTable : Prop :=
  ([Status.ok, .ioFail, .addrMismatch, .inconsistent, .badIndex, .badLabel, .illegal, .partialSweep].map Status.code =
    [0#4, 1#4, 2#4, 3#4, 4#4, 5#4, 6#4, 7#4]) ∧
  (∀ st : Status, st.code.toNat ≤ 7) ∧
  ∀ (i : Instr) (s t : State) (q : Nat) (r : Response), s.OwnedBy q →
    exec i s = .next t → Answered s t q r → r.status ∈ statusesOf i

/-- What a response carries (10_state.md R33, R34, 60_exceptions.md R260): the hazard bits as the command left them; with a
status other than `OK` no data but the two states of `INCONSISTENT`; `EXP` and `OBS` for a mismatch only; values for the
three monitor commands that return some, none after a failure. -/
def Obligations.ResponseShape : Prop :=
  ∀ (i : Instr) (s t : State) (q : Nat) (r : Response), s.OwnedBy q → exec i s = .next t → Answered s t q r →
    r.haz = t.haz ∧
    (r.status ≠ .ok → r.data = 0#8 ∨ (r.status = .inconsistent ∧ (r.data = 1#8 ∨ r.data = 2#8))) ∧
    (r.status ≠ .addrMismatch → r.exp = 0#8 ∧ r.obs = 0#8) ∧
    (r.vals ≠ [] → (r.status = .ok ∨ r.status = .partialSweep) ∧
      ((∃ x, i = .monRead x) ∨ (∃ c v, i = .monConvert c v) ∨ i = .monSweep))

/-! ## Rules every step keeps -/

/-- No step changes the configuration (30_encoding.md R106), clears a hazard bit (10_state.md R30), or takes anything out of
`TRACE` or `LOG` (10_state.md R36, R37). -/
def Obligations.NothingIsTakenBack : Prop :=
  ∀ s t : State, step s = .next t →
    t.cfg = s.cfg ∧ (∀ k, s.haz.getLsbD k = true → t.haz.getLsbD k = true) ∧
    (∃ es, t.trace = s.trace ++ es) ∧ (∃ rs, t.log = s.log ++ rs)

/-- Every pin event of a step and every record of a failure agree, in order, and the lines are where the events of the
step put them (41_latch_protocol.md R120 to R123, R126, 60_exceptions.md R262), whatever the environment answers. -/
def Obligations.TraceTellsLinesAndFailures : Prop :=
  ∀ (s t : State) (es : List Event) (rs : List LogRec), step s = .next t → t.trace = s.trace ++ es →
    t.log = s.log ++ rs →
    t.lines = es.foldl Lines.replay s.lines ∧ rs.filterMap LogRec.ioPlace = es.filterMap Event.failedAt

/-- Blocks (20_memory.md R76, 60_exceptions.md R286, R287): the events of a unit are those of the one requester granted:
its `begin` if the unit is the first of its command, then pin events only, then its `end` exactly if the command is
answered; a command that is neither a sweep nor a non-atomic `SW_SET` is one whole block. A failed pin event is the last
pin event of its unit (41_latch_protocol.md R125, 60_exceptions.md R260, R272), and but in a sweep it is there exactly if
the command ends with `IO_FAIL`; and `ADDR_MISMATCH` ends it right after the port read that showed the other byte. -/
def Obligations.UnitsAreBlocks : Prop :=
  ∀ (s t : State) (q : Nat) (c : Command), step s = .next t → s.chooseMove.1 = some (.grant q) →
    (s.req q).pending = some c →
    ∃ begins pins ends, t.trace = s.trace ++ begins ++ pins ++ ends ∧ (∀ e ∈ pins, e.isPin = true) ∧
      begins = (if (s.req q).sweep = none ∧ (s.req q).rmw = none then [.beginCmd q c.word] else []) ∧
      (∀ p, p ≠ q → t.req p = s.req p) ∧ t.busOwner = none ∧
      ((ends = [] ∧ (t.req q).pending = some c ∧ (t.req q).rsp = (s.req q).rsp) ∨
        ∃ r, ends = [.endCmd q r] ∧ (t.req q).pending = none ∧ (t.req q).rsp = some r ∧ (t.req q).sweep = none ∧
          (t.req q).rmw = none) ∧
      ((s.req q).sweep = none → decode c ≠ .instr .monSweep →
        (s.cfg.rmwAtomic = true ∨ ∀ dev band chain st, decode c ≠ .instr (.swSet dev band chain st)) → ends ≠ []) ∧
      (∀ (i : Nat) (e : Event), pins[i]? = some e → e.failedAt ≠ none → i + 1 = pins.length) ∧
      ((s.req q).sweep = none → decode c ≠ .instr .monSweep →
        ((∃ e ∈ pins, e.failedAt ≠ none) ↔ ∃ r, ends = [.endCmd q r] ∧ r.status = .ioFail) ∧
        (∀ r, ends = [.endCmd q r] → r.status = .addrMismatch → pins.getLast? = some (.readPort (some r.obs))))

/-- The frame of every command, whatever the environment answers (10_state.md R48, 60_exceptions.md R278, R287): the
configuration, the premises and the other requesters' records are unchanged, the requester keeps its commands still to
submit, and the bus is free. The outputs of a group change only if the command writes that group, its shift register only
if it writes or reads it (the operand's group, the groups of the device's sub-switches, the select groups of the monitor
entry); where the start was not clean, the rest of the board may be unknown instead (41_latch_protocol.md R129). `LG_ADDR`
and `MON_CONVERT` change no latch content, no line and no hazard bit. -/
def Obligations.UnitFrame : Prop :=
  ∀ (i : Instr) (s t : State) (q : Nat), s.OwnedBy q → exec i s = .next t →
    let point := ((s.req q).sweep.getD ⟨1, [], false⟩).next
    t.cfg = s.cfg ∧ SamePremises s t ∧ (∀ p, p ≠ q → t.req p = s.req p) ∧ t.reqs.length = s.reqs.length ∧
    (t.req q).toSubmit = (s.req q).toSubmit ∧ t.busOwner = none ∧ (s.MemOk → t.MemOk) ∧
    (s.cfg.wf = true → s.MemOk → s.Clean →
      (∀ a, a ∉ writesOf s.cfg point i → (t.latches.get a).out = (s.latches.get a).out) ∧
      (∀ a, a ∉ writesOf s.cfg point i → a ∉ readsOf s.cfg i → (t.latches.get a).sr = (s.latches.get a).sr)) ∧
    (s.cfg.wf = true → s.MemOk →
      (∀ a, a ∉ writesOf s.cfg point i →
        (t.latches.get a).out = (s.latches.get a).out ∨ (a ∈ s.cfg.writeAddrs ∧ (t.latches.get a).out = .unknown)) ∧
      (∀ a, a ∉ writesOf s.cfg point i → a ∉ readsOf s.cfg i →
        (t.latches.get a).sr = (s.latches.get a).sr ∨ (a ∈ s.cfg.writeAddrs ∧ (t.latches.get a).sr = .unknown))) ∧
    (∀ dm lg rd, i = .lgAddr dm lg rd → t.latches = s.latches ∧ t.lines = s.lines ∧ t.haz = s.haz) ∧
    (∀ cat raw, i = .monConvert cat raw → t.latches = s.latches ∧ t.lines = s.lines ∧ t.haz = s.haz)

/-- The latch memory keeps its canonical form and lists groups of the board only (10_state.md R39, log 12). -/
def Obligations.StepKeepsMemory : Prop :=
  ∀ s t : State, s.MemOk → step s = .next t → t.MemOk

/-- No step leaves any other address on the address lines than a read or write address of a group of the board, the
reset level, or unknown after a failed drive (20_memory.md R62). -/
def Obligations.StepKeepsAddressLines : Prop :=
  ∀ s t : State, s.AddrOk → step s = .next t → t.AddrOk

/-- The scheduler's invariant (10_state.md R28, R29, R38, 60_exceptions.md R285 to R287, log 9): between steps nobody owns
the bus, a sweep in progress belongs to a pending `MON_SWEEP` at a point 1 to 9, and a place inside a `SW_SET` belongs to
a pending one of a non-atomic configuration and is in range. -/
def Obligations.StepKeepsSchedule : Prop :=
  ∀ s t : State, s.SchedOk → step s = .next t → t.SchedOk
end

