-- ==== Sys2Proof/Laws/Config.lean ====
section
/-! SUPPORT. Laws of the configuration: its well-formedness check taken apart, and the addresses of each family. -/

namespace Sys2Proof

variable {c : Config}

namespace Config

/-- A valid group, in words of its indices. -/
theorem validGroup_iff {g : Group} :
    c.validGroup g = true ↔ 1 ≤ g.dm ∧ g.dm ≤ c.ndm ∧ 1 ≤ g.lg ∧ g.lg ≤ 4 := by
  simp only [validGroup, Bool.and_eq_true, decide_eq_true_eq, and_assoc]
  rfl

theorem wf_iff : c.wf = true ↔ c.requestersOk = true ∧ c.familyOk = true ∧ c.addressesOk = true ∧ c.groupsOk = true ∧
    c.offsetsOk = true ∧ c.devicesOk = true ∧ c.sizesOk = true ∧ c.outputsOk = true ∧ c.settleOk = true ∧
    c.selectsOk = true := by
  simp only [wf, Bool.and_eq_true, and_assoc]

theorem familyOk_iff : c.familyOk = true ↔
    (c.family = .f80 ∧ c.ndm = 1 ∧ c.base = 80) ∨
      (c.family = .f8 ∧ c.ndm = 2 ∧ c.base = 8 ∧ (c.mb2 = some 16 ∨ c.mb2 = some 160)) := by
  cases h : c.family <;> simp [familyOk, h, and_assoc]

/-- The addresses of a one-module board (20_memory.md R61). -/
theorem addrs_f80 (hn : c.ndm = 1) (hb : c.base = 80) :
    c.writeAddrs = [80, 81, 82, 83] ∧ c.readAddrs = [84, 85, 86, 87] := by
  simp [writeAddrs, readAddrs, groups, hn, nlg, readAddr, writeAddr, mb, hb, List.range, List.range.loop]

/-- The addresses of a two-module board (20_memory.md R61). -/
theorem addrs_f8 {m : Nat} (hn : c.ndm = 2) (hb : c.base = 8) (hm : c.mb2 = some m) :
    c.writeAddrs = [8, 9, 10, 11, m, m + 1, m + 2, m + 3] ∧
      c.readAddrs = [12, 13, 14, 15, m + 4, m + 5, m + 6, m + 7] := by
  simp [writeAddrs, readAddrs, groups, hn, nlg, readAddr, writeAddr, mb, hb, hm, List.range, List.range.loop]

/-- The addresses of both families are in range and distinct. -/
theorem addressesOk_of_familyOk (h : c.familyOk = true) : c.addressesOk = true := by
  rcases familyOk_iff.1 h with ⟨-, hn, hb⟩ | ⟨-, hn, hb, hm | hm⟩
  · simp only [addressesOk, addrs_f80 hn hb]; decide
  · simp only [addressesOk, addrs_f8 hn hb hm]; decide
  · simp only [addressesOk, addrs_f8 hn hb hm]; decide

/-- The groups a well-formed device table names are valid. -/
theorem subGroups_valid (h : c.wf = true) {dev : Nat} {d : Device} (hd : c.device dev = some d) {u : SubSwitch}
    (hu : u ∈ d.subs) : c.validGroup u.ctlGrp = true ∧ c.validGroup u.rbGrp = true := by
  have hg := (wf_iff.1 h).2.2.2.1
  simp only [groupsOk, Bool.and_eq_true, List.all_eq_true, allSubs, List.mem_flatMap] at hg
  exact hg.1 u ⟨d, List.mem_of_getElem? hd, hu⟩

/-- The groups a well-formed monitor table names are valid. -/
theorem selectGroups_valid (h : c.wf = true) {e : MonEntry} (he : e ∈ c.montab) :
    c.validGroup e.selA.grp = true ∧ c.validGroup e.selB.grp = true := by
  have hg := (wf_iff.1 h).2.2.2.1
  simp only [groupsOk, Bool.and_eq_true, List.all_eq_true, allSelects, List.mem_flatMap] at hg
  exact ⟨hg.2 _ ⟨e, he, by simp⟩, hg.2 _ ⟨e, he, by simp⟩⟩

/-- A device of a well-formed table has one or two sub-switches. -/
theorem subs_length (h : c.wf = true) {dev : Nat} {d : Device} (hd : c.device dev = some d) :
    d.subs.length = 1 ∨ d.subs.length = 2 := by
  have hg := (wf_iff.1 h).2.2.2.2.2.1
  simp only [devicesOk, List.all_eq_true] at hg
  have := hg d (List.mem_of_getElem? hd)
  simp only [Device.subsOk, Bool.and_eq_true, Bool.or_eq_true, beq_iff_eq] at this
  exact this.1

/-- A monitor index of a well-formed table names an entry. -/
theorem monEntry_some (h : c.wf = true) {i : Nat} (h1 : 1 ≤ i) (h8 : i ≤ 8) :
    ∃ e, c.montab[i - 1]? = some e ∧ c.monEntry i = some e ∧ e ∈ c.montab := by
  have hg := (wf_iff.1 h).2.2.2.2.2.2.1
  simp only [sizesOk, Bool.and_eq_true, beq_iff_eq, nMon] at hg
  have hl : i - 1 < c.montab.length := by omega
  exact ⟨c.montab[i - 1], List.getElem?_eq_getElem hl, by simp [monEntry, nMon, h1, h8, hl], List.getElem_mem hl⟩

end Config

/-- The duplicate check says what `List.Nodup` says. -/
theorem distinct_iff {α : Type} [DecidableEq α] {l : List α} : distinct l = true ↔ l.Nodup := by
  induction l with
  | nil => simp [distinct]
  | cons a as ih => simp [distinct, ih]

end Sys2Proof
end

