-- ==== Sys2Proof/Laws/Memory.lean ====
section
/-! SUPPORT. Laws of the latch memory: reading after writing, and that every operation keeps the canonical form. -/

namespace Sys2Proof.Machine

/-- Every listed address is above `k`. -/
abbrev Memory.above (m : Memory) (k : Nat) : Prop := ∀ e ∈ m, k < e.1

theorem Memory.wf_cons {k : Nat} {v : Latch} {m : Memory} :
    Memory.wf ((k, v) :: m) = true ↔ v ≠ .unknown ∧ m.above k ∧ Memory.wf m = true := by
  simp [Memory.wf, Memory.above, and_assoc]

/-- Above every listed address a memory reads as unknown. -/
theorem Memory.get_of_above {m : Memory} {k a : Nat} (h : m.above k) (ha : a ≤ k) : m.get a = .unknown := by
  induction m with
  | nil => rfl
  | cons e m ih =>
    have he : k < e.1 := h e (by simp)
    have : e.1 ≠ a := by omega
    simp only [Memory.get, this, if_false]
    exact ih fun x hx => h x (List.mem_cons_of_mem _ hx)

/-- An address that is not listed reads as unknown. -/
theorem Memory.get_of_unlisted {m : Memory} {a : Nat} (h : ∀ e ∈ m, e.1 ≠ a) : m.get a = .unknown := by
  induction m with
  | nil => rfl
  | cons e m ih =>
    simp only [Memory.get, h e (by simp), if_false]
    exact ih fun x hx => h x (List.mem_cons_of_mem _ hx)

/-- No entry of a canonical memory is unknown. -/
theorem Memory.ne_unknown_of_mem {m : Memory} {e : Nat × Latch} (h : m.wf = true) (he : e ∈ m) : e.2 ≠ .unknown := by
  induction m with
  | nil => cases he
  | cons x m ih =>
    obtain ⟨hu, _, hw⟩ := Memory.wf_cons.1 h
    rcases List.mem_cons.1 he with rfl | he
    · exact hu
    · exact ih hw he

/-- An entry of the memory after a write is the written one or was there before. -/
theorem Memory.mem_set {m : Memory} {a : Nat} {v : Latch} {e : Nat × Latch} (h : e ∈ m.set a v) :
    e = (a, v) ∨ e ∈ m := by
  induction m with
  | nil =>
    simp only [Memory.set] at h
    split at h <;> simp_all
  | cons x m ih =>
    obtain ⟨k, u⟩ := x
    simp only [Memory.set] at h
    split at h
    · rcases List.mem_cons.1 h with h | h
      · exact .inr (by simp [h])
      · exact (ih h).imp id (List.mem_cons_of_mem _)
    · split at h <;> split at h <;> simp_all
      all_goals grind

theorem Memory.above_set {m : Memory} {k a : Nat} {v : Latch} (h : m.above k) (ha : k < a) : (m.set a v).above k := by
  intro e he
  rcases Memory.mem_set he with rfl | he
  · exact ha
  · exact h e he

/-- A write keeps the canonical form. -/
theorem Memory.wf_set {m : Memory} {a : Nat} {v : Latch} (h : m.wf = true) : (m.set a v).wf = true := by
  induction m with
  | nil =>
    simp only [Memory.set]
    split
    · rfl
    · simp [Memory.wf, *]
  | cons x m ih =>
    obtain ⟨k, u⟩ := x
    obtain ⟨hu, hm, hw⟩ := Memory.wf_cons.1 h
    simp only [Memory.set]
    split
    · exact Memory.wf_cons.2 ⟨hu, Memory.above_set hm ‹_›, ih hw⟩
    · split
      · split
        · exact hw
        · subst_vars
          exact Memory.wf_cons.2 ⟨‹_›, hm, hw⟩
      · split
        · exact h
        · refine Memory.wf_cons.2 ⟨‹_›, ?_, h⟩
          intro e he
          rcases List.mem_cons.1 he with rfl | he
          · simp only; omega
          · have := hm e he; omega

/-- Reading the written address gives what was written. -/
theorem Memory.get_set_self {m : Memory} {a : Nat} {v : Latch} (h : m.wf = true) : (m.set a v).get a = v := by
  induction m with
  | nil =>
    simp only [Memory.set]
    split
    · simp_all [Memory.get]
    · simp [Memory.get]
  | cons x m ih =>
    obtain ⟨k, u⟩ := x
    obtain ⟨_, hm, hw⟩ := Memory.wf_cons.1 h
    simp only [Memory.set]
    split
    · have : k ≠ a := by omega
      simp [Memory.get, this, ih hw]
    · split
      · split
        · subst_vars
          exact Memory.get_of_above hm (Nat.le_refl _)
        · simp [Memory.get]
      · split
        · subst_vars
          have : k ≠ a := ‹_›
          simp only [Memory.get, this, if_false]
          exact Memory.get_of_above hm (by omega)
        · simp [Memory.get]

/-- A write leaves every other address alone. -/
theorem Memory.get_set_other {m : Memory} {a b : Nat} {v : Latch} (hab : b ≠ a) : (m.set a v).get b = m.get b := by
  induction m with
  | nil =>
    simp only [Memory.set]
    split
    · rfl
    · simp [Memory.get, Ne.symm hab]
  | cons x m ih =>
    obtain ⟨k, u⟩ := x
    simp only [Memory.set]
    split
    · simp only [Memory.get, ih]
    · split
      · split
        · subst_vars
          simp [Memory.get, Ne.symm hab]
        · subst_vars
          simp [Memory.get, Ne.symm hab]
      · split
        · rfl
        · simp [Memory.get, Ne.symm hab]

/-- Reading after a write, at any address. -/
theorem Memory.get_set {m : Memory} {a b : Nat} {v : Latch} (h : m.wf = true) :
    (m.set a v).get b = if b = a then v else m.get b := by
  split
  · subst_vars; exact Memory.get_set_self h
  · exact Memory.get_set_other ‹_›

/-- Forgetting addresses keeps the canonical form and lists nothing new. -/
theorem Memory.wf_forget {as : List Nat} {m : Memory} (h : m.wf = true) :
    (as.foldl (fun m a => m.set a .unknown) m).wf = true := by
  induction as generalizing m with
  | nil => exact h
  | cons a as ih => exact ih (Memory.wf_set h)

/-- After forgetting addresses, each of them reads as unknown and every other one as before. -/
theorem Memory.get_forget {as : List Nat} {m : Memory} (h : m.wf = true) (b : Nat) :
    (as.foldl (fun m a => m.set a .unknown) m).get b = if b ∈ as then .unknown else m.get b := by
  induction as generalizing m with
  | nil => simp
  | cons a as ih =>
    simp only [List.foldl_cons, List.mem_cons]
    rw [ih (Memory.wf_set h), Memory.get_set h]
    by_cases hb : b = a <;> by_cases hb' : b ∈ as <;> simp [hb, hb']

/-- Two canonical memories that read the same are equal. -/
theorem Memory.ext_get {m n : Memory} (hm : m.wf = true) (hn : n.wf = true) (h : ∀ a, m.get a = n.get a) : m = n := by
  induction m generalizing n with
  | nil =>
    cases n with
    | nil => rfl
    | cons y n =>
      obtain ⟨l, w⟩ := y
      have := h l
      simp [Memory.get] at this
      exact absurd this.symm (Memory.wf_cons.1 hn).1
  | cons x m ih =>
    obtain ⟨k, u⟩ := x
    obtain ⟨hu, hma, hmw⟩ := Memory.wf_cons.1 hm
    cases n with
    | nil =>
      have := h k
      simp [Memory.get] at this
      exact absurd this hu
    | cons y n =>
      obtain ⟨l, w⟩ := y
      obtain ⟨hw, hna, hnw⟩ := Memory.wf_cons.1 hn
      have hkl : k = l := by
        rcases Nat.lt_trichotomy k l with hlt | heq | hgt
        · have h1 := h k
          have : l ≠ k := by omega
          simp only [Memory.get, this, if_true, if_false] at h1
          rw [Memory.get_of_above hna (by omega)] at h1
          exact absurd h1 hu
        · exact heq
        · have h1 := h l
          have : k ≠ l := by omega
          simp only [Memory.get, this, if_true, if_false] at h1
          rw [Memory.get_of_above hma (by omega)] at h1
          exact absurd h1.symm hw
      subst hkl
      have huw : u = w := by simpa [Memory.get] using h k
      subst huw
      refine congrArg _ (ih hmw hnw fun a => ?_)
      by_cases ha : k = a
      · subst ha
        rw [Memory.get_of_above hma (Nat.le_refl _), Memory.get_of_above hna (Nat.le_refl _)]
      · simpa [Memory.get, ha] using h a

/-- The later of two writes to one address wins. -/
theorem Memory.set_set {m : Memory} (hm : m.wf = true) {a : Nat} {v v' : Latch} :
    (m.set a v).set a v' = m.set a v' := by
  refine Memory.ext_get (Memory.wf_set (Memory.wf_set hm)) (Memory.wf_set hm) fun b => ?_
  rw [Memory.get_set (Memory.wf_set hm), Memory.get_set hm, Memory.get_set hm]
  split <;> rfl

end Sys2Proof.Machine
end

