-- ==== Sys2Proof/Laws/State.lean ====
section
/-! SUPPORT. The small lemmas of the state updates: one per field per update, so that no later proof unfolds a record
update. -/

namespace Sys2Proof.Machine

variable (s : State)

@[simp] theorem State.event_cfg (e : Event) : (s.event e).cfg = s.cfg := rfl
@[simp] theorem State.event_lines (e : Event) : (s.event e).lines = s.lines := rfl
@[simp] theorem State.event_latches (e : Event) : (s.event e).latches = s.latches := rfl
@[simp] theorem State.event_busOwner (e : Event) : (s.event e).busOwner = s.busOwner := rfl
@[simp] theorem State.event_haz (e : Event) : (s.event e).haz = s.haz := rfl
@[simp] theorem State.event_reqs (e : Event) : (s.event e).reqs = s.reqs := rfl
@[simp] theorem State.event_trace (e : Event) : (s.event e).trace = s.trace ++ [e] := rfl
@[simp] theorem State.event_log (e : Event) : (s.event e).log = s.log := rfl
@[simp] theorem State.event_env (e : Event) : (s.event e).env = s.env := rfl

@[simp] theorem State.record_cfg (r : LogRec) : (s.record r).cfg = s.cfg := rfl
@[simp] theorem State.record_lines (r : LogRec) : (s.record r).lines = s.lines := rfl
@[simp] theorem State.record_latches (r : LogRec) : (s.record r).latches = s.latches := rfl
@[simp] theorem State.record_busOwner (r : LogRec) : (s.record r).busOwner = s.busOwner := rfl
@[simp] theorem State.record_haz (r : LogRec) : (s.record r).haz = s.haz := rfl
@[simp] theorem State.record_reqs (r : LogRec) : (s.record r).reqs = s.reqs := rfl
@[simp] theorem State.record_trace (r : LogRec) : (s.record r).trace = s.trace := rfl
@[simp] theorem State.record_log (r : LogRec) : (s.record r).log = s.log ++ [r] := rfl
@[simp] theorem State.record_env (r : LogRec) : (s.record r).env = s.env := rfl

@[simp] theorem State.setHaz_cfg (b : BitVec 2) : (s.setHaz b).cfg = s.cfg := rfl
@[simp] theorem State.setHaz_lines (b : BitVec 2) : (s.setHaz b).lines = s.lines := rfl
@[simp] theorem State.setHaz_latches (b : BitVec 2) : (s.setHaz b).latches = s.latches := rfl
@[simp] theorem State.setHaz_busOwner (b : BitVec 2) : (s.setHaz b).busOwner = s.busOwner := rfl
@[simp] theorem State.setHaz_haz (b : BitVec 2) : (s.setHaz b).haz = s.haz ||| b := rfl
@[simp] theorem State.setHaz_reqs (b : BitVec 2) : (s.setHaz b).reqs = s.reqs := rfl
@[simp] theorem State.setHaz_trace (b : BitVec 2) : (s.setHaz b).trace = s.trace := rfl
@[simp] theorem State.setHaz_log (b : BitVec 2) : (s.setHaz b).log = s.log := rfl
@[simp] theorem State.setHaz_env (b : BitVec 2) : (s.setHaz b).env = s.env := rfl

@[simp] theorem State.setLine_cfg (n : Line) (v : Level) : (s.setLine n v).cfg = s.cfg := rfl
@[simp] theorem State.setLine_lines (n : Line) (v : Level) : (s.setLine n v).lines = s.lines.set n v := rfl
@[simp] theorem State.setLine_latches (n : Line) (v : Level) : (s.setLine n v).latches = s.latches := rfl
@[simp] theorem State.setLine_busOwner (n : Line) (v : Level) : (s.setLine n v).busOwner = s.busOwner := rfl
@[simp] theorem State.setLine_haz (n : Line) (v : Level) : (s.setLine n v).haz = s.haz := rfl
@[simp] theorem State.setLine_reqs (n : Line) (v : Level) : (s.setLine n v).reqs = s.reqs := rfl
@[simp] theorem State.setLine_trace (n : Line) (v : Level) : (s.setLine n v).trace = s.trace := rfl
@[simp] theorem State.setLine_log (n : Line) (v : Level) : (s.setLine n v).log = s.log := rfl
@[simp] theorem State.setLine_env (n : Line) (v : Level) : (s.setLine n v).env = s.env := rfl

@[simp] theorem State.loseAddr_cfg : s.loseAddr.cfg = s.cfg := rfl
@[simp] theorem State.loseAddr_lines : s.loseAddr.lines = { s.lines with addr := .unknown } := rfl
@[simp] theorem State.loseAddr_latches : s.loseAddr.latches = s.latches := rfl
@[simp] theorem State.loseAddr_busOwner : s.loseAddr.busOwner = s.busOwner := rfl
@[simp] theorem State.loseAddr_haz : s.loseAddr.haz = s.haz := rfl
@[simp] theorem State.loseAddr_reqs : s.loseAddr.reqs = s.reqs := rfl
@[simp] theorem State.loseAddr_trace : s.loseAddr.trace = s.trace := rfl
@[simp] theorem State.loseAddr_log : s.loseAddr.log = s.log := rfl
@[simp] theorem State.loseAddr_env : s.loseAddr.env = s.env := rfl

@[simp] theorem State.setOut_cfg (a : Nat) (v : LByte) : (s.setOut a v).cfg = s.cfg := rfl
@[simp] theorem State.setOut_lines (a : Nat) (v : LByte) : (s.setOut a v).lines = s.lines := rfl
@[simp] theorem State.setOut_latches (a : Nat) (v : LByte) : (s.setOut a v).latches = s.latches.set a { s.latches.get a with out := v } := rfl
@[simp] theorem State.setOut_busOwner (a : Nat) (v : LByte) : (s.setOut a v).busOwner = s.busOwner := rfl
@[simp] theorem State.setOut_haz (a : Nat) (v : LByte) : (s.setOut a v).haz = s.haz := rfl
@[simp] theorem State.setOut_reqs (a : Nat) (v : LByte) : (s.setOut a v).reqs = s.reqs := rfl
@[simp] theorem State.setOut_trace (a : Nat) (v : LByte) : (s.setOut a v).trace = s.trace := rfl
@[simp] theorem State.setOut_log (a : Nat) (v : LByte) : (s.setOut a v).log = s.log := rfl
@[simp] theorem State.setOut_env (a : Nat) (v : LByte) : (s.setOut a v).env = s.env := rfl

@[simp] theorem State.setSr_cfg (a : Nat) (v : LByte) : (s.setSr a v).cfg = s.cfg := rfl
@[simp] theorem State.setSr_lines (a : Nat) (v : LByte) : (s.setSr a v).lines = s.lines := rfl
@[simp] theorem State.setSr_latches (a : Nat) (v : LByte) : (s.setSr a v).latches = s.latches.set a { s.latches.get a with sr := v } := rfl
@[simp] theorem State.setSr_busOwner (a : Nat) (v : LByte) : (s.setSr a v).busOwner = s.busOwner := rfl
@[simp] theorem State.setSr_haz (a : Nat) (v : LByte) : (s.setSr a v).haz = s.haz := rfl
@[simp] theorem State.setSr_reqs (a : Nat) (v : LByte) : (s.setSr a v).reqs = s.reqs := rfl
@[simp] theorem State.setSr_trace (a : Nat) (v : LByte) : (s.setSr a v).trace = s.trace := rfl
@[simp] theorem State.setSr_log (a : Nat) (v : LByte) : (s.setSr a v).log = s.log := rfl
@[simp] theorem State.setSr_env (a : Nat) (v : LByte) : (s.setSr a v).env = s.env := rfl

@[simp] theorem State.forget_cfg (a : Nat) : (s.forget a).cfg = s.cfg := rfl
@[simp] theorem State.forget_lines (a : Nat) : (s.forget a).lines = s.lines := rfl
@[simp] theorem State.forget_latches (a : Nat) : (s.forget a).latches = s.latches.set a .unknown := rfl
@[simp] theorem State.forget_busOwner (a : Nat) : (s.forget a).busOwner = s.busOwner := rfl
@[simp] theorem State.forget_haz (a : Nat) : (s.forget a).haz = s.haz := rfl
@[simp] theorem State.forget_reqs (a : Nat) : (s.forget a).reqs = s.reqs := rfl
@[simp] theorem State.forget_trace (a : Nat) : (s.forget a).trace = s.trace := rfl
@[simp] theorem State.forget_log (a : Nat) : (s.forget a).log = s.log := rfl
@[simp] theorem State.forget_env (a : Nat) : (s.forget a).env = s.env := rfl

@[simp] theorem State.forgetAll_cfg : s.forgetAll.cfg = s.cfg := rfl
@[simp] theorem State.forgetAll_lines : s.forgetAll.lines = s.lines := rfl
@[simp] theorem State.forgetAll_latches : s.forgetAll.latches = s.cfg.writeAddrs.foldl (fun m a => m.set a .unknown) s.latches := rfl
@[simp] theorem State.forgetAll_busOwner : s.forgetAll.busOwner = s.busOwner := rfl
@[simp] theorem State.forgetAll_haz : s.forgetAll.haz = s.haz := rfl
@[simp] theorem State.forgetAll_reqs : s.forgetAll.reqs = s.reqs := rfl
@[simp] theorem State.forgetAll_trace : s.forgetAll.trace = s.trace := rfl
@[simp] theorem State.forgetAll_log : s.forgetAll.log = s.log := rfl
@[simp] theorem State.forgetAll_env : s.forgetAll.env = s.env := rfl

@[simp] theorem State.setReq_cfg (q : Nat) (r : Requester) : (s.setReq q r).cfg = s.cfg := rfl
@[simp] theorem State.setReq_lines (q : Nat) (r : Requester) : (s.setReq q r).lines = s.lines := rfl
@[simp] theorem State.setReq_latches (q : Nat) (r : Requester) : (s.setReq q r).latches = s.latches := rfl
@[simp] theorem State.setReq_busOwner (q : Nat) (r : Requester) : (s.setReq q r).busOwner = s.busOwner := rfl
@[simp] theorem State.setReq_haz (q : Nat) (r : Requester) : (s.setReq q r).haz = s.haz := rfl
@[simp] theorem State.setReq_reqs (q : Nat) (r : Requester) : (s.setReq q r).reqs = s.reqs.set q r := rfl
@[simp] theorem State.setReq_trace (q : Nat) (r : Requester) : (s.setReq q r).trace = s.trace := rfl
@[simp] theorem State.setReq_log (q : Nat) (r : Requester) : (s.setReq q r).log = s.log := rfl
@[simp] theorem State.setReq_env (q : Nat) (r : Requester) : (s.setReq q r).env = s.env := rfl

@[simp] theorem State.countDraw_cfg : s.countDraw.cfg = s.cfg := rfl
@[simp] theorem State.countDraw_lines : s.countDraw.lines = s.lines := rfl
@[simp] theorem State.countDraw_latches : s.countDraw.latches = s.latches := rfl
@[simp] theorem State.countDraw_busOwner : s.countDraw.busOwner = s.busOwner := rfl
@[simp] theorem State.countDraw_haz : s.countDraw.haz = s.haz := rfl
@[simp] theorem State.countDraw_reqs : s.countDraw.reqs = s.reqs := rfl
@[simp] theorem State.countDraw_trace : s.countDraw.trace = s.trace := rfl
@[simp] theorem State.countDraw_log : s.countDraw.log = s.log := rfl
@[simp] theorem State.countDraw_env : s.countDraw.env = { s.env with drawn := s.env.drawn + 1 } := rfl

@[simp] theorem State.release_cfg : s.release.cfg = s.cfg := rfl
@[simp] theorem State.release_lines : s.release.lines = s.lines := rfl
@[simp] theorem State.release_latches : s.release.latches = s.latches := rfl
@[simp] theorem State.release_busOwner : s.release.busOwner = none := rfl
@[simp] theorem State.release_haz : s.release.haz = s.haz := rfl
@[simp] theorem State.release_reqs : s.release.reqs = s.reqs := rfl
@[simp] theorem State.release_trace : s.release.trace = s.trace := rfl
@[simp] theorem State.release_log : s.release.log = s.log := rfl
@[simp] theorem State.release_env : s.release.env = s.env := rfl

/-! A requester's record after an update. -/

@[simp] theorem State.event_req (e : Event) (p : Nat) : (s.event e).req p = s.req p := rfl
@[simp] theorem State.record_req (r : LogRec) (p : Nat) : (s.record r).req p = s.req p := rfl
@[simp] theorem State.setHaz_req (b : BitVec 2) (p : Nat) : (s.setHaz b).req p = s.req p := rfl
@[simp] theorem State.setLine_req (n : Line) (v : Level) (p : Nat) : (s.setLine n v).req p = s.req p := rfl
@[simp] theorem State.loseAddr_req (p : Nat) : s.loseAddr.req p = s.req p := rfl
@[simp] theorem State.setOut_req (a : Nat) (v : LByte) (p : Nat) : (s.setOut a v).req p = s.req p := rfl
@[simp] theorem State.setSr_req (a : Nat) (v : LByte) (p : Nat) : (s.setSr a v).req p = s.req p := rfl
@[simp] theorem State.forget_req (a : Nat) (p : Nat) : (s.forget a).req p = s.req p := rfl
@[simp] theorem State.forgetAll_req (p : Nat) : s.forgetAll.req p = s.req p := rfl
@[simp] theorem State.countDraw_req (p : Nat) : s.countDraw.req p = s.req p := rfl
@[simp] theorem State.release_req (p : Nat) : s.release.req p = s.req p := rfl

theorem State.setReq_req_self (q : Nat) (r : Requester) (h : q < s.reqs.length) : (s.setReq q r).req q = r := by
  simp [State.req, h]

theorem State.setReq_req_other (q p : Nat) (r : Requester) (h : p ≠ q) : (s.setReq q r).req p = s.req p := by
  simp [State.req, List.getElem?_set_ne (Ne.symm h)]

/-! Levels of lines. -/

@[simp] theorem Lines.set_clk_addr (l : Lines) (v : Level) : (l.set .clk v).addr = l.addr := rfl
@[simp] theorem Lines.set_clk_clk (l : Lines) (v : Level) : (l.set .clk v).clk = v := rfl
@[simp] theorem Lines.set_clk_din (l : Lines) (v : Level) : (l.set .clk v).din = l.din := rfl
@[simp] theorem Lines.set_clk_load (l : Lines) (v : Level) : (l.set .clk v).load = l.load := rfl
@[simp] theorem Lines.set_clk_busen (l : Lines) (v : Level) : (l.set .clk v).busen = l.busen := rfl
@[simp] theorem Lines.set_din_addr (l : Lines) (v : Level) : (l.set .din v).addr = l.addr := rfl
@[simp] theorem Lines.set_din_clk (l : Lines) (v : Level) : (l.set .din v).clk = l.clk := rfl
@[simp] theorem Lines.set_din_din (l : Lines) (v : Level) : (l.set .din v).din = v := rfl
@[simp] theorem Lines.set_din_load (l : Lines) (v : Level) : (l.set .din v).load = l.load := rfl
@[simp] theorem Lines.set_din_busen (l : Lines) (v : Level) : (l.set .din v).busen = l.busen := rfl
@[simp] theorem Lines.set_load_addr (l : Lines) (v : Level) : (l.set .load v).addr = l.addr := rfl
@[simp] theorem Lines.set_load_clk (l : Lines) (v : Level) : (l.set .load v).clk = l.clk := rfl
@[simp] theorem Lines.set_load_din (l : Lines) (v : Level) : (l.set .load v).din = l.din := rfl
@[simp] theorem Lines.set_load_load (l : Lines) (v : Level) : (l.set .load v).load = v := rfl
@[simp] theorem Lines.set_load_busen (l : Lines) (v : Level) : (l.set .load v).busen = l.busen := rfl
@[simp] theorem Lines.set_busen_addr (l : Lines) (v : Level) : (l.set .busen v).addr = l.addr := rfl
@[simp] theorem Lines.set_busen_clk (l : Lines) (v : Level) : (l.set .busen v).clk = l.clk := rfl
@[simp] theorem Lines.set_busen_din (l : Lines) (v : Level) : (l.set .busen v).din = l.din := rfl
@[simp] theorem Lines.set_busen_load (l : Lines) (v : Level) : (l.set .busen v).load = l.load := rfl
@[simp] theorem Lines.set_busen_busen (l : Lines) (v : Level) : (l.set .busen v).busen = v := rfl
@[simp] theorem Lines.set_a_addr (l : Lines) (i : Fin 8) (v : Level) : (l.set (.a i) v).addr = l.addr.set i v := rfl
@[simp] theorem Lines.set_a_clk (l : Lines) (i : Fin 8) (v : Level) : (l.set (.a i) v).clk = l.clk := rfl
@[simp] theorem Lines.set_a_din (l : Lines) (i : Fin 8) (v : Level) : (l.set (.a i) v).din = l.din := rfl
@[simp] theorem Lines.set_a_load (l : Lines) (i : Fin 8) (v : Level) : (l.set (.a i) v).load = l.load := rfl
@[simp] theorem Lines.set_a_busen (l : Lines) (i : Fin 8) (v : Level) : (l.set (.a i) v).busen = l.busen := rfl

end Sys2Proof.Machine
end

