-- ==== Sys2Proof/Laws/Evolves.lean ====
section
/-! SUPPORT. Everything a part of a command can do to the state, said once: it leaves the configuration, the requesters,
the bus owner and the launch premises alone, sets hazard bits but clears none, appends pin events and log records, and
keeps the latch memory canonical. One lemma per shared operation. -/

namespace Sys2Proof.Machine

/-- What any part of a command may do between `s` and `t`. -/
structure Evolves (s t : State) : Prop where
  cfg : t.cfg = s.cfg
  reqs : t.reqs = s.reqs
  owner : t.busOwner = s.busOwner
  premises : SamePremises s t
  haz : ∃ b, t.haz = s.haz ||| b
  trace : ∃ seg, t.trace = s.trace ++ seg ∧ ∀ e ∈ seg, e.isPin = true
  log : ∃ seg, t.log = s.log ++ seg
  mem : s.MemOk → t.MemOk

namespace Evolves

variable {s t u : State}

theorem refl (s : State) : Evolves s s where
  cfg := rfl
  reqs := rfl
  owner := rfl
  premises := ⟨rfl, rfl, rfl⟩
  haz := ⟨0#2, by simp⟩
  trace := ⟨[], by simp⟩
  log := ⟨[], by simp⟩
  mem := id

theorem trans (h : Evolves s t) (k : Evolves t u) : Evolves s u where
  cfg := k.cfg.trans h.cfg
  reqs := k.reqs.trans h.reqs
  owner := k.owner.trans h.owner
  premises := ⟨k.premises.1.trans h.premises.1, k.premises.2.1.trans h.premises.2.1,
    k.premises.2.2.trans h.premises.2.2⟩
  haz := by
    obtain ⟨b, hb⟩ := h.haz
    obtain ⟨c, hc⟩ := k.haz
    exact ⟨b ||| c, by rw [hc, hb, BitVec.or_assoc]⟩
  trace := by
    obtain ⟨x, hx, px⟩ := h.trace
    obtain ⟨y, hy, py⟩ := k.trace
    refine ⟨x ++ y, by rw [hy, hx, List.append_assoc], fun e he => ?_⟩
    rcases List.mem_append.1 he with he | he
    · exact px e he
    · exact py e he
  log := by
    obtain ⟨x, hx⟩ := h.log
    obtain ⟨y, hy⟩ := k.log
    exact ⟨x ++ y, by rw [hy, hx, List.append_assoc]⟩
  mem := k.mem ∘ h.mem

/-- A step that touches lines and environment answers only. -/
theorem of_lines_env (hc : t.cfg = s.cfg) (hr : t.reqs = s.reqs) (ho : t.busOwner = s.busOwner)
    (hp : SamePremises s t) (hh : t.haz = s.haz) (ht : t.trace = s.trace) (hl : t.log = s.log)
    (hm : t.latches = s.latches) : Evolves s t where
  cfg := hc
  reqs := hr
  owner := ho
  premises := hp
  haz := ⟨0#2, by simp [hh]⟩
  trace := ⟨[], by simp [ht]⟩
  log := ⟨[], by simp [hl]⟩
  mem := by
    intro h
    simpa [State.MemOk, hc, hm] using h

theorem event (s : State) (e : Event) (he : e.isPin = true) : Evolves s (s.event e) where
  cfg := rfl
  reqs := rfl
  owner := rfl
  premises := ⟨rfl, rfl, rfl⟩
  haz := ⟨0#2, by simp⟩
  trace := ⟨[e], rfl, by simpa using he⟩
  log := ⟨[], by simp⟩
  mem := id

theorem record (s : State) (r : LogRec) : Evolves s (s.record r) where
  cfg := rfl
  reqs := rfl
  owner := rfl
  premises := ⟨rfl, rfl, rfl⟩
  haz := ⟨0#2, by simp⟩
  trace := ⟨[], by simp⟩
  log := ⟨[r], rfl⟩
  mem := id

theorem setHaz (s : State) (b : BitVec 2) : Evolves s (s.setHaz b) where
  cfg := rfl
  reqs := rfl
  owner := rfl
  premises := ⟨rfl, rfl, rfl⟩
  haz := ⟨b, rfl⟩
  trace := ⟨[], by simp⟩
  log := ⟨[], by simp⟩
  mem := id

theorem setLine (s : State) (n : Line) (v : Level) : Evolves s (s.setLine n v) :=
  of_lines_env rfl rfl rfl ⟨rfl, rfl, rfl⟩ rfl rfl rfl rfl

theorem loseAddr (s : State) : Evolves s s.loseAddr :=
  of_lines_env rfl rfl rfl ⟨rfl, rfl, rfl⟩ rfl rfl rfl rfl

/-- A write of latch contents at an address of the board. -/
theorem setLatches (s : State) (a : Nat) (v : Latch) (ha : a ∈ s.cfg.writeAddrs ∨ v = .unknown) :
    Evolves s { s with latches := s.latches.set a v } where
  cfg := rfl
  reqs := rfl
  owner := rfl
  premises := ⟨rfl, rfl, rfl⟩
  haz := ⟨0#2, by simp⟩
  trace := ⟨[], by simp⟩
  log := ⟨[], by simp⟩
  mem := by
    rintro ⟨hw, hb⟩
    refine ⟨Memory.wf_set hw, fun e he => ?_⟩
    rcases ha with ha | rfl
    · rcases Memory.mem_set he with rfl | he
      · exact ha
      · exact hb e he
    · rcases Memory.mem_set he with rfl | he'
      · exact absurd rfl (Memory.ne_unknown_of_mem (Memory.wf_set hw) he)
      · exact hb e he'

theorem setOut (s : State) (a : Nat) (v : LByte) (ha : a ∈ s.cfg.writeAddrs) : Evolves s (s.setOut a v) :=
  setLatches s a _ (.inl ha)

theorem setSr (s : State) (a : Nat) (v : LByte) (ha : a ∈ s.cfg.writeAddrs) : Evolves s (s.setSr a v) :=
  setLatches s a _ (.inl ha)

theorem forget (s : State) (a : Nat) : Evolves s (s.forget a) := setLatches s a _ (.inr rfl)

/-- Forgetting the outputs at any address: off the board there is nothing to forget. -/
theorem forgetOut (s : State) (a : Nat) : Evolves s (s.setOut a .unknown) where
  cfg := rfl
  reqs := rfl
  owner := rfl
  premises := ⟨rfl, rfl, rfl⟩
  haz := ⟨0#2, by simp⟩
  trace := ⟨[], by simp⟩
  log := ⟨[], by simp⟩
  mem := by
    intro h
    by_cases ha : a ∈ s.cfg.writeAddrs
    · exact (setOut s a _ ha).mem h
    · have hg : s.latches.get a = .unknown := Memory.get_of_unlisted fun e he hea => ha (hea ▸ h.2 e he)
      have : s.setOut a .unknown = s.forget a := by simp only [State.setOut, State.forget, hg]; rfl
      rw [this]
      exact (forget s a).mem h

theorem forgetAll (s : State) : Evolves s s.forgetAll := by
  suffices h : ∀ (as : List Nat) (s : State),
      Evolves s { s with latches := as.foldl (fun m a => m.set a .unknown) s.latches } from h _ s
  intro as
  induction as with
  | nil => exact fun s => refl s
  | cons a as ih => exact fun s => (setLatches s a .unknown (.inr rfl)).trans (ih _)

end Evolves

/-! ## Draws -/

theorem State.ioDraw_evolves (s : State) : Evolves s s.ioDraw.2 := by
  unfold State.ioDraw
  split
  · exact .refl s
  · split <;> exact .of_lines_env rfl rfl rfl ⟨rfl, rfl, rfl⟩ rfl rfl rfl rfl

theorem State.portDraw_evolves (s : State) : Evolves s s.portDraw.2 := by
  unfold State.portDraw
  split <;> exact .of_lines_env rfl rfl rfl ⟨rfl, rfl, rfl⟩ rfl rfl rfl rfl

theorem State.senseDraw_evolves (s : State) : Evolves s s.senseDraw.2 := by
  unfold State.senseDraw
  split <;> exact .of_lines_env rfl rfl rfl ⟨rfl, rfl, rfl⟩ rfl rfl rfl rfl

theorem State.soutDraw_evolves (s : State) : Evolves s s.soutDraw.2 := by
  unfold State.soutDraw
  split <;> exact .of_lines_env rfl rfl rfl ⟨rfl, rfl, rfl⟩ rfl rfl rfl rfl

theorem State.readByteDraw_evolves (s : State) : Evolves s s.readByteDraw.2 := by
  unfold State.readByteDraw
  split <;> exact .of_lines_env rfl rfl rfl ⟨rfl, rfl, rfl⟩ rfl rfl rfl rfl

theorem State.voltsDraw_evolves (s : State) : Evolves s s.voltsDraw.2 := by
  unfold State.voltsDraw
  split <;> exact .of_lines_env rfl rfl rfl ⟨rfl, rfl, rfl⟩ rfl rfl rfl rfl

theorem State.portAnswer_evolves (s : State) : Evolves s s.portAnswer.2 := by
  unfold State.portAnswer
  split
  · split
    · exact .refl s
    · exact s.portDraw_evolves
  · exact s.portDraw_evolves

theorem State.soutAnswer_evolves (s : State) : Evolves s s.soutAnswer.2 := by
  unfold State.soutAnswer
  split
  · exact s.soutDraw_evolves
  · split
    · exact .refl s
    · exact s.soutDraw_evolves

theorem State.sense_evolves (s : State) (w : Nat) : Evolves s (s.sense w).2 := by
  unfold State.sense
  split
  · split
    · exact .refl s
    · exact s.senseDraw_evolves
  · exact s.senseDraw_evolves

/-! ## Device edges -/

theorem State.atWrite_mem {s : State} {w : Nat} (h : s.atWrite = some w) : w ∈ s.cfg.writeAddrs :=
  List.mem_of_find?_eq_some h

theorem State.atRead_mem {s : State} {w : Nat} (h : s.atRead = some w) : w ∈ s.cfg.writeAddrs :=
  List.mem_of_find?_eq_some h

theorem State.writeSelected_mem {s : State} {w : Nat} (h : s.writeSelected = some w) : w ∈ s.cfg.writeAddrs := by
  unfold State.writeSelected at h
  split at h
  · exact State.atWrite_mem h
  · cases h

theorem State.readSelected_mem {s : State} {w : Nat} (h : s.readSelected = some w) : w ∈ s.cfg.writeAddrs := by
  unfold State.readSelected at h
  split at h
  · exact State.atRead_mem h
  · cases h

theorem State.shiftSelected_evolves (s : State) : Evolves s s.shiftSelected := by
  unfold State.shiftSelected
  split
  · exact .setSr _ _ _ (State.writeSelected_mem ‹_›)
  · split
    · exact .setSr _ _ _ (State.readSelected_mem ‹_›)
    · exact .refl s

theorem State.capture_evolves (s : State) : Evolves s s.capture := by
  unfold State.capture
  split
  · exact .refl s
  · rename_i w hw
    split
    · refine (s.sense_evolves w).trans (.setSr _ _ _ ?_)
      rw [(s.sense_evolves w).cfg]
      exact State.atRead_mem hw
    · exact .setSr _ _ _ (State.atRead_mem hw)

theorem State.transfer_evolves (s : State) : Evolves s s.transfer := by
  unfold State.transfer
  split
  · exact .setOut _ _ _ (State.atWrite_mem ‹_›)
  · exact .refl s

theorem State.edge_evolves (s : State) (n : Line) (old : Level) (v : Bool) : Evolves s (s.edge n old v) := by
  unfold State.edge
  split
  · cases n with
    | a i => exact .refl s
    | clk => exact s.shiftSelected_evolves
    | din => exact .refl s
    | load => exact s.capture_evolves
    | busen => exact s.transfer_evolves
  · exact .refl s

theorem State.moveLine_evolves (s : State) (n : Line) (v : Bool) : Evolves s (s.moveLine n v) :=
  (Evolves.setLine s n _).trans (State.edge_evolves _ _ _ _)

/-! ## Parts of a command -/

/-- The state a part of a command leaves, whether it ends with a value or with a failure. -/
def after {α : Type} : EStateM.Result Failure State α → State
  | .ok _ t => t
  | .error _ t => t

/-- A part of a command evolves the state, from every state. -/
def Run.Evolving {α : Type} (m : Run α) : Prop := ∀ s, Evolves s (after (m s))

namespace Run.Evolving

variable {α β : Type}

theorem pure (a : α) : Run.Evolving (Pure.pure a : Run α) := fun s => .refl s

theorem bind {m : Run α} {f : α → Run β} (hm : Run.Evolving m) (hf : ∀ a, Run.Evolving (f a)) :
    Run.Evolving (m >>= f) := by
  intro s
  have h := hm s
  show Evolves s (after (EStateM.bind m f s))
  unfold EStateM.bind
  split
  · rename_i a t e
    rw [e] at h
    exact h.trans (hf a t)
  · rename_i a t e
    rw [e] at h
    exact h

theorem onFailure {m : Run α} {f : State → State} (hm : Run.Evolving m) (hf : ∀ s, Evolves s (f s)) :
    Run.Evolving (onFailure f m) := by
  intro s
  have h := hm s
  unfold Machine.onFailure
  split
  · rename_i a t e
    rw [e] at h
    exact h
  · rename_i a t e
    rw [e] at h
    exact h.trans (hf t)

end Run.Evolving

theorem pinOp_evolving {α : Type} {work : State → α × State} {failed : State → State}
    (hw : ∀ s, Evolves s (work s).2) (hf : ∀ s, Evolves s (failed s)) : Run.Evolving (pinOp work failed) := by
  intro s
  unfold pinOp
  split
  · exact s.ioDraw_evolves.trans (hw _)
  · exact s.ioDraw_evolves.trans (hf _)

theorem drive_evolving (n : Line) (v : Bool) : Run.Evolving (drive n v) :=
  pinOp_evolving (fun s => (State.moveLine_evolves s n v).trans (.event _ _ rfl))
    (fun s => ((Evolves.setLine s n _).trans (.event _ _ rfl)).trans (.record _ _))

theorem readPort_evolving : Run.Evolving readPort :=
  pinOp_evolving (fun s => s.portAnswer_evolves.trans (.event _ _ rfl)) fun s => (Evolves.event s _ rfl).trans (.record _ _)

theorem readIn_evolving : Run.Evolving readIn :=
  pinOp_evolving (fun s => s.soutAnswer_evolves.trans (.event _ _ rfl)) fun s => (Evolves.event s _ rfl).trans (.record _ _)

theorem readAnalog_evolving (ch : Nat) : Run.Evolving (readAnalog ch) :=
  pinOp_evolving (fun s => s.voltsDraw_evolves.trans (.event _ _ rfl)) fun s => (Evolves.event s _ rfl).trans (.record _ _)

theorem settle_evolving : Run.Evolving settle := fun s => .event s _ rfl

theorem orBadIndex_evolving {α : Type} (o : Option α) : Run.Evolving (orBadIndex o) := by
  intro s
  unfold orBadIndex
  split <;> exact .refl s

theorem checkGroup_evolving (g : Group) : Run.Evolving (checkGroup g) := by
  intro s
  unfold checkGroup
  split <;> exact .refl s

theorem checkDev_evolving (dev : Nat) : Run.Evolving (checkDev dev) := fun s => orBadIndex_evolving _ s

theorem resolveOff_evolving (off : Off) (band chain : Nat) : Run.Evolving (resolveOff off band chain) :=
  fun s => orBadIndex_evolving _ s

theorem checkMon_evolving (i : Nat) : Run.Evolving (checkMon i) := fun s => orBadIndex_evolving _ s

theorem driveAddrLines_evolving (v : Byte) (is : List (Fin 8)) : Run.Evolving (driveAddrLines v is) := by
  induction is with
  | nil => exact .pure _
  | cons i is ih => exact (drive_evolving _ _).bind fun _ => ih

theorem driveAddr_evolving (a : Nat) : Run.Evolving (driveAddr a) :=
  ((driveAddrLines_evolving _ _).onFailure Evolves.loseAddr).bind fun _ => settle_evolving

theorem startTransaction_evolving : Run.Evolving startTransaction := by
  intro s
  unfold startTransaction
  split
  · exact .refl s
  · exact (Evolves.setHaz s _).trans (.forgetAll _)

theorem mismatch_evolving (sent : Nat) (rb : Byte) : Run.Evolving (mismatch sent rb) := fun s => .record s _

theorem verify_evolving (sent : Nat) (accepted : List Nat) : Run.Evolving (verify sent accepted) := by
  refine readPort_evolving.bind fun rb => ?_
  split
  · exact .pure _
  · exact mismatch_evolving _ _

theorem writeBit_evolving (v : Bool) : Run.Evolving (writeBit v) :=
  (drive_evolving _ _).bind fun _ => (drive_evolving _ _).bind fun _ => (drive_evolving _ _).bind fun _ => settle_evolving

theorem writeBits_evolving (vs : List Bool) : Run.Evolving (writeBits vs) := by
  induction vs with
  | nil => exact .pure _
  | cons v vs ih => exact (writeBit_evolving v).bind fun _ => ih

theorem sendByte_evolving (b : Byte) : Run.Evolving (sendByte b) :=
  (drive_evolving _ _).bind fun _ => settle_evolving.bind fun _ => (writeBits_evolving _).bind fun _ =>
    (drive_evolving _ _).bind fun _ => settle_evolving

theorem forgetOutIf_evolving (dirty : Bool) (w : Nat) : Run.Evolving (forgetOutIf dirty w) := by
  intro s
  cases dirty with
  | false => exact .refl s
  | true => exact .forgetOut s w

theorem writeAddrOf_evolving (g : Group) : Run.Evolving (writeAddrOf g) := fun s => .refl s

theorem latchWrite_evolving (g : Group) (b : Byte) : Run.Evolving (latchWrite g b) :=
  (checkGroup_evolving g).bind fun _ => (writeAddrOf_evolving g).bind fun _ => startTransaction_evolving.bind fun _ =>
    (driveAddr_evolving _).bind fun _ => (verify_evolving _ _).bind fun _ =>
      ((sendByte_evolving b).onFailure fun s => .forget s _).bind fun _ => forgetOutIf_evolving _ _

theorem checkLoadHazard_evolving : Run.Evolving checkLoadHazard := by
  intro s
  unfold checkLoadHazard
  simp only [after]
  split
  · exact .refl s
  · exact .setHaz s _

theorem readBits_evolving (n : Nat) : Run.Evolving (readBits n) := by
  induction n with
  | zero => exact readIn_evolving.bind fun _ => .pure _
  | succ n ih =>
    exact readIn_evolving.bind fun _ => (drive_evolving _ _).bind fun _ => (drive_evolving _ _).bind fun _ =>
      settle_evolving.bind fun _ => ih.bind fun _ => .pure _

theorem receiveByte_evolving : Run.Evolving receiveByte :=
  (drive_evolving _ _).bind fun _ => (drive_evolving _ _).bind fun _ => settle_evolving.bind fun _ =>
    (drive_evolving _ _).bind fun _ => settle_evolving.bind fun _ => (readBits_evolving _).bind fun _ =>
      (drive_evolving _ _).bind fun _ => settle_evolving.bind fun _ => .pure _

theorem drawIf_evolving (dirty : Bool) (v : Byte) : Run.Evolving (drawIf dirty v) := by
  intro s
  cases dirty with
  | false => exact .refl s
  | true => exact s.readByteDraw_evolves

theorem latchRead_evolving (g : Group) : Run.Evolving (latchRead g) :=
  (checkGroup_evolving g).bind fun _ => (writeAddrOf_evolving g).bind fun _ => startTransaction_evolving.bind fun _ =>
    (driveAddr_evolving _).bind fun _ => (verify_evolving _ _).bind fun _ => checkLoadHazard_evolving.bind fun _ =>
      receiveByte_evolving.bind fun _ => drawIf_evolving _ _

/-! ## Bodies of the commands -/

theorem lgAddr_evolving (g : Group) (rd : Bool) : Run.Evolving (lgAddr g rd) :=
  (checkGroup_evolving g).bind fun _ => fun s => .refl s

theorem lgWrite_evolving (g : Group) (b : Byte) : Run.Evolving (lgWrite g b) :=
  (latchWrite_evolving g b).bind fun _ => .pure _

theorem lgRead_evolving (g : Group) : Run.Evolving (lgRead g) := (latchRead_evolving g).bind fun _ => .pure _

theorem resolveReadback_evolving (band chain : Nat) (ss : List SubSwitch) :
    Run.Evolving (resolveReadback band chain ss) := by
  induction ss with
  | nil => exact .pure _
  | cons s ss ih => exact (resolveOff_evolving _ _ _).bind fun _ => ih.bind fun _ => .pure _

theorem resolveControl_evolving (band chain : Nat) (ss : List SubSwitch) :
    Run.Evolving (resolveControl band chain ss) := by
  induction ss with
  | nil => exact .pure _
  | cons s ss ih =>
    exact (resolveOff_evolving _ _ _).bind fun _ => (resolveOff_evolving _ _ _).bind fun _ => ih.bind fun _ => .pure _

theorem readSub_evolving (s : SubSwitch) (o : Nat) : Run.Evolving (readSub s o) :=
  (latchRead_evolving _).bind fun _ => .pure _

theorem readSubs_evolving (ss : List (SubSwitch × Nat)) : Run.Evolving (readSubs ss) := by
  induction ss with
  | nil => exact .pure _
  | cons s ss ih => exact (readSub_evolving _ _).bind fun _ => ih.bind fun _ => .pure _

theorem agree_evolving (dev : Nat) (sts : List Bool) : Run.Evolving (agree dev sts) := by
  match sts with
  | [] => exact fun s => .refl s
  | [_] => exact .pure _
  | [st0, st1] =>
    show Run.Evolving (if st0 = st1 then pure (.ofState st0) else disagree dev st0 st1)
    split
    · exact .pure _
    · exact fun s => .record s _
  | _ :: _ :: _ :: _ => exact fun s => .refl s

theorem swGet_evolving (dev band chain : Nat) : Run.Evolving (swGet dev band chain) :=
  (checkDev_evolving dev).bind fun _ => (resolveReadback_evolving _ _ _).bind fun _ =>
    (readSubs_evolving _).bind fun _ => agree_evolving _ _

theorem writeSubs_evolving (st : Bool) (ss : List (SubSwitch × Nat)) : Run.Evolving (writeSubs st ss) := by
  induction ss with
  | nil => exact .pure _
  | cons s ss ih => exact (latchRead_evolving _).bind fun _ => (latchWrite_evolving _ _).bind fun _ => ih

theorem swSet_evolving (dev band chain : Nat) (st : Bool) : Run.Evolving (swSet dev band chain st) :=
  (checkDev_evolving dev).bind fun _ => (resolveControl_evolving _ _ _).bind fun _ =>
    (writeSubs_evolving _ _).bind fun _ => swGet_evolving _ _ _

theorem swSetUnit_evolving (dev band chain : Nat) (st : Bool) (pl : RmwPlace) :
    Run.Evolving (swSetUnit dev band chain st pl) := by
  refine (checkDev_evolving dev).bind fun d => (resolveControl_evolving _ _ _).bind fun cs => ?_
  cases pl with
  | read j => exact (orBadIndex_evolving _).bind fun _ => (latchRead_evolving _).bind fun _ => .pure _
  | write j cur =>
    exact (orBadIndex_evolving _).bind fun _ => (orBadIndex_evolving _).bind fun _ =>
      (latchWrite_evolving _ _).bind fun _ => .pure _
  | confirm j sts =>
    refine (orBadIndex_evolving _).bind fun _ => (resolveOff_evolving _ _ _).bind fun _ =>
      (readSub_evolving _ _).bind fun _ => ?_
    split
    · exact .pure _
    · exact (agree_evolving _ _).bind fun _ => .pure _

theorem selectEntry_evolving (e : MonEntry) : Run.Evolving (selectEntry e) :=
  (latchWrite_evolving _ _).bind fun _ => latchWrite_evolving _ _

theorem monSelect_evolving (i : Nat) : Run.Evolving (monSelect i) :=
  (checkMon_evolving i).bind fun _ => (selectEntry_evolving _).bind fun _ => .pure _

theorem readOuts_evolving (os : List MonOut) : Run.Evolving (readOuts os) := by
  induction os with
  | nil => exact .pure _
  | cons o os ih => exact (readAnalog_evolving _).bind fun _ => ih.bind fun _ => .pure _

theorem monReadings_evolving (i : Nat) : Run.Evolving (monReadings i) :=
  (checkMon_evolving i).bind fun _ => (selectEntry_evolving _).bind fun _ => readOuts_evolving _

theorem monRead_evolving (i : Nat) : Run.Evolving (monRead i) := (monReadings_evolving i).bind fun _ => .pure _

theorem monConvert_evolving (cat : Nat) (raw : Volts) : Run.Evolving (monConvert cat raw) := by
  intro s
  unfold monConvert
  split
  · exact .refl s
  · exact .record s _

theorem sweepPoint_evolves (p : Sweep) (s : State) : Evolves s (sweepPoint p s).2 := by
  have h := monReadings_evolving p.next s
  unfold sweepPoint
  split
  · rename_i vals t e
    rwa [e] at h
  · rename_i f t e
    rwa [e] at h

end Sys2Proof.Machine
end

