-- ==== Sys2Proof/Laws/Levels.lean ====
section
/-! SUPPORT. Laws of levels, bytes of levels and addresses. -/

namespace Sys2Proof

@[simp] theorem Level.ofBool_ne_x (b : Bool) : Level.ofBool b ≠ .x := by cases b <;> simp [Level.ofBool]

@[simp] theorem Level.toBool?_ofBool (b : Bool) : (Level.ofBool b).toBool? = some b := by cases b <;> rfl

@[simp] theorem Level.orDraw_ofBool (b d : Bool) : (Level.ofBool b).orDraw d = b := by cases b <;> rfl

theorem Level.ofBool_inj {a b : Bool} (h : Level.ofBool a = Level.ofBool b) : a = b := by
  cases a <;> cases b <;> simp_all [Level.ofBool]

@[simp] theorem LByte.known_ofByte (b : Byte) : (LByte.ofByte b).known = true := by
  simp [LByte.known, LByte.ofByte]

/-- Bits in bus order assemble to the byte they came from (20_memory.md R71). -/
theorem Byte.ofMsbFirst_msbFirst (b : Byte) : Byte.ofMsbFirst (Byte.msbFirst b) = b := by
  revert b; decide

@[simp] theorem LByte.orDraw_ofByte (b d : Byte) : (LByte.ofByte b).orDraw d = b := by
  simp only [LByte.orDraw, LByte.ofByte, Level.orDraw_ofBool]
  exact Byte.ofMsbFirst_msbFirst b

theorem LByte.ofByte_inj {a b : Byte} (h : LByte.ofByte a = LByte.ofByte b) : a = b := by
  have := congrArg (fun v => v.orDraw 0#8) h
  simpa using this

/-- Addresses up to 255 are told apart by their levels. -/
theorem LByte.ofAddr_inj {a b : Nat} (ha : a ≤ 255) (hb : b ≤ 255) (h : LByte.ofAddr a = LByte.ofAddr b) : a = b := by
  have := congrArg BitVec.toNat (LByte.ofByte_inj h)
  simp only [BitVec.toNat_ofNat] at this
  omega

/-- Eight shifts put the eight bits shifted in, the first one at bit 7 (20_memory.md R64). -/
theorem LByte.shift_byte (v : LByte) (b : Byte) :
    (Byte.msbFirst b).foldl (fun r l => r.shift (.ofBool l)) v = .ofByte b := rfl

/-- Setting the eight bits one after the other gives the byte. -/
theorem LByte.set_all (v : LByte) (b : Byte) :
    ((((((((v.set 7 (.ofBool (b.getLsbD 7))).set 6 (.ofBool (b.getLsbD 6))).set 5 (.ofBool (b.getLsbD 5))).set 4
      (.ofBool (b.getLsbD 4))).set 3 (.ofBool (b.getLsbD 3))).set 2 (.ofBool (b.getLsbD 2))).set 1
      (.ofBool (b.getLsbD 1))).set 0 (.ofBool (b.getLsbD 0))) = .ofByte b := rfl

theorem mem_of_distinct_append {α : Type} [DecidableEq α] {xs ys : List α} (h : distinct (xs ++ ys) = true) {a : α}
    (ha : a ∈ xs) : a ∉ ys := by
  induction xs with
  | nil => cases ha
  | cons x xs ih =>
    simp only [List.cons_append, distinct, Bool.and_eq_true, Bool.not_eq_true', List.contains_eq_mem,
      decide_eq_false_iff_not] at h
    rcases List.mem_cons.1 ha with rfl | ha
    · exact fun hy => h.1 (List.mem_append_right _ hy)
    · exact ih h.2 ha

namespace Config

variable {c : Config}

/-- A valid group's write address is one of the board's. -/
theorem writeAddr_mem {g : Group} (h : c.validGroup g = true) : c.writeAddr g ∈ c.writeAddrs := by
  obtain ⟨dm, lg⟩ := g
  simp only [Config.validGroup, Bool.and_eq_true, decide_eq_true_eq] at h
  obtain ⟨⟨⟨h1, h2⟩, h3⟩, h4⟩ := h
  refine List.mem_map.2 ⟨⟨dm, lg⟩, List.mem_flatMap.2 ⟨dm - 1, List.mem_range.2 (by omega), ?_⟩, rfl⟩
  refine List.mem_map.2 ⟨lg - 1, List.mem_range.2 ?_, ?_⟩
  · simp only [Config.nlg] at h4 ⊢; omega
  · simp only [Group.mk.injEq]; omega

theorem addressesOk_of_wf (h : c.wf = true) : c.addressesOk = true := by
  simp only [Config.wf, Bool.and_eq_true] at h
  exact h.1.1.1.1.1.1.1.2

theorem writeAddr_le (h : c.wf = true) {w : Nat} (hw : w ∈ c.writeAddrs) : w ≤ 255 := by
  have := addressesOk_of_wf h
  simp only [Config.addressesOk, Bool.and_eq_true, List.all_eq_true, decide_eq_true_eq] at this
  exact this.1 w (List.mem_append_left _ hw)

/-- The read addresses are the write addresses plus 4. -/
theorem readAddrs_eq (c : Config) : c.readAddrs = c.writeAddrs.map (· + 4) := by
  simp [Config.readAddrs, Config.writeAddrs, Config.readAddr]

theorem readAddr_le (h : c.wf = true) {w : Nat} (hw : w ∈ c.writeAddrs) : w + 4 ≤ 255 := by
  have := addressesOk_of_wf h
  simp only [Config.addressesOk, Bool.and_eq_true, List.all_eq_true, decide_eq_true_eq] at this
  refine this.1 (w + 4) (List.mem_append_right _ ?_)
  rw [readAddrs_eq]
  exact List.mem_map.2 ⟨w, hw, rfl⟩

/-- No read address is a write address. -/
theorem readAddr_ne (h : c.wf = true) {w v : Nat} (hw : w ∈ c.writeAddrs) (hv : v ∈ c.writeAddrs) : v + 4 ≠ w := by
  have := addressesOk_of_wf h
  simp only [Config.addressesOk, Bool.and_eq_true] at this
  intro e
  refine mem_of_distinct_append this.2 hw ?_
  rw [readAddrs_eq]
  exact List.mem_map.2 ⟨v, hv, e⟩

end Config

namespace Machine

/-- With a write address on the lines, that group is the one addressed for writing (20_memory.md R63). -/
theorem State.atWrite_eq {s : State} (h : s.cfg.wf = true) {w : Nat} (hw : w ∈ s.cfg.writeAddrs)
    (ha : s.lines.addr = .ofAddr w) : s.atWrite = some w := by
  unfold State.atWrite
  cases hf : s.cfg.writeAddrs.find? fun v => s.lines.addr == LByte.ofAddr v with
  | none =>
    have := List.find?_eq_none.1 hf w hw
    simp [ha] at this
  | some v =>
    have h1 := List.find?_some hf
    have h2 := List.mem_of_find?_eq_some hf
    simp only [ha, beq_iff_eq] at h1
    rw [LByte.ofAddr_inj (Config.writeAddr_le h hw) (Config.writeAddr_le h h2) h1]

/-- With a read address on the lines, no group is addressed for writing. -/
theorem State.atWrite_none {s : State} (h : s.cfg.wf = true) {w : Nat} (hw : w ∈ s.cfg.writeAddrs)
    (ha : s.lines.addr = .ofAddr (w + 4)) : s.atWrite = none := by
  refine List.find?_eq_none.2 fun v hv => ?_
  simp only [ha, beq_iff_eq]
  intro e
  exact Config.readAddr_ne h hv hw (LByte.ofAddr_inj (Config.readAddr_le h hw) (Config.writeAddr_le h hv) e)

/-- With a read address on the lines, that group is the one addressed for reading. -/
theorem State.atRead_eq {s : State} (h : s.cfg.wf = true) {w : Nat} (hw : w ∈ s.cfg.writeAddrs)
    (ha : s.lines.addr = .ofAddr (w + 4)) : s.atRead = some w := by
  unfold State.atRead
  cases hf : s.cfg.writeAddrs.find? fun v => s.lines.addr == LByte.ofAddr (v + 4) with
  | none =>
    have := List.find?_eq_none.1 hf w hw
    simp [ha] at this
  | some v =>
    have h1 := List.find?_some hf
    have h2 := List.mem_of_find?_eq_some hf
    simp only [ha, beq_iff_eq] at h1
    have := LByte.ofAddr_inj (Config.readAddr_le h hw) (Config.readAddr_le h h2) h1
    congr 1
    omega

/-- Which group is addressed for writing, as a condition on the address lines. -/
theorem State.atWrite_iff {s : State} (h : s.cfg.wf = true) {w : Nat} :
    s.atWrite = some w ↔ w ∈ s.cfg.writeAddrs ∧ s.lines.addr = .ofAddr w :=
  ⟨fun e => ⟨List.mem_of_find?_eq_some e, by simpa using List.find?_some e⟩, fun ⟨a, b⟩ => State.atWrite_eq h a b⟩

/-- Which group is addressed for reading, as a condition on the address lines. -/
theorem State.atRead_iff {s : State} (h : s.cfg.wf = true) {w : Nat} :
    s.atRead = some w ↔ w ∈ s.cfg.writeAddrs ∧ s.lines.addr = .ofAddr (w + 4) :=
  ⟨fun e => ⟨List.mem_of_find?_eq_some e, by simpa using List.find?_some e⟩, fun ⟨a, b⟩ => State.atRead_eq h a b⟩

end Machine

/-- Each bit of an overlaid byte: the known level, or the bit drawn. -/
theorem LByte.orDraw_bit (v : LByte) (d : Byte) (i : Fin 8) :
    (v.orDraw d).getLsbD i = ((v.get i).toBool?).getD (d.getLsbD i) := by
  have key : ∀ b7 b6 b5 b4 b3 b2 b1 b0 : Bool, ∀ i : Fin 8,
      (Byte.ofMsbFirst [b7, b6, b5, b4, b3, b2, b1, b0]).getLsbD i =
        match i with
        | 7 => b7 | 6 => b6 | 5 => b5 | 4 => b4 | 3 => b3 | 2 => b2 | 1 => b1 | 0 => b0 := by decide
  unfold LByte.orDraw
  rw [key]
  revert i
  simp [Fin.forall_fin_succ, LByte.get, Level.orDraw]

end Sys2Proof
end

