-- ==== Sys2Proof/Laws/Healthy.lean ====
section
/-! SUPPORT. What the shared operations do when every pin primitive succeeds (`NoIOFail`): each as one equation, up to a
whole latch write and a whole latch read. -/

namespace Sys2Proof.Machine

variable {s : State}

/-- A bound part runs after a part that ended with a value. -/
theorem bind_ok {α β : Type} {m : Run α} {f : α → Run β} {a : α} {t : State} (h : m s = .ok a t) :
    (m >>= f) s = f a t := by
  show EStateM.bind m f s = _
  simp [EStateM.bind, h]

/-- A failure passes through. -/
theorem bind_error {α β : Type} {m : Run α} {f : α → Run β} {e : Failure} {t : State} (h : m s = .error e t) :
    (m >>= f) s = .error e t := by
  show EStateM.bind m f s = _
  simp [EStateM.bind, h]

theorem onFailure_ok {α : Type} {m : Run α} {f : State → State} {a : α} {t : State} (h : m s = .ok a t) :
    onFailure f m s = .ok a t := by
  simp [onFailure, h]

theorem onFailure_error {α : Type} {m : Run α} {f : State → State} {e : Failure} {t : State} (h : m s = .error e t) :
    onFailure f m s = .error e (f t) := by
  simp [onFailure, h]

theorem State.ioDraw_noIOFail (h : s.env.noIOFail = true) : s.ioDraw = (true, s) := by
  simp [State.ioDraw, h]

theorem pinOp_ok {α : Type} {work : State → α × State} {failed : State → State} (h : s.env.noIOFail = true) :
    pinOp work failed s = .ok (work s).1 (work s).2 := by
  simp [pinOp, State.ioDraw_noIOFail h]

theorem drive_ok (h : s.env.noIOFail = true) (n : Line) (v : Bool) :
    drive n v s = .ok () ((s.moveLine n v).event (driven n v)) := pinOp_ok h

theorem settle_ok (s : State) : settle s = .ok () (s.event .settle) := rfl

/-- The state with other lines and more trace. -/
abbrev State.moved (s : State) (l : Lines) (es : List Event) : State := { s with lines := l, trace := s.trace ++ es }

theorem State.moved_moved (s : State) (l k : Lines) (es fs : List Event) :
    (s.moved l es).moved k fs = s.moved k (es ++ fs) := by
  simp [State.moved, List.append_assoc]

/-- A drive that causes no device action: the line moves. -/
theorem drive_quiet (h : s.env.noIOFail = true) (n : Line) (v : Bool)
    (hq : (s.setLine n (.ofBool v)).edge n (s.lines.get n) v = s.setLine n (.ofBool v)) :
    drive n v s = .ok () (s.moved (s.lines.set n (.ofBool v)) [driven n v]) := by
  rw [drive_ok h, State.moveLine, hq]
  rfl

theorem State.edge_low (s : State) (n : Line) (old : Level) : s.edge n old false = s := by
  simp [State.edge]

theorem State.edge_addr (s : State) (i : Fin 8) (old : Level) (v : Bool) : s.edge (.a i) old v = s := by
  simp [State.edge]

theorem State.edge_din (s : State) (old : Level) (v : Bool) : s.edge .din old v = s := by
  simp [State.edge]

/-- Driving a line low causes no device action. -/
theorem drive_low (h : s.env.noIOFail = true) (n : Line) :
    drive n false s = .ok () (s.moved (s.lines.set n .lo) [driven n false]) :=
  drive_quiet h n false (State.edge_low _ _ _)

theorem drive_addr (h : s.env.noIOFail = true) (i : Fin 8) (v : Bool) :
    drive (.a i) v s = .ok () (s.moved (s.lines.set (.a i) (.ofBool v)) [driven (.a i) v]) :=
  drive_quiet h _ _ (State.edge_addr _ _ _ _)

theorem drive_din (h : s.env.noIOFail = true) (v : Bool) :
    drive .din v s = .ok () (s.moved (s.lines.set .din (.ofBool v)) [driven .din v]) :=
  drive_quiet h _ _ (State.edge_din _ _ _)

/-- The successful address select (41_latch_protocol.md R126). -/
theorem driveAddr_ok (h : s.env.noIOFail = true) (a : Nat) :
    driveAddr a s = .ok () (s.moved { s.lines with addr := .ofAddr a } (selectEvents a)) := by
  refine (bind_ok (a := ()) (t := s.moved { s.lines with addr := .ofAddr a } ((selectEvents a).dropLast)) ?_).trans ?_
  · refine onFailure_ok ?_
    simp only [driveAddrLines]
    iterate 8
      refine (bind_ok (drive_addr (by exact h) _ _)).trans ?_
    simp only [State.moved_moved]
    rfl
  · rw [settle_ok, selectEvents]
    simp [State.event, List.append_assoc]

/-- Under `HealthyBus` the port shows the address driven (20_memory.md R69). -/
theorem readPort_ok (h : s.Healthy) {a : Nat} (ha : s.lines.addr = .ofAddr a) :
    readPort s = .ok (BitVec.ofNat 8 a) (s.event (.readPort (some (BitVec.ofNat 8 a)))) := by
  have hp : s.portAnswer = (BitVec.ofNat 8 a, s) := by simp [State.portAnswer, h.2, ha, LByte.ofAddr]
  rw [readPort, pinOp_ok h.1]
  simp only [hp]

/-- Without `HealthyBus` the port shows the next scripted byte (20_memory.md R69). -/
theorem readPort_drawn (h : s.env.noIOFail = true) (hb : s.env.healthyBus = false) {rb : Byte} {rest : List Byte}
    (hp : s.env.port = rb :: rest) :
    readPort s = .ok rb ({ s with env := { s.env with port := rest } }.event (.readPort (some rb))) := by
  have : s.portAnswer = (rb, { s with env := { s.env with port := rest } }) := by
    simp [State.portAnswer, hb, State.portDraw, hp]
  rw [readPort, pinOp_ok h]
  simp only [this]

/-- The verification of an accepted address succeeds. -/
theorem verify_ok (h : s.Healthy) {a : Nat} (ha : s.lines.addr = .ofAddr a) (hle : a ≤ 255) {accepted : List Nat}
    (hm : a ∈ accepted) : verify a accepted s = .ok () (s.event (.readPort (some (BitVec.ofNat 8 a)))) := by
  refine (bind_ok (readPort_ok h ha)).trans ?_
  have : (BitVec.ofNat 8 a).toNat = a := by simp; omega
  simp [this, hm]
  rfl

/-! ## Writing a byte -/

/-- Driving a low line high is a rising edge. -/
theorem drive_rise (h : s.env.noIOFail = true) {n : Line} (hl : s.lines.get n = .lo) :
    drive n true s = .ok () (((s.setLine n .hi).edge n .lo true).event (driven n true)) := by
  rw [drive_ok h, State.moveLine, hl]
  rfl

/-- A rising clock edge at a write-selected group: it shifts the data line in (20_memory.md R64). -/
theorem drive_clk_write (h : s.env.noIOFail = true) {w : Nat} (hc : s.lines.clk = .lo) (hb : s.lines.busen = .lo)
    (hw : s.atWrite = some w) :
    drive .clk true s = .ok ()
      { s with
        lines := { s.lines with clk := .hi }
        latches := s.latches.set w { s.latches.get w with sr := (s.latches.get w).sr.shift s.lines.din }
        trace := s.trace ++ [driven .clk true] } := by
  have hw' : (s.setLine .clk .hi).writeSelected = some w := by
    simpa [State.writeSelected, State.atWrite, hb] using hw
  rw [drive_rise (n := .clk) h hc]
  simp only [State.edge, true_and, if_true, State.shiftSelected, hw']
  rfl

/-- One data bit to a write-selected group: it enters the group's shift register (20_memory.md R64). -/
theorem writeBit_ok (h : s.env.noIOFail = true) {w : Nat} (hb : s.lines.busen = .lo) (hw : s.atWrite = some w) (v : Bool) :
    writeBit v s = .ok ()
      { s with
        lines := { s.lines with din := .ofBool v, clk := .hi }
        latches := s.latches.set w { s.latches.get w with sr := (s.latches.get w).sr.shift (.ofBool v) }
        trace := s.trace ++ bitOutEvents v } := by
  refine (bind_ok (drive_din h v)).trans ((bind_ok (drive_low (by exact h) .clk)).trans ?_)
  refine (bind_ok (drive_clk_write (w := w) (by exact h) rfl (by exact hb) (by exact hw))).trans ?_
  rw [settle_ok]
  simp [State.event, bitOutEvents, List.append_assoc]

/-- Data bits to a write-selected group. -/
theorem writeBits_ok (h : s.env.noIOFail = true) {w : Nat} (hb : s.lines.busen = .lo) (hw : s.atWrite = some w)
    (hm : s.latches.wf = true) (v : Bool) (vs : List Bool) :
    writeBits (v :: vs) s = .ok ()
      { s with
        lines := { s.lines with din := .ofBool ((v :: vs).getLast (by simp)), clk := .hi }
        latches := s.latches.set w
          { s.latches.get w with sr := (v :: vs).foldl (fun r l => r.shift (.ofBool l)) (s.latches.get w).sr }
        trace := s.trace ++ (v :: vs).flatMap bitOutEvents } := by
  induction vs generalizing s v with
  | nil =>
    refine (bind_ok (writeBit_ok h hb hw v)).trans ?_
    simp [writeBits]
    rfl
  | cons u vs ih =>
    refine (bind_ok (writeBit_ok h hb hw v)).trans ?_
    refine (ih (by exact h) (by exact hb) (by exact hw) (Memory.wf_set hm) u).trans ?_
    simp only [Memory.get_set_self hm, Memory.set_set hm]
    simp [List.append_assoc]

/-- The eight bits of a byte to a write-selected group: its shift register becomes the byte (20_memory.md R64). -/
theorem writeBits_byte (h : s.env.noIOFail = true) {w : Nat} (hb : s.lines.busen = .lo) (hw : s.atWrite = some w)
    (hm : s.latches.wf = true) (b : Byte) :
    writeBits (Byte.msbFirst b) s = .ok ()
      { s with
        lines := { s.lines with din := .ofBool (b.getLsbD 0), clk := .hi }
        latches := s.latches.set w { s.latches.get w with sr := .ofByte b }
        trace := s.trace ++ (Byte.msbFirst b).flatMap bitOutEvents } :=
  writeBits_ok h hb hw hm _ _

/-- Deselecting a write-selected group: its outputs become its shift register (20_memory.md R68). -/
theorem drive_busen_write (h : s.env.noIOFail = true) {w : Nat} (hb : s.lines.busen = .lo) (hw : s.atWrite = some w) :
    drive .busen true s = .ok ()
      { s with
        lines := { s.lines with busen := .hi }
        latches := s.latches.set w { s.latches.get w with out := (s.latches.get w).sr }
        trace := s.trace ++ [driven .busen true] } := by
  have hw' : (s.setLine .busen .hi).atWrite = some w := by simpa [State.atWrite] using hw
  rw [drive_rise (n := .busen) h hb]
  simp only [State.edge, true_and, if_true, State.transfer, hw']
  rfl

/-- Steps 3 to 5 of a write to an addressed group: `OUT` and `SR` become the byte (41_latch_protocol.md R130, R131). -/
theorem sendByte_ok (h : s.env.noIOFail = true) {w : Nat} (hw : s.atWrite = some w) (hm : s.latches.wf = true) (b : Byte) :
    sendByte b s = .ok ()
      { s with
        lines := { s.lines with din := .ofBool (b.getLsbD 0), clk := .hi, busen := .hi }
        latches := s.latches.set w ⟨.ofByte b, .ofByte b⟩
        trace := s.trace ++ [driven .busen false, .settle] ++ (Byte.msbFirst b).flatMap bitOutEvents ++
          [driven .busen true, .settle] } := by
  refine (bind_ok (drive_low h .busen)).trans ((bind_ok (settle_ok _)).trans ?_)
  refine (bind_ok (writeBits_byte (w := w) (by exact h) rfl (by exact hw) (by exact hm) b)).trans ?_
  refine (bind_ok (drive_busen_write (w := w) (by exact h) rfl (by exact hw))).trans ?_
  rw [settle_ok]
  have h1 := Memory.get_set_self (a := w) (v := { s.latches.get w with sr := LByte.ofByte b }) hm
  have h2 : ∀ v v', (s.latches.set w v).set w v' = s.latches.set w v' := fun v v' => Memory.set_set hm
  simp [State.event, List.append_assoc, h1, h2]

/-- The state a transaction starts its primitives from: a dirty start sets `HAZ[0]` and forgets every latch content
(41_latch_protocol.md R129). -/
def State.started (s : State) : State := if s.lines.clean then s else (s.setHaz hazDirty).forgetAll

theorem startTransaction_eq (s : State) : startTransaction s = .ok (!s.lines.clean) s.started := by
  unfold startTransaction State.started
  split <;> simp_all

theorem State.started_wf (hm : s.latches.wf = true) : s.started.latches.wf = true := by
  unfold State.started
  split
  · exact hm
  · exact Memory.wf_forget hm

theorem State.started_same (s : State) : s.started.cfg = s.cfg ∧ s.started.lines = s.lines ∧
    s.started.env = s.env ∧ s.started.trace = s.trace ∧ s.started.log = s.log ∧ s.started.reqs = s.reqs ∧
    s.started.busOwner = s.busOwner := by
  unfold State.started
  split <;> simp

/-- A whole latch write, every primitive succeeding (41_latch_protocol.md R130, R131). -/
theorem latchWrite_ok (h : s.Healthy) (hc : s.cfg.wf = true) (hm : s.latches.wf = true) {g : Group}
    (hg : s.cfg.validGroup g = true) (b : Byte) :
    latchWrite g b s = .ok ()
      { s.started with
        lines := ⟨.ofAddr (s.cfg.writeAddr g), .hi, .ofBool (b.getLsbD 0), s.lines.load, .hi⟩
        latches := s.started.latches.set (s.cfg.writeAddr g)
          ⟨if s.lines.clean then .ofByte b else .unknown, .ofByte b⟩
        trace := s.trace ++ writeEvents (s.cfg.writeAddr g) b } := by
  obtain ⟨sc, sl, se, st, _, _, _⟩ := s.started_same
  have hs : s.started.Healthy := by simpa [State.Healthy, se] using h
  have hw : s.cfg.writeAddr g ∈ s.cfg.writeAddrs := Config.writeAddr_mem hg
  refine (bind_ok (a := ()) (t := s) (by simp [checkGroup, hg])).trans ((bind_ok rfl).trans ?_)
  refine (bind_ok (startTransaction_eq s)).trans ((bind_ok (driveAddr_ok hs.1 _)).trans ?_)
  refine (bind_ok (verify_ok (by exact hs) rfl (Config.writeAddr_le hc hw) (by simp))).trans ?_
  refine (bind_ok (onFailure_ok (sendByte_ok (w := s.cfg.writeAddr g) (by exact hs.1)
    ?addressed (by exact State.started_wf hm) b))).trans ?_
  case addressed =>
    refine (State.atWrite_eq (s := s.started.moved { s.started.lines with addr := .ofAddr (s.cfg.writeAddr g) } []) ?_ ?_ rfl)
    · simpa [sc] using hc
    · simpa [sc] using hw
  have h1 := Memory.get_set_self (a := s.cfg.writeAddr g) (v := ⟨LByte.ofByte b, LByte.ofByte b⟩) (State.started_wf hm)
  have h2 : ∀ v v', (s.started.latches.set (s.cfg.writeAddr g) v).set (s.cfg.writeAddr g) v' =
      s.started.latches.set (s.cfg.writeAddr g) v' := fun v v' => Memory.set_set (State.started_wf hm)
  cases hcl : s.lines.clean <;>
    simp [forgetOutIf, State.event, State.setOut, writeEvents, List.append_assoc, sl, st, h1, h2]

/-! ## Reading a byte -/

/-- What `SENSE` is depends on the group's outputs and the environment only, and drawing it changes the environment
only. -/
theorem State.sense_congr {t : State} (he : t.env = s.env) {w : Nat}
    (hl : (t.latches.get w).out = (s.latches.get w).out) :
    (t.sense w).1 = (s.sense w).1 ∧ (t.sense w).2 = { t with env := (s.sense w).2.env } := by
  unfold State.sense State.senseDraw State.countDraw
  rw [he, hl]
  repeat' split
  all_goals first
    | exact ⟨rfl, rfl⟩
    | (rw [← he]; exact ⟨rfl, rfl⟩)

/-- Under `Loopback` a capture of known outputs takes them, and draws nothing. -/
theorem State.sense_known (h : s.env.loopback = true) {w : Nat} {b : Byte} (ho : s.OutIs w b) :
    s.sense w = (b, s) := by
  have ho' : (s.latches.get w).out = .ofByte b := ho
  simp [State.sense, h, ho']

/-- A load-strobe edge with bus-enable deselected: the addressed group captures `SENSE` (20_memory.md R67). -/
theorem drive_load_capture (h : s.env.noIOFail = true) {w : Nat} (hl : s.lines.load = .lo) (hb : s.lines.busen = .hi)
    (hw : s.atRead = some w) :
    drive .load true s = .ok ()
      { s with
        lines := { s.lines with load := .hi }
        latches := s.latches.set w { s.latches.get w with sr := .ofByte (s.sense w).1 }
        env := (s.sense w).2.env
        trace := s.trace ++ [driven .load true] } := by
  have hw' : (s.setLine .load .hi).atRead = some w := by simpa [State.atRead] using hw
  have hb' : (s.setLine .load .hi).lines.busen = .hi := by simpa using hb
  obtain ⟨h1, h2⟩ := State.sense_congr (s := s) (t := s.setLine .load .hi) rfl (w := w) rfl
  rw [drive_rise (n := .load) h hl]
  simp only [State.edge, true_and, if_true, State.capture, hw', hb', h1, h2]
  rfl

/-- Reading the serial output of a read-selected group whose top bit is known (20_memory.md R65). -/
theorem readIn_ok (h : s.env.noIOFail = true) {w : Nat} {v : Bool} (hb : s.lines.busen = .lo) (hw : s.atRead = some w)
    (hv : (s.latches.get w).sr.b7 = .ofBool v) : readIn s = .ok v (s.event (.readIn (some v))) := by
  have : s.soutAnswer = (v, s) := by simp [State.soutAnswer, State.readSelected, hb, hw, hv]
  rw [readIn, pinOp_ok h]
  simp only [this]

/-- A rising clock edge at a read-selected group: an unknown level enters (20_memory.md R64). -/
theorem drive_clk_read (h : s.env.noIOFail = true) {w : Nat} (hc : s.lines.clk = .lo) (hb : s.lines.busen = .lo)
    (hn : s.atWrite = none) (hw : s.atRead = some w) :
    drive .clk true s = .ok ()
      { s with
        lines := { s.lines with clk := .hi }
        latches := s.latches.set w { s.latches.get w with sr := (s.latches.get w).sr.shift .x }
        trace := s.trace ++ [driven .clk true] } := by
  have hn' : (s.setLine .clk .hi).writeSelected = none := by
    simpa [State.writeSelected, State.atWrite, hb] using hn
  have hw' : (s.setLine .clk .hi).readSelected = some w := by
    simpa [State.readSelected, State.atRead, hb] using hw
  rw [drive_rise (n := .clk) h hc]
  simp only [State.edge, true_and, if_true, State.shiftSelected, hn', hw']
  rfl

/-- The bits a shift register presents when it is read out, one shift between two bits. -/
def Presents (r : LByte) : List Bool → Prop
  | [] => True
  | v :: vs => r.b7 = .ofBool v ∧ Presents (r.shift .x) vs

/-- A shift register after so many shifts with unknown levels entering. -/
def shiftedOut (r : LByte) : Nat → LByte
  | 0 => r
  | n + 1 => shiftedOut (r.shift .x) n

theorem presents_byte (b : Byte) : Presents (.ofByte b) (Byte.msbFirst b) :=
  ⟨rfl, rfl, rfl, rfl, rfl, rfl, rfl, rfl, trivial⟩

theorem shiftedOut_byte (b : Byte) : shiftedOut (.ofByte b) 7 = srAfterRead b := rfl

/-- Bits from a read-selected group: what its shift register presents (41_latch_protocol.md R140 step 4). -/
theorem readBits_ok (n : Nat) (h : s.env.noIOFail = true) {w : Nat} (hb : s.lines.busen = .lo) (hn : s.atWrite = none)
    (hw : s.atRead = some w) (hm : s.latches.wf = true) (hc : s.lines.clk = .hi) {vs : List Bool}
    (hl : vs.length = n + 1) (hv : Presents (s.latches.get w).sr vs) :
    readBits n s = .ok vs
      { s with
        latches := s.latches.set w { s.latches.get w with sr := shiftedOut (s.latches.get w).sr n }
        trace := s.trace ++ bitsInEvents vs } := by
  induction n generalizing s vs with
  | zero =>
    match vs, hl with
    | [v], _ =>
      refine (bind_ok (readIn_ok h hb hw hv.1)).trans ?_
      have : s.latches.set w (s.latches.get w) = s.latches :=
        Memory.ext_get (Memory.wf_set hm) hm fun a => by rw [Memory.get_set hm]; split <;> simp_all
      show EStateM.Result.ok _ _ = _
      simp [State.event, shiftedOut, bitsInEvents, this]
  | succ n ih =>
    match vs, hl with
    | v :: u :: us, hl =>
      refine (bind_ok (readIn_ok h hb hw hv.1)).trans ?_
      refine (bind_ok (drive_low (by exact h) .clk)).trans ?_
      refine (bind_ok (drive_clk_read (w := w) (by exact h) rfl (by exact hb) (by exact hn) (by exact hw))).trans ?_
      refine (bind_ok (settle_ok _)).trans ?_
      refine (bind_ok (ih (vs := u :: us) (by exact h) (by exact hb) (by exact hn) (by exact hw)
        (by exact Memory.wf_set hm) rfl (by simpa using hl) ?_)).trans ?_
      · have := hv.2
        simp only [State.event_latches]
        rw [Memory.get_set_self (by exact hm)]
        exact this
      · show EStateM.Result.ok _ _ = _
        have h1 := Memory.get_set_self (a := w)
          (v := { s.latches.get w with sr := (s.latches.get w).sr.shift .x }) hm
        have h2 : ∀ v v', (s.latches.set w v).set w v' = s.latches.set w v' := fun v v' => Memory.set_set hm
        simp [State.event, Lines.set, h1, h2, shiftedOut, bitsInEvents, List.append_assoc, ← hc]

/-- A deselected group that was read-selected copies nothing (20_memory.md R68). -/
theorem drive_busen_read (h : s.env.noIOFail = true) (hb : s.lines.busen = .lo) (hn : s.atWrite = none) :
    drive .busen true s = .ok () (s.moved { s.lines with busen := .hi } [driven .busen true]) := by
  have hn' : (s.setLine .busen .hi).atWrite = none := by simpa [State.atWrite] using hn
  rw [drive_rise (n := .busen) h hb]
  simp only [State.edge, true_and, if_true, State.transfer, hn']
  rfl

/-- Steps 3 to 6 of a read of an addressed group with bus-enable deselected (41_latch_protocol.md R140). -/
theorem receiveByte_ok (h : s.env.noIOFail = true) {w : Nat} (hb : s.lines.busen = .hi) (hc : s.lines.clk = .hi)
    (hn : s.atWrite = none) (hw : s.atRead = some w) (hm : s.latches.wf = true) :
    receiveByte s = .ok (s.sense w).1
      { s with
        lines := { s.lines with load := .hi }
        latches := s.latches.set w { s.latches.get w with sr := srAfterRead (s.sense w).1 }
        env := (s.sense w).2.env
        trace := s.trace ++ [driven .load false, driven .load true, .settle, driven .busen false, .settle] ++
          bitsInEvents (Byte.msbFirst (s.sense w).1) ++ [driven .busen true, .settle] } := by
  have hp : (s.sense w).2.env.noIOFail = true := by
    rw [((s.sense_evolves w).premises).1]; exact h
  have hsc := State.sense_congr (s := s) (t := s.moved (s.lines.set .load .lo) [driven .load false]) rfl (w := w) rfl
  refine (bind_ok (drive_low h .load)).trans ?_
  refine (bind_ok (drive_load_capture (w := w) (by exact h) rfl (by exact hb) (by exact hw))).trans ?_
  rw [hsc.1, hsc.2]
  refine (bind_ok (settle_ok _)).trans ?_
  refine (bind_ok (drive_low (by exact hp) .busen)).trans ?_
  refine (bind_ok (settle_ok _)).trans ?_
  have h1 := Memory.get_set_self (a := w) (v := { s.latches.get w with sr := LByte.ofByte (s.sense w).1 }) hm
  have h2 : ∀ v v', (s.latches.set w v).set w v' = s.latches.set w v' := fun v v' => Memory.set_set hm
  refine (bind_ok (readBits_ok 7 (w := w) (vs := Byte.msbFirst (s.sense w).1) (by exact hp) rfl (by exact hn)
    (by exact hw) (by exact Memory.wf_set hm) (by exact hc) rfl ?_)).trans ?_
  · simp only [State.event_latches]
    rw [h1]
    exact presents_byte _
  · refine (bind_ok (drive_busen_read (by exact hp) rfl (by exact hn))).trans ?_
    refine (bind_ok (settle_ok _)).trans ?_
    show EStateM.Result.ok _ _ = _
    rw [Byte.ofMsbFirst_msbFirst]
    simp [State.event, Lines.set, h1, h2, List.append_assoc, shiftedOut_byte, ← hb]

/-- With bus-enable deselected a load-strobe pulse is no hazard (41_latch_protocol.md R141). -/
theorem checkLoadHazard_ok (hb : s.lines.busen = .hi) : checkLoadHazard s = .ok () s := by
  simp [checkLoadHazard, hb]

/-- A whole latch read on a clean bus, every primitive succeeding: the byte is `SENSE` of the group as captured
(41_latch_protocol.md R140, R142). -/
theorem latchRead_ok (h : s.Healthy) (hc : s.cfg.wf = true) (hm : s.latches.wf = true) (hcl : s.Clean) {g : Group}
    (hg : s.cfg.validGroup g = true) :
    latchRead g s = .ok (s.sense (s.cfg.writeAddr g)).1
      { s with
        lines := { s.lines with addr := .ofAddr (s.cfg.writeAddr g + 4) }
        latches := s.latches.set (s.cfg.writeAddr g)
          { s.latches.get (s.cfg.writeAddr g) with sr := srAfterRead (s.sense (s.cfg.writeAddr g)).1 }
        env := (s.sense (s.cfg.writeAddr g)).2.env
        trace := s.trace ++ readEvents (s.cfg.writeAddr g + 4) (s.sense (s.cfg.writeAddr g)).1 } := by
  have hst : s.started = s := by simp [State.started, show s.lines.clean = true from hcl]
  have hw : s.cfg.writeAddr g ∈ s.cfg.writeAddrs := Config.writeAddr_mem hg
  have hcl' : (s.lines.busen = .hi ∧ s.lines.load = .hi) ∧ s.lines.clk = .hi := by
    simpa [State.Clean, Lines.clean] using hcl
  obtain ⟨⟨hb, hld⟩, hck⟩ := hcl'
  refine (bind_ok (a := ()) (t := s) (by simp [checkGroup, hg])).trans ((bind_ok rfl).trans ?_)
  refine (bind_ok (startTransaction_eq s)).trans ?_
  rw [hst]
  refine (bind_ok (driveAddr_ok h.1 _)).trans ?_
  refine (bind_ok (verify_ok (by exact h) rfl (Config.readAddr_le hc hw) (by simp))).trans ?_
  refine (bind_ok (checkLoadHazard_ok (by exact hb))).trans ?_
  refine (bind_ok (receiveByte_ok (w := s.cfg.writeAddr g) (by exact h.1) (by exact hb) (by exact hck) ?_ ?_
    (by exact hm))).trans ?_
  · exact State.atWrite_none (s := s.moved { s.lines with addr := .ofAddr (s.cfg.writeAddr g + 4) } []) hc hw rfl
  · exact State.atRead_eq (s := s.moved { s.lines with addr := .ofAddr (s.cfg.writeAddr g + 4) } []) hc hw rfl
  · have hsc := State.sense_congr (s := s)
      (t := (s.moved { s.lines with addr := .ofAddr (s.cfg.writeAddr g + 4) } (selectEvents (s.cfg.writeAddr g + 4))).event
        (.readPort (some (BitVec.ofNat 8 (s.cfg.writeAddr g + 4))))) rfl (w := s.cfg.writeAddr g) rfl
    rw [hsc.1, hsc.2]
    simp [drawIf, show s.lines.clean = true from hcl, State.event, readEvents, List.append_assoc, ← hld]

end Sys2Proof.Machine
end

