-- ==== Sys2Proof/Laws/Frames.lean ====
section
/-! SUPPORT. What a transaction can do to the latches once its address is on the lines, whatever the environment answers:
a write touches its own group only, a read its group's shift register only; and what it leaves on the lines when no
primitive fails. -/

namespace Sys2Proof.Machine

/-- How the contents of one group may change: `true` for a write to it, `false` for a read of it. -/
def Touch (write : Bool) (w a : Nat) (l l' : Latch) : Prop :=
  if write then a ≠ w → l' = l else l'.out = l.out ∧ (a ≠ w → l'.sr = l.sr)

theorem Touch.refl (write : Bool) (w a : Nat) (l : Latch) : Touch write w a l l := by
  unfold Touch
  split <;> simp

theorem Touch.trans {write : Bool} {w a : Nat} {l l' l'' : Latch} (h : Touch write w a l l')
    (k : Touch write w a l' l'') : Touch write w a l l'' := by
  cases write
  · exact ⟨Eq.trans (b := l'.out) k.1 h.1, fun ha => Eq.trans (b := l'.sr) (k.2 ha) (h.2 ha)⟩
  · exact fun ha => Eq.trans (b := l') (k ha) (h ha)

/-- What a part of a transaction at group `w` keeps. -/
def Local (write : Bool) (w : Nat) (s t : State) : Prop :=
  t.cfg = s.cfg ∧ t.lines.addr = s.lines.addr ∧
    (s.latches.wf = true → t.latches.wf = true ∧ ∀ a, Touch write w a (s.latches.get a) (t.latches.get a))

namespace Local

variable {write : Bool} {w : Nat} {s t u : State}

theorem refl (s : State) : Local write w s s := ⟨rfl, rfl, fun h => ⟨h, fun _ => .refl _ _ _ _⟩⟩

theorem trans (h : Local write w s t) (k : Local write w t u) : Local write w s u :=
  ⟨k.1.trans h.1, k.2.1.trans h.2.1, fun hm =>
    ⟨(k.2.2 (h.2.2 hm).1).1, fun a => ((h.2.2 hm).2 a).trans ((k.2.2 (h.2.2 hm).1).2 a)⟩⟩

/-- A step that leaves the address lines and the latches alone. -/
theorem of_same (hc : t.cfg = s.cfg) (ha : t.lines.addr = s.lines.addr) (hl : t.latches = s.latches) :
    Local write w s t :=
  ⟨hc, ha, fun hm => by rw [hl]; exact ⟨hm, fun _ => .refl _ _ _ _⟩⟩

/-- A change of the group's shift register. -/
theorem setSr (s : State) (v : LByte) : Local write w s (s.setSr w v) := by
  refine ⟨rfl, rfl, fun hm => ⟨Memory.wf_set hm, fun a => ?_⟩⟩
  simp only [State.setSr]
  rw [Memory.get_set hm]
  unfold Touch
  by_cases h : a = w <;> cases write <;> simp [h]

/-- A change of the written group's outputs. -/
theorem setOut (s : State) (v : LByte) : Local true w s (s.setOut w v) := by
  refine ⟨rfl, rfl, fun hm => ⟨Memory.wf_set hm, fun a => ?_⟩⟩
  simp only [State.setOut]
  rw [Memory.get_set hm]
  unfold Touch
  by_cases h : a = w <;> simp [h]

theorem forget (s : State) : Local true w s (s.forget w) := by
  refine ⟨rfl, rfl, fun hm => ⟨Memory.wf_set hm, fun a => ?_⟩⟩
  simp only [State.forget]
  rw [Memory.get_set hm]
  unfold Touch
  by_cases h : a = w <;> simp [h]

end Local

/-- The address lines hold the address of the transaction: `w` for a write, `w + 4` for a read. -/
def Addressed (write : Bool) (w : Nat) (s : State) : Prop :=
  s.cfg.wf = true ∧ w ∈ s.cfg.writeAddrs ∧ s.lines.addr = .ofAddr (if write then w else w + 4)

theorem Addressed.step {write : Bool} {w : Nat} {s t : State} (h : Addressed write w s) (k : Local write w s t) :
    Addressed write w t := by
  obtain ⟨a, b, c⟩ := h
  exact ⟨by rw [k.1]; exact a, by rw [k.1]; exact b, by rw [k.2.1]; exact c⟩

theorem Addressed.atWrite {w : Nat} {s : State} (h : Addressed true w s) : s.atWrite = some w :=
  State.atWrite_eq h.1 h.2.1 (by simpa using h.2.2)

theorem Addressed.atRead_none {w : Nat} {s : State} (h : Addressed true w s) : s.atRead = none := by
  cases hr : s.atRead with
  | none => rfl
  | some v =>
    obtain ⟨hv, ha⟩ := (State.atRead_iff h.1).1 hr
    have hw := (State.atWrite_iff h.1).1 h.atWrite
    exact absurd (LByte.ofAddr_inj (Config.readAddr_le h.1 hv) (Config.writeAddr_le h.1 hw.1) (ha.symm.trans hw.2))
      (Config.readAddr_ne h.1 hw.1 hv)

theorem Addressed.atRead {w : Nat} {s : State} (h : Addressed false w s) : s.atRead = some w :=
  State.atRead_eq h.1 h.2.1 (by simpa using h.2.2)

theorem Addressed.atWrite_none {w : Nat} {s : State} (h : Addressed false w s) : s.atWrite = none :=
  State.atWrite_none h.1 h.2.1 (by simpa using h.2.2)

/-- Only the addressed group is selected, for reading or for writing. -/
theorem Addressed.selected {write : Bool} {w v : Nat} {s : State} (h : Addressed write w s) :
    (s.writeSelected = some v → write = true ∧ v = w) ∧ (s.readSelected = some v → v = w) := by
  cases write
  · simp [State.writeSelected, State.readSelected, h.atWrite_none, h.atRead, eq_comm]
  · simp [State.writeSelected, State.readSelected, h.atWrite, h.atRead_none, eq_comm]

/-- A device action at an addressed group. -/
theorem Local.edge {write : Bool} {w : Nat} {s : State} (h : Addressed write w s) (n : Line) (old : Level) (v : Bool) :
    Local write w s (s.edge n old v) := by
  unfold State.edge
  split
  · cases n with
    | clk =>
      simp only [State.shiftSelected]
      split
      · rename_i u hu
        rw [(h.selected.1 hu).2]
        exact .setSr s _
      · split
        · rename_i u hu
          rw [h.selected.2 hu]
          exact .setSr s _
        · exact .refl s
    | load =>
      simp only [State.capture]
      cases hr : s.atRead with
      | none => exact .refl s
      | some u =>
        have : u = w := by
          cases write
          · rw [h.atRead] at hr; exact (Option.some.inj hr).symm
          · rw [h.atRead_none] at hr; cases hr
        subst this
        simp only
        split
        · refine Local.trans ?_ (.setSr _ _)
          have := State.sense_congr (s := s) (t := s) rfl (w := u) rfl
          rw [this.2]
          exact .of_same rfl rfl rfl
        · exact .setSr s _
    | busen =>
      simp only [State.transfer]
      cases hr : s.atWrite with
      | none => exact .refl s
      | some u =>
        cases write
        · rw [h.atWrite_none] at hr; cases hr
        · rw [h.atWrite] at hr
          cases hr
          exact .setOut s _
    | a i => exact .refl s
    | din => exact .refl s
  · exact .refl s

/-- A part of a transaction at group `w`. -/
def Run.Local {α : Type} (write : Bool) (w : Nat) (m : Run α) : Prop :=
  ∀ s, Addressed write w s → Machine.Local write w s (after (m s))

namespace Run.Local

variable {α β : Type} {write : Bool} {w : Nat}

theorem pure (a : α) : Run.Local write w (Pure.pure a : Run α) := fun s _ => .refl s

theorem bind {m : Run α} {f : α → Run β} (hm : Run.Local write w m) (hf : ∀ a, Run.Local write w (f a)) :
    Run.Local write w (m >>= f) := by
  intro s hs
  cases h : m s with
  | ok a t =>
    have h1 := hm s hs
    rw [h] at h1
    rw [bind_ok h]
    exact h1.trans (hf a t (hs.step h1))
  | error e t =>
    have h1 := hm s hs
    rw [h] at h1
    rw [bind_error h]
    exact h1

theorem onFailure {m : Run α} {f : State → State} (hm : Run.Local write w m)
    (hf : ∀ s, Machine.Local write w s (f s)) : Run.Local write w (Machine.onFailure f m) := by
  intro s hs
  have h1 := hm s hs
  cases h : m s with
  | ok a t => rw [onFailure_ok h]; rw [h] at h1; exact h1
  | error e t => rw [onFailure_error h]; rw [h] at h1; exact h1.trans (hf t)

/-- A primitive whose work and whose failure are local. -/
theorem pinOp {work : State → α × State} {failed : State → State}
    (hw : ∀ s, Addressed write w s → Machine.Local write w s (work s).2)
    (hf : ∀ s, Machine.Local write w s (failed s)) : Run.Local write w (Machine.pinOp work failed) := by
  intro s hs
  have h0 : Machine.Local write w s s.ioDraw.2 := by
    unfold State.ioDraw State.countDraw
    repeat' split
    all_goals exact .of_same rfl rfl rfl
  unfold Machine.pinOp
  split
  · exact h0.trans (hw _ (hs.step h0))
  · exact h0.trans (hf _)

theorem drive (n : Line) (hn : ∀ i, n ≠ .a i) (v : Bool) : Run.Local write w (Machine.drive n v) := by
  have hset : ∀ (s : State) (l : Level), Machine.Local write w s (s.setLine n l) := by
    intro s l
    refine .of_same rfl ?_ rfl
    cases n with
    | a i => exact absurd rfl (hn i)
    | _ => rfl
  refine pinOp (fun s hs => ?_) fun s => ?_
  · exact ((hset s _).trans (.edge (hs.step (hset s _)) _ _ _)).trans (.of_same rfl rfl rfl)
  · exact (hset s _).trans (.of_same rfl rfl rfl)

theorem settle : Run.Local write w Machine.settle := fun _ _ => .of_same rfl rfl rfl

theorem readIn : Run.Local write w Machine.readIn := by
  refine pinOp (fun s _ => ?_) fun s => .of_same rfl rfl rfl
  have : Machine.Local write w s s.soutAnswer.2 := by
    unfold State.soutAnswer State.soutDraw State.countDraw
    repeat' split
    all_goals exact .of_same rfl rfl rfl
  exact this.trans (.of_same rfl rfl rfl)

theorem readPort : Run.Local write w Machine.readPort := by
  refine pinOp (fun s _ => ?_) fun s => .of_same rfl rfl rfl
  have : Machine.Local write w s s.portAnswer.2 := by
    unfold State.portAnswer State.portDraw State.countDraw
    repeat' split
    all_goals exact .of_same rfl rfl rfl
  exact this.trans (.of_same rfl rfl rfl)

theorem verify (sent : Nat) (accepted : List Nat) : Run.Local write w (Machine.verify sent accepted) := by
  refine bind readPort fun rb => ?_
  split
  · exact pure _
  · exact fun s _ => .of_same rfl rfl rfl

theorem writeBits (vs : List Bool) : Run.Local write w (Machine.writeBits vs) := by
  induction vs with
  | nil => exact pure _
  | cons v vs ih =>
    refine bind ?_ fun _ => ih
    exact bind (drive _ (by simp) _) fun _ => bind (drive _ (by simp) _) fun _ => bind (drive _ (by simp) _) fun _ =>
      settle

/-- Steps 3 to 5 of a write touch the addressed group only. -/
theorem sendByte (b : Byte) : Run.Local write w (Machine.sendByte b) :=
  bind (drive _ (by simp) _) fun _ => bind settle fun _ => bind (writeBits _) fun _ =>
    bind (drive _ (by simp) _) fun _ => settle

theorem readBits (n : Nat) : Run.Local write w (Machine.readBits n) := by
  induction n with
  | zero => exact bind readIn fun _ => pure _
  | succ n ih =>
    exact bind readIn fun _ => bind (drive _ (by simp) _) fun _ => bind (drive _ (by simp) _) fun _ =>
      bind settle fun _ => bind ih fun _ => pure _

/-- Steps 3 to 6 of a read touch the addressed group's shift register only. -/
theorem receiveByte : Run.Local write w Machine.receiveByte :=
  bind (drive _ (by simp) _) fun _ => bind (drive _ (by simp) _) fun _ => bind settle fun _ =>
    bind (drive _ (by simp) _) fun _ => bind settle fun _ => bind (readBits 7) fun _ =>
      bind (drive _ (by simp) _) fun _ => bind settle fun _ => pure _

end Run.Local

/-! ## When no primitive fails -/

/-- What a successful primitive keeps besides what `Evolves` says. -/
structure Quiet (s t : State) : Prop where
  evolves : Evolves s t
  haz : t.haz = s.haz
  log : t.log = s.log
  readByte : t.env.readByte = s.env.readByte

namespace Quiet

variable {s t u : State}

theorem trans (h : Quiet s t) (k : Quiet t u) : Quiet s u :=
  ⟨h.evolves.trans k.evolves, k.haz.trans h.haz, k.log.trans h.log, k.readByte.trans h.readByte⟩

theorem noIOFail (h : Quiet s t) (hs : s.env.noIOFail = true) : t.env.noIOFail = true := h.evolves.premises.1.trans hs

end Quiet

/-- What a device action leaves besides the latches: a drawn status byte. -/
theorem State.edge_quiet (s : State) (n : Line) (old : Level) (v : Bool) :
    (s.edge n old v).lines = s.lines ∧ Quiet s (s.edge n old v) := by
  suffices h : (s.edge n old v).lines = s.lines ∧ (s.edge n old v).haz = s.haz ∧ (s.edge n old v).log = s.log ∧
      (s.edge n old v).env.readByte = s.env.readByte from
    ⟨h.1, State.edge_evolves s n old v, h.2.1, h.2.2.1, h.2.2.2⟩
  unfold State.edge State.shiftSelected State.capture State.transfer State.sense State.senseDraw State.countDraw
  repeat' split
  all_goals exact ⟨rfl, rfl, rfl, rfl⟩

/-- A successful drive puts its line at the level driven. -/
theorem drive_succeeds {s : State} (h : s.env.noIOFail = true) (n : Line) (v : Bool) :
    ∃ t, drive n v s = .ok () t ∧ t.lines = s.lines.set n (.ofBool v) ∧ Quiet s t := by
  refine ⟨_, drive_ok h n v, ?_⟩
  obtain ⟨hl, hq⟩ := State.edge_quiet (s.setLine n (.ofBool v)) n (s.lines.get n) v
  refine ⟨hl, ?_⟩
  exact ((⟨.setLine s n _, rfl, rfl, rfl⟩ : Quiet s _).trans hq).trans ⟨.event _ _ rfl, rfl, rfl, rfl⟩

theorem settle_quiet (s : State) : Quiet s (s.event .settle) := ⟨.event _ _ rfl, rfl, rfl, rfl⟩

/-- A successful serial read leaves the lines. -/
theorem readIn_succeeds {s : State} (h : s.env.noIOFail = true) :
    ∃ v t, readIn s = .ok v t ∧ t.lines = s.lines ∧ Quiet s t := by
  have hq : s.soutAnswer.2.lines = s.lines ∧ Quiet s s.soutAnswer.2 := by
    suffices hs : s.soutAnswer.2.lines = s.lines ∧ s.soutAnswer.2.haz = s.haz ∧ s.soutAnswer.2.log = s.log ∧
        s.soutAnswer.2.env.readByte = s.env.readByte from
      ⟨hs.1, State.soutAnswer_evolves s, hs.2.1, hs.2.2.1, hs.2.2.2⟩
    unfold State.soutAnswer State.soutDraw State.countDraw
    repeat' split
    all_goals exact ⟨rfl, rfl, rfl, rfl⟩
  exact ⟨_, _, pinOp_ok h, hq.1, hq.2.trans ⟨.event _ _ rfl, rfl, rfl, rfl⟩⟩

/-- Bits received with no failure: the clock ends high. -/
theorem readBits_succeeds (n : Nat) {s : State} (h : s.env.noIOFail = true) :
    ∃ vs t, readBits n s = .ok vs t ∧ t.lines = (if n = 0 then s.lines else { s.lines with clk := .hi }) ∧
      Quiet s t := by
  induction n generalizing s with
  | zero =>
    obtain ⟨v, t, h1, hl, hq⟩ := readIn_succeeds h
    exact ⟨[v], t, (bind_ok h1).trans rfl, by simpa using hl, hq⟩
  | succ n ih =>
    obtain ⟨v, t1, h1, hl1, hq1⟩ := readIn_succeeds h
    obtain ⟨t2, h2, hl2, hq2⟩ := drive_succeeds (hq1.noIOFail h) .clk false
    obtain ⟨t3, h3, hl3, hq3⟩ := drive_succeeds (hq2.noIOFail (hq1.noIOFail h)) .clk true
    have q3 := (hq1.trans hq2).trans hq3
    obtain ⟨vs, t4, h4, hl4, hq4⟩ := ih (s := t3.event .settle) (by exact q3.noIOFail h)
    refine ⟨v :: vs, t4, ?_, ?_, (q3.trans (settle_quiet t3)).trans hq4⟩
    · exact (bind_ok h1).trans ((bind_ok h2).trans ((bind_ok h3).trans ((bind_ok (settle_ok t3)).trans
        ((bind_ok h4).trans rfl))))
    · rw [hl4]
      simp only [State.event_lines, hl3, hl2, hl1]
      split <;> simp [Lines.set, Level.ofBool]

/-- Steps 3 to 6 of a read with no failure: load-strobe, clock and bus-enable end high (41_latch_protocol.md R140). -/
theorem receiveByte_succeeds {s : State} (h : s.env.noIOFail = true) :
    ∃ v t, receiveByte s = .ok v t ∧ t.lines = { s.lines with load := .hi, clk := .hi, busen := .hi } ∧ Quiet s t := by
  obtain ⟨t1, h1, hl1, hq1⟩ := drive_succeeds h .load false
  obtain ⟨t2, h2, hl2, hq2⟩ := drive_succeeds (hq1.noIOFail h) .load true
  have q2 := hq1.trans (hq2.trans (settle_quiet t2))
  obtain ⟨t3, h3, hl3, hq3⟩ := drive_succeeds (s := t2.event .settle) (q2.noIOFail h) .busen false
  have q3 := q2.trans (hq3.trans (settle_quiet t3))
  obtain ⟨vs, t4, h4, hl4, hq4⟩ := readBits_succeeds 7 (s := t3.event .settle) (q3.noIOFail h)
  have q4 := q3.trans hq4
  obtain ⟨t5, h5, hl5, hq5⟩ := drive_succeeds (q4.noIOFail h) .busen true
  refine ⟨Byte.ofMsbFirst vs, t5.event .settle, ?_, ?_, q4.trans (hq5.trans (settle_quiet t5))⟩
  · exact (bind_ok h1).trans ((bind_ok h2).trans ((bind_ok (settle_ok t2)).trans ((bind_ok h3).trans
      ((bind_ok (settle_ok t3)).trans ((bind_ok h4).trans ((bind_ok h5).trans ((bind_ok (settle_ok t5)).trans rfl)))))))
  · simp [hl5, hl4, hl3, hl2, hl1, Lines.set, Level.ofBool]

end Sys2Proof.Machine
end

