-- ==== Sys2Proof/Laws/Groups.lean ====
section
/-! SUPPORT. Which groups a part of a command may change, whatever the environment answers: outside the groups it writes
and reads, a latch content stays as it was, or, where the start was not clean, is unknown (41_latch_protocol.md R129,
R131, R142). -/

namespace Sys2Proof.Machine

/-! ## The lines a success leaves -/

theorem State.ioDraw_lines (s : State) : s.ioDraw.2.lines = s.lines ∧ s.ioDraw.2.latches = s.latches ∧
    s.ioDraw.2.cfg = s.cfg := by
  unfold State.ioDraw State.countDraw
  repeat' split
  all_goals exact ⟨rfl, rfl, rfl⟩

/-- A part of a command that, where it succeeds, relates the lines before and after it. -/
def Run.Moves {α : Type} (K : Lines → Lines → Prop) (m : Run α) : Prop := ∀ s a t, m s = .ok a t → K s.lines t.lines

namespace Run.Moves

variable {α β : Type} {K : Lines → Lines → Prop}

theorem pinOp {work : State → α × State} {failed : State → State} (h : ∀ s, K s.lines (work s).2.lines) :
    Run.Moves K (Machine.pinOp work failed) := by
  intro s a t e
  unfold Machine.pinOp at e
  split at e
  · cases e
    have := h s.ioDraw.2
    rwa [s.ioDraw_lines.1] at this
  · cases e

theorem drive (n : Line) (v : Bool) : Run.Moves (fun l k => k = l.set n (.ofBool v)) (Machine.drive n v) :=
  pinOp fun s => (State.edge_quiet (s.setLine n (.ofBool v)) n (s.lines.get n) v).1

theorem settle : Run.Moves (fun l k => k = l) Machine.settle := fun s a t e => by cases e; rfl

theorem readIn : Run.Moves (fun l k => k = l) Machine.readIn := by
  refine pinOp fun s => ?_
  show s.soutAnswer.2.lines = _
  unfold State.soutAnswer State.soutDraw State.countDraw
  repeat' split
  all_goals rfl

theorem readPort : Run.Moves (fun l k => k = l) Machine.readPort := by
  refine pinOp fun s => ?_
  show s.portAnswer.2.lines = _
  unfold State.portAnswer State.portDraw State.countDraw
  repeat' split
  all_goals rfl

theorem readAnalog (ch : Nat) : Run.Moves (fun l k => k = l) (Machine.readAnalog ch) := by
  refine pinOp fun s => ?_
  show s.voltsDraw.2.lines = _
  unfold State.voltsDraw State.countDraw
  split <;> rfl

theorem bind {K L M : Lines → Lines → Prop} {m : Run α} {f : α → Run β} (hm : Run.Moves K m)
    (hf : ∀ a, Run.Moves L (f a)) (h : ∀ l k j, K l k → L k j → M l j) : Run.Moves M (m >>= f) := by
  intro s b u e
  cases hs : m s with
  | ok a t => rw [bind_ok hs] at e; exact h _ _ _ (hm s a t hs) (hf a t b u e)
  | error f t => rw [bind_error hs] at e; cases e

theorem verify (sent : Nat) (accepted : List Nat) : Run.Moves (fun l k => k = l) (Machine.verify sent accepted) := by
  refine bind (K := fun l k => k = l) (L := fun l k => k = l) readPort (fun rb => ?_) fun l k j h1 h2 => h2.trans h1
  intro s a t e
  split at e <;> cases e
  rfl

theorem driveAddrLines (v : Byte) (is : List (Fin 8)) :
    Run.Moves (fun l k => k = { l with addr := is.foldl (fun r i => r.set i (.ofBool (v.getLsbD i))) l.addr })
      (Machine.driveAddrLines v is) := by
  induction is with
  | nil => exact fun s a t e => by cases e; rfl
  | cons i is ih => exact bind (drive _ _) (fun _ => ih) fun l k j h1 h2 => by rw [h2, h1]; rfl

theorem driveAddr (a : Nat) : Run.Moves (fun l k => k = { l with addr := .ofAddr a }) (Machine.driveAddr a) := by
  refine bind (L := fun l k => k = l) (?_ : Run.Moves (fun l k => k = { l with addr := .ofAddr a }) _) (fun _ => settle)
    fun l k j h1 h2 => h2.trans h1
  intro s b t e
  cases hs : Machine.driveAddrLines (BitVec.ofNat 8 a) [7, 6, 5, 4, 3, 2, 1, 0] s with
  | ok b t' =>
    rw [onFailure_ok hs] at e
    cases e
    rw [driveAddrLines _ _ s _ _ hs]
    exact congrArg (fun x => { s.lines with addr := x }) (LByte.set_all _ _)
  | error f t' => rw [onFailure_error hs] at e; cases e

theorem writeBits (vs : List Bool) :
    Run.Moves (fun l k => k.load = l.load ∧ (vs ≠ [] → k.clk = .hi)) (Machine.writeBits vs) := by
  induction vs with
  | nil => exact fun s a t e => by cases e; exact ⟨rfl, fun h => absurd rfl h⟩
  | cons v vs ih =>
    refine bind (K := fun l k => k.load = l.load ∧ k.clk = .hi) ?_ (fun _ => ?_)
      (L := fun l k => k.load = l.load ∧ (l.clk = .hi → k.clk = .hi)) fun l k j h1 h2 =>
        ⟨h2.1.trans h1.1, fun _ => h2.2 h1.2⟩
    · refine bind (drive _ _) (fun _ => bind (drive _ _) (fun _ => bind (drive _ _) (fun _ => settle)
        (M := fun l k => k = l.set .clk .hi) fun l k j h1 h2 => h2.trans h1)
        (M := fun l k => k = (l.set .clk .lo).set .clk .hi) fun l k j h1 h2 => by rw [h2, h1]; rfl) fun l k j h1 h2 => ?_
      rw [h2, h1]
      exact ⟨rfl, rfl⟩
    · intro s a t e
      have := ih s a t e
      refine ⟨this.1, fun h => ?_⟩
      cases vs with
      | nil => cases e; exact h
      | cons x xs => exact this.2 (by simp)

theorem sendByte (b : Byte) :
    Run.Moves (fun l k => k.load = l.load ∧ k.busen = .hi ∧ k.clk = .hi) (Machine.sendByte b) := by
  refine bind (drive _ _) (fun _ => bind settle (fun _ => bind (writeBits _) (fun _ => bind (drive _ _) (fun _ => settle)
    (M := fun l k => k = l.set .busen .hi) fun l k j h1 h2 => h2.trans h1)
    (M := fun l k => k.load = l.load ∧ k.busen = .hi ∧ k.clk = .hi) fun l k j h1 h2 => ?_)
    (M := fun l k => k.load = l.load ∧ k.busen = .hi ∧ k.clk = .hi) fun l k j h1 h2 => h1 ▸ h2) fun l k j h1 h2 => ?_
  · rw [h2]
    exact ⟨h1.1, rfl, h1.2 (by simp [Byte.msbFirst])⟩
  · rw [h1] at h2
    exact h2

theorem readBits (n : Nat) :
    Run.Moves (fun l k => k.load = l.load ∧ (n ≠ 0 ∨ l.clk = .hi → k.clk = .hi)) (Machine.readBits n) := by
  induction n with
  | zero =>
    refine bind readIn (fun _ s a t e => ?_) (L := fun l k => k = l) fun l k j h1 h2 => ?_
    · cases e; rfl
    · rw [h2, h1]; exact ⟨rfl, fun h => h.resolve_left fun h => h rfl⟩
  | succ n ih =>
    refine bind readIn (fun _ => bind (drive _ _) (fun _ => bind (drive _ _) (fun _ => bind settle (fun _ =>
      bind ih (fun _ s a t e => ?_) (L := fun l k => k = l)
        (M := fun l k => k.load = l.load ∧ (l.clk = .hi → k.clk = .hi)) fun l k j h1 h2 => ?_)
        (M := fun l k => k.load = l.load ∧ (l.clk = .hi → k.clk = .hi)) fun l k j h1 h2 => h1 ▸ h2)
        (M := fun l k => k.load = l.load ∧ k.clk = .hi) fun l k j h1 h2 => ?_)
        (M := fun l k => k.load = l.load ∧ k.clk = .hi) fun l k j h1 h2 => ?_) fun l k j h1 h2 => ?_
    · cases e; rfl
    · rw [h2]; exact ⟨h1.1, fun h => h1.2 (.inr h)⟩
    · rw [h1] at h2; exact ⟨h2.1, h2.2 rfl⟩
    · rw [h1] at h2; exact h2
    · rw [h1] at h2; exact ⟨h2.1, fun _ => h2.2⟩

theorem receiveByte :
    Run.Moves (fun _ k => k.load = .hi ∧ k.busen = .hi ∧ k.clk = .hi) Machine.receiveByte := by
  refine bind (drive _ _) (fun _ => bind (drive _ _) (fun _ => bind settle (fun _ => bind (drive _ _) (fun _ =>
    bind settle (fun _ => bind (readBits 7) (fun _ => bind (drive _ _) (fun _ => bind settle (fun _ s a t e => ?_)
      (L := fun l k => k = l) (M := fun l k => k = l) fun l k j h1 h2 => h2.trans h1)
      (M := fun l k => k = l.set .busen .hi) fun l k j h1 h2 => h2.trans h1)
      (M := fun l k => k.load = l.load ∧ k.busen = .hi ∧ k.clk = .hi) fun l k j h1 h2 => ?_)
      (M := fun l k => k.load = l.load ∧ k.busen = .hi ∧ k.clk = .hi) fun l k j h1 h2 => h1 ▸ h2)
      (M := fun l k => k.load = l.load ∧ k.busen = .hi ∧ k.clk = .hi) fun l k j h1 h2 => ?_)
      (M := fun l k => k.load = l.load ∧ k.busen = .hi ∧ k.clk = .hi) fun l k j h1 h2 => h1 ▸ h2)
      (M := fun _ k => k.load = .hi ∧ k.busen = .hi ∧ k.clk = .hi) fun l k j h1 h2 => ?_) fun l k j _ h2 => h2
  · cases e; rfl
  · rw [h2]; exact ⟨h1.1, rfl, h1.2 (.inl (by decide))⟩
  · rw [h1] at h2; exact h2
  · rw [h1] at h2; exact h2

end Run.Moves

/-! ## The groups kept -/

/-- One content of the group at `a`, kept: as it was, or, from a start that was not clean, unknown. -/
def KeptPart (s : State) (a : Nat) (l l' : LByte) : Prop :=
  l' = l ∨ (¬ s.Clean ∧ a ∈ s.cfg.writeAddrs ∧ l' = .unknown)

/-- Between `s` and `t` outputs changed at most in the groups at `ws`, and shift registers in those and the ones at
`rs`. -/
structure Kept (ws rs : List Nat) (s t : State) : Prop where
  cfg : t.cfg = s.cfg
  wf : t.latches.wf = true
  out : ∀ a, a ∉ ws → KeptPart s a (s.latches.get a).out (t.latches.get a).out
  sr : ∀ a, a ∉ ws → a ∉ rs → KeptPart s a (s.latches.get a).sr (t.latches.get a).sr

namespace Kept

variable {ws rs : List Nat} {s t u : State}

theorem of_same (hm : s.latches.wf = true) (hc : t.cfg = s.cfg) (hl : t.latches = s.latches) : Kept ws rs s t :=
  ⟨hc, by rw [hl]; exact hm, fun a _ => .inl (by rw [hl]), fun a _ _ => .inl (by rw [hl])⟩

theorem refl (hm : s.latches.wf = true) : Kept ws rs s s := of_same hm rfl rfl

theorem trans (h : Kept ws rs s t) (hcl : s.Clean → t.Clean) (k : Kept ws rs t u) : Kept ws rs s u := by
  have part : ∀ {a : Nat} {l l' l'' : LByte}, KeptPart s a l l' → KeptPart t a l' l'' → KeptPart s a l l'' := by
    rintro a l l' l'' h1 (rfl | ⟨h2, h3, h4⟩)
    · exact h1
    · exact .inr ⟨fun hs => h2 (hcl hs), by rw [← h.cfg]; exact h3, h4⟩
  exact ⟨k.cfg.trans h.cfg, k.wf, fun a ha => part (h.out a ha) (k.out a ha),
    fun a ha hr => part (h.sr a ha hr) (k.sr a ha hr)⟩

theorem mono {ws' rs' : List Nat} (h : Kept ws rs s t) (hw : ∀ a ∈ ws, a ∈ ws') (hr : ∀ a ∈ rs, a ∈ rs') :
    Kept ws' rs' s t :=
  ⟨h.cfg, h.wf, fun a ha => h.out a fun hm => ha (hw a hm),
    fun a ha hb => h.sr a (fun hm => ha (hw a hm)) fun hm => hb (hr a hm)⟩

/-- What a dirty start forgets. -/
theorem started (hm : s.latches.wf = true) : Kept ws rs s s.started := by
  by_cases h : s.lines.clean = true
  · have : s.started = s := by simp [State.started, h]
    rw [this]
    exact refl hm
  · have hs : s.started = (s.setHaz hazDirty).forgetAll := by simp [State.started, h]
    have hg : ∀ a, s.started.latches.get a = if a ∈ s.cfg.writeAddrs then .unknown else s.latches.get a := by
      intro a
      rw [hs]
      exact Memory.get_forget hm a
    refine ⟨s.started_same.1, State.started_wf hm, fun a _ => ?_, fun a _ _ => ?_⟩
    all_goals rw [hg]
    all_goals by_cases ha : a ∈ s.cfg.writeAddrs
    all_goals simp only [ha, if_true, if_false]
    · exact .inr ⟨h, ha, rfl⟩
    · exact .inl rfl
    · exact .inr ⟨h, ha, rfl⟩
    · exact .inl rfl

end Kept

/-- A part of a command that keeps every group but these, on a board of this configuration, and that leaves a clean bus
clean where it succeeds. -/
def Run.Keeps {α : Type} (c : Config) (ws rs : List Nat) (m : Run α) : Prop :=
  ∀ s, s.cfg = c → s.latches.wf = true → Kept ws rs s (after (m s)) ∧ ∀ a t, m s = .ok a t → s.Clean → t.Clean

namespace Run.Keeps

variable {α β : Type} {c : Config} {ws rs : List Nat}

theorem bind {m : Run α} {f : α → Run β} (hm : Run.Keeps c ws rs m) (hf : ∀ a, Run.Keeps c ws rs (f a)) :
    Run.Keeps c ws rs (m >>= f) := by
  intro s hc hw
  obtain ⟨h1, h2⟩ := hm s hc hw
  cases h : m s with
  | ok a t =>
    rw [h] at h1
    obtain ⟨k1, k2⟩ := hf a t (h1.cfg.trans hc) h1.wf
    rw [bind_ok h]
    exact ⟨h1.trans (h2 a t h) k1, fun b u hu hs => k2 b u hu (h2 a t h hs)⟩
  | error e t =>
    rw [h] at h1
    rw [bind_error h]
    exact ⟨h1, fun b u hu => by cases hu⟩

theorem mono {m : Run α} {ws' rs' : List Nat} (h : Run.Keeps c ws rs m) (hw : ∀ a ∈ ws, a ∈ ws')
    (hr : ∀ a ∈ rs, a ∈ rs') : Run.Keeps c ws' rs' m :=
  fun s hc hm => ⟨(h s hc hm).1.mono hw hr, (h s hc hm).2⟩

/-- A part that touches neither latches, lines nor configuration. -/
theorem still {m : Run α} (h : ∀ s, (after (m s)).latches = s.latches ∧ (after (m s)).lines = s.lines ∧
    (after (m s)).cfg = s.cfg) : Run.Keeps c ws rs m := by
  intro s _ hw
  obtain ⟨h1, h2, h3⟩ := h s
  refine ⟨.of_same hw h3 h1, fun a t e hs => ?_⟩
  rw [e] at h2
  show Lines.clean t.lines = true
  rw [show t.lines = s.lines from h2]
  exact hs

theorem pure (a : α) : Run.Keeps c ws rs (Pure.pure a : Run α) := still fun _ => ⟨rfl, rfl, rfl⟩

theorem orBadIndex (o : State → Option α) : Run.Keeps c ws rs (fun s => Machine.orBadIndex (o s) s) :=
  still fun s => by
    unfold Machine.orBadIndex
    split <;> exact ⟨rfl, rfl, rfl⟩

theorem checkGroup (g : Group) : Run.Keeps c ws rs (Machine.checkGroup g) :=
  still fun s => by
    unfold Machine.checkGroup
    split <;> exact ⟨rfl, rfl, rfl⟩

theorem readAnalog (ch : Nat) : Run.Keeps c ws rs (Machine.readAnalog ch) := by
  intro s _ hw
  have hl := Run.Moves.readAnalog ch s
  have hk : (after (Machine.readAnalog ch s)).latches = s.latches ∧ (after (Machine.readAnalog ch s)).cfg = s.cfg := by
    unfold Machine.readAnalog Machine.pinOp
    obtain ⟨h1, h2, h3⟩ := s.ioDraw_lines
    split
    · show s.ioDraw.2.voltsDraw.2.latches = _ ∧ s.ioDraw.2.voltsDraw.2.cfg = _
      unfold State.voltsDraw State.countDraw
      split <;> exact ⟨h2, h3⟩
    · exact ⟨h2, h3⟩
  refine ⟨.of_same hw hk.2 hk.1, fun a t e hs => ?_⟩
  show Lines.clean t.lines = true
  rw [hl a t e]
  exact hs

end Run.Keeps

/-- Driving the address changes no latch content. -/
theorem driveAddr_latches (a : Nat) (s : State) :
    (after (driveAddr a s)).latches = s.latches ∧ (after (driveAddr a s)).cfg = s.cfg := by
  have one : ∀ (i : Fin 8) (v : Bool) (s : State), (after (drive (.a i) v s)).latches = s.latches ∧
      (after (drive (.a i) v s)).cfg = s.cfg := by
    intro i v s
    unfold drive pinOp
    obtain ⟨_, h2, h3⟩ := s.ioDraw_lines
    split
    · simp only [after, State.event_latches, State.event_cfg, State.moveLine, State.edge_addr, State.setLine_latches,
        State.setLine_cfg]
      exact ⟨h2, h3⟩
    · exact ⟨h2, h3⟩
  have all : ∀ (v : Byte) (is : List (Fin 8)) (s : State), (after (driveAddrLines v is s)).latches = s.latches ∧
      (after (driveAddrLines v is s)).cfg = s.cfg := by
    intro v is
    induction is with
    | nil => exact fun s => ⟨rfl, rfl⟩
    | cons i is ih =>
      intro s
      unfold driveAddrLines
      have h1 := one i (v.getLsbD i) s
      cases h : drive (.a i) (v.getLsbD i) s with
      | ok a t =>
        rw [h] at h1
        rw [bind_ok h]
        exact ⟨(ih t).1.trans h1.1, (ih t).2.trans h1.2⟩
      | error e t =>
        rw [h] at h1
        rw [bind_error h]
        exact h1
  unfold driveAddr
  have h1 := all (BitVec.ofNat 8 a) [7, 6, 5, 4, 3, 2, 1, 0] s
  cases h : driveAddrLines (BitVec.ofNat 8 a) [7, 6, 5, 4, 3, 2, 1, 0] s with
  | ok b t =>
    rw [h] at h1
    rw [bind_ok (onFailure_ok h)]
    exact h1
  | error e t =>
    rw [h] at h1
    rw [bind_error (onFailure_error h)]
    exact h1

/-- A transaction at a valid group: the start, the address, and then the parts that touch the addressed group only. -/
theorem transaction_keeps {α : Type} {c : Config} (hc : c.wf = true) {g : Group} {write : Bool} {f : Bool → Run α}
    {ws rs : List Nat} (hw : write = true → c.writeAddr g ∈ ws) (hr : write = false → c.writeAddr g ∈ rs)
    (hg : c.validGroup g = true) (hf : ∀ d, Run.Local write (c.writeAddr g) (f d))
    (hl : ∀ d, Run.Moves (fun l k => l.clean = true → k.clean = true) (f d)) :
    Run.Keeps c ws rs (do
      let dirty ← startTransaction
      driveAddr (if write then c.writeAddr g else c.writeAddr g + 4)
      f dirty) := by
  intro s hsc hm
  rw [bind_ok (startTransaction_eq s)]
  have h0 : Kept ws rs s s.started := .started hm
  have hcl0 : s.Clean → s.started.Clean := fun h => by
    show Lines.clean s.started.lines = true
    rw [s.started_same.2.1]
    exact h
  generalize hadr : (if write then c.writeAddr g else c.writeAddr g + 4) = adr
  have hd := driveAddr_latches adr s.started
  have hmv := Run.Moves.driveAddr adr s.started
  cases h : driveAddr adr s.started with
  | error e t =>
    rw [h] at hd
    rw [bind_error h]
    exact ⟨h0.trans hcl0 (.of_same h0.wf hd.2 hd.1), fun b u hu => by cases hu⟩
  | ok b t =>
    rw [h] at hd
    rw [bind_ok h]
    have hlines : t.lines = { s.started.lines with addr := .ofAddr adr } := hmv b t h
    have ht : Kept ws rs s t := h0.trans hcl0 (.of_same h0.wf hd.2 hd.1)
    have hclt : s.Clean → t.Clean := fun hs => by
      show Lines.clean t.lines = true
      rw [hlines]
      exact hcl0 hs
    have hadd : Addressed write (c.writeAddr g) t := by
      refine ⟨?_, ?_, ?_⟩
      · rw [ht.cfg, hsc]; exact hc
      · rw [ht.cfg, hsc]; exact Config.writeAddr_mem hg
      · rw [hlines, ← hadr]
    have hloc := hf (!s.lines.clean) t hadd
    obtain ⟨w1, w2⟩ := hloc.2.2 ht.wf
    refine ⟨ht.trans hclt ⟨hloc.1, w1, fun a ha => .inl ?_, fun a ha hb => .inl ?_⟩, fun b u hu hs =>
      hl _ t b u hu (hclt hs)⟩
    · have := w2 a
      unfold Touch at this
      cases write
      · exact this.1
      · rw [show (after _).latches.get a = _ from this fun h => ha (h ▸ hw rfl)]
    · have := w2 a
      unfold Touch at this
      cases write
      · exact this.2 fun h => hb (h ▸ hr rfl)
      · rw [show (after _).latches.get a = _ from this fun h => ha (h ▸ hw rfl)]

/-- A write touches the group it writes (41_latch_protocol.md R131). -/
theorem latchWrite_keeps {c : Config} (hc : c.wf = true) (g : Group) (b : Byte) :
    Run.Keeps c [c.writeAddr g] [] (latchWrite g b) := by
  intro s hsc hm
  by_cases hg : s.cfg.validGroup g = true
  · have h := transaction_keeps (ws := [c.writeAddr g]) (rs := []) hc (g := g) (write := true)
      (f := fun dirty => do
        verify (c.writeAddr g) [c.writeAddr g]
        onFailure (fun s => s.forget (c.writeAddr g)) (sendByte b)
        forgetOutIf dirty (c.writeAddr g))
      (by simp) (by simp) (hsc ▸ hg)
      (fun d => .bind (.verify _ _) fun _ => .bind (.onFailure (.sendByte b) fun s => .forget s) fun _ s _ => by
        cases d
        · exact .refl s
        · exact .setOut s _)
      (fun d => .bind (.verify _ _) (fun _ => .bind (K := fun l k => k.load = l.load ∧ k.busen = .hi ∧ k.clk = .hi)
        (L := fun l k => k = l) (M := fun l k => k.load = l.load ∧ k.busen = .hi ∧ k.clk = .hi)
        (fun s a t e => ?_) (fun _ s a t e => ?_) fun l k j h1 h2 => by rw [h2]; exact h1)
        fun l k j h1 h2 hl => ?_) s hsc hm
    · have hrun : latchWrite g b s = _ := (bind_ok (m := checkGroup g) (a := ()) (t := s) (by simp [checkGroup, hg])).trans
        (bind_ok (m := writeAddrOf g) (a := s.cfg.writeAddr g) (t := s) rfl)
      rw [hrun, hsc]
      exact h
    · cases hs : sendByte b s with
      | ok a' t' => rw [onFailure_ok hs] at e; cases e; exact Run.Moves.sendByte b s _ _ hs
      | error f t' => rw [onFailure_error hs] at e; cases e
    · cases e
      cases d <;> rfl
    · rw [h1] at h2
      rw [Lines.clean, Bool.and_eq_true, Bool.and_eq_true, beq_iff_eq, beq_iff_eq, beq_iff_eq] at hl ⊢
      exact ⟨⟨h2.2.1, h2.1.trans hl.1.2⟩, h2.2.2⟩
  · have hrun : latchWrite g b s = .error .badIndex s := bind_error (by simp [checkGroup, hg])
    rw [hrun]
    exact ⟨.refl hm, fun a t e => by cases e⟩

/-- A read touches the shift register of the group it reads (41_latch_protocol.md R142). -/
theorem latchRead_keeps {c : Config} (hc : c.wf = true) (g : Group) :
    Run.Keeps c [] [c.writeAddr g] (latchRead g) := by
  intro s hsc hm
  by_cases hg : s.cfg.validGroup g = true
  · have h := transaction_keeps (ws := []) (rs := [c.writeAddr g]) hc (g := g) (write := false)
      (f := fun dirty => do
        verify (c.writeAddr g + 4) [c.writeAddr g + 4, c.writeAddr g]
        checkLoadHazard
        let v ← receiveByte
        drawIf dirty v)
      (by simp) (by simp) (hsc ▸ hg)
      (fun d => .bind (.verify _ _) fun _ => .bind (fun s _ => by
          show Local _ _ s (if s.lines.busen = .hi then s else s.setHaz hazLoaden)
          split <;> exact .of_same rfl rfl rfl) fun _ => .bind .receiveByte fun v s _ => by
        cases d
        · exact .refl s
        · show Local _ _ s s.readByteDraw.2
          unfold State.readByteDraw State.countDraw
          split <;> exact .of_same rfl rfl rfl)
      (fun d => .bind (.verify _ _) (fun _ => .bind (K := fun l k => k = l)
        (L := fun _ k => k.load = .hi ∧ k.busen = .hi ∧ k.clk = .hi)
        (M := fun _ k => k.load = .hi ∧ k.busen = .hi ∧ k.clk = .hi)
        (fun s a t e => ?_) (fun _ => .bind .receiveByte (L := fun l k => k = l) (fun v s a t e => ?_)
          fun l k j h1 h2 => by rw [h2]; exact h1) fun l k j h1 h2 => h2)
        fun l k j h1 h2 hl => ?_) s hsc hm
    · have hrun : latchRead g s = _ := (bind_ok (m := checkGroup g) (a := ()) (t := s) (by simp [checkGroup, hg])).trans
        (bind_ok (m := writeAddrOf g) (a := s.cfg.writeAddr g) (t := s) rfl)
      rw [hrun, hsc]
      exact h
    · cases e
      show (if s.lines.busen = .hi then s else s.setHaz hazLoaden).lines = s.lines
      split <;> rfl
    · unfold drawIf at e
      cases d
      · cases e; rfl
      · cases e
        unfold State.readByteDraw State.countDraw
        split <;> rfl
    · rw [Lines.clean, Bool.and_eq_true, Bool.and_eq_true, beq_iff_eq, beq_iff_eq, beq_iff_eq]
      exact ⟨⟨h2.2.1, h2.1⟩, h2.2.2⟩
  · have hrun : latchRead g s = .error .badIndex s := bind_error (by simp [checkGroup, hg])
    rw [hrun]
    exact ⟨.refl hm, fun a t e => by cases e⟩

/-! ## The groups a command's work keeps -/

/-- The parts of a command that come after a table look-up, from the entry found. -/
theorem lookup_keeps {α β : Type} {c : Config} {ws rs : List Nat} {o : Config → Option β} {f : β → Run α}
    (hf : ∀ b, o c = some b → Run.Keeps c ws rs (f b)) :
    Run.Keeps c ws rs (Bind.bind (m := Run) (fun s => orBadIndex (o s.cfg) s) f) := by
  intro s hc hm
  cases h : o c with
  | none =>
    rw [bind_error (m := fun s => orBadIndex (o s.cfg) s) (e := .badIndex) (t := s) (by simp [orBadIndex, hc, h])]
    exact ⟨.refl hm, fun a t e => by cases e⟩
  | some b =>
    rw [bind_ok (m := fun s => orBadIndex (o s.cfg) s) (a := b) (t := s) (by simp [orBadIndex, hc, h])]
    exact hf b h s hc hm

theorem checkDev_keeps {α : Type} {c : Config} {ws rs : List Nat} {dev : Nat} {f : Device → Run α}
    (hf : ∀ d, c.device dev = some d → Run.Keeps c ws rs (f d)) : Run.Keeps c ws rs (checkDev dev >>= f) :=
  lookup_keeps (o := fun c => c.device dev) hf

theorem checkMon_keeps {α : Type} {c : Config} {ws rs : List Nat} {i : Nat} {f : MonEntry → Run α}
    (hf : ∀ e, c.monEntry i = some e → Run.Keeps c ws rs (f e)) : Run.Keeps c ws rs (checkMon i >>= f) :=
  lookup_keeps (o := fun c => c.monEntry i) hf

theorem resolveReadback_keeps {c : Config} {ws rs : List Nat} (band chain : Nat) (ss : List SubSwitch) :
    Run.Keeps c ws rs (resolveReadback band chain ss) := by
  induction ss with
  | nil => exact .pure _
  | cons s ss ih => exact .bind (.orBadIndex _) fun _ => .bind ih fun _ => .pure _

theorem resolveControl_keeps {c : Config} {ws rs : List Nat} (band chain : Nat) (ss : List SubSwitch) :
    Run.Keeps c ws rs (resolveControl band chain ss) := by
  induction ss with
  | nil => exact .pure _
  | cons s ss ih =>
    exact .bind (.orBadIndex _) fun _ => .bind (.orBadIndex _) fun _ => .bind ih fun _ => .pure _

theorem agree_keeps {c : Config} {ws rs : List Nat} (dev : Nat) (sts : List Bool) :
    Run.Keeps c ws rs (agree dev sts) := by
  match sts with
  | [] => exact .still fun _ => ⟨rfl, rfl, rfl⟩
  | [_] => exact .pure _
  | [st0, st1] =>
    show Run.Keeps c ws rs (if st0 = st1 then pure (.ofState st0) else disagree dev st0 st1)
    split
    · exact .pure _
    · exact .still fun _ => ⟨rfl, rfl, rfl⟩
  | _ :: _ :: _ :: _ => exact .still fun _ => ⟨rfl, rfl, rfl⟩

theorem readSub_keeps {c : Config} (hc : c.wf = true) {ws rs : List Nat} {u : SubSwitch} (o : Nat)
    (hu : c.writeAddr u.rbGrp ∈ rs) : Run.Keeps c ws rs (readSub u o) :=
  .bind ((latchRead_keeps hc _).mono (by simp) (by simpa using hu)) fun _ => .pure _

/-- The readback groups are read. -/
theorem readSubs_keeps {c : Config} (hc : c.wf = true) {ws rs : List Nat} (l : List (SubSwitch × Nat))
    (hl : ∀ p ∈ l, c.writeAddr p.1.rbGrp ∈ rs) : Run.Keeps c ws rs (readSubs l) := by
  induction l with
  | nil => exact .pure _
  | cons p l ih =>
    exact .bind (readSub_keeps hc _ (hl p (by simp))) fun _ =>
      .bind (ih fun p hp => hl p (by simp [hp])) fun _ => .pure _

/-- The control groups are read and written. -/
theorem writeSubs_keeps {c : Config} (hc : c.wf = true) (st : Bool) {ws rs : List Nat} (l : List (SubSwitch × Nat))
    (hl : ∀ p ∈ l, c.writeAddr p.1.ctlGrp ∈ ws ∧ c.writeAddr p.1.ctlGrp ∈ rs) : Run.Keeps c ws rs (writeSubs st l) := by
  induction l with
  | nil => exact .pure _
  | cons p l ih =>
    have h := hl p (by simp)
    exact .bind ((latchRead_keeps hc _).mono (by simp) (by simpa using h.2)) fun _ =>
      .bind ((latchWrite_keeps hc _ _).mono (by simpa using h.1) (by simp)) fun _ => ih fun p hp => hl p (by simp [hp])

/-- `SwGet` reads the readback groups of its device and writes no group (42_switch_state.md R180). -/
theorem swGet_keeps {c : Config} (hc : c.wf = true) (dev band chain : Nat) {ws rs : List Nat}
    (hr : ∀ d, c.device dev = some d → ∀ u ∈ d.subs, c.writeAddr u.rbGrp ∈ rs) :
    Run.Keeps c ws rs (swGet dev band chain) :=
  checkDev_keeps fun d hd => .bind (resolveReadback_keeps _ _ _) fun _ =>
    .bind (readSubs_keeps hc _ fun p hp => hr d hd p.1 (List.of_mem_zip hp).1) fun _ => agree_keeps _ _

/-- `SwSet` writes the control groups of its device and reads them and the readback groups (42_switch_state.md R190 to
R192). -/
theorem swSet_keeps {c : Config} (hc : c.wf = true) (dev band chain : Nat) (st : Bool) {ws rs : List Nat}
    (hg : ∀ d, c.device dev = some d → ∀ u ∈ d.subs,
      c.writeAddr u.ctlGrp ∈ ws ∧ c.writeAddr u.ctlGrp ∈ rs ∧ c.writeAddr u.rbGrp ∈ rs) :
    Run.Keeps c ws rs (swSet dev band chain st) :=
  checkDev_keeps fun d hd => .bind (resolveControl_keeps _ _ _) fun _ =>
    .bind (writeSubs_keeps hc st _ fun p hp =>
      have h := hg d hd p.1 (List.of_mem_zip hp).1
      ⟨h.1, h.2.1⟩) fun _ => swGet_keeps hc _ _ _ fun d hd u hu => (hg d hd u hu).2.2

/-- One unit of a `SW_SET` (42_switch_state.md R193). -/
theorem swSetUnit_keeps {c : Config} (hc : c.wf = true) (dev band chain : Nat) (st : Bool) (place : RmwPlace)
    {ws rs : List Nat} (hg : ∀ d, c.device dev = some d → ∀ u ∈ d.subs,
      c.writeAddr u.ctlGrp ∈ ws ∧ c.writeAddr u.ctlGrp ∈ rs ∧ c.writeAddr u.rbGrp ∈ rs) :
    Run.Keeps c ws rs (swSetUnit dev band chain st place) := by
  refine checkDev_keeps fun d hd => .bind (resolveControl_keeps _ _ _) fun cs => ?_
  have sub : ∀ {α : Type} {j : Nat} {f : SubSwitch → Run α}, (∀ u ∈ d.subs, Run.Keeps c ws rs (f u)) →
      Run.Keeps c ws rs (orBadIndex d.subs[j]? >>= f) := fun hf =>
    lookup_keeps (o := fun _ => d.subs[_]?) fun u hu => hf u (List.mem_of_getElem? hu)
  cases place with
  | read j =>
    exact sub fun u hu => .bind ((latchRead_keeps hc _).mono (by simp) (by simpa using (hg d hd u hu).2.1)) fun _ =>
      .pure _
  | write j cur =>
    exact sub fun u hu => .bind (.orBadIndex fun _ => _) fun _ =>
      .bind ((latchWrite_keeps hc _ _).mono (by simpa using (hg d hd u hu).1) (by simp)) fun _ => .pure _
  | confirm j sts =>
    refine sub fun u hu => .bind (.orBadIndex _) fun _ => .bind (readSub_keeps hc _ (hg d hd u hu).2.2) fun v => ?_
    split
    · exact .pure _
    · exact .bind (agree_keeps _ _) fun _ => .pure _

/-- The select groups of a monitor point are written (43_monitor_mux.md R221). -/
theorem selectEntry_keeps {c : Config} (hc : c.wf = true) {e : MonEntry} {ws rs : List Nat}
    (hA : c.writeAddr e.selA.grp ∈ ws) (hB : c.writeAddr e.selB.grp ∈ ws) : Run.Keeps c ws rs (selectEntry e) :=
  .bind ((latchWrite_keeps hc _ _).mono (by simpa using hA) (by simp)) fun _ =>
    (latchWrite_keeps hc _ _).mono (by simpa using hB) (by simp)

theorem readOuts_keeps {c : Config} {ws rs : List Nat} (os : List MonOut) : Run.Keeps c ws rs (readOuts os) := by
  induction os with
  | nil => exact .pure _
  | cons o os ih => exact .bind (.readAnalog _) fun _ => .bind ih fun _ => .pure _

theorem monSelect_keeps {c : Config} (hc : c.wf = true) (i : Nat) : Run.Keeps c (selectsOf c i) [] (monSelect i) :=
  checkMon_keeps fun e he => .bind (selectEntry_keeps hc (by simp [selectsOf, he]) (by simp [selectsOf, he])) fun _ =>
    .pure _

/-- `MonRead` writes the select groups of its point (43_monitor_mux.md R223). -/
theorem monReadings_keeps {c : Config} (hc : c.wf = true) (i : Nat) :
    Run.Keeps c (selectsOf c i) [] (monReadings i) :=
  checkMon_keeps fun e he => .bind (selectEntry_keeps hc (by simp [selectsOf, he]) (by simp [selectsOf, he])) fun _ =>
    readOuts_keeps _

end Sys2Proof.Machine
end

