-- ==== Sys2Proof/Laws/PerInstr.lean ====
section
/-! SUPPORT. The family `TableRow`, one lemma per constructor of `Instr`: the word of an instruction matches the
opcode table's row of that instruction, and the row's `OPC` is the instruction's (30_encoding.md R91, R99). -/

namespace Sys2Proof.Laws.TableRow

/-- The word of the instruction is a word of its row, whose opcode it carries. -/
def Statement (i : Instr) : Prop :=
  i.row.holds i.word = true ∧ Word.opc i.word = Word.opc i.row.pattern

/-- Two words with the same 32 bits are one. -/
theorem word_ext {v w : Word} (h : ∀ k ∈ List.range 32, v.getLsbD k = w.getLsbD k) : v = w :=
  BitVec.eq_of_getLsbD_eq fun k hk => h k (List.mem_range.2 hk)

/-- A word of row `r` carries the opcode of the row. -/
theorem opc_of_holds {r : Row} {w : Word} (hm : r.mask.extractLsb' 28 4 = 15#4) (h : r.holds w = true) :
    Word.opc w = Word.opc r.pattern := by
  have h : w &&& r.mask = r.pattern := by simpa [Row.holds] using h
  have : (w &&& r.mask).extractLsb' 28 4 = w.extractLsb' 28 4 := by
    rw [BitVec.extractLsb'_and, hm, show (15#4 : BitVec 4) = BitVec.allOnes 4 from rfl, BitVec.and_allOnes]
  rw [Word.opc, Word.opc, ← h, this]

/-- The bits of an encoded word, one by one, against those of its row. -/
theorem statement_of_holds {i : Instr} (hm : i.row.mask.extractLsb' 28 4 = 15#4)
    (h : ∀ k ∈ List.range 32, (i.word &&& i.row.mask).getLsbD k = i.row.pattern.getLsbD k) : Statement i :=
  have h : i.row.holds i.word = true := beq_iff_eq.2 (word_ext h)
  ⟨h, opc_of_holds hm h⟩

theorem lgAddr (dm lg : Nat) (rd : Bool) : Statement (.lgAddr dm lg rd) := by
  refine statement_of_holds (show Row.lgAddr.mask.extractLsb' 28 4 = 15#4 by decide) ?_
  simp only [Instr.row, Row.lgAddr, Instr.word, List.range, List.range.loop, List.forall_mem_cons, BitVec.getLsbD_append,
    BitVec.getLsbD_and, BitVec.getLsbD_ofBool]
  simp

theorem lgWrite (dm lg : Nat) (b : Byte) : Statement (.lgWrite dm lg b) := by
  refine statement_of_holds (show Row.lgWrite.mask.extractLsb' 28 4 = 15#4 by decide) ?_
  simp only [Instr.row, Row.lgWrite, Instr.word, List.range, List.range.loop, List.forall_mem_cons, BitVec.getLsbD_append,
    BitVec.getLsbD_and]
  simp

theorem lgRead (dm lg : Nat) : Statement (.lgRead dm lg) := by
  refine statement_of_holds (show Row.lgRead.mask.extractLsb' 28 4 = 15#4 by decide) ?_
  simp only [Instr.row, Row.lgRead, Instr.word, List.range, List.range.loop, List.forall_mem_cons, BitVec.getLsbD_append,
    BitVec.getLsbD_and]
  simp

theorem swGet (dev band chain : Nat) : Statement (.swGet dev band chain) := by
  refine statement_of_holds (show Row.swGet.mask.extractLsb' 28 4 = 15#4 by decide) ?_
  simp only [Instr.row, Row.swGet, Instr.word, List.range, List.range.loop, List.forall_mem_cons, BitVec.getLsbD_append,
    BitVec.getLsbD_and]
  simp

theorem swSet (dev band chain : Nat) (st : Bool) : Statement (.swSet dev band chain st) := by
  refine statement_of_holds (show Row.swSet.mask.extractLsb' 28 4 = 15#4 by decide) ?_
  simp only [Instr.row, Row.swSet, Instr.word, List.range, List.range.loop, List.forall_mem_cons, BitVec.getLsbD_append,
    BitVec.getLsbD_and, BitVec.getLsbD_ofBool]
  simp

theorem monSelect (idx : Nat) : Statement (.monSelect idx) := by
  refine statement_of_holds (show Row.monSelect.mask.extractLsb' 28 4 = 15#4 by decide) ?_
  simp only [Instr.row, Row.monSelect, Instr.word, List.range, List.range.loop, List.forall_mem_cons, BitVec.getLsbD_append,
    BitVec.getLsbD_and]
  simp

theorem monRead (idx : Nat) : Statement (.monRead idx) := by
  refine statement_of_holds (show Row.monRead.mask.extractLsb' 28 4 = 15#4 by decide) ?_
  simp only [Instr.row, Row.monRead, Instr.word, List.range, List.range.loop, List.forall_mem_cons, BitVec.getLsbD_append,
    BitVec.getLsbD_and]
  simp

theorem monConvert (cat : Nat) (raw : Volts) : Statement (.monConvert cat raw) := by
  refine statement_of_holds (show Row.monConvert.mask.extractLsb' 28 4 = 15#4 by decide) ?_
  simp only [Instr.row, Row.monConvert, Instr.word, List.range, List.range.loop, List.forall_mem_cons, BitVec.getLsbD_append,
    BitVec.getLsbD_and]
  simp

theorem monSweep : Statement .monSweep := by
  refine statement_of_holds (show Row.monSweep.mask.extractLsb' 28 4 = 15#4 by decide) ?_
  simp only [Instr.row, Row.monSweep, Instr.word, List.range, List.range.loop, List.forall_mem_cons, BitVec.getLsbD_append,
    BitVec.getLsbD_and]
  simp

end Sys2Proof.Laws.TableRow
end

