-- ==== Sys2Proof/Laws/Step.lean ====
section
/-! SUPPORT. What a locked unit and a step can do, said once: every meaning called for a bus owner answers a next state,
which is what a part of the command left, with the response delivered or the progress kept; and a step is idle, a
submission, or one such unit. -/

namespace Sys2Proof.Machine

/-- How a unit of `q` ends, from the state `u` its work left (60_exceptions.md R287). -/
inductive UnitEnd (q : Nat) (u : State) : State → Prop where
  /-- The command ends: its response, which carries the hazard bits, is delivered. -/
  | answered (r : Response) (h : r.haz = u.haz) : UnitEnd q u (u.deliver q r)
  /-- A sweep goes on. -/
  | sweeping (p : Sweep) : UnitEnd q u ((u.setReq q { u.req q with sweep := some p }).release)
  /-- A non-atomic `SW_SET` goes on. -/
  | setting (p : RmwPlace) : UnitEnd q u ((u.setReq q { u.req q with rmw := some p }).release)

/-- What every end of a unit leaves as its work left it, and what it does to the bus and the requesters. -/
theorem UnitEnd.parts {q : Nat} {u t : State} (h : UnitEnd q u t) :
    t.cfg = u.cfg ∧ t.haz = u.haz ∧ (∃ es, t.trace = u.trace ++ es) ∧ t.log = u.log ∧ t.latches = u.latches ∧
      t.lines = u.lines ∧ t.env = u.env ∧ t.busOwner = none ∧ t.reqs.length = u.reqs.length ∧
      (∀ p, p ≠ q → t.req p = u.req p) ∧ (q < u.reqs.length → (t.req q).toSubmit = (u.req q).toSubmit) := by
  cases h with
  | answered r h =>
    refine ⟨rfl, rfl, ⟨_, rfl⟩, rfl, rfl, rfl, rfl, rfl, by simp [State.deliver, State.release, State.setReq],
      fun p hp => State.setReq_req_other _ _ _ _ hp, fun hq => ?_⟩
    exact (congrArg Requester.toSubmit (State.setReq_req_self (u.event (.endCmd q r)) q _ hq)).trans rfl
  | sweeping p =>
    refine ⟨rfl, rfl, ⟨[], by simp⟩, rfl, rfl, rfl, rfl, rfl, by simp [State.release, State.setReq],
      fun p hp => State.setReq_req_other _ _ _ _ hp, fun hq => ?_⟩
    exact (congrArg Requester.toSubmit (State.setReq_req_self u q _ hq)).trans rfl
  | setting p =>
    refine ⟨rfl, rfl, ⟨[], by simp⟩, rfl, rfl, rfl, rfl, rfl, by simp [State.release, State.setReq],
      fun p hp => State.setReq_req_other _ _ _ _ hp, fun hq => ?_⟩
    exact (congrArg Requester.toSubmit (State.setReq_req_self u q _ hq)).trans rfl

theorem Failure.response_haz (f : Failure) (haz : BitVec 2) : (f.response haz).haz = haz := by
  cases f <;> rfl

/-- The end of a whole command. -/
theorem State.finish_end (q : Nat) (r : EStateM.Result Failure State Reply) :
    UnitEnd q (after r) (State.finish q r) := by
  cases r with
  | ok v t => exact .answered _ rfl
  | error f t => exact .answered _ (f.response_haz _)

/-- The end of a unit of a non-atomic `SW_SET`. -/
theorem State.finishSwSetUnit_end (q : Nat) (r : EStateM.Result Failure State SwSetStep) :
    UnitEnd q (after r) (State.finishSwSetUnit q r) := by
  cases r with
  | ok v t =>
    cases v with
    | more p => exact .setting p
    | done r => exact .answered _ rfl
  | error f t => exact .answered _ (f.response_haz _)

/-- A whole command of the bus owner answers a next state. -/
theorem wholeCommand_next {m : Run Reply} {s : State} {q : Nat} (h : s.busOwner = some q) :
    wholeCommand m s = .next (.finish q (m s)) := by
  simp [wholeCommand, h]

/-- A whole command that succeeds delivers its reply. -/
theorem wholeCommand_ok {m : Run Reply} {s u : State} {q : Nat} {r : Reply} (h : s.busOwner = some q)
    (hm : m s = .ok r u) : wholeCommand m s = .next (u.deliver q (r.response u.haz)) := by
  rw [wholeCommand_next h, hm]
  rfl

/-- A whole command that fails delivers its failure. -/
theorem wholeCommand_error {m : Run Reply} {s u : State} {q : Nat} {f : Failure} (h : s.busOwner = some q)
    (hm : m s = .error f u) : wholeCommand m s = .next (u.deliver q (f.response u.haz)) := by
  rw [wholeCommand_next h, hm]
  rfl

/-- What delivering a response leaves to the requesters and the bus. -/
theorem answered_deliver {s u : State} {q : Nat} {r : Response} (hq : q < s.reqs.length) (hr : u.reqs = s.reqs) :
    Answered s (u.deliver q r) q r := by
  have hreq : ∀ p, (u.event (.endCmd q r)).req p = s.req p := fun p => by simp [State.req, hr]
  have hreq' : u.req q = s.req q := by simp [State.req, hr]
  refine ⟨?_, fun p hp => ?_, ?_, rfl⟩
  · exact (State.setReq_req_self _ _ _ (by simpa [hr] using hq)).trans (by rw [hreq'])
  · exact (State.setReq_req_other _ _ _ _ hp).trans (hreq p)
  · simp [State.deliver, State.release, State.setReq, hr]

/-- What a unit that does not end its command leaves to the requesters and the bus. -/
theorem goesOn_release {s u : State} {q : Nat} {r : Requester} (hq : q < s.reqs.length) (hr : u.reqs = s.reqs) :
    GoesOn s (u.setReq q r).release q r := by
  have hreq : ∀ p, u.req p = s.req p := fun p => by simp [State.req, hr]
  refine ⟨?_, fun p hp => ?_, ?_, rfl⟩
  · exact State.setReq_req_self _ _ _ (by simpa [hr] using hq)
  · exact (State.setReq_req_other _ _ _ _ hp).trans (hreq p)
  · simp [State.release, State.setReq, hr]

/-- A unit of a non-atomic `SW_SET` of the bus owner answers a next state. -/
theorem swSetNextUnit_next {dev band chain : Nat} {st : Bool} {s : State} {q : Nat} (h : s.busOwner = some q) :
    swSetNextUnit dev band chain st s =
      .next (.finishSwSetUnit q (swSetUnit dev band chain st ((s.req q).rmw.getD (.read 0)) s)) := by
  simp [swSetNextUnit, h]

/-- What a unit of the bus owner can do: a next state, reached by work that only evolves the state, and then one of the
ends. -/
theorem wholeCommand_unit {m : Run Reply} (hm : Run.Evolving m) {s : State} {q : Nat} (h : s.busOwner = some q) :
    ∃ u t, wholeCommand m s = .next t ∧ Evolves s u ∧ UnitEnd q u t :=
  ⟨_, _, wholeCommand_next h, hm s, State.finish_end q _⟩

/-- Every meaning, called for a bus owner, answers a next state of this form. -/
theorem exec_unit (i : Instr) {s : State} {q : Nat} (h : s.busOwner = some q) :
    ∃ u t, exec i s = .next t ∧ Evolves s u ∧ UnitEnd q u t := by
  cases i with
  | lgAddr dm lg rd => exact wholeCommand_unit (lgAddr_evolving _ _) h
  | lgWrite dm lg b => exact wholeCommand_unit (lgWrite_evolving _ _) h
  | lgRead dm lg => exact wholeCommand_unit (lgRead_evolving _) h
  | swGet dev band chain => exact wholeCommand_unit (swGet_evolving _ _ _) h
  | swSet dev band chain st =>
    show ∃ u t, execSwSet dev band chain st s = .next t ∧ Evolves s u ∧ UnitEnd q u t
    unfold execSwSet
    split
    · exact wholeCommand_unit (swSet_evolving _ _ _ _) h
    · exact ⟨_, _, swSetNextUnit_next h, swSetUnit_evolving _ _ _ _ _ s, State.finishSwSetUnit_end q _⟩
  | monSelect idx => exact wholeCommand_unit (monSelect_evolving _) h
  | monRead idx => exact wholeCommand_unit (monRead_evolving _) h
  | monConvert cat raw => exact wholeCommand_unit (monConvert_evolving _ _) h
  | monSweep =>
    show ∃ u t, execMonSweep s = .next t ∧ Evolves s u ∧ UnitEnd q u t
    by_cases hp : ((s.req q).sweep.getD .start).next ≤ Config.nMon
    · exact ⟨(sweepPoint ((s.req q).sweep.getD .start) s).2, .finishPoint q (sweepPoint ((s.req q).sweep.getD .start) s),
        by simp [execMonSweep, h, hp], sweepPoint_evolves _ s, .sweeping _⟩
    · exact ⟨s, s.deliver q (((s.req q).sweep.getD .start).response s.haz),
        by simp [execMonSweep, h, hp], .refl s, .answered _ rfl⟩

/-! ## The scheduler -/

theorem State.beginCommand_busOwner (s : State) (q : Nat) : (s.beginCommand q).busOwner = s.busOwner := by
  unfold State.beginCommand
  split <;> rfl

@[simp] theorem State.grant_busOwner (s : State) (q : Nat) : (s.grant q).busOwner = some q :=
  State.beginCommand_busOwner _ _

/-- What granting changes: the bus owner and, at the first unit of a command, the trace. -/
theorem State.grant_parts (s : State) (q : Nat) :
    (s.grant q).cfg = s.cfg ∧ (s.grant q).reqs = s.reqs ∧ (s.grant q).lines = s.lines ∧
      (s.grant q).latches = s.latches ∧ (s.grant q).haz = s.haz ∧ (s.grant q).log = s.log ∧ (s.grant q).env = s.env ∧
      ∃ es, (s.grant q).trace = s.trace ++ es := by
  unfold State.grant State.beginCommand
  split
  · exact ⟨rfl, rfl, rfl, rfl, rfl, rfl, rfl, _, rfl⟩
  · exact ⟨rfl, rfl, rfl, rfl, rfl, rfl, rfl, [], (List.append_nil _).symm⟩

/-- The `begin` event of a granted command, at its first unit only. -/
theorem State.grant_trace {s : State} {q : Nat} {c : Command} (h : (s.req q).pending = some c) :
    (s.grant q).trace = s.trace ++
      if (s.req q).sweep = none ∧ (s.req q).rmw = none then [.beginCmd q c.word] else [] := by
  have hreq : ({ s with busOwner := some q } : State).req q = s.req q := rfl
  unfold State.grant State.beginCommand
  rw [hreq, h]
  cases (s.req q).sweep <;> cases (s.req q).rmw <;> simp [State.event]

/-- A requester that waits exists, and has a command pending (60_exceptions.md R285, R287). -/
theorem State.SchedOk.pending {s : State} (h : s.SchedOk) {q : Nat} (hw : s.waiting q = true) :
    q < s.reqs.length ∧ (s.req q).Ok s.cfg ∧ ∃ c, (s.req q).pending = some c := by
  have hq : q < s.reqs.length := by
    refine Classical.byContradiction fun hn => ?_
    have : s.req q = .idle := by simp [State.req, List.getElem?_eq_none (Nat.le_of_not_lt hn)]
    simp [State.waiting, this, Requester.idle] at hw
  have hok : (s.req q).Ok s.cfg := h.2.2 _ (by simp [State.req, List.getElem?_eq_getElem hq])
  refine ⟨hq, hok, ?_⟩
  unfold State.waiting at hw
  cases hp : (s.req q).pending with
  | some c => exact ⟨c, rfl⟩
  | none =>
    cases hs : (s.req q).sweep with
    | none => simp [hp, hs] at hw
    | some p =>
      obtain ⟨c, h1, _⟩ := (hok.1 p hs).2.2
      rw [hp] at h1
      cases h1

/-- A granted unit always answers a next state. -/
theorem runUnit_unit {s : State} {q : Nat} (h : s.busOwner = some q) :
    ∃ t, runUnit q s = .next t ∧ (t = s.release ∨ ∃ u, Evolves s u ∧ UnitEnd q u t) := by
  unfold runUnit
  split
  · exact ⟨_, rfl, .inl rfl⟩
  · exact ⟨_, rfl, .inr ⟨s, .refl s, .answered _ rfl⟩⟩
  · rename_i i _
    obtain ⟨u, t, ht, hu, he⟩ := exec_unit i h
    exact ⟨t, ht, .inr ⟨u, hu, he⟩⟩

/-- Choosing a move changes the environment's schedule and nothing else. -/
theorem State.chooseMove_evolves (s : State) : Evolves s s.chooseMove.2 := by
  unfold State.chooseMove State.choiceDraw
  split <;> exact .of_lines_env rfl rfl rfl ⟨rfl, rfl, rfl⟩ rfl rfl rfl rfl

/-- A chosen move is an enabled one. -/
theorem State.chooseMove_mem {s : State} {m : Move} (h : s.chooseMove.1 = some m) : m ∈ s.moves :=
  List.mem_of_getElem? h

theorem State.mem_moves_grant {s : State} {q : Nat} :
    Move.grant q ∈ s.moves ↔ q < s.reqs.length ∧ s.canGrant q = true := by
  simp [State.moves, State.requesters]

theorem State.mem_moves_submit {s : State} {q : Nat} :
    Move.submit q ∈ s.moves ↔ q < s.reqs.length ∧ s.canSubmit q = true := by
  simp [State.moves, State.requesters]

/-- What choosing changes: the schedule and the count of free values. -/
theorem State.chooseMove_eq (s : State) :
    ∃ n rest, s.chooseMove.2 = { s with env := { s.env with drawn := n, sched := rest } } := by
  unfold State.chooseMove State.choiceDraw State.countDraw
  split
  · exact ⟨_, _, rfl⟩
  · exact ⟨_, s.env.sched, rfl⟩

/-- A scripted choice picks the move of its number, and leaves the state as it was. -/
theorem State.choosing_eq (s : State) {n : Nat} (h : n ≤ s.moves.length) :
    (s.choosing n).chooseMove = (s.moves[n]?, s) := by
  show (s.moves[n % (s.moves.length + 1)]?, _) = _
  rw [Nat.mod_eq_of_lt (by omega)]
  rfl

/-- Every enabled move can be the one chosen. -/
theorem State.can_choose {s : State} {m : Move} (h : m ∈ s.moves) : ∃ n, (s.choosing n).chooseMove = (some m, s) := by
  obtain ⟨i, hi, hm⟩ := List.getElem_of_mem h
  exact ⟨i, by rw [State.choosing_eq s (by omega), List.getElem?_eq_getElem hi, hm]⟩

/-- A step can be idle, whatever moves are enabled (60_exceptions.md R288). -/
theorem State.can_idle (s : State) : ∃ n, (s.choosing n).chooseMove = (none, s) :=
  ⟨s.moves.length, by rw [State.choosing_eq s (by omega), List.getElem?_eq_none (by omega)]⟩

/-- A step whose chosen move is a grant runs that requester's unit. -/
theorem step_grant {s : State} {q : Nat} (hw : s.cfg.wf = true) (h : s.chooseMove.1 = some (.grant q)) :
    step s = runUnit q (s.chooseMove.2.grant q) := by
  unfold step
  rw [if_pos hw, h]
  rfl

/-- What submitting changes: the requester's pending command and its commands still to submit, and the count of free values
(60_exceptions.md R285). -/
theorem State.submit_eq (s : State) (q : Nat) :
    ∃ n c rest, s.submit q =
      { s with
        reqs := s.reqs.set q { s.req q with pending := some c, toSubmit := rest }
        env := { s.env with drawn := n } } := by
  unfold State.submit
  split
  · rename_i h
    exact ⟨s.env.drawn + 1, _, [], by rw [← h]; rfl⟩
  · exact ⟨s.env.drawn, _, _, rfl⟩

/-- What a step can do: idle, a submission, or one locked unit of a granted requester. -/
theorem step_cases {s t : State} (h : step s = .next t) :
    s.cfg.wf = true ∧
      (t = s.chooseMove.2 ∨ (∃ q, t = s.chooseMove.2.submit q) ∨
        ∃ q, runUnit q (s.chooseMove.2.grant q) = .next t) := by
  unfold step at h
  split at h
  · refine ⟨‹_›, ?_⟩
    split at h
    · cases h; exact .inl rfl
    · rename_i m _
      cases m with
      | submit q => cases h; exact .inr (.inl ⟨q, rfl⟩)
      | grant q => exact .inr (.inr ⟨q, h⟩)
  · cases h

/-! ## Runs -/

/-- Under a well-formed configuration every step answers a next state, the one of the run. -/
theorem State.stepped_next {s : State} (hw : s.cfg.wf = true) : step s = .next s.stepped := by
  have h : ∃ t, step s = .next t := by
    unfold step
    rw [if_pos hw]
    split
    · exact ⟨_, rfl⟩
    · rename_i m _
      cases m with
      | submit q => exact ⟨_, rfl⟩
      | grant q =>
        obtain ⟨t, ht, _⟩ := runUnit_unit (State.grant_busOwner s.chooseMove.2 q)
        exact ⟨t, ht⟩
  obtain ⟨t, ht⟩ := h
  unfold State.stepped
  rw [ht]

/-- A free bus is free again after a step, among the same requesters and under the same configuration. -/
theorem step_frees {s t : State} (hb : s.busOwner = none) (h : step s = .next t) :
    t.busOwner = none ∧ t.reqs.length = s.reqs.length ∧ t.cfg = s.cfg := by
  obtain ⟨n, rest, hc⟩ := s.chooseMove_eq
  obtain ⟨_, rfl | ⟨q, rfl⟩ | ⟨q, h⟩⟩ := step_cases h
  · rw [hc]
    exact ⟨hb, rfl, rfl⟩
  · obtain ⟨k, c, l, he⟩ := s.chooseMove.2.submit_eq q
    rw [he, hc]
    exact ⟨hb, List.length_set, rfl⟩
  · obtain ⟨g1, g2, _⟩ := s.chooseMove.2.grant_parts q
    rw [hc] at g1 g2 h
    obtain ⟨t', ht, he⟩ := runUnit_unit (State.grant_busOwner { s with env := { s.env with drawn := n, sched := rest } } q)
    rw [h] at ht
    cases ht
    rcases he with rfl | ⟨u, hu, hend⟩
    · exact ⟨rfl, congrArg List.length g2, g1⟩
    · have hp := hend.parts
      exact ⟨hp.2.2.2.2.2.2.2.1, hp.2.2.2.2.2.2.2.2.1.trans (congrArg List.length (hu.reqs.trans g2)),
        hp.1.trans (hu.cfg.trans g1)⟩

/-- Each state of a run is reached by a step, and finds the bus free. -/
theorem State.run_steps {s : State} (choices : Nat → Nat) (hw : s.cfg.wf = true) (hb : s.busOwner = none) (n : Nat) :
    step ((s.run choices n).choosing (choices n)) = .next (s.run choices (n + 1)) ∧
      (s.run choices n).busOwner = none ∧ (s.run choices n).reqs.length = s.reqs.length ∧
      (s.run choices n).cfg = s.cfg := by
  induction n with
  | zero => exact ⟨State.stepped_next hw, hb, rfl, rfl⟩
  | succ n ih =>
    obtain ⟨h1, h2, h3, h4⟩ := ih
    obtain ⟨k1, k2, k3⟩ := step_frees (s := (s.run choices n).choosing (choices n)) h2 h1
    have hc : (s.run choices (n + 1)).cfg = s.cfg := k3.trans h4
    exact ⟨State.stepped_next (s := (s.run choices (n + 1)).choosing (choices (n + 1)))
      (show (s.run choices (n + 1)).cfg.wf = true by rw [hc]; exact hw), k1, k2.trans h3, hc⟩

end Sys2Proof.Machine
end

