-- ==== Sys2Proof/Laws/Trace.lean ====
section
/-! SUPPORT. What a part of a command writes into `TRACE` and `LOG`, said once: the lines are where its events put them,
every failed event has its record, and only `IO_FAIL` ends with a failed event. -/

namespace Sys2Proof.Machine

/-- Between `s` and `t` the events `es`, each one `P`, and the records `rs` were appended, and they tell what happened to
the lines and which adapter operations failed. -/
structure Recorded (P : Event → Prop) (s t : State) (es : List Event) (rs : List LogRec) : Prop where
  trace : t.trace = s.trace ++ es
  log : t.log = s.log ++ rs
  only : ∀ e ∈ es, P e
  failures : rs.filterMap LogRec.ioPlace = es.filterMap Event.failedAt
  lines : t.lines = es.foldl Lines.replay s.lines

/-- How the events of a part that raised a failure end: after `IO_FAIL` with the one failed event, otherwise with none
failed, and after `ADDR_MISMATCH` with the port read that showed the byte observed. -/
def EndsWith : Failure → List Event → Prop
  | .ioFail, es => ∃ es0 e p, es = es0 ++ [e] ∧ e.failedAt = some p ∧ es0.filterMap Event.failedAt = []
  | .addrMismatch _ obs, es => ∃ es0, es = es0 ++ [.readPort (some obs)] ∧ es0.filterMap Event.failedAt = []
  | .inconsistent _ _, es => es.filterMap Event.failedAt = []
  | .badIndex, es => es.filterMap Event.failedAt = []
  | .badLabel, es => es.filterMap Event.failedAt = []
  | .illegal, es => es.filterMap Event.failedAt = []

/-- Events with no failure before do not change how they end. -/
theorem EndsWith.after {f : Failure} {es fs : List Event} (h : EndsWith f fs) (he : es.filterMap Event.failedAt = []) :
    EndsWith f (es ++ fs) := by
  cases f with
  | ioFail =>
    obtain ⟨es0, e, p, h1, h2, h3⟩ := h
    exact ⟨es ++ es0, e, p, by rw [h1, List.append_assoc], h2, by rw [List.filterMap_append, he, h3]; rfl⟩
  | addrMismatch exp obs =>
    obtain ⟨es0, h1, h2⟩ := h
    exact ⟨es ++ es0, by rw [h1, List.append_assoc], by rw [List.filterMap_append, he, h2]; rfl⟩
  | _ => exact (List.filterMap_append ..).trans (by rw [he, h]; rfl)

/-- A part of a command whose events are all `P`. -/
def Run.Recorded {α : Type} (P : Event → Prop) (m : Run α) : Prop :=
  ∀ s, (∀ a t, m s = .ok a t → ∃ es rs, Machine.Recorded P s t es rs ∧ es.filterMap Event.failedAt = []) ∧
    ∀ f t, m s = .error f t → ∃ es rs, Machine.Recorded P s t es rs ∧ EndsWith f es

variable {P : Event → Prop}

namespace Recorded

theorem refl (s : State) : Recorded P s s [] [] :=
  ⟨by simp, by simp, by simp, rfl, rfl⟩

theorem trans {s t u : State} {es fs : List Event} {rs ks : List LogRec} (h : Recorded P s t es rs)
    (k : Recorded P t u fs ks) : Recorded P s u (es ++ fs) (rs ++ ks) where
  trace := by rw [k.trace, h.trace, List.append_assoc]
  log := by rw [k.log, h.log, List.append_assoc]
  only := by
    intro e he
    rcases List.mem_append.1 he with he | he
    · exact h.only e he
    · exact k.only e he
  failures := by rw [List.filterMap_append, List.filterMap_append, h.failures, k.failures]
  lines := by rw [List.foldl_append, ← h.lines, k.lines]

/-- A change of neither lines, trace nor log before. -/
theorem of_same {s s' t : State} {es : List Event} {rs : List LogRec} (hl : s'.lines = s.lines)
    (ht : s'.trace = s.trace) (hg : s'.log = s.log) (h : Recorded P s' t es rs) : Recorded P s t es rs :=
  ⟨by rw [h.trace, ht], by rw [h.log, hg], h.only, h.failures, by rw [h.lines, hl]⟩

end Recorded

namespace Run.Recorded

variable {α β : Type}

theorem pure (a : α) : Run.Recorded P (Pure.pure a : Run α) := by
  intro s
  refine ⟨fun b t h => ?_, fun f t h => ?_⟩
  · cases h; exact ⟨[], [], .refl s, rfl⟩
  · cases h

theorem bind {m : Run α} {f : α → Run β} (hm : Run.Recorded P m) (hf : ∀ a, Run.Recorded P (f a)) :
    Run.Recorded P (m >>= f) := by
  intro s
  cases h : m s with
  | ok a t =>
    obtain ⟨es, rs, h1, h2⟩ := (hm s).1 a t h
    rw [bind_ok h]
    refine ⟨fun b u hu => ?_, fun e u hu => ?_⟩
    · obtain ⟨fs, ks, k1, k2⟩ := (hf a t).1 b u hu
      exact ⟨es ++ fs, rs ++ ks, h1.trans k1, by rw [List.filterMap_append, h2, k2]; rfl⟩
    · obtain ⟨fs, ks, k1, k2⟩ := (hf a t).2 e u hu
      exact ⟨es ++ fs, rs ++ ks, h1.trans k1, k2.after h2⟩
  | error e t =>
    rw [bind_error h]
    exact ⟨fun b u hu => (by cases hu), fun e' u hu => (by cases hu; exact (hm s).2 e t h)⟩

/-- Where the change on failure touches neither lines, trace nor log. -/
theorem onFailure {m : Run α} {f : State → State} (hm : Run.Recorded P m)
    (hf : ∀ s, (f s).lines = s.lines ∧ (f s).trace = s.trace ∧ (f s).log = s.log) :
    Run.Recorded P (Machine.onFailure f m) := by
  intro s
  cases h : m s with
  | ok a t =>
    rw [onFailure_ok h]
    exact ⟨fun b u hu => (by cases hu; exact (hm s).1 a t h), fun e u hu => (by cases hu)⟩
  | error e t =>
    rw [onFailure_error h]
    refine ⟨fun b u hu => (by cases hu), fun e' u hu => ?_⟩
    cases hu
    obtain ⟨es, rs, h1, h2⟩ := (hm s).2 e t h
    obtain ⟨hl, ht, hg⟩ := hf t
    exact ⟨es, rs, ⟨by rw [ht, h1.trace], by rw [hg, h1.log], h1.only, h1.failures, by rw [hl, h1.lines]⟩, h2⟩

/-- A part that touches neither lines nor trace and raises neither `IO_FAIL` nor `ADDR_MISMATCH`. -/
theorem silent {m : Run α} (hm : ∀ s, (after (m s)).lines = s.lines ∧ (after (m s)).trace = s.trace)
    (hr : ∀ s, ∃ rs, (after (m s)).log = s.log ++ rs ∧ rs.filterMap LogRec.ioPlace = [])
    (hf : ∀ s f t, m s = .error f t → EndsWith f []) : Run.Recorded P m := by
  intro s
  obtain ⟨hl, ht⟩ := hm s
  obtain ⟨rs, hg, hio⟩ := hr s
  refine ⟨fun a t h => ?_, fun f t h => ?_⟩
  · rw [h] at hl ht hg
    exact ⟨[], rs, ⟨by simpa [after] using ht, hg, by simp, by simpa using hio, hl⟩, rfl⟩
  · have hne := hf s f t h
    rw [h] at hl ht hg
    exact ⟨[], rs, ⟨by simpa [after] using ht, hg, by simp, by simpa using hio, hl⟩, hne⟩

/-- One primitive: one event, which failed exactly where its record says. -/
theorem pinOp {work : State → α × State} {failed : State → State}
    (hw : ∀ s, ∃ e, Machine.Recorded P s (work s).2 [e] [] ∧ e.failedAt = none)
    (hf : ∀ s, ∃ e p, Machine.Recorded P s (failed s) [e] [.io p] ∧ e.failedAt = some p) :
    Run.Recorded P (Machine.pinOp work failed) := by
  intro s
  have h0 : s.ioDraw.2.lines = s.lines ∧ s.ioDraw.2.trace = s.trace ∧ s.ioDraw.2.log = s.log := by
    unfold State.ioDraw State.countDraw
    repeat' split
    all_goals exact ⟨rfl, rfl, rfl⟩
  unfold Machine.pinOp
  split
  · refine ⟨fun a t h => ?_, fun f t h => by cases h⟩
    cases h
    obtain ⟨e, h1, h2⟩ := hw s.ioDraw.2
    exact ⟨[e], [], h1.of_same h0.1 h0.2.1 h0.2.2, by simp [h2]⟩
  · refine ⟨fun a t h => (by cases h), fun f t h => ?_⟩
    cases h
    obtain ⟨e, p, h1, h2⟩ := hf s.ioDraw.2
    exact ⟨[e], [.io p], h1.of_same h0.1 h0.2.1 h0.2.2, [], e, p, rfl, h2, rfl⟩

theorem drive {n : Line} (hn : ∀ i, n ≠ .a i) (hP : ∀ v ok, P (.drive n v ok)) (v : Bool) :
    Run.Recorded P (Machine.drive n v) := by
  refine pinOp (fun s => ⟨driven n v, ⟨?_, ?_, ?_, rfl, ?_⟩, rfl⟩)
    fun s => ⟨.drive n v false, .line n, ⟨rfl, rfl, ?_, rfl, ?_⟩, rfl⟩
  · show (s.moveLine n v).trace ++ _ = _
    congr 1
    unfold State.moveLine State.edge State.shiftSelected State.capture State.transfer State.sense State.senseDraw
      State.countDraw
    repeat' split
    all_goals rfl
  · show (s.moveLine n v).log = _
    rw [List.append_nil]
    exact (State.edge_quiet (s.setLine n (.ofBool v)) n (s.lines.get n) v).2.log
  · simpa [driven] using hP v true
  · show (s.moveLine n v).lines = _
    refine (State.edge_quiet (s.setLine n (.ofBool v)) n (s.lines.get n) v).1.trans ?_
    cases n <;> rfl
  · simpa using hP v false
  · cases n with
    | a i => exact absurd rfl (hn i)
    | _ => rfl

/-- An address drive, with every address line lost on failure (41_latch_protocol.md R126). -/
theorem driveAddrLine (hP : ∀ i v ok, P (.drive (.a i) v ok)) (i : Fin 8) (v : Bool) :
    Run.Recorded P (Machine.onFailure State.loseAddr (Machine.drive (.a i) v)) := by
  have key : Machine.onFailure State.loseAddr (Machine.drive (.a i) v) =
      Machine.pinOp (fun s => ((), (s.moveLine (.a i) v).event (.drive (.a i) v true)))
        (fun s => (((s.setLine (.a i) .x).event (.drive (.a i) v false)).record (.io (.line (.a i)))).loseAddr) := by
    funext s
    unfold Machine.onFailure Machine.drive Machine.pinOp
    cases h : s.ioDraw.1
    · simp only [Bool.false_eq_true, if_false]
    · simp only [if_true]
  rw [key]
  refine pinOp (fun s => ⟨driven (.a i) v, ⟨?_, ?_, ?_, rfl, ?_⟩, rfl⟩)
    fun s => ⟨.drive (.a i) v false, .line (.a i), ⟨rfl, rfl, ?_, rfl, rfl⟩, rfl⟩
  · rw [State.moveLine, State.edge_addr]; rfl
  · rw [State.moveLine, State.edge_addr]; simp
  · simpa [driven] using hP i v true
  · rw [State.moveLine, State.edge_addr]; rfl
  · simpa using hP i v false

theorem onFailure_bind {m : Run α} {f : α → Run β} {g : State → State} :
    Machine.onFailure g (m >>= f) = Machine.onFailure g m >>= fun a => Machine.onFailure g (f a) := by
  funext s
  cases h : m s with
  | ok a t => rw [bind_ok (onFailure_ok h)]; unfold Machine.onFailure; rw [bind_ok h]
  | error e t => rw [bind_error (onFailure_error h)]; exact onFailure_error (bind_error h)

theorem settle (hP : P .settle) : Run.Recorded P Machine.settle := by
  intro s
  refine ⟨fun a t h => ?_, fun f t h => by cases h⟩
  cases h
  exact ⟨[.settle], [], ⟨rfl, by simp, by simpa using hP, rfl, rfl⟩, rfl⟩

theorem driveAddr (hP : ∀ i v ok, P (.drive (.a i) v ok)) (hs : P .settle) (a : Nat) :
    Run.Recorded P (Machine.driveAddr a) := by
  refine bind ?_ fun _ => settle hs
  generalize BitVec.ofNat 8 a = v
  generalize ([7, 6, 5, 4, 3, 2, 1, 0] : List (Fin 8)) = is
  induction is with
  | nil => exact fun s => pure (P := P) () s
  | cons i is ih =>
    simp only [driveAddrLines]
    rw [onFailure_bind]
    exact bind (driveAddrLine hP i _) fun _ => ih

/-- What a successful read of the port records. -/
theorem portAnswer (hP : ∀ v, P (.readPort v)) (s : State) :
    Machine.Recorded P s (s.portAnswer.2.event (.readPort (some s.portAnswer.1))) [.readPort (some s.portAnswer.1)] [] := by
  refine ⟨?_, ?_, by simpa using hP _, rfl, ?_⟩
  all_goals unfold State.portAnswer State.portDraw State.countDraw
  all_goals repeat' split
  all_goals simp [Lines.replay]

theorem readPort (hP : ∀ v, P (.readPort v)) : Run.Recorded P Machine.readPort :=
  pinOp (fun s => ⟨_, portAnswer hP s, rfl⟩)
    fun s => ⟨.readPort none, .addrPort, ⟨rfl, rfl, by simpa using hP _, rfl, rfl⟩, rfl⟩

/-- The byte a port read gives is the one it records. -/
theorem readPort_event (hP : ∀ v, P (.readPort v)) {s t : State} {rb : Byte} (h : Machine.readPort s = .ok rb t) :
    Machine.Recorded P s t [.readPort (some rb)] [] := by
  unfold Machine.readPort Machine.pinOp at h
  split at h
  · cases h
    refine (portAnswer hP s.ioDraw.2).of_same ?_ ?_ ?_
    all_goals unfold State.ioDraw State.countDraw
    all_goals repeat' split
    all_goals rfl
  · cases h

theorem readIn (hP : ∀ v, P (.readIn v)) : Run.Recorded P Machine.readIn := by
  refine pinOp (fun s => ⟨.readIn (some s.soutAnswer.1), ⟨?_, ?_, ?_, rfl, ?_⟩, rfl⟩)
    fun s => ⟨.readIn none, .sout, ⟨rfl, rfl, ?_, rfl, rfl⟩, rfl⟩
  · unfold State.soutAnswer State.soutDraw State.countDraw
    repeat' split
    all_goals rfl
  · unfold State.soutAnswer State.soutDraw State.countDraw
    repeat' split
    all_goals simp
  · simpa using hP _
  · unfold State.soutAnswer State.soutDraw State.countDraw
    repeat' split
    all_goals rfl
  · simpa using hP _

theorem readAnalog (hP : ∀ ch v, P (.readAnalog ch v)) (ch : Nat) : Run.Recorded P (Machine.readAnalog ch) := by
  refine pinOp (fun s => ⟨.readAnalog ch (some s.voltsDraw.1), ⟨?_, ?_, ?_, rfl, ?_⟩, rfl⟩)
    fun s => ⟨.readAnalog ch none, .analog ch, ⟨rfl, rfl, ?_, rfl, rfl⟩, rfl⟩
  · unfold State.voltsDraw State.countDraw
    split <;> rfl
  · unfold State.voltsDraw State.countDraw
    split <;> simp
  · simpa using hP _ _
  · unfold State.voltsDraw State.countDraw
    split <;> rfl
  · simpa using hP _ _

theorem checkGroup (g : Group) : Run.Recorded P (Machine.checkGroup g) := by
  refine silent (fun s => ?_) (fun s => ⟨[], ?_, rfl⟩) fun s f t h => ?_
  · unfold Machine.checkGroup; split <;> exact ⟨rfl, rfl⟩
  · unfold Machine.checkGroup; split <;> simp [after]
  · unfold Machine.checkGroup at h; split at h <;> cases h; rfl

theorem orBadIndex (o : State → Option α) : Run.Recorded P (fun s => Machine.orBadIndex (o s) s) := by
  refine silent (fun s => ?_) (fun s => ⟨[], ?_, rfl⟩) fun s f t h => ?_
  · unfold Machine.orBadIndex; split <;> exact ⟨rfl, rfl⟩
  · unfold Machine.orBadIndex; split <;> simp [after]
  · unfold Machine.orBadIndex at h; split at h <;> cases h; rfl

theorem startTransaction : Run.Recorded P Machine.startTransaction := by
  refine silent (fun s => ?_) (fun s => ⟨[], ?_, rfl⟩) fun s f t h => ?_
  · unfold Machine.startTransaction; split <;> exact ⟨rfl, rfl⟩
  · unfold Machine.startTransaction; split <;> simp [after]
  · unfold Machine.startTransaction at h; split at h <;> cases h

theorem verify (hP : ∀ v, P (.readPort v)) (sent : Nat) (accepted : List Nat) :
    Run.Recorded P (Machine.verify sent accepted) := by
  intro s
  unfold Machine.verify
  cases h : Machine.readPort s with
  | error e t =>
    rw [bind_error h]
    exact ⟨fun b u hu => (by cases hu), fun e' u hu => (by cases hu; exact (readPort hP s).2 e t h)⟩
  | ok rb t =>
    have h1 := readPort_event hP h
    rw [bind_ok h]
    split
    · exact ⟨fun b u hu => (by cases hu; exact ⟨_, _, h1, rfl⟩), fun e u hu => by cases hu⟩
    · refine ⟨fun b u hu => (by cases hu), fun e u hu => ?_⟩
      cases hu
      exact ⟨_, [.addr _ rb], ⟨h1.trace, by rw [State.record_log, h1.log, List.append_nil], h1.only, rfl,
        h1.lines⟩, [], rfl, rfl⟩

theorem writeBits (hd : ∀ v ok, P (.drive .din v ok)) (hc : ∀ v ok, P (.drive .clk v ok)) (hs : P .settle)
    (vs : List Bool) : Run.Recorded P (Machine.writeBits vs) := by
  induction vs with
  | nil => exact pure _
  | cons v vs ih =>
    refine bind ?_ fun _ => ih
    exact bind (drive (by simp) hd _) fun _ => bind (drive (by simp) hc _) fun _ => bind (drive (by simp) hc _) fun _ =>
      settle hs

theorem sendByte (hd : ∀ v ok, P (.drive .din v ok)) (hc : ∀ v ok, P (.drive .clk v ok))
    (hb : ∀ v ok, P (.drive .busen v ok)) (hs : P .settle) (b : Byte) : Run.Recorded P (Machine.sendByte b) :=
  bind (drive (by simp) hb _) fun _ => bind (settle hs) fun _ => bind (writeBits hd hc hs _) fun _ =>
    bind (drive (by simp) hb _) fun _ => settle hs

theorem readBits (hr : ∀ v, P (.readIn v)) (hc : ∀ v ok, P (.drive .clk v ok)) (hs : P .settle) (n : Nat) :
    Run.Recorded P (Machine.readBits n) := by
  induction n with
  | zero => exact bind (readIn hr) fun _ => pure _
  | succ n ih =>
    exact bind (readIn hr) fun _ => bind (drive (by simp) hc _) fun _ => bind (drive (by simp) hc _) fun _ =>
      bind (settle hs) fun _ => bind ih fun _ => pure _

theorem receiveByte (hr : ∀ v, P (.readIn v)) (hc : ∀ v ok, P (.drive .clk v ok)) (hl : ∀ v ok, P (.drive .load v ok))
    (hb : ∀ v ok, P (.drive .busen v ok)) (hs : P .settle) : Run.Recorded P Machine.receiveByte :=
  bind (drive (by simp) hl _) fun _ => bind (drive (by simp) hl _) fun _ => bind (settle hs) fun _ =>
    bind (drive (by simp) hb _) fun _ => bind (settle hs) fun _ => bind (readBits hr hc hs 7) fun _ =>
      bind (drive (by simp) hb _) fun _ => bind (settle hs) fun _ => pure _

/-- A part that ends with a value and touches neither lines, trace nor log. -/
theorem quiet {m : Run α} (h : ∀ s, ∃ a t, m s = .ok a t ∧ t.lines = s.lines ∧ t.trace = s.trace ∧ t.log = s.log) :
    Run.Recorded P m := by
  refine silent (fun s => ?_) (fun s => ⟨[], ?_, rfl⟩) fun s f t hf => ?_
  · obtain ⟨a, t, h1, h2, h3, _⟩ := h s
    rw [h1]
    exact ⟨h2, h3⟩
  · obtain ⟨a, t, h1, _, _, h4⟩ := h s
    rw [h1]
    simpa [after] using h4
  · obtain ⟨a, u, h1, _⟩ := h s
    rw [h1] at hf
    cases hf

end Run.Recorded

/-- Every event is allowed. -/
abbrev AnyEvent : Event → Prop := fun _ => True

theorem latchWrite_recorded (g : Group) (b : Byte) : Run.Recorded AnyEvent (latchWrite g b) := by
  refine .bind (.checkGroup g) fun _ => .bind (.quiet fun s => ⟨_, s, rfl, rfl, rfl, rfl⟩) fun w =>
    .bind .startTransaction fun dirty => .bind (.driveAddr (by simp) trivial w) fun _ =>
      .bind (.verify (by simp) _ _) fun _ => .bind (.onFailure (.sendByte (by simp) (by simp) (by simp) trivial b)
        fun s => ⟨rfl, rfl, rfl⟩) fun _ => .quiet fun s => ⟨_, _, rfl, ?_, ?_, ?_⟩
  all_goals split <;> rfl

theorem latchRead_recorded (g : Group) : Run.Recorded AnyEvent (latchRead g) := by
  refine .bind (.checkGroup g) fun _ => .bind (.quiet fun s => ⟨_, s, rfl, rfl, rfl, rfl⟩) fun w =>
    .bind .startTransaction fun dirty => .bind (.driveAddr (by simp) trivial _) fun _ =>
      .bind (.verify (by simp) _ _) fun _ => .bind (.quiet fun s => ⟨_, _, rfl, ?_, ?_, ?_⟩) fun _ =>
        .bind (.receiveByte (by simp) (by simp) (by simp) (by simp) trivial) fun v => .quiet fun s => ?_
  · split <;> rfl
  · split <;> rfl
  · split <;> rfl
  · unfold drawIf State.readByteDraw State.countDraw
    repeat' split
    all_goals exact ⟨_, _, rfl, rfl, rfl, rfl⟩

theorem lgAddr_recorded (g : Group) (rd : Bool) : Run.Recorded AnyEvent (lgAddr g rd) :=
  .bind (.checkGroup g) fun _ => .quiet fun s => ⟨_, s, rfl, rfl, rfl, rfl⟩

theorem lgWrite_recorded (g : Group) (b : Byte) : Run.Recorded AnyEvent (lgWrite g b) :=
  .bind (latchWrite_recorded g b) fun _ => .pure _

theorem lgRead_recorded (g : Group) : Run.Recorded AnyEvent (lgRead g) :=
  .bind (latchRead_recorded g) fun _ => .pure _

theorem resolveReadback_recorded (band chain : Nat) (ss : List SubSwitch) :
    Run.Recorded AnyEvent (resolveReadback band chain ss) := by
  induction ss with
  | nil => exact .pure _
  | cons s ss ih => exact .bind (.orBadIndex _) fun _ => .bind ih fun _ => .pure _

theorem resolveControl_recorded (band chain : Nat) (ss : List SubSwitch) :
    Run.Recorded AnyEvent (resolveControl band chain ss) := by
  induction ss with
  | nil => exact .pure _
  | cons s ss ih =>
    exact .bind (.orBadIndex _) fun _ => .bind (.orBadIndex _) fun _ => .bind ih fun _ => .pure _

theorem readSub_recorded (s : SubSwitch) (o : Nat) : Run.Recorded AnyEvent (readSub s o) :=
  .bind (latchRead_recorded _) fun _ => .pure _

theorem readSubs_recorded (ss : List (SubSwitch × Nat)) : Run.Recorded AnyEvent (readSubs ss) := by
  induction ss with
  | nil => exact .pure _
  | cons s ss ih => exact .bind (readSub_recorded _ _) fun _ => .bind ih fun _ => .pure _

theorem badIndex_recorded : Run.Recorded AnyEvent (fun s => .error .badIndex s : Run Reply) :=
  .silent (fun _ => ⟨rfl, rfl⟩) (fun s => ⟨[], by simp [after], rfl⟩) fun s f t h => by cases h; rfl

theorem agree_recorded (dev : Nat) (sts : List Bool) : Run.Recorded AnyEvent (agree dev sts) := by
  match sts with
  | [] => exact badIndex_recorded
  | [_] => exact .pure _
  | [st0, st1] =>
    show Run.Recorded AnyEvent (if st0 = st1 then pure (.ofState st0) else disagree dev st0 st1)
    split
    · exact .pure _
    · exact .silent (fun s => ⟨rfl, rfl⟩) (fun s => ⟨_, rfl, rfl⟩) fun s f t h => by cases h; rfl
  | _ :: _ :: _ :: _ => exact badIndex_recorded

theorem swGet_recorded (dev band chain : Nat) : Run.Recorded AnyEvent (swGet dev band chain) :=
  .bind (.orBadIndex _) fun _ => .bind (resolveReadback_recorded _ _ _) fun _ => .bind (readSubs_recorded _) fun _ =>
    agree_recorded _ _

theorem writeSubs_recorded (st : Bool) (ss : List (SubSwitch × Nat)) : Run.Recorded AnyEvent (writeSubs st ss) := by
  induction ss with
  | nil => exact .pure _
  | cons s ss ih => exact .bind (latchRead_recorded _) fun _ => .bind (latchWrite_recorded _ _) fun _ => ih

theorem swSet_recorded (dev band chain : Nat) (st : Bool) : Run.Recorded AnyEvent (swSet dev band chain st) :=
  .bind (.orBadIndex _) fun _ => .bind (resolveControl_recorded _ _ _) fun _ => .bind (writeSubs_recorded _ _) fun _ =>
    swGet_recorded _ _ _

theorem swSetUnit_recorded (dev band chain : Nat) (st : Bool) (place : RmwPlace) :
    Run.Recorded AnyEvent (swSetUnit dev band chain st place) := by
  refine .bind (.orBadIndex _) fun d => .bind (resolveControl_recorded _ _ _) fun cs => ?_
  cases place with
  | read j => exact .bind (.orBadIndex fun _ => _) fun _ => .bind (latchRead_recorded _) fun _ => .pure _
  | write j cur =>
    exact .bind (.orBadIndex fun _ => _) fun _ => .bind (.orBadIndex fun _ => _) fun _ =>
      .bind (latchWrite_recorded _ _) fun _ => .pure _
  | confirm j sts =>
    refine .bind (.orBadIndex fun _ => _) fun _ => .bind (.orBadIndex _) fun _ => .bind (readSub_recorded _ _) fun v => ?_
    split
    · exact .pure _
    · exact .bind (agree_recorded _ _) fun _ => .pure _

theorem selectEntry_recorded (e : MonEntry) : Run.Recorded AnyEvent (selectEntry e) :=
  .bind (latchWrite_recorded _ _) fun _ => latchWrite_recorded _ _

theorem monSelect_recorded (i : Nat) : Run.Recorded AnyEvent (monSelect i) :=
  .bind (.orBadIndex _) fun _ => .bind (selectEntry_recorded _) fun _ => .pure _

theorem readOuts_recorded (os : List MonOut) : Run.Recorded AnyEvent (readOuts os) := by
  induction os with
  | nil => exact .pure _
  | cons o os ih => exact .bind (.readAnalog (by simp) _) fun _ => .bind ih fun _ => .pure _

theorem monReadings_recorded (i : Nat) : Run.Recorded AnyEvent (monReadings i) :=
  .bind (.orBadIndex _) fun _ => .bind (selectEntry_recorded _) fun _ => readOuts_recorded _

theorem monRead_recorded (i : Nat) : Run.Recorded AnyEvent (monRead i) :=
  .bind (monReadings_recorded i) fun _ => .pure _

theorem monConvert_recorded (cat : Nat) (raw : Volts) : Run.Recorded AnyEvent (monConvert cat raw) := by
  refine .silent (fun s => ?_) (fun s => ?_) fun s f t h => ?_
  · unfold monConvert; split <;> exact ⟨rfl, rfl⟩
  · unfold monConvert
    split
    · exact ⟨[], by simp [after], rfl⟩
    · exact ⟨_, rfl, rfl⟩
  · unfold monConvert at h; split at h <;> cases h; rfl

/-- What a part of a command recorded, however it ended. -/
theorem Run.Recorded.after {α : Type} {m : Run α} (hm : Run.Recorded P m) (s : State) :
    ∃ es rs, Machine.Recorded P s (Machine.after (m s)) es rs := by
  cases h : m s with
  | ok a t => obtain ⟨es, rs, h1, _⟩ := (hm s).1 a t h; exact ⟨es, rs, h1⟩
  | error f t => obtain ⟨es, rs, h1, _⟩ := (hm s).2 f t h; exact ⟨es, rs, h1⟩

end Sys2Proof.Machine
end

