-- ==== Sys2Proof/Laws/Units.lean ====
section
/-! SUPPORT. What a whole unit records in `TRACE` and `LOG`, from its work and its end. -/

namespace Sys2Proof.Machine

/-- The end of a unit adds at most the `end` event, and moves no line. -/
theorem UnitEnd.recorded {q : Nat} {u t : State} (h : UnitEnd q u t) : ∃ es, Recorded AnyEvent u t es [] := by
  cases h with
  | answered r h =>
    exact ⟨[.endCmd q r], rfl, by simp [State.deliver, State.release, State.setReq], by simp, rfl, rfl⟩
  | sweeping p => exact ⟨[], by simp, by simp, by simp, rfl, rfl⟩
  | setting p => exact ⟨[], by simp, by simp, by simp, rfl, rfl⟩

theorem wholeCommand_recorded {m : Run Reply} (hm : Run.Recorded AnyEvent m) {s t : State}
    (h : wholeCommand m s = .next t) : ∃ es rs, Recorded AnyEvent s t es rs := by
  unfold wholeCommand at h
  split at h
  · cases h
  · cases h
    obtain ⟨es, rs, h1⟩ := hm.after s
    obtain ⟨fs, h2⟩ := (State.finish_end _ (m s)).recorded
    exact ⟨_, _, h1.trans h2⟩

/-- The work of a sweep's point is `MON_READ`'s. -/
theorem sweepPoint_state (p : Sweep) (s : State) : (sweepPoint p s).2 = after (monReadings p.next s) := by
  unfold sweepPoint
  split <;> simp [*, after]

/-- Every meaning records what it did. -/
theorem exec_recorded (i : Instr) {s t : State} (h : exec i s = .next t) :
    ∃ es rs, Recorded AnyEvent s t es rs := by
  cases i with
  | lgAddr dm lg rd => exact wholeCommand_recorded (lgAddr_recorded _ _) h
  | lgWrite dm lg b => exact wholeCommand_recorded (lgWrite_recorded _ _) h
  | lgRead dm lg => exact wholeCommand_recorded (lgRead_recorded _) h
  | swGet dev band chain => exact wholeCommand_recorded (swGet_recorded _ _ _) h
  | swSet dev band chain st =>
    change execSwSet dev band chain st s = .next t at h
    unfold execSwSet at h
    split at h
    · exact wholeCommand_recorded (swSet_recorded _ _ _ _) h
    · unfold swSetNextUnit at h
      split at h
      · cases h
      · cases h
        obtain ⟨es, rs, h1⟩ := (swSetUnit_recorded dev band chain st _).after s
        obtain ⟨fs, h2⟩ := (State.finishSwSetUnit_end _ _).recorded
        exact ⟨_, _, h1.trans h2⟩
  | monSelect idx => exact wholeCommand_recorded (monSelect_recorded _) h
  | monRead idx => exact wholeCommand_recorded (monRead_recorded _) h
  | monConvert cat raw => exact wholeCommand_recorded (monConvert_recorded _ _) h
  | monSweep =>
    change execMonSweep s = .next t at h
    unfold execMonSweep at h
    split at h
    · cases h
    · rename_i q _
      simp only at h
      split at h
      · cases h
        obtain ⟨es, rs, h1⟩ := (monReadings_recorded ((s.req q).sweep.getD .start).next).after s
        rw [← sweepPoint_state] at h1
        obtain ⟨fs, h2⟩ := (UnitEnd.sweeping (q := q) (u := (sweepPoint ((s.req q).sweep.getD .start) s).2)
          (sweepPoint ((s.req q).sweep.getD .start) s).1).recorded
        exact ⟨_, _, h1.trans h2⟩
      · cases h
        obtain ⟨fs, h2⟩ := (UnitEnd.answered (q := q) (u := s)
          (((s.req q).sweep.getD .start).response s.haz) rfl).recorded
        exact ⟨_, _, h2⟩

/-- A whole command ends answered, from a state that evolved from its start. -/
theorem wholeCommand_answered {m : Run Reply} (hm : Run.Evolving m) {s t : State} {q : Nat} (h : s.busOwner = some q)
    (e : wholeCommand m s = .next t) : ∃ u r, Evolves s u ∧ t = u.deliver q r ∧ r.haz = u.haz := by
  rw [wholeCommand_next h] at e
  cases e
  have hs := hm s
  cases hr : m s with
  | ok v w => rw [hr] at hs; exact ⟨w, _, hs, rfl, rfl⟩
  | error f w => rw [hr] at hs; exact ⟨w, _, hs, rfl, f.response_haz _⟩

/-- Every command but a sweep and a non-atomic `SW_SET` is answered by its one unit (60_exceptions.md R286). -/
theorem exec_answered (i : Instr) {s t : State} {q : Nat} (h : s.busOwner = some q) (hi : i ≠ .monSweep)
    (ha : s.cfg.rmwAtomic = true ∨ ∀ dev band chain st, i ≠ .swSet dev band chain st) (e : exec i s = .next t) :
    ∃ u r, Evolves s u ∧ t = u.deliver q r ∧ r.haz = u.haz := by
  cases i with
  | lgAddr dm lg rd => exact wholeCommand_answered (lgAddr_evolving _ _) h e
  | lgWrite dm lg b => exact wholeCommand_answered (lgWrite_evolving _ _) h e
  | lgRead dm lg => exact wholeCommand_answered (lgRead_evolving _) h e
  | swGet dev band chain => exact wholeCommand_answered (swGet_evolving _ _ _) h e
  | swSet dev band chain st =>
    rcases ha with ha | ha
    · change execSwSet _ _ _ _ _ = _ at e
      rw [execSwSet, if_pos ha] at e
      exact wholeCommand_answered (swSet_evolving _ _ _ _) h e
    · exact absurd rfl (ha _ _ _ _)
  | monSelect idx => exact wholeCommand_answered (monSelect_evolving _) h e
  | monRead idx => exact wholeCommand_answered (monRead_evolving _) h e
  | monConvert cat raw => exact wholeCommand_answered (monConvert_evolving _ _) h e
  | monSweep => exact absurd rfl hi

/-! ## Failures and the end of a unit -/

/-- A failed event is the last one (41_latch_protocol.md R125). -/
theorem failed_last {es : List Event} (h : es.filterMap Event.failedAt = [] ∨ ∃ f, EndsWith f es) {i : Nat} {e : Event}
    (hi : es[i]? = some e) (he : e.failedAt ≠ none) : i + 1 = es.length := by
  have none_of : ∀ {l : List Event}, l.filterMap Event.failedAt = [] → e ∈ l → False := fun hl hm =>
    he (List.filterMap_eq_nil_iff.1 hl e hm)
  rcases h with h | ⟨f, h⟩
  · exact (none_of h (List.mem_of_getElem? hi)).elim
  · have before : ∀ es0 (x : Event), es = es0 ++ [x] → es0.filterMap Event.failedAt = [] → i + 1 = es.length := by
      rintro es0 x rfl h0
      by_cases hl : i < es0.length
      · rw [List.getElem?_append_left hl] at hi
        exact (none_of h0 (List.mem_of_getElem? hi)).elim
      · have := (List.getElem?_eq_some_iff.1 hi).1
        simp only [List.length_append, List.length_singleton] at this ⊢
        omega
    cases f with
    | ioFail =>
      obtain ⟨es0, x, _, h1, _, h2⟩ := h
      exact before es0 x h1 h2
    | addrMismatch exp obs =>
      obtain ⟨es0, h1, h2⟩ := h
      exact before es0 _ h1 h2
    | _ => exact (none_of h (List.mem_of_getElem? hi)).elim

/-- How the events `es` of a unit's work and its end agree: with no failed event the command goes on or is answered
without a failure, and with a failure it is answered with it, its events ending as that failure's do. -/
inductive Told (q : Nat) (u t : State) (es : List Event) : Prop where
  | goesOn (h : es.filterMap Event.failedAt = []) (r : Requester) (hp : r.pending = (u.req q).pending)
      (hr : r.rsp = (u.req q).rsp) (ht : t = (u.setReq q r).release)
  | answered (h : es.filterMap Event.failedAt = []) (r : Response) (hr : r.status = .ok) (ht : t = u.deliver q r)
  | failed (f : Failure) (h : EndsWith f es) (ht : t = u.deliver q (f.response u.haz))

/-- What a whole command's events tell of its answer. -/
theorem wholeCommand_told {m : Run Reply} (hm : Run.Recorded AnyEvent m) (hv : Run.Evolving m) {s t : State} {q : Nat}
    (h : s.busOwner = some q) (e : wholeCommand m s = .next t) :
    ∃ u es rs, Evolves s u ∧ Recorded AnyEvent s u es rs ∧ Told q u t es := by
  rw [wholeCommand_next h] at e
  cases e
  have hs := hv s
  cases hr : m s with
  | ok v w =>
    rw [hr] at hs
    obtain ⟨es, rs, h1, h2⟩ := (hm s).1 v w hr
    exact ⟨w, es, rs, hs, h1, .answered h2 (v.response w.haz) rfl rfl⟩
  | error f w =>
    rw [hr] at hs
    obtain ⟨es, rs, h1, h2⟩ := (hm s).2 f w hr
    exact ⟨w, es, rs, hs, h1, .failed f h2 rfl⟩

/-- What the events of a unit that is no sweep's tell of its end. -/
theorem exec_told (i : Instr) {s t : State} {q : Nat} (h : s.busOwner = some q) (hi : i ≠ .monSweep)
    (e : exec i s = .next t) : ∃ u es rs, Evolves s u ∧ Recorded AnyEvent s u es rs ∧ Told q u t es := by
  cases i with
  | lgAddr dm lg rd => exact wholeCommand_told (lgAddr_recorded _ _) (lgAddr_evolving _ _) h e
  | lgWrite dm lg b => exact wholeCommand_told (lgWrite_recorded _ _) (lgWrite_evolving _ _) h e
  | lgRead dm lg => exact wholeCommand_told (lgRead_recorded _) (lgRead_evolving _) h e
  | swGet dev band chain => exact wholeCommand_told (swGet_recorded _ _ _) (swGet_evolving _ _ _) h e
  | swSet dev band chain st =>
    change execSwSet dev band chain st s = .next t at e
    unfold execSwSet at e
    split at e
    · exact wholeCommand_told (swSet_recorded _ _ _ _) (swSet_evolving _ _ _ _) h e
    · rw [swSetNextUnit_next h] at e
      cases e
      have hm := swSetUnit_recorded dev band chain st ((s.req q).rmw.getD (.read 0)) s
      have hs := swSetUnit_evolving dev band chain st ((s.req q).rmw.getD (.read 0)) s
      cases hr : swSetUnit dev band chain st ((s.req q).rmw.getD (.read 0)) s with
      | error f w =>
        rw [hr] at hs
        obtain ⟨es, rs, h1, h2⟩ := hm.2 f w hr
        exact ⟨w, es, rs, hs, h1, .failed f h2 rfl⟩
      | ok v w =>
        rw [hr] at hs
        obtain ⟨es, rs, h1, h2⟩ := hm.1 v w hr
        cases v with
        | more p => exact ⟨w, es, rs, hs, h1, .goesOn h2 { w.req q with rmw := some p } rfl rfl rfl⟩
        | done r => exact ⟨w, es, rs, hs, h1, .answered h2 (r.response w.haz) rfl rfl⟩
  | monSelect idx => exact wholeCommand_told (monSelect_recorded _) (monSelect_evolving _) h e
  | monRead idx => exact wholeCommand_told (monRead_recorded _) (monRead_evolving _) h e
  | monConvert cat raw => exact wholeCommand_told (monConvert_recorded _ _) (monConvert_evolving _ _) h e
  | monSweep => exact absurd rfl hi

/-- What the events of a sweep's unit tell of its end: a failed one is the last of its point. -/
theorem execMonSweep_told {s t : State} {q : Nat} (h : s.busOwner = some q) (e : exec .monSweep s = .next t) :
    ∃ u es rs, Evolves s u ∧ Recorded AnyEvent s u es rs ∧ UnitEnd q u t ∧
      (es.filterMap Event.failedAt = [] ∨ ∃ f, EndsWith f es) := by
  change execMonSweep s = .next t at e
  simp only [execMonSweep, h] at e
  split at e
  · cases e
    have hv := sweepPoint_evolves ((s.req q).sweep.getD .start) s
    have he := UnitEnd.sweeping (q := q) (u := (sweepPoint ((s.req q).sweep.getD .start) s).2)
      (sweepPoint ((s.req q).sweep.getD .start) s).1
    have hm := monReadings_recorded ((s.req q).sweep.getD .start).next s
    have hw := sweepPoint_state ((s.req q).sweep.getD .start) s
    cases hr : monReadings ((s.req q).sweep.getD .start).next s with
    | ok v w =>
      obtain ⟨es, rs, h1, h2⟩ := hm.1 v w hr
      rw [hr] at hw
      exact ⟨_, es, rs, hv, hw ▸ h1, he, .inl h2⟩
    | error f w =>
      obtain ⟨es, rs, h1, h2⟩ := hm.2 f w hr
      rw [hr] at hw
      exact ⟨_, es, rs, hv, hw ▸ h1, he, .inr ⟨f, h2⟩⟩
  · cases e
    exact ⟨s, [], [], .refl s, .refl s, .answered _ rfl, .inl rfl⟩

end Sys2Proof.Machine
end

