-- ==== Sys2Proof/Laws/Progress.lean ====
section
/-! SUPPORT. What a granted unit does to its requester's record, said once: the command is answered, or it goes on at a
place that comes later and that a run can leave; so the units of one command are few (60_exceptions.md R287, R288). -/

namespace Sys2Proof.Machine

/-! ## Inversion of a part of a command -/

theorem bind_inv {α β : Type} {m : Run α} {f : α → Run β} {s u : State} {b : β} (h : (m >>= f) s = .ok b u) :
    ∃ a t, m s = .ok a t ∧ f a t = .ok b u := by
  cases hm : m s with
  | ok a t => rw [bind_ok hm] at h; exact ⟨a, t, rfl, h⟩
  | error e t => rw [bind_error hm] at h; cases h

theorem orBadIndex_inv {α : Type} {o : Option α} {a : α} {s t : State} (h : orBadIndex o s = .ok a t) :
    o = some a ∧ t = s := by
  unfold orBadIndex at h
  split at h <;> cases h
  exact ⟨rfl, rfl⟩

/-- The places of a device of at most two sub-switches, counted down in the order they are run (42_switch_state.md
R193). -/
def RmwPlace.rank : RmwPlace → Nat
  | .read j => 8 - 2 * j
  | .write j _ => 7 - 2 * j
  | .confirm j _ => 3 - j

/-- The places of a command, counted down in the order they are run: a sweep's points, a `SW_SET`'s transactions, and a
command not begun before any of them. -/
def Requester.rank (r : Requester) : Nat :=
  match r.sweep, r.rmw with
  | some p, _ => Config.nMon + 1 - p.next
  | none, some p => p.rank
  | none, none => Config.nMon + 2

/-- A unit of a `SW_SET` that does not end it leaves the next place, in range and later (42_switch_state.md R193). -/
theorem swSetUnit_place {dev band chain : Nat} {st : Bool} {place next : RmwPlace} {s t : State}
    (h : swSetUnit dev band chain st place s = .ok (.more next) t) (hw : s.cfg.wf = true)
    (hp : ∀ d, s.cfg.device dev = some d → place.inRange d.subs.length) :
    ∃ d, s.cfg.device dev = some d ∧ next.inRange d.subs.length ∧ next.rank < place.rank := by
  unfold swSetUnit at h
  obtain ⟨d, t1, h1, k⟩ := bind_inv h
  obtain ⟨hd, rfl⟩ := orBadIndex_inv h1
  have hin := hp d hd
  have hlen := Config.subs_length hw hd
  obtain ⟨cs, t2, h2, k⟩ := bind_inv k
  clear h
  refine ⟨d, hd, ?_⟩
  cases place with
  | read j =>
    obtain ⟨u, t3, h3, k⟩ := bind_inv k
    obtain ⟨v, t4, h4, k⟩ := bind_inv k
    cases k
    have hj : j < d.subs.length := hin
    exact ⟨hj, by simp only [RmwPlace.rank]; omega⟩
  | write j cur =>
    obtain ⟨u, t3, h3, k⟩ := bind_inv k
    obtain ⟨o, t4, h4, k⟩ := bind_inv k
    obtain ⟨_, t5, h5, k⟩ := bind_inv k
    cases k
    have hj : j < d.subs.length := hin
    split
    · exact ⟨‹_›, by simp only [RmwPlace.rank]; omega⟩
    · exact ⟨⟨by omega, rfl⟩, by simp only [RmwPlace.rank]; omega⟩
  | confirm j sts =>
    obtain ⟨u, t3, h3, k⟩ := bind_inv k
    obtain ⟨o, t4, h4, k⟩ := bind_inv k
    obtain ⟨v, t5, h5, k⟩ := bind_inv k
    split at k
    · cases k
      exact ⟨⟨‹_›, by simp [hin.2]⟩, by simp only [RmwPlace.rank]; omega⟩
    · obtain ⟨r, t6, h6, k⟩ := bind_inv k
      cases k

/-- What a unit of a requester whose record a run can leave does to it: the command is answered, or it stays pending at a
later place that a run can leave. -/
theorem runUnit_progress {s : State} {q : Nat} {c : Command} (hw : s.cfg.wf = true) (ho : s.busOwner = some q)
    (hok : (s.req q).Ok s.cfg) (hp : (s.req q).pending = some c) :
    ∃ u t, runUnit q s = .next t ∧ Evolves s u ∧
      ((∃ r, t = u.deliver q r) ∨
        ∃ r, t = (u.setReq q r).release ∧ r.Ok s.cfg ∧ r.pending = some c ∧ r.rank < (s.req q).rank) := by
  -- a unit of a sweep
  have sweeping : decode c = .instr .monSweep → (s.req q).rmw = none → ∃ u t, exec .monSweep s = .next t ∧ Evolves s u ∧
      ((∃ r, t = u.deliver q r) ∨
        ∃ r, t = (u.setReq q r).release ∧ r.Ok s.cfg ∧ r.pending = some c ∧ r.rank < (s.req q).rank) := by
    intro hd hr
    by_cases hle : ((s.req q).sweep.getD .start).next ≤ Config.nMon
    · have hev := sweepPoint_evolves ((s.req q).sweep.getD .start) s
      have hreq : (sweepPoint ((s.req q).sweep.getD .start) s).2.req q = s.req q :=
        congrArg (fun rs : List Requester => rs[q]?.getD .idle) hev.reqs
      have hnext : (sweepPoint ((s.req q).sweep.getD .start) s).1.next = ((s.req q).sweep.getD .start).next + 1 := by
        unfold sweepPoint
        split <;> rfl
      have hexec : exec .monSweep s = .next (.finishPoint q (sweepPoint ((s.req q).sweep.getD .start) s)) := by
        simp only [exec, execMonSweep, ho, hle, if_true]
      refine ⟨_, _, hexec, hev, .inr ⟨_, rfl, ⟨?_, ?_⟩, (congrArg Requester.pending hreq).trans hp,
        ?_⟩⟩
      · intro p hp'
        cases hp'
        rw [hnext]
        exact ⟨by omega, Nat.succ_le_succ hle, c, by rw [hreq]; exact hp, hd⟩
      · intro pl hpl
        rw [hreq] at hpl
        simp [hr] at hpl
      · have hcur : ((s.req q).sweep = none ∧ ((s.req q).sweep.getD .start).next = 1) ∨
            (s.req q).rank = Config.nMon + 1 - ((s.req q).sweep.getD .start).next := by
          unfold Requester.rank
          cases (s.req q).sweep with
          | none => exact .inl ⟨rfl, rfl⟩
          | some p => exact .inr rfl
        simp only [Requester.rank] at hcur ⊢
        rw [hnext]
        rcases hcur with ⟨h1, h2⟩ | h
        · rw [h1, hr]
          simp only
          omega
        · rw [h]
          omega
    · have hexec : exec .monSweep s = .next (s.deliver q (((s.req q).sweep.getD .start).response s.haz)) := by
        simp only [exec, execMonSweep, ho, hle, if_false]
      exact ⟨s, _, hexec, .refl s, .inl ⟨_, rfl⟩⟩
  unfold runUnit State.fetch
  cases hs : (s.req q).sweep with
  | some p =>
    obtain ⟨cmd, hc, hd⟩ := (hok.1 p hs).2.2
    rw [hp] at hc
    cases hc
    refine sweeping hd ?_
    cases hr : (s.req q).rmw with
    | none => rfl
    | some pl => simp [(hok.2 pl hr).1] at hs
  | none =>
    rw [hp]
    simp only [Option.isSome_none, Bool.false_eq_true, if_false, Option.map_some]
    cases hd : decode c with
    | illegal d => exact ⟨s, _, rfl, .refl s, .inl ⟨_, rfl⟩⟩
    | instr i =>
      simp only
      by_cases hi : i = .monSweep
      · subst hi
        refine sweeping hd ?_
        cases hr : (s.req q).rmw with
        | none => rfl
        | some pl =>
          obtain ⟨_, _, cmd, _, _, _, _, _, hc, hd', _⟩ := hok.2 pl hr
          rw [hp] at hc
          cases hc
          rw [hd] at hd'
          cases hd'
      by_cases ha : s.cfg.rmwAtomic = true ∨ ∀ dev band chain st, i ≠ .swSet dev band chain st
      · obtain ⟨_, t, ht, _, _⟩ := exec_unit i ho
        obtain ⟨u, r, hu, rfl, _⟩ := exec_answered i ho hi ha ht
        exact ⟨u, _, ht, hu, .inl ⟨r, rfl⟩⟩
      · have hset : ∃ dev band chain st, i = .swSet dev band chain st := by
          cases i <;> simp_all
        obtain ⟨dev, band, chain, st, rfl⟩ := hset
        have hna : s.cfg.rmwAtomic = false := by
          cases h : s.cfg.rmwAtomic
          · rfl
          · exact absurd (.inl h) ha
        have hexec : exec (.swSet dev band chain st) s = .next (.finishSwSetUnit q
            (swSetUnit dev band chain st ((s.req q).rmw.getD (.read 0)) s)) := by
          show execSwSet dev band chain st s = _
          rw [execSwSet, if_neg (by simp [hna]), swSetNextUnit_next ho]
        have hev := swSetUnit_evolving dev band chain st ((s.req q).rmw.getD (.read 0)) s
        cases hr : swSetUnit dev band chain st ((s.req q).rmw.getD (.read 0)) s with
        | error f u => rw [hr] at hev hexec; exact ⟨u, _, hexec, hev, .inl ⟨_, rfl⟩⟩
        | ok v u =>
          rw [hr] at hev hexec
          cases v with
          | done r => exact ⟨u, _, hexec, hev, .inl ⟨_, rfl⟩⟩
          | more next =>
            have hreq : u.req q = s.req q := by unfold State.req; rw [show u.reqs = s.reqs from hev.reqs]
            obtain ⟨d, hdv, hin, hrank⟩ := swSetUnit_place hr hw (by
              intro d hd'
              have hlen := Config.subs_length hw hd'
              cases hrm : (s.req q).rmw with
              | none => show 0 < d.subs.length; omega
              | some pl =>
                obtain ⟨_, _, cmd, _, _, _, _, _, hc, hdd, hdev, hin⟩ := hok.2 pl hrm
                rw [hp] at hc
                cases hc
                rw [hd] at hdd
                cases hdd
                rw [hd'] at hdev
                cases hdev
                exact hin)
            refine ⟨u, _, hexec, hev, .inr ⟨_, rfl, ⟨?_, ?_⟩, by rw [hreq]; exact hp, ?_⟩⟩
            · intro p hp'
              rw [hreq] at hp'
              simp [hs] at hp'
            · intro pl hpl
              cases hpl
              rw [hreq]
              exact ⟨hs, hna, c, dev, band, chain, st, d, hp, hd, hdv, hin⟩
            · rw [hreq]
              simp only [Requester.rank, hs]
              cases hrm : (s.req q).rmw with
              | none =>
                rw [hrm] at hrank
                have : next.rank < 8 := by simpa [RmwPlace.rank] using hrank
                simp only [Config.nMon]
                omega
              | some pl => rw [hrm] at hrank; exact hrank

end Sys2Proof.Machine
end

