-- ==== Sys2Proof/Laws/Sequences.lean ====
section
/-! SUPPORT. What successive transactions do under the premises that make each succeed: the reads and writes of a device's
sub-switches, the select writes and analog reads of a monitor point, and the resolution of offsets. -/

namespace Sys2Proof.Machine

/-- The premises under which every transaction succeeds on a clean bus. -/
def State.Works (s : State) : Prop := s.Healthy ∧ s.cfg.wf = true ∧ s.latches.wf = true ∧ s.Clean

/-- Two states with the same outputs: a read happened between them. -/
def SameOut (s t : State) : Prop := ∀ a, (t.latches.get a).out = (s.latches.get a).out

theorem senses_congr {s t : State} (he : t.env = s.env) (ho : SameOut s t) (ws : List Nat) :
    (t.senses ws).1 = (s.senses ws).1 ∧ (t.senses ws).2.env = (s.senses ws).2.env := by
  induction ws generalizing s t with
  | nil => exact ⟨rfl, he⟩
  | cons w ws ih =>
    obtain ⟨h1, h2⟩ := State.sense_congr he (ho w)
    have h3 : (s.sense w).2 = { s with env := (s.sense w).2.env } := (State.sense_congr (s := s) (t := s) rfl rfl).2
    obtain ⟨k1, k2⟩ := ih (s := (s.sense w).2) (t := (t.sense w).2) (by rw [h2])
      (fun a => by rw [h2, h3]; exact ho a)
    exact ⟨by simp only [State.senses]; rw [h1, k1], k2⟩

/-- One read on a clean bus, as what it leaves. -/
theorem latchRead_works {s : State} (h : s.Works) {g : Group} (hg : s.cfg.validGroup g = true) :
    ∃ t, latchRead g s = .ok (s.sense (s.cfg.writeAddr g)).1 t ∧ t.Works ∧ SameOut s t ∧
      (∀ a, t.latches.get a = if a = s.cfg.writeAddr g then
        { s.latches.get a with sr := srAfterRead (s.sense (s.cfg.writeAddr g)).1 } else s.latches.get a) ∧
      t = { s with
        lines := { s.lines with addr := .ofAddr (s.cfg.writeAddr g + 4) }
        latches := t.latches
        env := (s.sense (s.cfg.writeAddr g)).2.env
        trace := s.trace ++ readEvents (s.cfg.writeAddr g + 4) (s.sense (s.cfg.writeAddr g)).1 } := by
  obtain ⟨hh, hc, hm, hcl⟩ := h
  have hp := (State.sense_evolves s (s.cfg.writeAddr g)).premises
  have hget : ∀ a, (s.latches.set (s.cfg.writeAddr g)
      { s.latches.get (s.cfg.writeAddr g) with sr := srAfterRead (s.sense (s.cfg.writeAddr g)).1 }).get a =
      if a = s.cfg.writeAddr g then
        { s.latches.get a with sr := srAfterRead (s.sense (s.cfg.writeAddr g)).1 } else s.latches.get a := by
    intro a
    rw [Memory.get_set hm]
    split
    · subst_vars; rfl
    · rfl
  refine ⟨_, latchRead_ok hh hc hm hcl hg, ⟨⟨hp.1.trans hh.1, hp.2.1.trans hh.2⟩, hc, Memory.wf_set hm, hcl⟩,
    fun a => ?_, hget, rfl⟩
  show (Memory.get _ a).out = _
  rw [hget]; split <;> rfl

/-- One write on a clean bus, as what it leaves. -/
theorem latchWrite_works {s : State} (h : s.Works) {g : Group} (hg : s.cfg.validGroup g = true) (b : Byte) :
    ∃ t, latchWrite g b s = .ok () t ∧ t.Works ∧
      (∀ a, t.latches.get a = if a = s.cfg.writeAddr g then ⟨.ofByte b, .ofByte b⟩ else s.latches.get a) ∧
      t = { s with
        lines := ⟨.ofAddr (s.cfg.writeAddr g), .hi, .ofBool (b.getLsbD 0), .hi, .hi⟩
        latches := t.latches
        trace := s.trace ++ writeEvents (s.cfg.writeAddr g) b } := by
  obtain ⟨hh, hc, hm, hcl⟩ := h
  have hcl' : s.lines.clean = true := hcl
  have hcl2 : (s.lines.busen = .hi ∧ s.lines.load = .hi) ∧ s.lines.clk = .hi := by simpa [Lines.clean] using hcl'
  have hl := latchWrite_ok hh hc hm hg b
  have hst : s.started = s := by simp [State.started, hcl']
  rw [hst] at hl
  simp only [hcl', if_true, hcl2.1.2] at hl
  exact ⟨_, hl, ⟨hh, hc, Memory.wf_set hm, rfl⟩, fun a => Memory.get_set hm, rfl⟩

/-- Reading sub-switches one after the other. -/
theorem readSubs_works {s : State} (h : s.Works) (l : List (SubSwitch × Nat))
    (hg : ∀ p ∈ l, s.cfg.validGroup p.1.rbGrp = true) :
    let ws := l.map fun p => s.cfg.writeAddr p.1.rbGrp
    let vs := (s.senses ws).1
    ∃ t, readSubs l s = .ok (subStates (l.map Prod.fst) (l.map Prod.snd) vs) t ∧ t.Works ∧ SameOut s t ∧
      (∀ a, a ∉ ws → t.latches.get a = s.latches.get a) ∧
      t = { s with
        lines := ws.foldl (fun k w => { k with addr := .ofAddr (w + 4) }) s.lines
        latches := t.latches
        env := (s.senses ws).2.env
        trace := s.trace ++ readsEvents ws vs } := by
  induction l generalizing s with
  | nil => exact ⟨s, rfl, h, fun _ => rfl, fun _ _ => rfl, by simp [State.senses, readsEvents]⟩
  | cons p l ih =>
    obtain ⟨sub, o⟩ := p
    obtain ⟨u, h1, hu, ho, hget, hu2⟩ := latchRead_works h (hg (sub, o) (by simp))
    have hcfg : u.cfg = s.cfg := by rw [hu2]
    obtain ⟨t, h2, ht, ho2, hget2, ht2⟩ := ih hu (fun p hp => by rw [hcfg]; exact hg p (by simp [hp]))
    have hs3 : (s.sense (s.cfg.writeAddr sub.rbGrp)).2 = { s with env := (s.sense (s.cfg.writeAddr sub.rbGrp)).2.env } :=
      (State.sense_congr (s := s) (t := s) rfl rfl).2
    rw [hcfg] at h2 ht2 hget2
    obtain ⟨k1, k2⟩ := senses_congr (s := (s.sense (s.cfg.writeAddr sub.rbGrp)).2) (t := u)
      (by rw [hu2]) (fun a => by rw [ho a, hs3])
      (l.map fun p => s.cfg.writeAddr p.1.rbGrp)
    rw [k1] at h2 ht2
    rw [k2] at ht2
    refine ⟨t, ?_, ht, fun a => (ho2 a).trans (ho a), fun a ha => ?_, ?_⟩
    · refine (bind_ok (a := bitState (s.sense (s.cfg.writeAddr sub.rbGrp)).1 o sub.pol) (t := u) ?_).trans ?_
      · exact (bind_ok h1).trans rfl
      · exact (bind_ok h2).trans rfl
    · simp only [List.map_cons, List.mem_cons, not_or] at ha
      rw [hget2 a ha.2, hget, if_neg ha.1]
    · rw [ht2]
      simp only [List.map_cons, List.foldl_cons, State.senses, readsEvents]
      rw [hu2]
      simp only [List.append_assoc]

/-- Reading, changing and writing back sub-switches whose control bytes are known. -/
theorem writeSubs_works (st : Bool) {s : State} (h : s.Works) (hl : s.env.loopback = true) (l : List (SubSwitch × Nat)) (f : Nat → Byte)
    (hg : ∀ p ∈ l, s.cfg.validGroup p.1.ctlGrp = true)
    (hf : ∀ p ∈ l, s.OutIs (s.cfg.writeAddr p.1.ctlGrp) (f (s.cfg.writeAddr p.1.ctlGrp))) :
    let g := bytesSet s.cfg st l f
    ∃ t, writeSubs st l s = .ok () t ∧ t.Works ∧
      (∀ p ∈ l, t.OutIs (s.cfg.writeAddr p.1.ctlGrp) (g (s.cfg.writeAddr p.1.ctlGrp))) ∧
      (∀ a, (∀ p ∈ l, a ≠ s.cfg.writeAddr p.1.ctlGrp) → t.latches.get a = s.latches.get a ∧ g a = f a) ∧
      t = { s with
        lines := t.lines
        latches := t.latches
        trace := s.trace ++ setEvents s.cfg st l f } := by
  induction l generalizing s f with
  | nil => exact ⟨s, rfl, h, by simp, fun _ _ => ⟨rfl, rfl⟩, by simp [setEvents]⟩
  | cons p l ih =>
    obtain ⟨sub, o⟩ := p
    obtain ⟨w, hw⟩ : ∃ w, w = s.cfg.writeAddr sub.ctlGrp := ⟨_, rfl⟩
    have hsense := State.sense_known hl (hf (sub, o) (by simp))
    obtain ⟨u, h1, hu, ho, hget, hu2⟩ := latchRead_works h (hg (sub, o) (by simp))
    simp only at h1 hget hu2 hsense
    rw [← hw] at h1 hget hu2 hsense
    rw [hsense] at h1 hget hu2
    have hcu : u.cfg = s.cfg := by rw [hu2]
    let new := withBit (f w) o (sub.pol.level st)
    obtain ⟨v, h2, hv, hget2, hv2⟩ := latchWrite_works hu (g := sub.ctlGrp) (by rw [hcu]; exact hg (sub, o) (by simp)) new
    rw [hcu, ← hw] at hget2 hv2
    have hcv : v.cfg = s.cfg := by have h := congrArg State.cfg hv2; exact h
    have hev : v.env = s.env := by
      have h1 := congrArg State.env hv2
      have h2 := congrArg State.env hu2
      exact h1.trans h2
    let f' := fun a => if a = w then new else f a
    have hgetv : ∀ a, v.latches.get a = if a = w then ⟨.ofByte new, .ofByte new⟩ else s.latches.get a := by
      intro a; rw [hget2]; split
      · rfl
      · rw [hget, if_neg ‹_›]
    obtain ⟨t, h3, ht, hin, hout, ht2⟩ := ih hv (by rw [hev]; exact hl) f' (fun p hp => by rw [hcv]; exact hg p (by simp [hp]))
      (fun p hp => by
        rw [hcv, State.OutIs, hgetv]
        simp only [f']
        split
        · rfl
        · exact hf p (by simp [hp]))
    rw [hcv] at hin hout ht2
    have hg' : bytesSet s.cfg st ((sub, o) :: l) f = bytesSet s.cfg st l f' := by
      simp only [bytesSet]
      congr 1
      funext a
      simp only [f', new]
      rw [← hw]
      by_cases hc : a = w
      · simp [hc]
      · simp [hc]
    refine ⟨t, ?_, ht, fun p hp => ?_, fun a ha => ?_, ?_⟩
    · exact (bind_ok h1).trans ((bind_ok h2).trans h3)
    · rw [hg']
      by_cases hm : ∀ p' ∈ l, s.cfg.writeAddr p.1.ctlGrp ≠ s.cfg.writeAddr p'.1.ctlGrp
      · have hp' : p = (sub, o) := by
          rcases List.mem_cons.1 hp with h | h
          · exact h
          · exact absurd rfl (hm p h)
        subst hp'
        have hm' : ∀ p' ∈ l, w ≠ s.cfg.writeAddr p'.1.ctlGrp := by rw [hw]; exact hm
        show t.OutIs (s.cfg.writeAddr sub.ctlGrp) _
        simp only
        rw [← hw, State.OutIs, (hout w hm').1, (hout w hm').2, hgetv]
        simp [f']
      · obtain ⟨p', hp', he⟩ : ∃ p' ∈ l, s.cfg.writeAddr p.1.ctlGrp = s.cfg.writeAddr p'.1.ctlGrp :=
          Classical.byContradiction fun hn => hm fun p' hp' he => hn ⟨p', hp', he⟩
        rw [he]; exact hin p' hp'
    · have ha1 := ha (sub, o) (by simp)
      simp only at ha1
      rw [← hw] at ha1
      obtain ⟨k1, k2⟩ := hout a (fun p hp => ha p (by simp [hp]))
      rw [hg', k1, k2, hgetv]
      simp [f', ha1]
    · rw [ht2, hv2, hu2]
      simp only [setEvents, List.append_assoc]
      rw [← hw]

/-- Resolving readback offsets, or the first that names no bit (42_switch_state.md R180, R172). -/
theorem resolveReadback_eq (band chain : Nat) (l : List SubSwitch) (s : State) :
    resolveReadback band chain l s =
      match l.mapM (fun u => s.cfg.resolveOff u.rbOff band chain) with
      | some os => .ok os s
      | none => .error .badIndex s := by
  induction l with
  | nil => rfl
  | cons u l ih =>
    rw [List.mapM_cons]
    cases h : s.cfg.resolveOff u.rbOff band chain with
    | none =>
      exact bind_error (m := resolveOff u.rbOff band chain) (by simp [resolveOff, orBadIndex, h])
    | some o =>
      refine (bind_ok (m := resolveOff u.rbOff band chain) (a := o) (t := s) (by simp [resolveOff, orBadIndex, h])).trans ?_
      cases h2 : l.mapM (fun u => s.cfg.resolveOff u.rbOff band chain) with
      | none =>
        rw [h2] at ih
        exact bind_error ih
      | some os =>
        rw [h2] at ih
        exact (bind_ok ih).trans rfl

/-- Resolving control offsets, with the readback offsets checked (42_switch_state.md R190). -/
theorem resolveControl_ok {band chain : Nat} {l : List SubSwitch} {s : State} {cs os : List Nat}
    (hc : l.mapM (fun u => s.cfg.resolveOff u.ctlOff band chain) = some cs)
    (ho : l.mapM (fun u => s.cfg.resolveOff u.rbOff band chain) = some os) :
    resolveControl band chain l s = .ok cs s := by
  induction l generalizing cs os with
  | nil => cases hc; rfl
  | cons u l ih =>
    rw [List.mapM_cons] at hc ho
    cases h1 : s.cfg.resolveOff u.ctlOff band chain with
    | none => simp [h1] at hc
    | some c =>
      cases h2 : s.cfg.resolveOff u.rbOff band chain with
      | none => simp [h2] at ho
      | some o =>
        cases h3 : l.mapM (fun u => s.cfg.resolveOff u.ctlOff band chain) with
        | none => simp [h1, h3] at hc
        | some cs' =>
          cases h4 : l.mapM (fun u => s.cfg.resolveOff u.rbOff band chain) with
          | none => simp [h2, h4] at ho
          | some os' =>
            have hcs : cs = c :: cs' := by simpa [h1, h3] using hc.symm
            refine (bind_ok (m := resolveOff u.ctlOff band chain) (a := c) (t := s)
              (by simp [resolveOff, orBadIndex, h1])).trans ?_
            refine (bind_ok (m := resolveOff u.rbOff band chain) (a := o) (t := s)
              (by simp [resolveOff, orBadIndex, h2])).trans ?_
            rw [hcs]
            exact (bind_ok (ih h3 h4)).trans rfl

/-- An offset that names no bit ends the resolution with nothing changed. -/
theorem resolveControl_error {band chain : Nat} {l : List SubSwitch} {s : State}
    (h : ∃ u ∈ l, s.cfg.resolveOff u.rbOff band chain = none ∨ s.cfg.resolveOff u.ctlOff band chain = none) :
    resolveControl band chain l s = .error .badIndex s := by
  induction l with
  | nil => obtain ⟨_, hu, _⟩ := h; cases hu
  | cons u l ih =>
    cases h1 : s.cfg.resolveOff u.ctlOff band chain with
    | none => exact bind_error (m := resolveOff u.ctlOff band chain) (by simp [resolveOff, orBadIndex, h1])
    | some c =>
      refine (bind_ok (m := resolveOff u.ctlOff band chain) (a := c) (t := s)
        (by simp [resolveOff, orBadIndex, h1])).trans ?_
      cases h2 : s.cfg.resolveOff u.rbOff band chain with
      | none => exact bind_error (m := resolveOff u.rbOff band chain) (by simp [resolveOff, orBadIndex, h2])
      | some o =>
        refine (bind_ok (m := resolveOff u.rbOff band chain) (a := o) (t := s)
          (by simp [resolveOff, orBadIndex, h2])).trans ?_
        refine bind_error (ih ?_)
        obtain ⟨v, hv, hn⟩ := h
        rcases List.mem_cons.1 hv with rfl | hv
        · simp [h1, h2] at hn
        · exact ⟨v, hv, hn⟩

/-- Readings depend on the environment's answers only. -/
theorem voltsDraws_congr (n : Nat) {s t : State} (h : t.env = s.env) :
    (t.voltsDraws n).1 = (s.voltsDraws n).1 ∧ (t.voltsDraws n).2.env = (s.voltsDraws n).2.env := by
  induction n generalizing s t with
  | zero => exact ⟨rfl, h⟩
  | succ n ih =>
    have h1 : t.voltsDraw.1 = s.voltsDraw.1 ∧ t.voltsDraw.2.env = s.voltsDraw.2.env := by
      unfold State.voltsDraw State.countDraw
      rw [h]
      split <;> simp
    obtain ⟨k1, k2⟩ := ih h1.2
    exact ⟨by simp only [State.voltsDraws]; rw [h1.1, k1], k2⟩

/-- The analog reads of a monitor point (43_monitor_mux.md R223). -/
theorem readOuts_works {s : State} (h : s.env.noIOFail = true) (os : List MonOut) :
    let vs := (s.voltsDraws os.length).1
    vs.length = os.length ∧
    readOuts os s = .ok (os.zip vs)
      { s with
        env := (s.voltsDraws os.length).2.env
        trace := s.trace ++ os.zipWith (fun o v => .readAnalog o.ch (some v)) vs } := by
  induction os generalizing s with
  | nil => exact ⟨rfl, by simp [State.voltsDraws, readOuts]; rfl⟩
  | cons o os ih =>
    have hd : s.voltsDraw.2 = { s with env := s.voltsDraw.2.env } := by
      unfold State.voltsDraw State.countDraw; split <;> rfl
    have hn : s.voltsDraw.2.env.noIOFail = true := by
      unfold State.voltsDraw State.countDraw; split <;> exact h
    obtain ⟨i1, i2⟩ := ih (s := s.voltsDraw.2.event (.readAnalog o.ch (some s.voltsDraw.1))) hn
    have hv : ∀ n, ∀ u : State, ∀ e, ((u.event e).voltsDraws n).1 = (u.voltsDraws n).1 ∧
        ((u.event e).voltsDraws n).2.env = (u.voltsDraws n).2.env := by
      intro n
      induction n with
      | zero => exact fun u e => ⟨rfl, rfl⟩
      | succ n ihn =>
        intro u e
        have h1 : (u.event e).voltsDraw = (u.voltsDraw.1, u.voltsDraw.2.event e) := by
          cases h : u.env.analog <;> simp only [State.voltsDraw, State.event_env, h] <;> rfl
        simp only [State.voltsDraws, h1, (ihn u.voltsDraw.2 e).1, (ihn u.voltsDraw.2 e).2, and_self]
    rw [(hv _ _ _).1] at i1 i2
    rw [(hv _ _ _).2] at i2
    refine ⟨by simp only [State.voltsDraws, List.length_cons]; rw [i1], ?_⟩
    refine (bind_ok (m := readAnalog o.ch) (pinOp_ok h)).trans ((bind_ok i2).trans ?_)
    simp only [List.length_cons, State.voltsDraws, List.zipWith_cons_cons, List.zip_cons_cons]
    rw [hd]
    simp [State.event]
    rfl

/-! ## The pieces of a switch command -/

theorem checkDev_ok {dev : Nat} {d : Device} {s : State} (h : s.cfg.device dev = some d) :
    checkDev dev s = .ok d s := by
  simp [checkDev, orBadIndex, h]

theorem resolveReadback_ok {band chain : Nat} {l : List SubSwitch} {s : State} {os : List Nat}
    (h : l.mapM (fun u => s.cfg.resolveOff u.rbOff band chain) = some os) :
    resolveReadback band chain l s = .ok os s := by
  rw [resolveReadback_eq, h]

/-- A list mapped entry by entry keeps its length. -/
theorem length_of_mapM {α β : Type} {f : α → Option β} {l : List α} {os : List β} (h : l.mapM f = some os) :
    os.length = l.length := by
  induction l generalizing os with
  | nil => cases h; rfl
  | cons a l ih =>
    rw [List.mapM_cons] at h
    cases h1 : f a with
    | none => simp [h1] at h
    | some b =>
      cases h2 : l.mapM f with
      | none => simp [h1, h2] at h
      | some bs =>
        have : os = b :: bs := by simpa [h1, h2] using h.symm
        rw [this, List.length_cons, List.length_cons, ih h2]

theorem senses_length (s : State) (ws : List Nat) : (s.senses ws).1.length = ws.length := by
  induction ws generalizing s with
  | nil => rfl
  | cons w ws ih => simp [State.senses, ih]

theorem subStates_length {ss : List SubSwitch} {os : List Nat} {vs : List Byte} (h1 : os.length = ss.length)
    (h2 : vs.length = ss.length) : (subStates ss os vs).length = ss.length := by
  induction ss generalizing os vs with
  | nil => cases os <;> cases vs <;> simp_all [subStates]
  | cons s ss ih =>
    cases os with
    | nil => simp at h1
    | cons o os =>
      cases vs with
      | nil => simp at h2
      | cons v vs => simp [subStates, ih (os := os) (vs := vs) (by simpa using h1) (by simpa using h2)]

/-- The end of a command that reports the states of one or two sub-switches (42_switch_state.md R180, R181). -/
theorem finish_agree {dev : Nat} {sts : List Bool} {u : State} {q : Nat} (hl : sts.length = 1 ∨ sts.length = 2) :
    State.finish q (agree dev sts u) =
      ({ u with log := u.log ++ stateLog dev sts }).deliver q (stateReport u.haz sts) := by
  have e : ({ u with log := u.log ++ [] } : State) = u := by rw [List.append_nil]
  match sts, hl with
  | [st], _ => simp only [stateLog, e]; rfl
  | [a, b], _ =>
    by_cases h : a = b
    · subst h
      rw [show stateLog dev [a, a] = [] from if_pos rfl,
        show stateReport u.haz [a, a] = okResponse u.haz (BitVec.ofNat 8 a.toNat) [] from if_pos rfl,
        show agree dev [a, a] = (pure (.ofState a) : Run Reply) from if_pos rfl, e]
      rfl
    · rw [show stateLog dev [a, b] = [.inconsistent dev a b] from if_neg h,
        show stateReport u.haz [a, b] = ⟨.inconsistent, u.haz, BitVec.ofNat 8 (a.toNat + 2 * b.toNat), 0#8, 0#8, []⟩
          from if_neg h,
        show agree dev [a, b] = disagree dev a b from if_neg h]
      rfl

/-! ## What a dirty start and a scripted address drive leave -/

/-- The latch contents after a transaction start (41_latch_protocol.md R129). -/
theorem State.started_get {s : State} (hm : s.latches.wf = true) (a : Nat) :
    s.started.latches.get a =
      if s.lines.clean = false ∧ a ∈ s.cfg.writeAddrs then .unknown else s.latches.get a := by
  unfold State.started
  split
  · simp_all
  · rename_i h
    simp only [h, true_and]
    exact Memory.get_forget (m := s.latches) hm a

/-- An address line driven where the script says the adapter succeeds (41_latch_protocol.md R120). -/
theorem drive_addr_scripted {s : State} (h : s.env.noIOFail = false) {rest : List Bool} (hio : s.env.io = true :: rest)
    (i : Fin 8) (v : Bool) :
    drive (.a i) v s = .ok ()
      { s with
        lines := s.lines.set (.a i) (.ofBool v)
        trace := s.trace ++ [driven (.a i) v]
        env := { s.env with io := rest } } := by
  unfold drive pinOp
  simp [State.ioDraw, h, hio, State.moveLine, State.edge_addr]
  rfl

/-- An address line driven where the script says the adapter fails. -/
theorem drive_addr_fails {s : State} (h : s.env.noIOFail = false) {rest : List Bool} (hio : s.env.io = false :: rest)
    (i : Fin 8) (v : Bool) :
    drive (.a i) v s = .error .ioFail
      { s with
        lines := s.lines.set (.a i) .x
        trace := s.trace ++ [.drive (.a i) v false]
        log := s.log ++ [.io (.line (.a i))]
        env := { s.env with io := rest } } := by
  unfold drive pinOp
  simp [State.ioDraw, h, hio]
  rfl

end Sys2Proof.Machine
end

