-- ==== Sys2Proof/Laws/Starts.lean ====
section
/-! SUPPORT. Whole transactions whose primitives succeed, from any start, clean or dirty: a read, a write, the select of a
monitor point, and the rewriting of a device's control bytes. -/

namespace Sys2Proof.Machine

/-- The premises under which every transaction succeeds, whether the bus is clean or not. -/
def State.Sound (s : State) : Prop := s.Healthy ∧ s.cfg.wf = true ∧ s.latches.wf = true

theorem State.Works.sound {s : State} (h : s.Works) : s.Sound := ⟨h.1, h.2.1, h.2.2.1⟩

theorem State.Works.clean {s : State} (h : s.Works) : s.Clean := h.2.2.2

theorem State.startLatch_clean {s : State} (h : s.Clean) (a : Nat) : s.startLatch a = s.latches.get a := by
  have h' : s.lines.clean = true := h
  simp [State.startLatch, h']

theorem State.hazAfterRead_clean {s : State} (h : s.Clean) : s.hazAfterRead = s.haz := by
  have h' : s.lines.clean = true := h
  simp [State.hazAfterRead, h']

theorem Lines.clean_iff {l : Lines} : l.clean = true ↔ l.busen = .hi ∧ l.load = .hi ∧ l.clk = .hi := by
  simp [Lines.clean, and_assoc]

/-- A read of a group whose primitives succeed (41_latch_protocol.md R129, R140 to R142). -/
theorem latchRead_leaves {s : State} (h : s.Sound) {g : Group} (hg : s.cfg.validGroup g = true) :
    ∃ v t, latchRead g s = .ok v t ∧ ReadLeaves s t (s.cfg.writeAddr g) v ∧ t.Works ∧ t.log = s.log ∧
      (s.Clean → t.trace = s.trace ++ readEvents (s.cfg.writeAddr g + 4) v) := by
  obtain ⟨hh, hc, hm⟩ := h
  have hev := latchRead_evolving g s
  by_cases hcl : s.Clean
  · obtain ⟨t, h1, hw, ho, hget, ht⟩ := latchRead_works ⟨hh, hc, hm, hcl⟩ hg
    rw [h1] at hev
    obtain ⟨b, l, k⟩ := Lines.clean_iff.1 hcl
    refine ⟨_, t, h1, ⟨?_, ?_, hev.cfg, hev.premises, fun a => ?_, fun a ha => ?_, fun _ => ⟨rfl, ?_, ?_⟩,
      fun hn => absurd hcl hn⟩, hw, ?_, fun _ => ?_⟩
    · rw [ht]; simp [b, l, k]
    · rw [ht, State.hazAfterRead_clean hcl]
    · rw [State.startLatch_clean hcl]; exact ho a
    · rw [State.startLatch_clean hcl, hget, if_neg ha]
    · rw [hget, if_pos rfl]
    · rw [ht]
    · rw [ht]
    · rw [ht]
  · have hcl' : s.lines.clean = false := by simpa [State.Clean] using hcl
    have hmem := Config.writeAddr_mem hg
    have hcg : checkGroup g s = .ok () s := by simp [checkGroup, hg]
    obtain ⟨sc, sl, se, st, slog, sr, so⟩ := s.started_same
    generalize hw : s.cfg.writeAddr g = w at *
    have hsH : s.started.Healthy := by simpa [State.Healthy, se] using hh
    let s1 := s.started.moved { s.started.lines with addr := .ofAddr (w + 4) } (selectEvents (w + 4))
    let s2 := s1.event (.readPort (some (BitVec.ofNat 8 (w + 4))))
    have h1 : driveAddr (w + 4) s.started = .ok () s1 := driveAddr_ok hsH.1 _
    have h2 : verify (w + 4) [w + 4, w] s1 = .ok () s2 :=
      verify_ok (by exact hsH) rfl (Config.readAddr_le hc hmem) (by simp)
    have hb : s2.lines.busen = s.lines.busen := by show s.started.lines.busen = _; rw [sl]
    have hz : s2.haz = s.haz ||| 0b01#2 := by
      show s.started.haz = _
      unfold State.started
      rw [if_neg (by simp [hcl'])]
      rfl
    obtain ⟨s3, h3, l3⟩ : ∃ s3, checkLoadHazard s2 = .ok () s3 ∧ s3 = { s2 with haz := s.hazAfterRead } := by
      refine ⟨_, rfl, ?_⟩
      rw [hb]
      by_cases hx : s.lines.busen = .hi
      · simp only [State.hazAfterRead, hcl', hx, if_true, Bool.false_eq_true, if_false]
        rw [← hz]
      · simp only [State.hazAfterRead, hcl', hx, if_false, Bool.false_eq_true]
        unfold State.setHaz
        rw [hz]
        simp [hazLoaden, BitVec.or_assoc]
    have hadr : Addressed false w s3 := by
      rw [l3]
      refine ⟨?_, ?_, rfl⟩
      · show s.started.cfg.wf = true; rw [sc]; exact hc
      · show w ∈ s.started.cfg.writeAddrs; rw [sc]; exact hmem
    obtain ⟨v, s4, h4, hl4, hq4⟩ := receiveByte_succeeds (s := s3) (by rw [l3]; exact hsH.1)
    have hloc := Run.Local.receiveByte (write := false) (w := w) s3 hadr
    rw [h4] at hloc
    change Local false w s3 s4 at hloc
    have hfin : latchRead g s = .ok s4.readByteDraw.1 s4.readByteDraw.2 := by
      refine (bind_ok hcg).trans ((bind_ok rfl).trans ?_)
      rw [hw]
      refine (bind_ok (startTransaction_eq s)).trans ((bind_ok h1).trans ((bind_ok h2).trans ((bind_ok h3).trans
        ((bind_ok h4).trans ?_))))
      simp [drawIf, hcl']
    have hrd : s4.readByteDraw.2.lines = s4.lines ∧ s4.readByteDraw.2.latches = s4.latches ∧
        s4.readByteDraw.2.haz = s4.haz ∧ s4.readByteDraw.2.log = s4.log := by
      unfold State.readByteDraw State.countDraw
      split <;> simp
    obtain ⟨r1, r2, r3, r4⟩ := hrd
    rw [hfin] at hev
    change Evolves s s4.readByteDraw.2 at hev
    have hget3 : ∀ a, s3.latches.get a = s.startLatch a := by
      intro a
      rw [l3]
      show s.started.latches.get a = _
      rw [State.started_get hm]
      rfl
    have hm3 : s3.latches.wf = true := by rw [l3]; exact State.started_wf hm
    have hlines : s4.readByteDraw.2.lines = ⟨.ofAddr (w + 4), .hi, s.lines.din, .hi, .hi⟩ := by
      rw [r1, hl4, l3]
      simp [s2, s1, sl]
    refine ⟨_, _, hfin, ⟨hlines, ?_, hev.cfg, hev.premises, fun a => ?_, fun a ha => ?_, fun x => absurd x hcl,
      fun _ x rest hx => ?_⟩, ⟨⟨hev.premises.1.trans hh.1, hev.premises.2.1.trans hh.2⟩, ?_, ?_, ?_⟩, ?_,
      fun x => absurd x hcl⟩
    · rw [r3, hq4.haz, l3]
    · rw [r2, ((hloc.2.2 hm3).2 a).1, hget3]
    · rw [r2, ← hget3]
      have h5 := (hloc.2.2 hm3).2 a
      have h6 : (s4.latches.get a).sr = (s3.latches.get a).sr := h5.2 ha
      have h7 : (s4.latches.get a).out = (s3.latches.get a).out := h5.1
      cases e1 : s4.latches.get a
      cases e2 : s3.latches.get a
      simp_all
    · have : s4.env.readByte = x :: rest := by
        rw [hq4.readByte, l3]
        show s.started.env.readByte = _
        rw [se, hx]
      simp [State.readByteDraw, this]
    · rw [hev.cfg]; exact hc
    · rw [r2]; exact (hloc.2.2 hm3).1
    · show Lines.clean _ = true
      rw [hlines]
      rfl
    · rw [r4, hq4.log, l3]
      exact slog

/-- A write of a group whose primitives succeed (41_latch_protocol.md R129 to R131). -/
theorem latchWrite_leaves {s : State} (h : s.Sound) {g : Group} (hg : s.cfg.validGroup g = true) (b : Byte) :
    ∃ t, latchWrite g b s = .ok () t ∧ t.Sound ∧
      (∀ a, t.latches.get a = wroteLatch s.cfg (!s.lines.clean) (s.cfg.writeAddr g) b s.latches.get a) ∧
      t = { s with
        lines := ⟨.ofAddr (s.cfg.writeAddr g), .hi, .ofBool (b.getLsbD 0), s.lines.load, .hi⟩
        latches := t.latches
        haz := s.hazAfterWrite
        trace := s.trace ++ writeEvents (s.cfg.writeAddr g) b } := by
  obtain ⟨hh, hc, hm⟩ := h
  obtain ⟨sc, sl, se, st, slog, sr, so⟩ := s.started_same
  have hz : s.started.haz = s.hazAfterWrite := by
    unfold State.started State.hazAfterWrite
    split <;> rfl
  refine ⟨_, latchWrite_ok hh hc hm hg b, ⟨?_, ?_, Memory.wf_set (State.started_wf hm)⟩, fun a => ?_, ?_⟩
  · simpa [State.Healthy, se] using hh
  · show s.started.cfg.wf = true
    rw [sc]; exact hc
  · show Memory.get (Memory.set _ _ _) a = _
    rw [Memory.get_set (State.started_wf hm), State.started_get hm]
    unfold wroteLatch
    cases s.lines.clean <;> simp
  · rw [← hz, ← se, ← slog, ← sr, ← so]
    cases hs : s.started
    rw [hs] at sc
    simp only at sc
    simp [sc]

/-- The select writes of a monitor point, whose primitives succeed (43_monitor_mux.md R221). -/
theorem selectEntry_leaves {s : State} (h : s.Sound) {e : MonEntry} (hA : s.cfg.validGroup e.selA.grp = true)
    (hB : s.cfg.validGroup e.selB.grp = true) :
    ∃ t, selectEntry e s = .ok () t ∧ t.Sound ∧ (∀ a, t.latches.get a = s.selectedLatch e a) ∧
      t = { s with
        lines := s.selectedLines e
        latches := t.latches
        haz := s.hazAfterWrite
        trace := s.trace ++ writeEvents (s.cfg.writeAddr e.selA.grp) e.selA.val ++
          writeEvents (s.cfg.writeAddr e.selB.grp) e.selB.val } := by
  obtain ⟨u, h1, hu, hg, hu2⟩ := latchWrite_leaves h hA e.selA.val
  have hcu : u.cfg = s.cfg := by have h := congrArg State.cfg hu2; exact h
  have hlu : u.lines = ⟨.ofAddr (s.cfg.writeAddr e.selA.grp), .hi, .ofBool (e.selA.val.getLsbD 0), s.lines.load, .hi⟩ := by
    have h := congrArg State.lines hu2; exact h
  have hzu : u.haz = s.hazAfterWrite := by have h := congrArg State.haz hu2; exact h
  obtain ⟨t, h2, ht, hg2, ht2⟩ := latchWrite_leaves hu (by rw [hcu]; exact hB) e.selB.val
  rw [hcu] at hg2 ht2
  have hcl : u.lines.clean = (s.lines.load == .hi) := by rw [hlu]; simp [Lines.clean]
  have hz : u.hazAfterWrite = s.hazAfterWrite := by
    unfold State.hazAfterWrite
    rw [hcl]
    split
    · exact hzu
    · rename_i hne
      rw [hzu]
      unfold State.hazAfterWrite
      split
      · rename_i hc
        exact absurd (by simpa using (Lines.clean_iff.1 hc).2.1) hne
      · rw [BitVec.or_assoc]; rfl
  refine ⟨t, (bind_ok h1).trans h2, ht, fun a => ?_, ?_⟩
  · rw [hg2, funext hg, hcl]
    rfl
  · have hl : u.lines.load = s.lines.load := by rw [hlu]
    rw [ht2, hz, hl, hu2]
    rfl

/-- A monitor point selected and read, whose primitives succeed (43_monitor_mux.md R223). -/
theorem monReadings_leaves {s : State} (h : s.Sound) {i : Nat} {e : MonEntry} (he : s.cfg.monEntry i = some e)
    (hm : e ∈ s.cfg.montab) :
    let vs := (s.voltsDraws e.outs.length).1
    vs.length = e.outs.length ∧
    ∃ t, monReadings i s = .ok (e.outs.zip vs) t ∧ (∀ a, t.latches.get a = s.selectedLatch e a) ∧
      t = { s with
        lines := s.selectedLines e
        latches := t.latches
        haz := s.hazAfterWrite
        env := (s.voltsDraws e.outs.length).2.env
        trace := s.trace ++ writeEvents (s.cfg.writeAddr e.selA.grp) e.selA.val ++
          writeEvents (s.cfg.writeAddr e.selB.grp) e.selB.val ++
          e.outs.zipWith (fun o v => .readAnalog o.ch (some v)) vs } := by
  obtain ⟨hA, hB⟩ := Config.selectGroups_valid h.2.1 hm
  obtain ⟨u, h1, hu, hg, hu2⟩ := selectEntry_leaves h hA hB
  have heu : u.env = s.env := by have h := congrArg State.env hu2; exact h
  obtain ⟨v1, v2⟩ := voltsDraws_congr e.outs.length heu
  obtain ⟨h2, h3⟩ := readOuts_works (by rw [heu]; exact h.1.1) e.outs
  rw [v1] at h2 h3
  rw [v2] at h3
  refine ⟨h2, _, (bind_ok (m := checkMon i) (a := e) (t := s) (by simp [checkMon, orBadIndex, he])).trans
    ((bind_ok h1).trans h3), hg, ?_⟩
  rw [hu2]

/-! ## The bytes read -/

theorem LByte.orDraw_bit (v : LByte) (d : Byte) (i : Fin 8) :
    (v.orDraw d).getLsbD i = ((v.get i).toBool?).getD (d.getLsbD i) := by
  have key : ∀ b7 b6 b5 b4 b3 b2 b1 b0 : Bool, ∀ i : Fin 8,
      (Byte.ofMsbFirst [b7, b6, b5, b4, b3, b2, b1, b0]).getLsbD i =
        (match i with | 7 => b7 | 6 => b6 | 5 => b5 | 4 => b4 | 3 => b3 | 2 => b2 | 1 => b1 | 0 => b0) := by decide
  unfold LByte.orDraw
  rw [key]
  revert i
  simp [Fin.forall_fin_succ, LByte.get, Level.orDraw]

/-- Under `Loopback` a captured byte shows the outputs (20_memory.md R66). -/
theorem State.sense_shows {s : State} (h : s.env.loopback = true) (w : Nat) :
    Shows (s.sense w).1 (s.latches.get w).out := by
  intro i b hb
  unfold State.sense
  rw [if_pos h]
  split <;> rw [LByte.orDraw_bit, hb] <;> cases b <;> rfl

theorem State.sense_eq (s : State) (w : Nat) : (s.sense w).2 = { s with env := (s.sense w).2.env } :=
  (State.sense_congr (s := s) (t := s) rfl rfl).2

/-- Successive captures under `Loopback` show the outputs, which they do not change. -/
theorem State.senses_show {s : State} (h : s.env.loopback = true) (ws : List Nat) {j w : Nat} {v : Byte}
    (hw : ws[j]? = some w) (hv : (s.senses ws).1[j]? = some v) : Shows v (s.latches.get w).out := by
  induction ws generalizing s j with
  | nil => simp at hw
  | cons u ws ih =>
    cases j with
    | zero =>
      simp only [List.getElem?_cons_zero, Option.some.injEq] at hw
      simp only [State.senses, List.getElem?_cons_zero, Option.some.injEq] at hv
      rw [← hw, ← hv]
      exact State.sense_shows h u
    | succ j =>
      simp only [List.getElem?_cons_succ] at hw
      simp only [State.senses, List.getElem?_cons_succ] at hv
      have hp := (State.sense_evolves s u).premises
      have := ih (s := (s.sense u).2) (hp.2.2.trans h) hw hv
      rw [State.sense_eq] at this
      exact this

theorem State.senses_append (s : State) (as bs : List Nat) :
    s.senses (as ++ bs) =
      ((s.senses as).1 ++ ((s.senses as).2.senses bs).1, ((s.senses as).2.senses bs).2) := by
  induction as generalizing s with
  | nil => rfl
  | cons a as ih => simp [State.senses, ih]

/-- Without `Loopback` captures depend on the environment's answers only (20_memory.md R66). -/
theorem State.senses_env {s t : State} (h : t.env = s.env) (hl : s.env.loopback = false) (ws : List Nat) :
    (t.senses ws).1 = (s.senses ws).1 ∧ (t.senses ws).2.env = (s.senses ws).2.env := by
  induction ws generalizing s t with
  | nil => exact ⟨rfl, h⟩
  | cons w ws ih =>
    have h1 : (t.sense w).1 = (s.sense w).1 ∧ (t.sense w).2.env = (s.sense w).2.env := by
      unfold State.sense State.senseDraw State.countDraw
      rw [h, hl, if_neg (by simp), if_neg (by simp)]
      split <;> exact ⟨rfl, rfl⟩
    have hp := (State.sense_evolves s w).premises
    obtain ⟨k1, k2⟩ := ih h1.2 (hp.2.2.trans hl)
    exact ⟨by simp only [State.senses]; rw [h1.1, k1], k2⟩

/-! ## Rewriting the control bytes of a device -/

/-- Clean writes change the outputs of their groups only. -/
theorem outsAfter_other (l : List (Nat × Byte)) (f : Nat → LByte) {a : Nat} (h : a ∉ l.map Prod.fst) :
    outsAfter l f a = f a := by
  induction l generalizing f with
  | nil => rfl
  | cons p l ih =>
    simp only [List.map_cons, List.mem_cons, not_or] at h
    simp only [outsAfter]
    rw [ih _ h.2, if_neg h.1]

theorem newBytes_length (st : Bool) {ss : List SubSwitch} {cs : List Nat} {vs : List Byte} (h1 : cs.length = ss.length)
    (h2 : vs.length = ss.length) : (newBytes st ss cs vs).length = ss.length := by
  induction ss generalizing cs vs with
  | nil => cases cs <;> cases vs <;> simp_all [newBytes]
  | cons s ss ih =>
    cases cs with
    | nil => simp at h1
    | cons o os =>
      cases vs with
      | nil => simp at h2
      | cons v vs => simp [newBytes, ih (cs := os) (vs := vs) (by simpa using h1) (by simpa using h2)]

/-- Reading, changing and writing back sub-switches one after the other, whatever bytes are read (42_switch_state.md R190,
R191): the first read may start dirty, and leaves the bus clean. -/
theorem writeSubs_leaves (st : Bool) {s : State} (h : s.Sound) {subs : List SubSwitch} {cs : List Nat}
    (hl : cs.length = subs.length) (hs : s.Clean ∨ subs ≠ []) (hg : ∀ u ∈ subs, s.cfg.validGroup u.ctlGrp = true) :
    let ctl := subs.map fun u => s.cfg.writeAddr u.ctlGrp
    ∃ vs t, vs.length = subs.length ∧ writeSubs st (subs.zip cs) s = .ok () t ∧ t.Works ∧
      let news := newBytes st subs cs vs
      let outs := fun k => outsAfter ((ctl.zip news).take k) fun a => (s.startLatch a).out
      (∀ a, (t.latches.get a).out = outs subs.length a) ∧ (∀ a, a ∉ ctl → t.latches.get a = s.startLatch a) ∧
      (s.env.loopback = true → ∀ (j w : Nat) (v : Byte), ctl[j]? = some w → vs[j]? = some v → s.Clean ∨ 0 < j →
        Shows v (outs j w)) ∧
      (s.env.loopback = false → s.Clean → vs = (s.senses ctl).1 ∧ t.env = (s.senses ctl).2.env) ∧
      (¬ s.Clean → ∀ x rest, s.env.readByte = x :: rest → vs.head? = some x) ∧
      (s.Clean → t.trace = s.trace ++ rewriteEvents ctl vs news) ∧ t.haz = s.hazAfterRead ∧ t.log = s.log := by
  induction subs generalizing s cs with
  | nil =>
    have hc : s.Clean := by simpa using hs
    refine ⟨[], s, rfl, rfl, ⟨h.1, h.2.1, h.2.2, hc⟩, fun a => ?_, fun a _ => ?_, by simp, fun _ _ => ⟨rfl, rfl⟩,
      fun hn => absurd hc hn, fun _ => by simp [rewriteEvents], (State.hazAfterRead_clean hc).symm, rfl⟩
    · simp [outsAfter, State.startLatch_clean hc]
    · rw [State.startLatch_clean hc]
  | cons sub subs ih =>
    cases cs with
    | nil => simp at hl
    | cons c cs =>
      have hsub := hg sub (by simp)
      obtain ⟨v, u, h1, hr, hu, hlog, htr⟩ := latchRead_leaves h hsub
      obtain ⟨rl, rz, rc, rp, ro, rn, rcl, rd⟩ := hr
      obtain ⟨w, hw⟩ : ∃ w, w = s.cfg.writeAddr sub.ctlGrp := ⟨_, rfl⟩
      let new := newControl v c sub.pol st
      obtain ⟨x, h2, hx, xg, xe⟩ := latchWrite_works hu (g := sub.ctlGrp) (by rw [rc]; exact hsub) new
      rw [rc, ← hw] at xg xe
      have hcx : x.cfg = s.cfg := by have e := congrArg State.cfg xe; exact e
      have hex : x.env = u.env := by have e := congrArg State.env xe; exact e
      have hzx : x.haz = s.hazAfterRead := by have e := congrArg State.haz xe; exact e.trans rz
      have hlx : x.log = s.log := by have e := congrArg State.log xe; exact e.trans hlog
      have htx : x.trace = u.trace ++ writeEvents w new := by have e := congrArg State.trace xe; exact e
      obtain ⟨vs, t, i1, i2, i3, io, ia, is, il, -, it, iz, ig⟩ :=
        ih hx.sound (cs := cs) (by simpa using hl) (.inl hx.clean) (fun p hp => by rw [hcx]; exact hg p (by simp [hp]))
      rw [hcx] at io ia is il it
      have hxo : (fun a => (x.startLatch a).out) = fun a => if a = w then .ofByte new else (s.startLatch a).out := by
        funext a
        rw [State.startLatch_clean hx.clean, xg]
        split
        · rfl
        · exact ro a
      rw [hxo] at io is
      have hpx : x.env.loopback = s.env.loopback := by rw [hex]; exact rp.2.2
      refine ⟨v :: vs, t, by simp [i1], (bind_ok h1).trans ((bind_ok h2).trans i2), i3, fun a => ?_, fun a ha => ?_,
        fun hlb j w' v' hj hv hc => ?_, fun hlb hc => ?_, fun hn y rest hy => ?_, fun hc => ?_, ?_, ?_⟩
      · rw [io a]
        simp only [List.map_cons, newBytes, List.zip_cons_cons, List.length_cons, List.take_succ_cons, outsAfter]
        rw [← hw]
        rfl
      · simp only [List.map_cons, List.mem_cons, not_or] at ha
        rw [ia a ha.2, State.startLatch_clean hx.clean, xg, if_neg (by rw [hw]; exact ha.1),
          rn a ha.1]
      · cases j with
        | zero =>
          have hcl : s.Clean := by simpa using hc
          simp only [List.map_cons, List.getElem?_cons_zero, Option.some.injEq] at hj hv
          simp only [List.take_zero, outsAfter]
          rw [State.startLatch_clean hcl, ← hv, ← hj, (rcl hcl).1]
          exact State.sense_shows hlb _
        | succ j =>
          simp only [List.map_cons, List.getElem?_cons_succ] at hj hv
          have := is (hpx.trans hlb) j w' v' hj hv (.inl hx.clean)
          simp only [List.map_cons, newBytes, List.zip_cons_cons, List.take_succ_cons, outsAfter]
          rw [← hw]
          exact this
      · obtain ⟨k1, k2⟩ := il (hpx.trans hlb) hx.clean
        obtain ⟨e1, -, e2⟩ := rcl hc
        have hse := (State.sense_evolves s (s.cfg.writeAddr sub.ctlGrp)).premises
        obtain ⟨m1, m2⟩ := State.senses_env (s := (s.sense (s.cfg.writeAddr sub.ctlGrp)).2) (t := x) (hex.trans e2)
          (hse.2.2.trans hlb) (subs.map fun u => s.cfg.writeAddr u.ctlGrp)
        simp only [List.map_cons, State.senses]
        exact ⟨by rw [k1, m1, e1], k2.trans m2⟩
      · simp [rd hn y rest hy]
      · rw [it hx.clean, htx, htr hc, ← hw]
        simp only [List.map_cons, newBytes, rewriteEvents, List.append_assoc]
        rw [← hw]
        rfl
      · rw [iz, State.hazAfterRead_clean hx.clean, hzx]
      · rw [ig, hlx]

end Sys2Proof.Machine
end

