-- ==== Sys2Proof/Machine/Assembler.lean ====
section
/-! DEFINITION. The assembler syntax of 30_encoding.md R102 and R103: one command a line, operands separated by commas,
numbers in decimal or hexadecimal, `;` to the end of the line a comment. No step uses it. -/

namespace Sys2Proof

/-- The line without its comment. -/
def Asm.dropComment (l : List Char) : List Char := l.takeWhile (· != ';')

/-- Without blanks at either end. -/
def Asm.trim (l : List Char) : List Char :=
  ((l.dropWhile (· == ' ')).reverse.dropWhile (· == ' ')).reverse

/-- Cut at every occurrence of a character. -/
def Asm.cut (sep : Char) : List Char → List (List Char)
  | [] => [[]]
  | c :: cs =>
    match Asm.cut sep cs with
    | [] => [[c]]
    | w :: ws => if c = sep then [] :: w :: ws else (c :: w) :: ws

/-- The value of a digit, `none` for another character. -/
def Asm.digit (c : Char) : Option Nat :=
  let n := c.toNat
  if 48 ≤ n ∧ n ≤ 57 then some (n - 48)
  else if 97 ≤ n ∧ n ≤ 102 then some (n - 87)
  else if 65 ≤ n ∧ n ≤ 70 then some (n - 55)
  else none

/-- Digits of a base, most significant first, added to `acc`. -/
def Asm.digits (base : Nat) : List Char → Nat → Option Nat
  | [], acc => some acc
  | c :: cs, acc =>
    match Asm.digit c with
    | some d => if d < base then Asm.digits base cs (acc * base + d) else none
    | none => none

/-- A number in decimal, or in hexadecimal after `0x` (R102). -/
def Asm.number : List Char → Option Nat
  | [] => none
  | '0' :: 'x' :: [] => none
  | '0' :: 'x' :: ds => Asm.digits 16 ds 0
  | ds => Asm.digits 10 ds 0

/-- An unsigned decimal fraction. -/
def Asm.unsignedVolts (l : List Char) : Option Rat :=
  match Asm.cut '.' l with
  | [i] => (Asm.number i).map fun n => mkRat n 1
  | [i, f] => if i.isEmpty then none else (Asm.digits 10 (i ++ f) 0).map fun n => mkRat n (10 ^ f.length)
  | _ => none

/-- A Volts literal. The spec does not say how one is written: a decimal number with an optional sign and fraction
(DESIGN CHOICE, log 18). -/
def Asm.volts : List Char → Option Volts
  | '-' :: l => (Asm.unsignedVolts l).map fun r => ⟨-r⟩
  | l => (Asm.unsignedVolts l).map fun r => ⟨r⟩

/-- How a logical state is written (R102, 42_switch_state.md R170). -/
def LogicalState.spelling : LogicalState → List Char
  | .bypass => "BYPASS".toList
  | .engage => "ENGAGE".toList
  | .through => "THROUGH".toList
  | .crossed => "CROSSED".toList
  | .linear => "LINEAR".toList
  | .circular => "CIRCULAR".toList
  | .iq => "IQ".toList
  | .ul => "UL".toList

/-- A bit written `0` or `1`. -/
def Asm.bit (l : List Char) : Option Bool :=
  match Asm.number l with
  | some 0 => some false
  | some 1 => some true
  | _ => none

/-- The state operand of `SW_SET`: `0`, `1` or a name of the device's kind (R102). -/
def Asm.state (c : Config) (dev : Nat) (l : List Char) : Option Bool :=
  match c.device dev with
  | none => Asm.bit l
  | some d =>
    if l = (d.kind.meaning false).spelling then some false
    else if l = (d.kind.meaning true).spelling then some true
    else Asm.bit l

/-- The category operand of `MON_CONVERT`: a name or a number (R98, R102). -/
def Asm.category (l : List Char) : Option Nat :=
  if l = "CURRENT".toList then some 0
  else if l = "VLOW".toList then some 1
  else if l = "VHIGH".toList then some 2
  else if l = "TEMP".toList then some 3
  else Asm.number l

/-- Whether every offset of a device is `FIXED`, so that band and chain may be omitted (R102). -/
def Device.allFixed (d : Device) : Bool :=
  d.subs.all fun s =>
    match s.ctlOff, s.rbOff with
    | .fixed _, .fixed _ => true
    | _, _ => false

/-- Whether band and chain may be omitted for this device. -/
def Asm.mayOmit (c : Config) (dev : Nat) : Bool := ((c.device dev).map Device.allFixed).getD false

/-- The module and group operands of a latch command, and the operands after them. -/
def Asm.latchOperands (ops : List (List Char)) : Option (Nat × Nat × List (List Char)) :=
  match ops with
  | dm :: lg :: rest => do
    let dm ← Asm.number dm
    let lg ← Asm.number lg
    some (dm, lg, rest)
  | _ => none

/-- The commands of format L. -/
def Asm.formatL (mn : List Char) (ops : List (List Char)) : Option Instr :=
  match Asm.latchOperands ops with
  | none => none
  | some (dm, lg, rest) =>
    if mn = "LG_ADDR".toList then
      match rest with
      | [rd] => (Asm.bit rd).map fun b => .lgAddr dm lg b
      | _ => none
    else if mn = "LG_WADDR".toList then (if rest.isEmpty then some (.lgWaddr dm lg) else none)
    else if mn = "LG_RADDR".toList then (if rest.isEmpty then some (.lgRaddr dm lg) else none)
    else if mn = "LG_READ".toList then (if rest.isEmpty then some (.lgRead dm lg) else none)
    else if mn = "LG_WRITE".toList then
      match rest with
      | [b] => (Asm.number b).bind fun n => if n < 256 then some (.lgWrite dm lg (BitVec.ofNat 8 n)) else none
      | _ => none
    else none

/-- The commands of format S. -/
def Asm.formatS (c : Config) (mn : List Char) (ops : List (List Char)) : Option Instr :=
  if mn = "SW_GET".toList then
    match ops with
    | [d] => do
      let dev ← Asm.number d
      if Asm.mayOmit c dev then some (.swGet dev 0 0) else none
    | [d, b, ch] => do
      let dev ← Asm.number d
      let band ← Asm.number b
      let chain ← Asm.number ch
      some (.swGet dev band chain)
    | _ => none
  else if mn = "SW_SET".toList then
    match ops with
    | [d, st] => do
      let dev ← Asm.number d
      let v ← Asm.state c dev st
      if Asm.mayOmit c dev then some (.swSet dev 0 0 v) else none
    | [d, b, ch, st] => do
      let dev ← Asm.number d
      let band ← Asm.number b
      let chain ← Asm.number ch
      let v ← Asm.state c dev st
      some (.swSet dev band chain v)
    | _ => none
  else none

/-- The commands of formats M and N. -/
def Asm.formatM (mn : List Char) (ops : List (List Char)) : Option Instr :=
  if mn = "MON_SELECT".toList then
    match ops with
    | [i] => (Asm.number i).map .monSelect
    | _ => none
  else if mn = "MON_READ".toList then
    match ops with
    | [i] => (Asm.number i).map .monRead
    | _ => none
  else if mn = "MON_CONVERT".toList then
    match ops with
    | [k, r] => do
      let cat ← Asm.category k
      let raw ← Asm.volts r
      some (.monConvert cat raw)
    | _ => none
  else if mn = "MON_SWEEP".toList then (if ops.isEmpty then some .monSweep else none)
  else none

/-- The operands of a line, cut at commas; none where nothing is written. -/
def Asm.operands (l : List Char) : List (List Char) :=
  if (Asm.trim l).isEmpty then [] else (Asm.cut ',' l).map Asm.trim

/-- One line of assembly as an instruction whose fields fit its word (R102, R103); `none` for anything else. -/
def assemble (c : Config) (line : List Char) : Option Instr :=
  let l := Asm.trim (Asm.dropComment line)
  let mn := l.takeWhile (· != ' ')
  let ops := Asm.operands (l.dropWhile (· != ' '))
  let i := (Asm.formatL mn ops).or ((Asm.formatS c mn ops).or (Asm.formatM mn ops))
  i.filter Instr.wf

end Sys2Proof
end

