-- ==== Sys2Proof/Tests/Slice0.lean ====
section
/-! SUPPORT. The model's own tests: an ill-formed term for every well-formedness check, decoding of words written out from
30_encoding.md, vectors of 95_test_vectors.md, and for every statement with hypotheses a state that meets them. -/

namespace Sys2Proof.Tests

open Sys2Proof.Machine

/-! ## Builders -/

/-- A state under premises P of 95_test_vectors.md, the first move the next choice. -/
def premises (s : State) : State :=
  { s with env := { s.env with noIOFail := true, healthyBus := true, loopback := true, sched := [0] } }

/-- CFG-SW on a board of family F8. -/
def cfgF8 (mb2 : Nat) : Config := { Config.cfgSw with family := .f8, ndm := 2, base := 8, mb2 := some mb2 }

/-- CFG-SW with two requesters and separate locked steps for `SW_SET`. -/
def cfgSteps : Config := { Config.cfgSw with rmwAtomic := false, nreq := 2 }

/-- The launch state under premises P. -/
def idle (c : Config) : State := premises (.launch c)

/-- The same with the bus granted to requester 0. -/
def owned (c : Config) : State := { idle c with busOwner := some 0 }

/-- With known outputs of one group. -/
def withOut (s : State) (a : Nat) (b : Byte) : State := s.setOut a (.ofByte b)

/-- With a command pending for requester 0. -/
def pending (s : State) (w : Word) : State := s.setReq 0 { s.req 0 with pending := some ⟨w, none⟩ }

/-- With scripted outcomes of the adapter's operations. -/
def withIo (s : State) (answers : List Bool) : State := { s with env := { s.env with noIOFail := false, io := answers } }

/-- With scripted address readbacks. -/
def withPort (s : State) (answers : List Byte) : State :=
  { s with env := { s.env with healthyBus := false, port := answers } }

/-- With scripted status bytes instead of `Loopback`. -/
def withSense (s : State) (answers : List Byte) : State :=
  { s with env := { s.env with loopback := false, sense := answers } }

/-- With other lines. -/
def withLines (s : State) (l : Lines) : State := { s with lines := l }

/-- The next state, or the reset state where there is none. -/
def after (o : Host.Outcome State Fault Refusal) : State :=
  match o with
  | .next t => t
  | .fault _ => State.reset
  | .refused _ => State.reset

/-- Whether there is a next state. -/
def goes (o : Host.Outcome State Fault Refusal) : Bool :=
  match o with
  | .next _ => true
  | .fault _ => false
  | .refused _ => false

/-- One step that runs the word from the state. -/
def run (s : State) (w : Nat) : State := after (step (s.withFetchWord 32 w))

/-- The response word requester 0 gets. -/
def answer (s : State) : Option Word := (s.req 0).rsp.map Response.word

/-- Whether a part of a command succeeds. -/
def succeeds {α : Type} (m : Run α) (s : State) : Bool :=
  match m s with
  | .ok _ _ => true
  | .error _ _ => false

/-- How many drives the trace holds. -/
def drives (s : State) : Nat :=
  s.trace.countP fun e =>
    match e with
    | .drive _ _ _ => true
    | _ => false

/-! ## Well-formedness -/

theorem test_wf_examples :
    Config.cfgSw.wf = true ∧ Config.cfgMon.wf = true ∧ (cfgF8 16).wf = true ∧ (cfgF8 160).wf = true ∧
      cfgSteps.wf = true := by decide

theorem test_wf_requesters : { Config.cfgSw with nreq := 0 }.requestersOk = false := by decide

theorem test_wf_family :
    { Config.cfgSw with ndm := 2 }.familyOk = false ∧ { Config.cfgSw with base := 8 }.familyOk = false ∧
      (cfgF8 24).familyOk = false ∧ { cfgF8 16 with mb2 := none }.familyOk = false := by decide

/-- Two modules at one base have equal addresses, and 254 puts read addresses above 255. -/
theorem test_wf_addresses :
    { cfgF8 16 with mb2 := some 8 }.addressesOk = false ∧ { cfgF8 16 with mb2 := some 12 }.addressesOk = false ∧
      { Config.cfgSw with base := 254 }.addressesOk = false := by decide

theorem test_wf_groups :
    { Config.cfgSw with devtab := [⟨.switch, [Config.simpleSub ⟨2, 1⟩ (.fixed 0) .high]⟩] }.groupsOk = false ∧
      { Config.cfgSw with devtab := [⟨.switch, [⟨⟨1, 1⟩, .fixed 0, ⟨1, 5⟩, .fixed 0, .high⟩]⟩] }.groupsOk = false ∧
      { Config.cfgSw with montab := [{ Config.swMon 1 with selA := ⟨⟨0, 1⟩, 0⟩ }] }.groupsOk = false := by decide

theorem test_wf_offsets :
    { Config.cfgSw with devtab := [⟨.switch, [Config.simpleSub ⟨1, 1⟩ (.fixed 8) .high]⟩] }.offsetsOk = false ∧
      { Config.cfgSw with devtab := [⟨.switch, [Config.simpleSub ⟨1, 1⟩ (.banded 1) .high]⟩] }.offsetsOk = false := by
  decide

theorem test_wf_devices :
    { Config.cfgSw with devtab := [⟨.switch, []⟩] }.devicesOk = false ∧
      { Config.cfgSw with devtab := [⟨.xover, [Config.simpleSub ⟨1, 1⟩ (.fixed 0) .high]⟩] }.devicesOk = false := by decide

theorem test_wf_sizes :
    { Config.cfgSw with devtab := List.replicate 257 ⟨.switch, []⟩ }.sizesOk = false ∧
      { Config.cfgSw with montab := [] }.sizesOk = false := by decide +kernel

theorem test_wf_outputs :
    { Config.cfgSw with montab := [{ Config.swMon 1 with out1 := ⟨.a, 6, [], .current⟩ }] }.outputsOk = false ∧
      { Config.cfgSw with montab := [Config.swMon 1, Config.swMon 1] }.outputsOk = false := by decide

theorem test_wf_settle : { Config.cfgSw with tSettle := 0 }.settleOk = false := by decide

theorem test_wf_selects :
    { Config.cfgSw with devtab := [⟨.switch, [Config.simpleSub ⟨1, 3⟩ (.fixed 0) .high]⟩] }.selectsOk = false := by decide

theorem test_wf_instr :
    (∀ i ∈ [Instr.lgAddr 16 1 false, .lgAddr 1 16 true, .lgWrite 16 1 0, .lgWrite 1 16 0, .lgRead 16 1, .lgRead 1 16,
      .swGet 256 0 0, .swGet 0 256 0, .swGet 0 0 2, .swSet 256 0 0 true, .swSet 0 256 0 true, .swSet 0 0 2 true,
      .monSelect 256, .monRead 256, .monConvert 16 ⟨0⟩], i.wf = false) ∧
    (∀ i ∈ [Instr.lgAddr 15 15 true, .lgWrite 15 15 0xFF, .lgRead 15 0, .swGet 255 255 1, .swSet 255 255 1 true,
      .monSelect 255, .monRead 0, .monConvert 15 ⟨0⟩, .monSweep], i.wf = true) := by decide

/-- An ill-formed configuration has no run. -/
theorem test_illFormed_refused :
    step (idle { Config.cfgSw with tSettle := 0 }) = .refused .illFormedConfig := by rfl

/-! ## Decoding: the words of V-E1, bit by bit from R92 to R95 -/

theorem test_decode_plain :
    ∀ p ∈ [
      (0b0001_0001_0001_0_0000000000000000000#32, Instr.lgAddr 1 1 false),
      (0b0001_0001_0001_1_0000000000000000000#32, .lgAddr 1 1 true),
      (0b0010_0001_0001_000000000000_10100101#32, .lgWrite 1 1 0xA5#8),
      (0b0010_0001_0100_000000000000_01011010#32, .lgWrite 1 4 0x5A#8),
      (0b0011_0001_0001_00000000000000000000#32, .lgRead 1 1),
      (0b0011_0010_0100_00000000000000000000#32, .lgRead 2 4),
      (0b0100_00000000_0_000_00000000_00000000#32, .swGet 0 0 0),
      (0b0100_00000010_1_000_00000001_00000000#32, .swGet 2 1 1),
      (0b0101_00000001_0_00_1_00000000_00000000#32, .swSet 1 0 0 true),
      (0b0101_00000010_1_00_1_00000011_00000000#32, .swSet 2 3 1 true),
      (0b0110_00000000000000000000_00000001#32, .monSelect 1),
      (0b0111_00000000000000000000_00001000#32, .monRead 8),
      (0b1001_0000000000000000000000000000#32, .monSweep)],
      decode ⟨p.1, none⟩ = .instr p.2 ∧ encode p.2 = ⟨p.1, none⟩ := by decide

theorem test_decode_convert :
    decode ⟨0b1000_0000000000000000_0010_00000000#32, some ⟨7⟩⟩ = .instr (.monConvert 2 ⟨7⟩) := by decide

/-- V-E2. -/
theorem test_decode_illegal :
    [0x00000000#32, 0xA0000000#32, 0xF0000000#32].map (fun w => decode ⟨w, none⟩) =
      List.replicate 3 (.illegal .reservedOpcode) ∧
    [0x11100001#32, 0x21100100#32, 0x21180000#32, 0x31100005#32, 0x40010000#32, 0x50040000#32, 0x50110001#32,
      0x60000100#32, 0x90000001#32].map (fun w => decode ⟨w, none⟩) = List.replicate 9 (.illegal .reservedBits) ∧
    decode ⟨0x80000201#32, some ⟨1⟩⟩ = .illegal .reservedBits ∧
    decode ⟨0x80000200#32, none⟩ = .illegal .rawAbsent ∧
    decode ⟨0x31100000#32, some ⟨1⟩⟩ = .illegal .rawPresent := ⟨rfl, rfl, rfl, rfl, rfl⟩

/-- No two rows share a word: on a bit fixed by both they differ. -/
theorem test_rows_disjoint :
    Row.all.Pairwise fun r r' => r.pattern &&& r'.mask ≠ r'.pattern &&& r.mask := by decide

/-- Every row's own match word, as the host numbers its bits, decodes and runs as the first instruction. -/
theorem test_table_words_run :
    ∀ w ∈ [0x10000000, 0x20000000, 0x30000000, 0x40000000, 0x50000000, 0x60000000, 0x70000000, 0x80000000, 0x90000000],
      (decodeTableWord 32 w).isSome = true ∧ goes (step (State.reset.withFetchWord 32 w)) = true := by decide

/-- R104, and `SW_GET` with band and chain omitted. -/
theorem test_assemble :
    ∀ p ∈ [
      ("LG_ADDR 1, 1, 0", Instr.lgAddr 1 1 false), ("LG_WADDR 1, 4", .lgAddr 1 4 false), ("LG_RADDR 1, 4", .lgAddr 1 4 true),
      ("LG_WRITE 1, 1, 0xA5 ; a comment", .lgWrite 1 1 0xA5#8), ("LG_READ 2, 4", .lgRead 2 4), ("SW_GET 1", .swGet 1 0 0),
      ("SW_SET 2, 3, 1, 1", .swSet 2 3 1 true), ("SW_SET 1, 0, 0, CROSSED", .swSet 1 0 0 true),
      ("MON_SELECT 1", .monSelect 1), ("MON_READ 8", .monRead 8), ("MON_SWEEP", .monSweep)],
      assemble Config.cfgSw p.1.toList = some p.2 := by decide

/-! ## Vectors of 95_test_vectors.md -/

/-- V-E3: `ILLEGAL` comes before `BAD_INDEX`. -/
theorem test_priority :
    answer (run (idle Config.cfgSw) 0x10100001) = some 0x00000006#32 ∧
      answer (run (idle Config.cfgSw) 0x10100000) = some 0x00000004#32 := by decide

/-- V-A2 and, for module 2 of F8, V-A5. -/
theorem test_lgAddr :
    answer (run (idle Config.cfgSw) 0x11180000) = some 0x00005400#32 ∧
      answer (run (idle (cfgF8 160)) 0x12480000) = some 0x0000A700#32 ∧
      answer (run (idle (cfgF8 16)) 0x12480000) = some 0x00001700#32 := by decide

/-- V-W1. -/
theorem test_lgWrite :
    let t := run (idle Config.cfgSw) 0x211000A5
    answer t = some 0x00000000#32 ∧ t.latches = [(80, ⟨.ofByte 0xA5, .ofByte 0xA5⟩)] ∧
      t.lines = ⟨.ofByte 0x50, .hi, .hi, .hi, .hi⟩ ∧ drives t = 34 ∧ t.trace.count .settle = 11 := by decide

/-- V-W2 and V-W3. -/
theorem test_lgWrite_failures :
    answer (run (withPort (idle Config.cfgSw) [0x54]) 0x211000A5) = some 0x54500002#32 ∧
    let t := run (withIo (withOut (idle Config.cfgSw) 80 0) (List.replicate 16 true ++ [false])) 0x211000A5
    answer t = some 0x00000001#32 ∧ t.latches = [] ∧ t.lines = ⟨.ofByte 0x50, .hi, .x, .hi, .lo⟩ ∧
      t.log = [.io (.line .din)] ∧ t.trace.count .settle = 4 := by decide +kernel

/-- V-R1. -/
theorem test_lgRead :
    let t := run (withOut (idle Config.cfgSw) 80 0xA5) 0x31100000
    answer t = some 0x0000A500#32 ∧ t.latches = [(80, ⟨.ofByte 0xA5, ⟨.hi, .x, .x, .x, .x, .x, .x, .x⟩⟩)] ∧
      t.lines = ⟨.ofByte 0x54, .hi, .lo, .hi, .hi⟩ ∧ drives t = 26 ∧ t.trace.count .settle = 11 := by decide

/-- V-R2, V-R3 and V-R4. -/
theorem test_lgRead_hazards :
    answer (run (withPort (withOut (idle Config.cfgSw) 80 0xA5) [0x50]) 0x31100000) = some 0x0000A500#32 ∧
    answer (run (withPort (idle Config.cfgSw) [0x55]) 0x31100000) = some 0x55540002#32 ∧
    let dirty := withLines (idle Config.cfgSw) ⟨.ofByte 0x50, .hi, .x, .hi, .lo⟩
    answer (run { dirty with env := { dirty.env with readByte := [0xC3] } } 0x31100000) = some 0x0000C330#32 := by decide

/-- V-S6. -/
theorem test_swGet_inconsistent :
    let t := run (withOut (idle Config.cfgSw) 81 0x31) 0x40100000
    answer t = some 0x00000103#32 ∧ t.log = [.inconsistent 1 true false] := by decide +kernel

/-- V-S8: bands, and a band that names no bit. -/
theorem test_swGet_banded :
    ([0x40200000, 0x40200100, 0x40200200, 0x40280000, 0x40280100, 0x40280200, 0x40200300].map fun w =>
      answer (run (withOut (idle Config.cfgSw) 80 0xAD) w)) =
    [some 0x00000100#32, some 0x00000000#32, some 0x00000100#32, some 0x00000100#32, some 0x00000000#32,
      some 0x00000100#32, some 0x00000004#32] := by decide

/-- V-S5: the second read sees the first write, and bits 4 and 5 are kept. -/
theorem test_swSet :
    let t := run (withOut (idle Config.cfgSw) 81 0x30) 0x50110000
    answer t = some 0x00000100#32 ∧ (t.latches.get 81).out = .ofByte 0x33 ∧ drives t = 172 := by decide +kernel

/-- V-S7: an active-low device. -/
theorem test_swSet_activeLow :
    let t := run (withOut (idle Config.cfgSw) 81 0x33) 0x50300000
    answer t = some 0x00000000#32 ∧ (t.latches.get 81).out = .ofByte 0x37 := by decide +kernel

/-- V-M1 and V-M3. -/
theorem test_monSelect :
    let t := run (idle Config.cfgMon) 0x60000001
    (t.latches.map fun e => (e.1, e.2.out)) = [(80, .ofByte 0x01), (81, .ofByte 0x10)] ∧ drives t = 68 ∧
      answer (run (idle Config.cfgMon) 0x60000009) = some 0x00000004#32 := by decide +kernel

/-- V-M2. -/
theorem test_monRead :
    let s := idle Config.cfgMon
    ((run { s with env := { s.env with analog := [⟨7⟩, ⟨8⟩] } } 0x70000001).req 0).rsp =
      some ⟨.ok, 0, 0, 0, 0, [.reading 0 ⟨7⟩, .reading 1 ⟨8⟩]⟩ := by decide +kernel

/-- V-C2, for every `vmul`. -/
theorem test_monConvert :
    ((after (exec (.monConvert 2 ⟨1⟩) (owned Config.cfgSw))).req 0).rsp =
      some ⟨.ok, 0, 0, 0, 0, [.converted (Config.vmul ⟨1⟩ Config.kVhigh)]⟩ := by rfl

/-- V-C4. -/
theorem test_monConvert_badLabel :
    let t := run (idle Config.cfgSw) 0x80000F00
    answer t = some 0x00000005#32 ∧ t.log = [.label 15] := by decide

/-- The first unit of a sweep selects and reads point 1, and releases the bus without an answer (R231, R236). -/
theorem test_monSweep_point :
    let t := run (idle Config.cfgMon) 0x90000000
    (t.req 0).sweep.map Sweep.next = some 2 ∧ (t.req 0).rsp = none ∧ t.busOwner = none ∧
      (t.latches.map fun e => (e.1, e.2.out)) = [(80, .ofByte 0x01), (81, .ofByte 0x10)] := by decide +kernel

/-- The end of a sweep with a failed point (R232): response word of V-M5. -/
theorem test_monSweep_end :
    let s := pending (idle Config.cfgMon) 0x90000000#32
    let t := after (step (s.setReq 0 { s.req 0 with sweep := some ⟨9, [(['I', '1'], ⟨1⟩)], true⟩ }))
    answer t = some 0x00000007#32 ∧ ((t.req 0).rsp.map Response.vals) = some [.labelled ['I', '1'] ⟨1⟩] ∧
      (t.req 0).sweep = none := by decide

/-! ## States that meet the hypotheses of the statements, clause by clause, in the order of OBLIGATIONS.json -/

/-- The whole board's lines with one group's address on them. -/
def linesAt (a : Nat) (clk load busen : Level) : Lines := ⟨.ofAddr a, clk, .lo, load, busen⟩

/-- With a record of requester 0. -/
def withReq (s : State) (r : Requester) : State := s.setReq 0 r

/-- A requester whose pending command is this word. -/
def asking (w : Word) : Requester := { Requester.idle with pending := some ⟨w, none⟩ }

theorem test_ready :
    (owned Config.cfgSw).Ready 0 ∧ (owned Config.cfgMon).Ready 0 ∧ (owned (cfgF8 160)).Ready 0 ∧ (owned cfgSteps).Ready 0 :=
  ⟨⟨⟨⟨rfl, by decide⟩, by decide, rfl, rfl, rfl⟩, rfl⟩, ⟨⟨⟨rfl, by decide⟩, by decide, rfl, rfl, rfl⟩, rfl⟩,
    ⟨⟨⟨rfl, by decide⟩, by decide, rfl, rfl, rfl⟩, rfl⟩, ⟨⟨⟨rfl, by decide⟩, by decide, rfl, rfl, rfl⟩, rfl⟩⟩

/-- `DecodeEncode`, `EncodeDecode`, `LegalExactly`: fields at their largest value, and a word that is legal. -/
theorem test_meets_encoding :
    (Instr.swSet 255 255 1 true).wf = true ∧ decode ⟨0x5FF9FF00#32, none⟩ = .instr (.swSet 255 255 1 true) ∧
      Row.swSet ∈ Row.all ∧ Row.swSet.holds 0x5FF9FF00#32 = true := by decide

/-- `WellFormedExactly`, `AddressMap`, `AddressFormula`: both families, and the last group of module 2. -/
theorem test_meets_config :
    1 ≤ Config.cfgSw.nreq ∧ Config.cfgSw.wf = true ∧ Config.cfgSw.family = .f80 ∧ (cfgF8 160).wf = true ∧
      (cfgF8 160).family = .f8 ∧ (cfgF8 160).validGroup ⟨2, 4⟩ = true ∧ (cfgF8 16).wf = true ∧
      (cfgF8 16).validGroup ⟨2, 4⟩ = true ∧ Config.cfgSw.validGroup ⟨1, 4⟩ = true := by decide

/-- `DecoderFunctions`: bit 7, a band that names a bit and one that names none. -/
theorem test_meets_decoder :
    7 < 8 ∧ ∃ m, Config.cfgSw.bandmap[0]? = some m ∧ m.lookup 0 1 = some 7 ∧ m.lookup 3 0 = none :=
  ⟨by decide, _, rfl, by decide, by decide⟩

/-- `RunsExactlyWhenWellFormed`. -/
theorem test_meets_runs :
    { Config.cfgSw with tSettle := 0 }.wf = false ∧ (idle Config.cfgSw).cfg.wf = true := by decide

/-- `NothingBetweenCommands`: a step that submits, an idle one with a requester waiting, and nobody waiting. -/
theorem test_meets_between :
    let s := withReq (idle Config.cfgSw) { Requester.idle with toSubmit := [⟨0x90000000#32, none⟩] }
    let w := (withReq (idle Config.cfgSw) (asking 0x90000000#32)).choosing 1
    (∃ t, step s = .next t) ∧ s.chooseMove.1 = some (.submit 0) ∧ s.waiting 0 = false ∧ s.reqs.length = 1 ∧
      (∃ t, step w = .next t) ∧ w.chooseMove.1 = none ∧ w.waiting 0 = true :=
  ⟨⟨_, rfl⟩, rfl, rfl, rfl, ⟨_, rfl⟩, rfl, rfl⟩

/-- `SubmitStep`: a requester that may submit its next command, one with none listed, and one that waits. -/
theorem test_meets_submit :
    let s := withReq (idle cfgSteps) { Requester.idle with toSubmit := [⟨0x90000000#32, none⟩] }
    s.cfg.wf = true ∧ 1 < s.reqs.length ∧ (s.req 0).pending = none ∧ (s.req 0).sweep = none ∧
      (s.req 0).toSubmit = [⟨0x90000000#32, none⟩] ∧ (s.req 1).pending = none ∧ (s.req 1).sweep = none ∧
      (s.req 1).toSubmit = [] ∧ (withReq s (asking 0x90000000#32)).waiting 0 = true := by decide

/-- The scheduler's invariant of a launch state whose requester 0 asks for a command. -/
theorem schedOk_asking (c : Config) (w : Word) : (withReq (idle c) (asking w)).SchedOk := by
  refine ⟨?_, rfl, fun r hr => ?_⟩
  · simp [withReq, idle, premises, State.launch]
  · have : r = asking w ∨ r = .idle := by
      rcases List.mem_or_eq_of_mem_set hr with h | rfl
      · exact .inr (List.eq_of_mem_replicate h)
      · exact .inl rfl
    rcases this with rfl | rfl <;> exact ⟨fun p h => (by cases h), fun p h => by cases h⟩

/-- `AnyWaitingRequesterMayBeGranted`, its first two parts: one of two requesters waits, the other may be granted. -/
theorem test_meets_grant :
    let s := withReq (idle cfgSteps) (asking 0x90000000#32)
    s.cfg.wf = true ∧ s.busOwner = none ∧ 1 < s.reqs.length ∧ 1 ≠ 0 ∧ s.waiting 0 = true ∧ s.SchedOk :=
  ⟨by decide, rfl, by decide, by decide, by decide, schedOk_asking _ _⟩

/-- `AnyWaitingRequesterMayBeGranted`, its third part: a weakly fair run in which a requester waits. -/
theorem test_meets_fair :
    let s := withReq (idle Config.cfgSw) (asking 0x90000000#32)
    s.cfg.wf = true ∧ s.SchedOk ∧ s.WeaklyFair (fun _ => 0) ∧ (s.run (fun _ => 0) 0).waiting 0 = true := by
  refine ⟨by decide, schedOk_asking _ _, fun q n hq => ⟨n, Nat.le_refl n, ?_⟩, rfl⟩
  obtain ⟨_, hb, hl, _⟩ := State.run_steps (s := withReq (idle Config.cfgSw) (asking 0x90000000#32)) (fun _ => 0)
    (by decide) rfl n
  have hw := hq n (Nat.le_refl n)
  unfold State.Grants
  generalize (withReq (idle Config.cfgSw) (asking 0x90000000#32)).run (fun _ => 0) n = t at hb hl hw
  have hl : t.reqs.length = 1 := hl
  have h0 : q = 0 := by
    refine Classical.byContradiction fun h => ?_
    have : t.req q = .idle := by simp [State.req, List.getElem?_eq_none (show t.reqs.length ≤ q by omega)]
    simp [State.waiting, this, Requester.idle] at hw
  subst h0
  have hm : t.moves[0]? = some (.grant 0) := by
    have hg : t.canGrant 0 = true := by simp [State.canGrant, hb, hw]
    simp [State.moves, State.requesters, hl, hg, List.range_succ]
  rw [State.choosing_eq t (Nat.zero_le _), hm]

/-- `StepRunsDecoded`: a new command, one inside a `SW_SET`, and a sweep in progress. -/
theorem test_meets_decoded :
    let s := withReq (idle cfgSteps) (asking 0x50010000#32)
    let r := withReq s { asking 0x50010000#32 with rmw := some (.write 0 0xA5) }
    let p := withReq s { asking 0x90000000#32 with sweep := some ⟨8, [], false⟩ }
    s.cfg.wf = true ∧ s.chooseMove.1 = some (.grant 0) ∧ (s.req 0).sweep = none ∧ (s.req 0).rmw = none ∧
      (s.req 0).pending = some ⟨0x50010000#32, none⟩ ∧ decode ⟨0x50010000#32, none⟩ = .instr (.swSet 0 0 0 true) ∧
      r.chooseMove.1 = some (.grant 0) ∧ (r.req 0).rmw = some (.write 0 0xA5) ∧
      p.chooseMove.1 = some (.grant 0) ∧ (p.req 0).sweep = some ⟨8, [], false⟩ := by decide

/-- `IllegalCommand`: no row at all, and a row whose `raw` operand is absent. -/
theorem test_meets_illegal :
    let s := withReq (idle Config.cfgSw) (asking 0xF0000000#32)
    s.cfg.wf = true ∧ s.chooseMove.1 = some (.grant 0) ∧ (s.req 0).sweep = none ∧ (s.req 0).rmw = none ∧
      (s.req 0).pending = some ⟨0xF0000000#32, none⟩ ∧ (∀ r ∈ Row.all, r.holds 0xF0000000#32 = false) ∧
      Row.monConvert.holds 0x80000200#32 = true ∧ (none : Option Volts).isSome = false := by decide

/-- `ClockShifts`: write-selected, read-selected, not selected. -/
theorem test_meets_clock :
    let w := withLines (owned Config.cfgSw) (linesAt 80 .lo .hi .lo)
    let r := withLines (owned Config.cfgSw) (linesAt 84 .lo .hi .lo)
    w.lines.clk = .lo ∧ w.latches.wf = true ∧ (∃ t, drive .clk true w = .ok () t) ∧
      w.writeSelected = some 80 ∧ w.writeSelected ≠ some 81 ∧ w.readSelected ≠ some 81 ∧
      (∃ t, drive .clk true r = .ok () t) ∧ r.writeSelected = none ∧ r.readSelected = some 80 :=
  ⟨rfl, rfl, ⟨_, rfl⟩, by decide, by decide, by decide, ⟨_, rfl⟩, by decide, by decide⟩

/-- `LoadCaptures`: bus-enable deselected, and not, and an address that is no group's read address. -/
theorem test_meets_load :
    let s := withLines (owned Config.cfgSw) (linesAt 87 .hi .lo .hi)
    let e := withLines (owned Config.cfgSw) (linesAt 87 .hi .lo .lo)
    let n := withLines (owned Config.cfgSw) (linesAt 88 .hi .lo .hi)
    s.cfg.wf = true ∧ s.latches.wf = true ∧ s.lines.load = .lo ∧ 83 ∈ s.cfg.writeAddrs ∧
      s.lines.addr = .ofAddr (83 + 4) ∧ s.lines.busen = .hi ∧ (∃ t, drive .load true s = .ok () t) ∧
      e.lines.busen ≠ .hi ∧ (∃ t, drive .load true e = .ok () t) ∧
      (∀ w ∈ n.cfg.writeAddrs, n.lines.addr ≠ .ofAddr (w + 4)) ∧ (∃ t, drive .load true n = .ok () t) :=
  ⟨by decide, rfl, rfl, by decide, rfl, rfl, ⟨_, rfl⟩, by decide, ⟨_, rfl⟩, by decide, ⟨_, rfl⟩⟩

/-- `DeselectTransfers` and `Selection`: write-selected, read-selected, and deselected. -/
theorem test_meets_deselect :
    let s := withLines (withOut (owned Config.cfgSw) 83 0xFF) (linesAt 83 .hi .hi .lo)
    let r := withLines (owned Config.cfgSw) (linesAt 87 .hi .hi .lo)
    s.cfg.wf = true ∧ s.latches.wf = true ∧ s.lines.busen = .lo ∧ s.writeSelected = some 83 ∧
      (∃ t, drive .busen true s = .ok () t) ∧ r.writeSelected = none ∧ r.readSelected = some 83 ∧
      (∃ t, drive .busen true r = .ok () t) ∧ (owned Config.cfgSw).readSelected = none :=
  ⟨by decide, by decide, rfl, by decide, ⟨_, rfl⟩, by decide, by decide, ⟨_, rfl⟩, by decide⟩

/-- `SenseLaw`: `Loopback` with unknown outputs and a scripted draw, and no `Loopback`. -/
theorem test_meets_sense :
    let s := { owned Config.cfgSw with env := { (owned Config.cfgSw).env with sense := [0xC3] } }
    s.env.loopback = true ∧ (s.latches.get 80).out.known = false ∧ s.env.sense = [0xC3] ∧
      (withSense s [0x0F]).env.loopback = false ∧ (withSense s [0x0F]).env.sense = [0x0F] := by decide

/-- `PinAnswers`: a known serial bit, an unknown one, no group selected, and the port with and without `HealthyBus`. -/
theorem test_meets_pins :
    let r := withLines (owned Config.cfgSw) (linesAt 84 .hi .hi .lo)
    let k := r.setSr 80 (.ofByte 0x80)
    r.ioDraw = (true, r) ∧ k.ioDraw = (true, k) ∧ k.readSelected = some 80 ∧ (k.latches.get 80).sr.b7 = .ofBool true ∧
      r.readSelected = some 80 ∧ (r.latches.get 80).sr.b7 = .x ∧ (owned Config.cfgSw).readSelected = none ∧
      (withPort r [0x55]).ioDraw = (true, withPort r [0x55]) ∧ r.env.healthyBus = true ∧ r.lines.addr = .ofByte 84#8 ∧ (withPort r [0x55]).env.healthyBus = false ∧
      (withPort r [0x55]).env.port = [0x55] ∧ { r.env with sout := [true] }.sout = [true] := by decide

/-- `AddressSelect`: success without and with a script, and a failure of the first and of the last of the eight drives. -/
theorem test_meets_select :
    (owned Config.cfgSw).env.noIOFail = true ∧ (withIo (owned Config.cfgSw) [false]).env.noIOFail = false ∧
      (withIo (owned Config.cfgSw) (List.replicate 8 true)).env.io = List.replicate 8 true ++ [] ∧
      (withIo (owned Config.cfgSw) [false]).env.io = List.replicate (0 : Fin 8).val true ++ false :: [] ∧
      (withIo (owned Config.cfgSw) [true, true, true, true, true, true, true, false]).env.io =
        List.replicate (7 : Fin 8).val true ++ false :: [] := by decide

/-- `LgAddrResult`, `LgWriteClean`, `LgReadClean`, `RoundTrip`, `LatchBadIndex`: the first and last groups, and the
indices just outside. -/
theorem test_meets_latch :
    let s := owned (cfgF8 160)
    s.cfg.validGroup ⟨1, 1⟩ = true ∧ s.cfg.validGroup ⟨2, 4⟩ = true ∧ s.env.loopback = true ∧ 0 < s.reqs.length ∧
      goes (exec (.lgWrite 2 4 0xFF) s) = true ∧
      (∀ g ∈ [(0, 1), (3, 1), (1, 0), (1, 5)], ¬ (1 ≤ g.1 ∧ g.1 ≤ s.cfg.ndm ∧ 1 ≤ g.2 ∧ g.2 ≤ 4)) := by decide

/-- `LgWriteDirty`, `LgReadDirty`: not clean by the load-strobe, and by bus-enable, with a scripted draw. -/
theorem test_meets_dirty :
    let l := withLines (owned Config.cfgSw) (linesAt 80 .hi .x .hi)
    let b := withLines (owned Config.cfgSw) (linesAt 80 .hi .hi .lo)
    (l.Running 0 ∧ ¬ l.Clean ∧ l.lines.load ≠ .hi ∧ l.lines.busen = .hi) ∧
      (b.Running 0 ∧ ¬ b.Clean ∧ b.lines.load = .hi ∧ b.lines.busen ≠ .hi) ∧ l.cfg.validGroup ⟨1, 4⟩ = true ∧
      { l.env with readByte := [0xC3] }.readByte = [0xC3] := by
  refine ⟨⟨⟨⟨rfl, by decide⟩, by decide, rfl, rfl, rfl⟩, ?_, by decide, rfl⟩,
    ⟨⟨⟨rfl, by decide⟩, by decide, rfl, rfl, rfl⟩, ?_, rfl, by decide⟩, by decide, rfl⟩
  · exact fun h => absurd (show Lines.clean _ = true from h) (by decide)
  · exact fun h => absurd (show Lines.clean _ = true from h) (by decide)

/-- `WriteVerification`, `ReadVerification`: the port shows the write address, the read address, and another byte; a start
that is not clean. -/
theorem test_meets_verification :
    let s := withPort (owned Config.cfgSw) [0x50]
    s.OwnedBy 0 ∧ s.cfg.wf = true ∧ s.latches.wf = true ∧ s.Clean ∧ s.env.noIOFail = true ∧ s.env.healthyBus = false ∧
      s.env.port = [0x50#8] ∧ s.cfg.validGroup ⟨1, 1⟩ = true ∧ (0x50#8).toNat = s.cfg.writeAddr ⟨1, 1⟩ ∧
      (0x54#8).toNat = s.cfg.writeAddr ⟨1, 1⟩ + 4 ∧ (0x55#8).toNat ≠ s.cfg.writeAddr ⟨1, 1⟩ + 4 ∧
      (0x55#8).toNat ≠ s.cfg.writeAddr ⟨1, 1⟩ ∧ (withLines s (linesAt 80 .hi .hi .lo)).lines.clean = false ∧
      answer (after (exec (.lgWrite 1 1 0xA5) (withLines s (linesAt 80 .hi .hi .lo)))) = some 0x00000010#32 :=
  ⟨⟨rfl, by decide⟩, by decide, rfl, rfl, rfl, rfl, rfl, by decide, by decide, by decide, by decide, by decide, rfl,
    by decide⟩

/-- `WriteEffect`, `ReadEffect`: a success, a failure before bus-enable, one at it, and one after it. -/
theorem test_meets_effect :
    let s := owned Config.cfgSw
    let early := withIo s [false]
    let enable := withIo s (List.replicate 9 true ++ [false])
    let late := withIo s (List.replicate 12 true ++ [false])
    (∃ t r es, exec (.lgWrite 1 1 0xA5) s = .next t ∧ (t.req 0).rsp = some r ∧ t.trace = s.trace ++ es ∧
      r.status = .ok ∧ enableAttempted es) ∧
    (∃ t r es, exec (.lgWrite 1 1 0xA5) enable = .next t ∧ (t.req 0).rsp = some r ∧ t.trace = s.trace ++ es ∧
      r.status = .ioFail ∧ enableAttempted es) ∧
    answer (after (exec (.lgWrite 1 1 0xA5) early)) = some 0x00000001#32 ∧
    answer (after (exec (.lgRead 1 1) early)) = some 0x00000001#32 ∧
    answer (after (exec (.lgRead 1 1) late)) = some 0x00000001#32 ∧
    (after (exec (.lgRead 1 1) late)).lines.busen = .lo :=
  ⟨⟨_, _, _, rfl, rfl, rfl, rfl, true, by decide⟩, ⟨_, _, _, rfl, rfl, rfl, rfl, false, by decide⟩, by decide, by decide,
    by decide, by decide⟩

/-- `SwitchBadIndex`: the first device outside the table, and a band that names no bit. -/
theorem test_meets_switchBadIndex :
    let c := (owned Config.cfgSw).cfg
    c.devtab.length ≤ 4 ∧ ∃ d, c.device 2 = some d ∧ ∃ u ∈ d.subs, c.resolveOff u.rbOff 3 0 = none :=
  ⟨by decide, _, rfl, _, List.mem_singleton.2 rfl, by decide⟩

/-- `SwGetResult`, `SwSetResult`, `SwSetPreservesBits`: the two-sub device of one group, its byte known. The other starts are
`test_meets_starts`. -/
theorem test_meets_switch :
    let s := withOut (owned Config.cfgSw) 81 0x30
    s.Ready 0 ∧ s.env.loopback = true ∧ s.cfg.rmwAtomic = true ∧
    ∃ d, s.cfg.device 1 = some d ∧ d.subs.length = 2 ∧
      d.subs.mapM (fun u => s.cfg.resolveOff u.ctlOff 0 0) = some [0, 1] ∧
      d.subs.mapM (fun u => s.cfg.resolveOff u.rbOff 0 0) = some [0, 1] ∧
      (∀ u ∈ d.subs, s.OutIs (s.cfg.writeAddr u.ctlGrp) 0x30 ∧ s.OutIs (s.cfg.writeAddr u.rbGrp) 0x30) ∧
      goes (exec (.swSet 1 0 0 true) s) = true := by
  refine ⟨⟨⟨⟨rfl, by decide⟩, by decide, by decide, rfl, rfl⟩, rfl⟩, rfl, rfl, _, rfl, rfl, rfl, rfl, ?_, rfl⟩
  intro u hu
  have : u.ctlGrp = ⟨1, 2⟩ ∧ u.rbGrp = ⟨1, 2⟩ := by
    rcases List.mem_cons.1 hu with rfl | hu
    · exact ⟨rfl, rfl⟩
    · rcases List.mem_cons.1 hu with rfl | hu
      · exact ⟨rfl, rfl⟩
      · cases hu
  rw [this.1, this.2]
  exact ⟨rfl, rfl⟩

/-- The general starts of the switch and monitor statements: a dirty one of each cause, with a scripted draw, unknown
outputs under `Loopback`, and no `Loopback`, each of which a `SW_SET` runs from. -/
theorem test_meets_starts :
    let d := withLines (owned Config.cfgSw) (linesAt 80 .hi .x .lo)
    let r := { d with env := { d.env with readByte := [0xC3] } }
    let n := withSense (owned Config.cfgSw) [0x0F]
    (d.Running 0 ∧ d.lines.clean = false ∧ r.env.readByte = [0xC3#8] ∧ d.cfg.rmwAtomic = true) ∧
      (((owned Config.cfgSw).latches.get 81).out.known = false ∧ (owned Config.cfgSw).env.loopback = true) ∧
      (n.Running 0 ∧ n.lines.clean = true ∧ n.env.loopback = false) ∧
      goes (exec (.swSet 1 0 0 true) d) = true ∧ goes (exec (.swSet 1 0 0 true) n) = true ∧
      (withLines (owned cfgSteps) (linesAt 80 .hi .x .lo)).Running 0 ∧
      (withLines (owned Config.cfgMon) (linesAt 80 .hi .x .lo)).Running 0 :=
  ⟨⟨⟨⟨rfl, by decide⟩, by decide, rfl, rfl, rfl⟩, rfl, rfl, rfl⟩, ⟨by decide, rfl⟩,
    ⟨⟨⟨rfl, by decide⟩, by decide, rfl, rfl, rfl⟩, rfl, rfl⟩, rfl, rfl,
    ⟨⟨rfl, by decide⟩, by decide, rfl, rfl, rfl⟩, ⟨⟨rfl, by decide⟩, by decide, rfl, rfl, rfl⟩⟩

/-- V-M6, point 4's select: the first write starts dirty and completes with its outputs unknown, the second is clean. -/
theorem test_monSelect_dirty :
    let t := run (withLines (idle Config.cfgMon) ⟨.ofByte 0x50, .hi, .x, .hi, .lo⟩) 0x60000004
    answer t = some 0x00000010#32 ∧ (t.latches.get 80).out = .unknown ∧ (t.latches.get 81).out = .ofByte 0x40 := by
  decide +kernel

/-- The non-atomic `SW_SET` units of a two-sub device: the first place, and the last of each kind. -/
theorem test_meets_setUnits :
    let s := owned cfgSteps
    let place := fun p => withReq s { asking 0x50110000#32 with rmw := some p }
    s.cfg.rmwAtomic = false ∧ (s.req 0).rmw = none ∧
      (∀ p ∈ [RmwPlace.read 1, .write 0 0x30, .write 1 0x31, .confirm 0 [], .confirm 1 [true]],
        ((place p).req 0).rmw = some p ∧ (place p).busOwner = some 0 ∧ (place p).lines.clean = true) ∧
      ∃ d, s.cfg.device 1 = some d ∧ d.subs.mapM (fun u => s.cfg.resolveOff u.ctlOff 0 0) = some [0, 1] ∧
        d.subs.mapM (fun u => s.cfg.resolveOff u.rbOff 0 0) = some [0, 1] ∧ d.subs[1]?.isSome = true :=
  ⟨rfl, rfl, by decide, _, rfl, rfl, rfl, rfl⟩

/-- The monitor statements: indices just inside and just outside, and every category. -/
theorem test_meets_monitor :
    (owned Config.cfgMon).OwnedBy 0 ∧ (∀ i ∈ [1, 8], 1 ≤ i ∧ i ≤ 8) ∧ (∀ i ∈ [0, 9], ¬ (1 ≤ i ∧ i ≤ 8)) ∧
      (∀ c ∈ [0, 1, 2, 3], c ≤ 3) ∧ 4 ≤ 4 :=
  ⟨⟨rfl, by decide⟩, by decide, by decide, by decide, by decide⟩

/-- `SweepPointResult`, `SweepPointGoesOn`, `SweepEnd`: a new sweep, the last point, a point whose first drive fails, and
the end. -/
theorem test_meets_sweep :
    let s := owned Config.cfgMon
    let at_ := fun n => withReq s { asking 0x90000000#32 with sweep := some ⟨n, [], false⟩ }
    (s.req 0).sweep.getD ⟨1, [], false⟩ = ⟨1, [], false⟩ ∧ ((at_ 8).req 0).sweep.getD ⟨1, [], false⟩ = ⟨8, [], false⟩ ∧
      1 ≤ 8 ∧ 8 ≤ 8 ∧ ((at_ 9).req 0).sweep = some ⟨9, [], false⟩ ∧ 8 < 9 ∧
      succeeds (monReadings 8) (at_ 8) = true ∧ succeeds (monReadings 8) (withIo (at_ 8) [false]) = false := by
  decide +kernel

/-- `SweepFinishes`. -/
theorem test_meets_sweepFinishes :
    let s := withReq (idle Config.cfgMon) (asking 0x90000000#32)
    0 < s.reqs.length ∧ (s.req 0).pending = some ⟨0x90000000#32, none⟩ ∧
      decode ⟨0x90000000#32, none⟩ = .instr .monSweep ∧ (s.req 0).sweep = none := by decide

/-- `StatusTable`, `ResponseShape`, `UnitFrame`: a command that is answered, from a clean start and from one that is
not. -/
theorem test_meets_answered :
    let s := owned Config.cfgSw
    (∃ t r, s.OwnedBy 0 ∧ exec (.lgAddr 1 1 true) s = .next t ∧ Answered s t 0 r ∧ r.status = .ok ∧ s.MemOk) ∧
      s.cfg.wf = true ∧ s.Clean ∧ 81 ∉ writesOf s.cfg 1 (.lgWrite 1 1 0xA5) ∧ 81 ∉ readsOf s.cfg (.lgWrite 1 1 0xA5) ∧
      goes (exec (.lgWrite 1 1 0xA5) (withLines s (linesAt 80 .hi .hi .lo))) = true ∧
      goes (exec (.monConvert 3 ⟨1⟩) s) = true :=
  ⟨⟨_, _, ⟨rfl, by decide⟩, rfl, answered_deliver (by decide) rfl, rfl, rfl, by decide⟩, by decide, rfl, by decide,
    by decide, by decide, rfl⟩

/-- `UnitsAreBlocks`: a unit whose first drive fails, and one whose port shows another address. -/
theorem test_meets_blocks :
    let f := withIo (withReq (idle Config.cfgSw) (asking 0x211000A5#32)) [false]
    let m := withPort (withReq (idle Config.cfgSw) (asking 0x211000A5#32)) [0x54]
    f.chooseMove.1 = some (.grant 0) ∧ m.chooseMove.1 = some (.grant 0) ∧ (f.req 0).sweep = none ∧
      decode ⟨0x211000A5#32, none⟩ ≠ .instr .monSweep ∧
      (after (step f)).trace.map Event.failedAt = [none, some (.line (.a 7)), none] ∧
      ((after (step m)).req 0).rsp.map Response.status = some .addrMismatch := by decide

/-- `NothingIsTakenBack`, `TraceTellsLinesAndFailures`, `UnitsAreBlocks` and the invariants: a step of a granted command
from a state with every invariant. -/
theorem test_meets_step :
    let s := withReq (idle Config.cfgSw) (asking 0x11100000#32)
    (∃ t, step s = .next t ∧ t.trace = s.trace ++ t.trace ∧ t.log = s.log ++ []) ∧ s.chooseMove.1 = some (.grant 0) ∧
      (s.req 0).pending = some ⟨0x11100000#32, none⟩ ∧ s.MemOk ∧ s.AddrOk ∧ s.SchedOk := by
  refine ⟨⟨_, rfl, rfl, rfl⟩, rfl, rfl, ⟨rfl, by decide⟩, .inl rfl, rfl, rfl, ?_⟩
  intro r hr
  rw [show r = asking 0x11100000#32 from List.mem_singleton.1 hr]
  refine ⟨fun p h => ?_, fun p h => ?_⟩ <;> cases h

end Sys2Proof.Tests
end

namespace Sys2Proof.Machine

/-- An ill-formed configuration has no run (00_scope.md R8). -/
theorem step_refused {s : State} (hw : s.cfg.wf = false) : step s = .refused .illFormedConfig := by
  simp [step, hw]

/-- Settles O11: a step tests the configuration first, and whatever move is chosen under a well-formed one, an idle step,
a submission or a granted unit, answers the next state of the run (`State.stepped_next`). -/
theorem runsExactlyWhenWellFormed : Obligations.RunsExactlyWhenWellFormed :=
  fun s => ⟨step_refused, fun hw => ⟨s.stepped, State.stepped_next hw⟩⟩

end Sys2Proof.Machine

namespace Sys2Proof.Machine

/-! ## What a step can do, with the move it took -/

/-- What a step can do, with the choice it follows: idle, a submission of a requester that may submit, or one locked unit
of a requester the controller may grant (60_exceptions.md R285, R286). -/
theorem step_move_cases {s t : State} (h : step s = .next t) :
    (s.chooseMove.1 = none ∧ t = s.chooseMove.2) ∨
      (∃ q, s.chooseMove.1 = some (.submit q) ∧ q < s.reqs.length ∧ s.canSubmit q = true ∧
        t = s.chooseMove.2.submit q) ∨
      ∃ q, s.chooseMove.1 = some (.grant q) ∧ s.canGrant q = true ∧ runUnit q (s.chooseMove.2.grant q) = .next t := by
  unfold step at h
  rw [if_pos (step_cases h).1] at h
  cases hm : s.chooseMove.1 with
  | none => rw [hm] at h; cases h; exact .inl ⟨rfl, rfl⟩
  | some m =>
    rw [hm] at h
    have hmem := State.chooseMove_mem hm
    cases m with
    | submit q =>
      cases h
      exact .inr (.inl ⟨q, rfl, (State.mem_moves_submit.1 hmem).1, (State.mem_moves_submit.1 hmem).2, rfl⟩)
    | grant q => exact .inr (.inr ⟨q, rfl, (State.mem_moves_grant.1 hmem).2, h⟩)

/-! ## What every step keeps -/

/-- What every step does to the fields no step takes anything from: the configuration and the canonical latch memory are
kept, hazard bits are only set, and `TRACE` and `LOG` only grow. -/
structure Advances (s t : State) : Prop where
  cfg : t.cfg = s.cfg
  haz : ∃ b, t.haz = s.haz ||| b
  trace : ∃ es, t.trace = s.trace ++ es
  log : ∃ rs, t.log = s.log ++ rs
  mem : s.MemOk → t.MemOk

namespace Advances

variable {s t u : State}

theorem trans (h : Advances s t) (k : Advances t u) : Advances s u where
  cfg := k.cfg.trans h.cfg
  haz := by
    obtain ⟨b, hb⟩ := h.haz
    obtain ⟨c, hc⟩ := k.haz
    exact ⟨b ||| c, by rw [hc, hb, BitVec.or_assoc]⟩
  trace := by
    obtain ⟨x, hx⟩ := h.trace
    obtain ⟨y, hy⟩ := k.trace
    exact ⟨x ++ y, by rw [hy, hx, List.append_assoc]⟩
  log := by
    obtain ⟨x, hx⟩ := h.log
    obtain ⟨y, hy⟩ := k.log
    exact ⟨x ++ y, by rw [hy, hx, List.append_assoc]⟩
  mem := k.mem ∘ h.mem

/-- A change that only appends to the trace and otherwise touches neither latches, hazard bits nor log. -/
theorem of_same (hc : t.cfg = s.cfg) (hh : t.haz = s.haz) (ht : ∃ es, t.trace = s.trace ++ es) (hl : t.log = s.log)
    (hm : t.latches = s.latches) : Advances s t where
  cfg := hc
  haz := ⟨0#2, by simp [hh]⟩
  trace := ht
  log := ⟨[], by simp [hl]⟩
  mem := fun h => by simpa [State.MemOk, hc, hm] using h

theorem submit (s : State) (q : Nat) : Advances s (s.submit q) := by
  obtain ⟨n, c, rest, h⟩ := s.submit_eq q
  rw [h]
  exact of_same rfl rfl ⟨[], by simp⟩ rfl rfl

theorem grant (s : State) (q : Nat) : Advances s (s.grant q) := by
  obtain ⟨hc, -, -, hm, hh, hl, -, ht⟩ := s.grant_parts q
  exact of_same hc hh ht hl hm

theorem release (s : State) : Advances s s.release := of_same rfl rfl ⟨[], by simp⟩ rfl rfl

end Advances

theorem Evolves.advances {s t : State} (h : Evolves s t) : Advances s t where
  cfg := h.cfg
  haz := h.haz
  trace := h.trace.imp fun _ h => h.1
  log := h.log
  mem := h.mem

theorem UnitEnd.advances {q : Nat} {u t : State} (h : UnitEnd q u t) : Advances u t := by
  obtain ⟨hc, hh, ht, hl, hm, -⟩ := h.parts
  exact .of_same hc hh ht hl hm

theorem runUnit_advances {s t : State} {q : Nat} (ho : s.busOwner = some q) (h : runUnit q s = .next t) :
    Advances s t := by
  obtain ⟨t', ht, hend⟩ := runUnit_unit ho
  rw [h] at ht
  cases ht
  rcases hend with rfl | ⟨u, hu, he⟩
  · exact .release s
  · exact hu.advances.trans he.advances

/-- Every step advances, whatever the environment answers. -/
theorem step_advances {s t : State} (h : step s = .next t) : Advances s t := by
  refine s.chooseMove_evolves.advances.trans ?_
  obtain ⟨-, rfl | ⟨q, rfl⟩ | ⟨q, hr⟩⟩ := step_cases h
  · exact (Evolves.refl _).advances
  · exact .submit _ q
  · exact (Advances.grant _ q).trans (runUnit_advances (State.grant_busOwner _ q) hr)

/-- Settles O58: a step is idle, a submission or a unit, and each keeps the latch memory as `Advances` says; the units do
so because every write of latch contents is at an address of the board (`Evolves.setLatches`). -/
theorem stepKeepsMemory : Obligations.StepKeepsMemory := fun _ _ hm h => (step_advances h).mem hm

/-- Settles O54: every step advances (`step_advances`), and bits set by a disjunction stay set. -/
theorem nothingIsTakenBack : Obligations.NothingIsTakenBack := by
  intro s t h
  obtain ⟨hc, ⟨b, hb⟩, ht, hl, -⟩ := step_advances h
  exact ⟨hc, fun k hk => by rw [hb, BitVec.getLsbD_or, hk, Bool.true_or], ht, hl⟩

/-! ## The scheduler's invariant -/

/-- A record with no sweep and no place inside a `SW_SET` is one a run can leave. -/
theorem Requester.ok_of_none {c : Config} {r : Requester} (hs : r.sweep = none) (hp : r.rmw = none) : r.Ok c := by
  simp [Requester.Ok, hs, hp]

/-- A requester that may submit is inside no `SW_SET`: a place belongs to a pending command. -/
theorem Requester.Ok.rmw_none {c : Config} {r : Requester} (h : r.Ok c) (hp : r.pending = none) : r.rmw = none := by
  cases hr : r.rmw with
  | none => rfl
  | some pl =>
    obtain ⟨-, -, cmd, -, -, -, -, -, hc, -⟩ := h.2 pl hr
    rw [hp] at hc
    cases hc

/-- The record of every requester, existing or not, is one a run can leave. -/
theorem State.SchedOk.req {s : State} (h : s.SchedOk) (q : Nat) : (s.req q).Ok s.cfg := by
  unfold State.req
  cases hq : s.reqs[q]? with
  | none => exact Requester.ok_of_none rfl rfl
  | some r => exact h.2.2 r (List.mem_of_getElem? hq)

/-- The invariant after one record was rewritten, with the bus free. -/
theorem State.SchedOk.set {s t : State} {q : Nat} {r : Requester} (h : s.SchedOk) (hc : t.cfg = s.cfg)
    (ho : t.busOwner = none) (hr : t.reqs = s.reqs.set q r) (hok : r.Ok s.cfg) : t.SchedOk := by
  refine ⟨by rw [hr, List.length_set, hc]; exact h.1, ho, fun x hx => ?_⟩
  rw [hc]
  rw [hr] at hx
  rcases List.mem_or_eq_of_mem_set hx with hx | rfl
  · exact h.2.2 x hx
  · exact hok

/-- What delivering a response does to the records. -/
theorem State.deliver_reqs (s : State) (q : Nat) (r : Response) :
    (s.deliver q r).reqs = s.reqs.set q { s.req q with pending := none, rsp := some r, sweep := none, rmw := none } :=
  rfl

/-- Choosing a move changes no field the invariant speaks of. -/
theorem State.SchedOk.chooseMove {s : State} (h : s.SchedOk) : s.chooseMove.2.SchedOk := by
  obtain ⟨n, rest, hc⟩ := s.chooseMove_eq
  rw [hc]
  exact h

/-- A submission of a requester that may submit keeps the invariant. -/
theorem State.SchedOk.submit {s : State} (h : s.SchedOk) {q : Nat} (hq : s.canSubmit q = true) :
    (s.submit q).SchedOk := by
  obtain ⟨n, c, rest, he⟩ := s.submit_eq q
  simp only [State.canSubmit, Bool.and_eq_true, Option.isNone_iff_eq_none] at hq
  rw [he]
  exact h.set rfl h.2.1 rfl (Requester.ok_of_none hq.2 ((h.req q).rmw_none hq.1))

/-- A granted unit keeps the invariant: the command is answered, or goes on at a place a run can leave
(`runUnit_progress`). -/
theorem State.SchedOk.unit {s t : State} (h : s.SchedOk) (hw : s.cfg.wf = true) {q : Nat} (hq : s.waiting q = true)
    (ht : runUnit q (s.grant q) = .next t) : t.SchedOk := by
  obtain ⟨gc, gr, -⟩ := s.grant_parts q
  have greq : (s.grant q).req q = s.req q := by rw [State.req, gr]; rfl
  obtain ⟨-, hok, c, hp⟩ := h.pending hq
  obtain ⟨u, t', ht', hu, hend⟩ := runUnit_progress (s := s.grant q) (by rwa [gc]) (s.grant_busOwner q)
    (by rwa [greq, gc]) (by rwa [greq])
  rw [ht] at ht'
  cases ht'
  have ucfg : u.cfg = s.cfg := hu.cfg.trans gc
  have ureqs : u.reqs = s.reqs := hu.reqs.trans gr
  rcases hend with ⟨r, rfl⟩ | ⟨r, rfl, hr, -⟩
  · refine h.set ucfg rfl ((u.deliver_reqs q r).trans (congrArg (List.set · q _) ureqs)) ?_
    exact Requester.ok_of_none rfl rfl
  · exact h.set ucfg rfl (congrArg (fun rs => rs.set q r) ureqs) (by rwa [gc] at hr)

/-- Settles O60: the invariant is kept by choosing a move, by a submission and by a granted unit. -/
theorem stepKeepsSchedule : Obligations.StepKeepsSchedule := by
  intro s t hs h
  have hc := hs.chooseMove
  obtain ⟨n, rest, he⟩ := s.chooseMove_eq
  rcases step_move_cases h with ⟨-, rfl⟩ | ⟨q, -, -, hq, rfl⟩ | ⟨q, -, hq, hr⟩
  · exact hc
  · refine hc.submit ?_
    rw [he]
    exact hq
  · refine hc.unit ?_ ?_ hr
    · rw [he]; exact (step_cases h).1
    · rw [he]; exact (Bool.and_eq_true_iff.1 hq).2

/-! ## A step that grants nobody -/

/-- A submission changes no response, sweep or place. -/
theorem State.submit_req (s : State) {q : Nat} (hq : q < s.reqs.length) (p : Nat) :
    ((s.submit q).req p).rsp = (s.req p).rsp ∧ ((s.submit q).req p).sweep = (s.req p).sweep ∧
      ((s.submit q).req p).rmw = (s.req p).rmw := by
  obtain ⟨n, c, rest, h⟩ := s.submit_eq q
  rw [h]
  by_cases hp : p = q
  · subst hp
    simp [State.req, hq]
  · simp [State.req, List.getElem?_set_ne (Ne.symm hp)]

/-- Settles O12: choosing a move changes the schedule and the count of free values only, and a submission besides them
one requester's pending command and commands still to submit; a grant is chosen only of a requester that waits. -/
theorem nothingBetweenCommands : Obligations.NothingBetweenCommands := by
  intro s t h
  obtain ⟨n, rest, he⟩ := s.chooseMove_eq
  refine ⟨fun hng => ?_, fun hnw q hq => ?_, fun hnone => ?_⟩
  · rcases step_move_cases h with ⟨-, rfl⟩ | ⟨q, -, hq, -, rfl⟩ | ⟨q, hg, -⟩
    · rw [he]
      exact ⟨rfl, rfl, rfl, rfl, rfl, rfl, ⟨rfl, rfl, rfl⟩, fun _ => ⟨rfl, rfl, rfl⟩⟩
    · obtain ⟨k, c, l, hk⟩ := s.chooseMove.2.submit_eq q
      have hreq := s.chooseMove.2.submit_req (q := q) (by rw [he]; exact hq)
      rw [hk, he] at hreq ⊢
      exact ⟨rfl, rfl, rfl, rfl, rfl, rfl, ⟨rfl, rfl, rfl⟩, hreq⟩
    · exact absurd hg (hng q)
  · obtain ⟨hlt, hcan⟩ := State.mem_moves_grant.1 (State.chooseMove_mem hq)
    have hw : s.waiting q = true := (Bool.and_eq_true_iff.1 hcan).2
    rw [hnw q hlt] at hw
    cases hw
  · rcases step_move_cases h with ⟨-, rfl⟩ | ⟨q, hs, -⟩ | ⟨q, hg, -⟩
    · exact ⟨n, rest, he⟩
    · rw [hnone] at hs; cases hs
    · rw [hnone] at hg; cases hg

end Sys2Proof.Machine

namespace Sys2Proof

/-! ## The nine items of a well-formed configuration (10_state.md R45), one equivalence each -/

namespace Config

variable {c : Config}

/-- The groups of the board are the valid ones (10_state.md R40). -/
theorem mem_groups {g : Group} : g ∈ c.groups ↔ c.validGroup g = true := by
  obtain ⟨dm, lg⟩ := g
  simp only [groups, nlg, List.mem_flatMap, List.mem_map, List.mem_range, Group.mk.injEq, validGroup_iff]
  constructor
  · rintro ⟨d, hd, l, hl, rfl, rfl⟩
    omega
  · rintro ⟨h1, h2, h3, h4⟩
    exact ⟨dm - 1, by omega, lg - 1, by omega, by omega, by omega⟩

/-- No group is listed twice. -/
theorem nodup_groups (c : Config) : c.groups.Nodup := by
  refine List.pairwise_flatMap.2 ⟨fun d _ => List.pairwise_map.2 ?_, ?_⟩
  · refine List.nodup_range.imp fun {l l'} hl h => hl ?_
    simp only [Group.mk.injEq] at h
    omega
  · refine List.nodup_range.imp fun {d d'} hd g hg g' hg' h => hd ?_
    obtain ⟨l, -, rfl⟩ := List.mem_map.1 hg
    obtain ⟨l', -, rfl⟩ := List.mem_map.1 hg'
    simp only [Group.mk.injEq] at h
    omega

/-- The images of the groups of the board are distinct exactly when no two valid groups share one. -/
theorem nodup_map_groups {f : Group → Nat} : (c.groups.map f).Nodup ↔
    ∀ g, c.validGroup g = true → ∀ h, c.validGroup h = true → f g = f h → g = h := by
  suffices H : ∀ l : List Group, l.Nodup → ((l.map f).Nodup ↔ ∀ g ∈ l, ∀ h ∈ l, f g = f h → g = h) by
    simp only [H _ c.nodup_groups, mem_groups]
  intro l hl
  induction l with
  | nil => exact ⟨fun _ g hg => absurd hg List.not_mem_nil, fun _ => List.nodup_nil⟩
  | cons a l ih =>
    obtain ⟨ha, hl⟩ := List.nodup_cons.1 hl
    rw [List.map_cons, List.nodup_cons, ih hl, List.mem_map]
    grind

/-- Item 2: the addresses of the groups are at most 255 and distinct. -/
theorem addressesOk_iff : c.addressesOk = true ↔
    (∀ g, c.validGroup g = true → c.writeAddr g ≤ 255 ∧ c.readAddr g ≤ 255) ∧
      (∀ g h, c.validGroup g = true → c.validGroup h = true →
        (c.writeAddr g = c.writeAddr h → g = h) ∧ (c.readAddr g = c.readAddr h → g = h) ∧
        c.writeAddr g ≠ c.readAddr h) := by
  have hdisj : (∀ a ∈ c.groups.map c.writeAddr, ∀ b ∈ c.groups.map c.readAddr, a ≠ b) ↔
      ∀ g, c.validGroup g = true → ∀ h, c.validGroup h = true → c.writeAddr g ≠ c.readAddr h := by
    simp only [List.forall_mem_map, mem_groups]
  have hle : ((c.writeAddrs ++ c.readAddrs).all fun a => decide (a ≤ 255)) = true ↔
      ∀ g, c.validGroup g = true → c.writeAddr g ≤ 255 ∧ c.readAddr g ≤ 255 := by
    simp [writeAddrs, readAddrs, mem_groups, forall_and]
  rw [addressesOk, Bool.and_eq_true, hle, distinct_iff, List.nodup_append, writeAddrs, readAddrs, nodup_map_groups, nodup_map_groups,
    hdisj]
  refine and_congr_right fun _ => ⟨fun ⟨hw, hr, hd⟩ g h hg hh => ⟨hw g hg h hh, hr g hg h hh, hd g hg h hh⟩,
    fun H => ⟨fun g hg h hh => (H g h hg hh).1, fun g hg h hh => (H g h hg hh).2.1, fun g hg h hh => (H g h hg hh).2.2⟩⟩

/-- Item 3: the groups named in the device and monitor tables are valid. -/
theorem groupsOk_iff : c.groupsOk = true ↔
    (∀ d ∈ c.devtab, ∀ u ∈ d.subs, c.validGroup u.ctlGrp = true ∧ c.validGroup u.rbGrp = true) ∧
      (∀ e ∈ c.montab, c.validGroup e.selA.grp = true ∧ c.validGroup e.selB.grp = true) := by
  simp [groupsOk, allSubs, allSelects]

/-- Item 4 for one offset. -/
theorem offOk_iff {o : Off} : c.offOk o = true ↔
    (∀ k, o = .fixed k → k ≤ 7) ∧ (∀ t, o = .banded t → ∃ m, c.bandmap[t]? = some m) := by
  cases o with
  | fixed k => simp [offOk]
  | banded t => simp [offOk, ← Option.isSome_iff_exists]

/-- Item 4: the offsets of the device table. -/
theorem offsetsOk_iff : c.offsetsOk = true ↔
    ∀ d ∈ c.devtab, ∀ u ∈ d.subs, ∀ o, o = u.ctlOff ∨ o = u.rbOff →
      (∀ k, o = .fixed k → k ≤ 7) ∧ (∀ t, o = .banded t → ∃ m, c.bandmap[t]? = some m) := by
  simp only [offsetsOk, allSubs, List.all_eq_true, List.mem_flatMap, Bool.and_eq_true, ← offOk_iff, forall_exists_index,
    and_imp, or_imp, forall_and, forall_eq]
  grind

/-- Item 5: one or two sub-switches, two for a crossover. -/
theorem devicesOk_iff : c.devicesOk = true ↔
    ∀ d ∈ c.devtab, (d.subs.length = 1 ∨ d.subs.length = 2) ∧ (d.kind = .xover → d.subs.length = 2) := by
  simp [devicesOk, Device.subsOk, Decidable.imp_iff_not_or]

/-- Item 6: the sizes of the tables. -/
theorem sizesOk_iff : c.sizesOk = true ↔ c.devtab.length ≤ 256 ∧ c.montab.length = 8 := by
  simp [sizesOk, nMon]

/-- Item 7: the channels follow the select groups, and no non-empty label occurs twice. -/
theorem outputsOk_iff : c.outputsOk = true ↔
    (∀ e ∈ c.montab, ∀ o ∈ e.outs,
      o.ch = 2 * ((e.select o.bank).grp.lg - 1) ∨ o.ch = 2 * ((e.select o.bank).grp.lg - 1) + 1) ∧
      (((c.montab.flatMap MonEntry.outs).map MonOut.label).filter fun l => !l.isEmpty).Nodup := by
  simp [outputsOk, MonEntry.channelsOk, distinct_iff, labels, List.map_flatMap]

/-- Item 9: no select group is a control group. -/
theorem selectsOk_iff : c.selectsOk = true ↔
    ∀ e ∈ c.montab, ∀ g, g = e.selA.grp ∨ g = e.selB.grp → ∀ d ∈ c.devtab, ∀ u ∈ d.subs, g ≠ u.ctlGrp := by
  simp [selectsOk, allSubs, allSelects]

end Config

/-- Settles O5: `Config.wf` is the conjunction of its checks (`Config.wf_iff`), and each check is its item. -/
theorem wellFormedExactly : Obligations.WellFormedExactly := by
  intro c hn
  have hreq : c.requestersOk = true := decide_eq_true hn
  have hset : c.settleOk = true ↔ 0 < c.tSettle := decide_eq_true_iff
  simp only [Config.wf_iff, hreq, true_and, Config.familyOk_iff, Config.addressesOk_iff, Config.groupsOk_iff,
    Config.offsetsOk_iff, Config.devicesOk_iff, Config.sizesOk_iff, Config.outputsOk_iff, hset, Config.selectsOk_iff]

end Sys2Proof

namespace Sys2Proof.Machine

/-! ## Which failures a part of a command may raise -/

/-- The failures of a latch transaction and of the operand checks (60_exceptions.md R261). -/
inductive Failure.OfBus : Failure → Prop where
  | ioFail : OfBus .ioFail
  | addrMismatch (exp obs : Byte) : OfBus (.addrMismatch exp obs)
  | badIndex : OfBus .badIndex

/-- The failures of a switch command: those, and two states that differ (42_switch_state.md R181). -/
inductive Failure.OfSwitch : Failure → Prop where
  | bus {f : Failure} (h : f.OfBus) : OfSwitch f
  | inconsistent {st0 st1 : Bool} (h : st0 ≠ st1) : OfSwitch (.inconsistent st0 st1)

/-- Every failure a part of a command raises is one of these. -/
def Run.Raises {α : Type} (P : Failure → Prop) (m : Run α) : Prop := ∀ s f t, m s = .error f t → P f

namespace Run.Raises

variable {α β : Type} {P : Failure → Prop}

theorem pure (a : α) : Run.Raises P (Pure.pure a : Run α) := fun s f t h => by cases h

theorem bind {m : Run α} {f : α → Run β} (hm : Run.Raises P m) (hf : ∀ a, Run.Raises P (f a)) :
    Run.Raises P (m >>= f) := by
  intro s e u h
  cases hs : m s with
  | ok a t => rw [bind_ok hs] at h; exact hf a t e u h
  | error e' t => rw [bind_error hs] at h; cases h; exact hm s _ _ hs

theorem mono {Q : Failure → Prop} {m : Run α} (h : Run.Raises P m) (hPQ : ∀ f, P f → Q f) : Run.Raises Q m :=
  fun s f t e => hPQ f (h s f t e)

theorem onFailure {m : Run α} {g : State → State} (h : Run.Raises P m) : Run.Raises P (Machine.onFailure g m) := by
  intro s e u he
  cases hs : m s with
  | ok a t => rw [onFailure_ok hs] at he; cases he
  | error e' t => rw [onFailure_error hs] at he; cases he; exact h s _ _ hs

end Run.Raises

/-- A part of a command that raises failures of the bus and the operand checks only. -/
abbrev Run.RaisesBus {α : Type} (m : Run α) : Prop := Run.Raises Failure.OfBus m

theorem pinOp_raises {α : Type} (work : State → α × State) (failed : State → State) :
    Run.RaisesBus (pinOp work failed) := by
  intro s f t h
  unfold pinOp at h
  split at h <;> cases h
  exact .ioFail

theorem drive_raises (n : Line) (v : Bool) : Run.RaisesBus (drive n v) := pinOp_raises _ _

theorem readPort_raises : Run.RaisesBus readPort := pinOp_raises _ _

theorem readIn_raises : Run.RaisesBus readIn := pinOp_raises _ _

theorem readAnalog_raises (ch : Nat) : Run.RaisesBus (readAnalog ch) := pinOp_raises _ _

theorem settle_raises : Run.RaisesBus settle := fun s f t h => by cases h

theorem orBadIndex_raises {α : Type} (o : Option α) : Run.RaisesBus (orBadIndex o) := by
  intro s f t h
  unfold orBadIndex at h
  split at h <;> cases h
  exact .badIndex

theorem checkGroup_raises (g : Group) : Run.RaisesBus (checkGroup g) := by
  intro s f t h
  unfold checkGroup at h
  split at h <;> cases h
  exact .badIndex

theorem checkDev_raises (dev : Nat) : Run.RaisesBus (checkDev dev) := fun s => orBadIndex_raises _ s

theorem resolveOff_raises (off : Off) (band chain : Nat) : Run.RaisesBus (resolveOff off band chain) :=
  fun s => orBadIndex_raises _ s

theorem checkMon_raises (i : Nat) : Run.RaisesBus (checkMon i) := fun s => orBadIndex_raises _ s

theorem writeAddrOf_raises (g : Group) : Run.RaisesBus (writeAddrOf g) := fun s f t h => by cases h

theorem startTransaction_raises : Run.RaisesBus startTransaction := by
  intro s f t h
  unfold startTransaction at h
  split at h <;> cases h

theorem driveAddrLines_raises (v : Byte) (is : List (Fin 8)) : Run.RaisesBus (driveAddrLines v is) := by
  induction is with
  | nil => exact .pure _
  | cons i is ih => exact (drive_raises _ _).bind fun _ => ih

theorem driveAddr_raises (a : Nat) : Run.RaisesBus (driveAddr a) :=
  (driveAddrLines_raises _ _).onFailure.bind fun _ => settle_raises

theorem verify_raises (sent : Nat) (accepted : List Nat) : Run.RaisesBus (verify sent accepted) := by
  refine readPort_raises.bind fun rb => ?_
  split
  · exact .pure _
  · exact fun s f t h => by cases h; exact .addrMismatch _ _

theorem writeBits_raises (vs : List Bool) : Run.RaisesBus (writeBits vs) := by
  induction vs with
  | nil => exact .pure _
  | cons v vs ih =>
    refine .bind ?_ fun _ => ih
    exact (drive_raises _ _).bind fun _ => (drive_raises _ _).bind fun _ => (drive_raises _ _).bind fun _ => settle_raises

theorem sendByte_raises (b : Byte) : Run.RaisesBus (sendByte b) :=
  (drive_raises _ _).bind fun _ => settle_raises.bind fun _ => (writeBits_raises _).bind fun _ =>
    (drive_raises _ _).bind fun _ => settle_raises

theorem forgetOutIf_raises (dirty : Bool) (w : Nat) : Run.RaisesBus (forgetOutIf dirty w) := fun s f t h => by cases h

theorem latchWrite_raises (g : Group) (b : Byte) : Run.RaisesBus (latchWrite g b) :=
  (checkGroup_raises g).bind fun _ => (writeAddrOf_raises g).bind fun _ => startTransaction_raises.bind fun _ =>
    (driveAddr_raises _).bind fun _ => (verify_raises _ _).bind fun _ => (sendByte_raises b).onFailure.bind fun _ =>
      forgetOutIf_raises _ _

theorem checkLoadHazard_raises : Run.RaisesBus checkLoadHazard := fun s f t h => by cases h

theorem readBits_raises (n : Nat) : Run.RaisesBus (readBits n) := by
  induction n with
  | zero => exact readIn_raises.bind fun _ => .pure _
  | succ n ih =>
    exact readIn_raises.bind fun _ => (drive_raises _ _).bind fun _ => (drive_raises _ _).bind fun _ =>
      settle_raises.bind fun _ => ih.bind fun _ => .pure _

theorem receiveByte_raises : Run.RaisesBus receiveByte :=
  (drive_raises _ _).bind fun _ => (drive_raises _ _).bind fun _ => settle_raises.bind fun _ =>
    (drive_raises _ _).bind fun _ => settle_raises.bind fun _ => (readBits_raises _).bind fun _ =>
      (drive_raises _ _).bind fun _ => settle_raises.bind fun _ => .pure _

theorem drawIf_raises (dirty : Bool) (v : Byte) : Run.RaisesBus (drawIf dirty v) := by
  intro s f t h
  unfold drawIf at h
  split at h <;> cases h

theorem latchRead_raises (g : Group) : Run.RaisesBus (latchRead g) :=
  (checkGroup_raises g).bind fun _ => (writeAddrOf_raises g).bind fun _ => startTransaction_raises.bind fun _ =>
    (driveAddr_raises _).bind fun _ => (verify_raises _ _).bind fun _ => checkLoadHazard_raises.bind fun _ =>
      receiveByte_raises.bind fun _ => drawIf_raises _ _

theorem lgAddr_raises (g : Group) (rd : Bool) : Run.RaisesBus (lgAddr g rd) :=
  (checkGroup_raises g).bind fun _ s f t h => by cases h

theorem lgWrite_raises (g : Group) (b : Byte) : Run.RaisesBus (lgWrite g b) :=
  (latchWrite_raises g b).bind fun _ => .pure _

theorem lgRead_raises (g : Group) : Run.RaisesBus (lgRead g) := (latchRead_raises g).bind fun _ => .pure _

theorem resolveReadback_raises (band chain : Nat) (ss : List SubSwitch) :
    Run.RaisesBus (resolveReadback band chain ss) := by
  induction ss with
  | nil => exact .pure _
  | cons s ss ih => exact (resolveOff_raises _ _ _).bind fun _ => ih.bind fun _ => .pure _

theorem resolveControl_raises (band chain : Nat) (ss : List SubSwitch) :
    Run.RaisesBus (resolveControl band chain ss) := by
  induction ss with
  | nil => exact .pure _
  | cons s ss ih =>
    exact (resolveOff_raises _ _ _).bind fun _ => (resolveOff_raises _ _ _).bind fun _ => ih.bind fun _ => .pure _

theorem readSub_raises (s : SubSwitch) (o : Nat) : Run.RaisesBus (readSub s o) :=
  (latchRead_raises _).bind fun _ => .pure _

theorem readSubs_raises (l : List (SubSwitch × Nat)) : Run.RaisesBus (readSubs l) := by
  induction l with
  | nil => exact .pure _
  | cons p l ih => exact (readSub_raises _ _).bind fun _ => ih.bind fun _ => .pure _

theorem writeSubs_raises (st : Bool) (l : List (SubSwitch × Nat)) : Run.RaisesBus (writeSubs st l) := by
  induction l with
  | nil => exact .pure _
  | cons p l ih => exact (latchRead_raises _).bind fun _ => (latchWrite_raises _ _).bind fun _ => ih

/-- Only states that differ disagree (42_switch_state.md R181). -/
theorem agree_raises (dev : Nat) (sts : List Bool) : Run.Raises Failure.OfSwitch (agree dev sts) := by
  match sts with
  | [] => exact fun s f t h => by cases h; exact .bus .badIndex
  | [_] => exact .pure _
  | [st0, st1] =>
    show Run.Raises _ (if st0 = st1 then pure (.ofState st0) else disagree dev st0 st1)
    split
    · exact .pure _
    · rename_i hne
      exact fun s f t h => by cases h; exact .inconsistent hne
  | _ :: _ :: _ :: _ => exact fun s f t h => by cases h; exact .bus .badIndex

theorem Run.Raises.switch {α : Type} {m : Run α} (h : Run.RaisesBus m) : Run.Raises Failure.OfSwitch m :=
  h.mono fun _ => .bus

theorem swGet_raises (dev band chain : Nat) : Run.Raises Failure.OfSwitch (swGet dev band chain) :=
  (checkDev_raises dev).switch.bind fun _ => (resolveReadback_raises _ _ _).switch.bind fun _ =>
    (readSubs_raises _).switch.bind fun _ => agree_raises _ _

theorem swSet_raises (dev band chain : Nat) (st : Bool) : Run.Raises Failure.OfSwitch (swSet dev band chain st) :=
  (checkDev_raises dev).switch.bind fun _ => (resolveControl_raises _ _ _).switch.bind fun _ =>
    (writeSubs_raises _ _).switch.bind fun _ => swGet_raises _ _ _

theorem swSetUnit_raises (dev band chain : Nat) (st : Bool) (pl : RmwPlace) :
    Run.Raises Failure.OfSwitch (swSetUnit dev band chain st pl) := by
  refine (checkDev_raises dev).switch.bind fun d => (resolveControl_raises _ _ _).switch.bind fun cs => ?_
  cases pl with
  | read j => exact (orBadIndex_raises _).switch.bind fun _ => (latchRead_raises _).switch.bind fun _ => .pure _
  | write j cur =>
    exact (orBadIndex_raises _).switch.bind fun _ => (orBadIndex_raises _).switch.bind fun _ =>
      (latchWrite_raises _ _).switch.bind fun _ => .pure _
  | confirm j sts =>
    refine (orBadIndex_raises _).switch.bind fun _ => (resolveOff_raises _ _ _).switch.bind fun _ =>
      (readSub_raises _ _).switch.bind fun _ => ?_
    split
    · exact .pure _
    · exact (agree_raises _ _).bind fun _ => .pure _

theorem selectEntry_raises (e : MonEntry) : Run.RaisesBus (selectEntry e) :=
  (latchWrite_raises _ _).bind fun _ => latchWrite_raises _ _

theorem monSelect_raises (i : Nat) : Run.RaisesBus (monSelect i) :=
  (checkMon_raises i).bind fun _ => (selectEntry_raises _).bind fun _ => .pure _

theorem readOuts_raises (os : List MonOut) : Run.RaisesBus (readOuts os) := by
  induction os with
  | nil => exact .pure _
  | cons o os ih => exact (readAnalog_raises _).bind fun _ => ih.bind fun _ => .pure _

theorem monReadings_raises (i : Nat) : Run.RaisesBus (monReadings i) :=
  (checkMon_raises i).bind fun _ => (selectEntry_raises _).bind fun _ => readOuts_raises _

theorem monRead_raises (i : Nat) : Run.RaisesBus (monRead i) := (monReadings_raises i).bind fun _ => .pure _

/-- A conversion fails with the label only (43_monitor_mux.md R225). -/
theorem monConvert_raises (cat : Nat) (raw : Volts) : Run.Raises (· = .badLabel) (monConvert cat raw) := by
  intro s f t h
  unfold monConvert at h
  split at h <;> cases h
  rfl

/-! ## Which commands reply with values -/

/-- Every value a part of a command ends with is one of these. -/
def Run.Yields {α : Type} (Q : α → Prop) (m : Run α) : Prop := ∀ s a t, m s = .ok a t → Q a

namespace Run.Yields

variable {α β : Type} {Q : β → Prop}

theorem pure {b : β} (h : Q b) : Run.Yields Q (Pure.pure b : Run β) := fun s a t e => by cases e; exact h

/-- Only the last part counts. -/
theorem bind {m : Run α} {f : α → Run β} (hf : ∀ a, Run.Yields Q (f a)) : Run.Yields Q (m >>= f) := by
  intro s b u h
  obtain ⟨a, t, -, k⟩ := bind_inv h
  exact hf a t b u k

end Run.Yields

/-- A reply that carries no values. -/
def Reply.Bare (r : Reply) : Prop := r.vals = []

/-- A step of a `SW_SET` whose reply, if it is the last, carries no values. -/
def SwSetStep.Bare : SwSetStep → Prop
  | .more _ => True
  | .done r => r.Bare

theorem lgAddr_yields (g : Group) (rd : Bool) : Run.Yields Reply.Bare (lgAddr g rd) :=
  .bind fun _ s a t h => by cases h; rfl

theorem lgWrite_yields (g : Group) (b : Byte) : Run.Yields Reply.Bare (lgWrite g b) := .bind fun _ => .pure rfl

theorem lgRead_yields (g : Group) : Run.Yields Reply.Bare (lgRead g) := .bind fun _ => .pure rfl

theorem agree_yields (dev : Nat) (sts : List Bool) : Run.Yields Reply.Bare (agree dev sts) := by
  match sts with
  | [] => exact fun s a t h => by cases h
  | [_] => exact .pure rfl
  | [st0, st1] =>
    show Run.Yields _ (if st0 = st1 then pure (.ofState st0) else disagree dev st0 st1)
    split
    · exact .pure rfl
    · exact fun s a t h => by cases h
  | _ :: _ :: _ :: _ => exact fun s a t h => by cases h

theorem swGet_yields (dev band chain : Nat) : Run.Yields Reply.Bare (swGet dev band chain) :=
  .bind fun _ => .bind fun _ => .bind fun _ => agree_yields _ _

theorem swSet_yields (dev band chain : Nat) (st : Bool) : Run.Yields Reply.Bare (swSet dev band chain st) :=
  .bind fun _ => .bind fun _ => .bind fun _ => swGet_yields _ _ _

theorem swSetUnit_yields (dev band chain : Nat) (st : Bool) (pl : RmwPlace) :
    Run.Yields SwSetStep.Bare (swSetUnit dev band chain st pl) := by
  refine .bind fun d => .bind fun cs => ?_
  cases pl with
  | read j => exact .bind fun _ => .bind fun _ => .pure trivial
  | write j cur => exact .bind fun _ => .bind fun _ => .bind fun _ => .pure trivial
  | confirm j sts =>
    refine .bind fun _ => .bind fun _ => .bind fun _ => ?_
    split
    · exact .pure trivial
    · intro s a t h
      obtain ⟨r, u, hr, k⟩ := bind_inv h
      cases k
      exact agree_yields _ _ s r t hr

theorem monSelect_yields (i : Nat) : Run.Yields Reply.Bare (monSelect i) := .bind fun _ => .bind fun _ => .pure rfl

/-! ## The shape of a response -/

/-- What `r` carries beside the hazard bits, `values` telling whether the command may answer with values. -/
def Response.Shaped (values : Prop) (r : Response) : Prop :=
  (r.status ≠ .ok → r.data = 0#8 ∨ (r.status = .inconsistent ∧ (r.data = 1#8 ∨ r.data = 2#8))) ∧
    (r.status ≠ .addrMismatch → r.exp = 0#8 ∧ r.obs = 0#8) ∧
    (r.vals ≠ [] → (r.status = .ok ∨ r.status = .partialSweep) ∧ values)

theorem Reply.response_shaped {values : Prop} {r : Reply} (haz : BitVec 2) (h : r.vals ≠ [] → values) :
    (r.response haz).Shaped values :=
  ⟨fun hne => absurd rfl hne, fun _ => ⟨rfl, rfl⟩, fun hv => ⟨.inl rfl, h hv⟩⟩

/-- Two states that differ give 1 or 2 (42_switch_state.md R181). -/
theorem inconsistentData_of_ne {st0 st1 : Bool} (h : st0 ≠ st1) :
    inconsistentData st0 st1 = 1#8 ∨ inconsistentData st0 st1 = 2#8 := by
  revert h
  cases st0 <;> cases st1 <;> decide

theorem Failure.OfBus.response_shaped {values : Prop} {f : Failure} (h : f.OfBus) (haz : BitVec 2) :
    (f.response haz).Shaped values := by
  cases h <;> simp [Failure.response, Response.Shaped]

theorem Failure.OfSwitch.response_shaped {values : Prop} {f : Failure} (h : f.OfSwitch) (haz : BitVec 2) :
    (f.response haz).Shaped values := by
  cases h with
  | bus h => exact h.response_shaped haz
  | inconsistent h =>
    exact ⟨fun _ => .inr ⟨rfl, inconsistentData_of_ne h⟩, fun _ => ⟨rfl, rfl⟩, fun hv => absurd rfl hv⟩

theorem Sweep.response_shaped {values : Prop} (p : Sweep) (haz : BitVec 2) (h : values) :
    (p.response haz).Shaped values := by
  refine ⟨fun _ => .inl rfl, fun _ => ⟨rfl, rfl⟩, fun _ => ⟨?_, h⟩⟩
  unfold Sweep.response
  cases p.failed
  · exact .inl rfl
  · exact .inr rfl

/-! ## The response of a unit that answers its command -/

/-- The response an answered unit delivered is the one it is answered with. -/
theorem Answered.of_deliver {s u : State} {q : Nat} {r r' : Response} (hq : q < s.reqs.length) (hu : u.reqs = s.reqs)
    (h : Answered s (u.deliver q r') q r) : r = r' := by
  have h1 := h.1
  rw [(answered_deliver hq hu).1] at h1
  simpa using (congrArg Requester.rsp h1).symm

/-- A unit that goes on does not answer its command. -/
theorem Answered.not_goesOn {s t : State} {q : Nat} {r : Response} {x : Requester} (h : Answered s t q r)
    (hx : GoesOn s t q x) : x.sweep = none ∧ x.rmw = none := by
  rw [← hx.1, h.1]
  exact ⟨rfl, rfl⟩

/-- A whole command is answered with the response of its reply or of its failure. -/
theorem wholeCommand_shaped {m : Run Reply} {s t : State} {q : Nat} {r : Response} {values : Prop} {P : Failure → Prop}
    (ho : s.OwnedBy q) (e : wholeCommand m s = .next t) (ha : Answered s t q r) (hv : Run.Evolving m)
    (hy : Run.Yields (fun v => v.vals ≠ [] → values) m) (hr : Run.Raises P m)
    (hP : ∀ f, P f → ∀ haz, (f.response haz).Shaped values) : r.Shaped values := by
  have hev := hv s
  cases hm : m s with
  | ok v u =>
    rw [hm] at hev
    rw [wholeCommand_ok ho.1 hm] at e
    cases e
    rw [ha.of_deliver ho.2 hev.reqs]
    exact v.response_shaped _ (hy s v u hm)
  | error f u =>
    rw [hm] at hev
    rw [wholeCommand_error ho.1 hm] at e
    cases e
    rw [ha.of_deliver ho.2 hev.reqs]
    exact hP f (hr s f u hm) _

/-- A whole command that replies without values. -/
theorem wholeCommand_shaped_bare {m : Run Reply} {s t : State} {q : Nat} {r : Response} {values : Prop}
    (ho : s.OwnedBy q) (e : wholeCommand m s = .next t) (ha : Answered s t q r) (hv : Run.Evolving m)
    (hy : Run.Yields Reply.Bare m) (hr : Run.Raises Failure.OfSwitch m) : r.Shaped values :=
  wholeCommand_shaped ho e ha hv (fun s v t h hne => absurd (hy s v t h) hne) hr fun _ hf haz => hf.response_shaped haz

/-- The response to a `SW_SET` that runs as separate units. -/
theorem swSetNextUnit_shaped {dev band chain : Nat} {st : Bool} {s t : State} {q : Nat} {r : Response} {values : Prop}
    (ho : s.OwnedBy q) (e : swSetNextUnit dev band chain st s = .next t) (ha : Answered s t q r) : r.Shaped values := by
  rw [swSetNextUnit_next ho.1] at e
  cases e
  have hev := swSetUnit_evolving dev band chain st ((s.req q).rmw.getD (.read 0)) s
  cases hm : swSetUnit dev band chain st ((s.req q).rmw.getD (.read 0)) s with
  | error f u =>
    rw [hm] at hev ha
    rw [ha.of_deliver ho.2 hev.reqs]
    exact (swSetUnit_raises _ _ _ _ _ s f u hm).response_shaped _
  | ok v u =>
    rw [hm] at hev ha
    cases v with
    | more pl => cases (ha.not_goesOn (goesOn_release ho.2 hev.reqs)).2
    | done v =>
      rw [ha.of_deliver ho.2 hev.reqs]
      exact v.response_shaped _ fun hne => absurd (swSetUnit_yields _ _ _ _ _ s _ u hm) hne

/-- The response at the end of a sweep; the points before it answer nothing. -/
theorem execMonSweep_shaped {s t : State} {q : Nat} {r : Response} {values : Prop} (ho : s.OwnedBy q)
    (e : execMonSweep s = .next t) (ha : Answered s t q r) (h : values) : r.Shaped values := by
  simp only [execMonSweep, ho.1] at e
  split at e
  · cases e
    cases (ha.not_goesOn (goesOn_release ho.2 (sweepPoint_evolves _ s).reqs)).1
  · cases e
    rw [ha.of_deliver ho.2 rfl]
    exact Sweep.response_shaped _ _ h

/-- The commands that may answer with values (10_state.md R33). -/
def ReturnsValues (i : Instr) : Prop :=
  (∃ x, i = .monRead x) ∨ (∃ c v, i = .monConvert c v) ∨ i = .monSweep

/-- The response of every command has its shape. -/
theorem exec_shaped (i : Instr) {s t : State} {q : Nat} {r : Response} (ho : s.OwnedBy q) (e : exec i s = .next t)
    (ha : Answered s t q r) : r.Shaped (ReturnsValues i) := by
  cases i with
  | lgAddr dm lg rd =>
    exact wholeCommand_shaped_bare ho e ha (lgAddr_evolving _ _) (lgAddr_yields _ _) (lgAddr_raises _ _).switch
  | lgWrite dm lg b =>
    exact wholeCommand_shaped_bare ho e ha (lgWrite_evolving _ _) (lgWrite_yields _ _) (lgWrite_raises _ _).switch
  | lgRead dm lg =>
    exact wholeCommand_shaped_bare ho e ha (lgRead_evolving _) (lgRead_yields _) (lgRead_raises _).switch
  | swGet dev band chain =>
    exact wholeCommand_shaped_bare ho e ha (swGet_evolving _ _ _) (swGet_yields _ _ _) (swGet_raises _ _ _)
  | swSet dev band chain st =>
    change execSwSet dev band chain st s = .next t at e
    unfold execSwSet at e
    split at e
    · exact wholeCommand_shaped_bare ho e ha (swSet_evolving _ _ _ _) (swSet_yields _ _ _ _) (swSet_raises _ _ _ _)
    · exact swSetNextUnit_shaped ho e ha
  | monSelect idx =>
    exact wholeCommand_shaped_bare ho e ha (monSelect_evolving _) (monSelect_yields _) (monSelect_raises _).switch
  | monRead idx =>
    exact wholeCommand_shaped ho e ha (monRead_evolving _) (fun _ _ _ _ _ => .inl ⟨idx, rfl⟩) (monRead_raises _)
      fun _ hf haz => hf.response_shaped haz
  | monConvert cat raw =>
    refine wholeCommand_shaped ho e ha (monConvert_evolving _ _) (fun _ _ _ _ _ => .inr (.inl ⟨cat, raw, rfl⟩))
      (monConvert_raises _ _) ?_
    rintro _ rfl haz
    exact ⟨fun _ => .inl rfl, fun _ => ⟨rfl, rfl⟩, fun hv => absurd rfl hv⟩
  | monSweep => exact execMonSweep_shaped ho e ha (.inr (.inr rfl))

/-- An answered unit delivers the hazard bits its work left. -/
theorem exec_haz (i : Instr) {s t : State} {q : Nat} {r : Response} (ho : s.OwnedBy q) (e : exec i s = .next t)
    (ha : Answered s t q r) : r.haz = t.haz := by
  obtain ⟨u, t', ht, hu, hend⟩ := exec_unit i ho.1
  rw [e] at ht
  cases ht
  cases hend with
  | answered r' h => rw [ha.of_deliver ho.2 hu.reqs]; exact h
  | sweeping p => cases (ha.not_goesOn (goesOn_release ho.2 hu.reqs)).1
  | setting p => cases (ha.not_goesOn (goesOn_release ho.2 hu.reqs)).2

/-- Settles O53: the hazard bits are those the unit left (`exec_haz`), and the shape follows from the failures a command
may raise and the values it may reply with (`exec_shaped`). -/
theorem responseShape : Obligations.ResponseShape :=
  fun i _ _ _ _ ho e ha => ⟨exec_haz i ho e ha, exec_shaped i ho e ha⟩

end Sys2Proof.Machine

namespace Sys2Proof.Machine

/-! ## The groups a command keeps -/

/-- The end of a unit changes no latch content. -/
theorem Kept.unitEnd {ws rs : List Nat} {s u t : State} {q : Nat} (h : Kept ws rs s u) (he : UnitEnd q u t) :
    Kept ws rs s t := by
  obtain ⟨hc, -, -, -, hl, -⟩ := he.parts
  exact ⟨hc.trans h.cfg, by rw [hl]; exact h.wf, by rw [hl]; exact h.out, by rw [hl]; exact h.sr⟩

/-- Groups kept from a clean start are as they were. -/
theorem KeptPart.of_clean {s : State} {a : Nat} {l l' : LByte} (h : KeptPart s a l l') (hs : s.Clean) : l' = l :=
  h.resolve_right fun h => h.1 hs

/-- From any start a kept content is as it was or, on the board, unknown. -/
theorem KeptPart.of_any {s : State} {a : Nat} {l l' : LByte} (h : KeptPart s a l l') :
    l' = l ∨ (a ∈ s.cfg.writeAddrs ∧ l' = .unknown) :=
  h.imp_right And.right

theorem wholeCommand_keeps {m : Run Reply} {s t : State} {q : Nat} {ws rs : List Nat} (ho : s.busOwner = some q)
    (hm : s.latches.wf = true) (hk : Run.Keeps s.cfg ws rs m) (e : wholeCommand m s = .next t) : Kept ws rs s t := by
  rw [wholeCommand_next ho] at e
  cases e
  exact (hk s rfl hm).1.unitEnd (State.finish_end q _)

/-- The groups a device's sub-switches name are among those its `SW_SET` writes and reads. -/
theorem swSet_groups {c : Config} {dev band chain : Nat} {st : Bool} {point : Nat} {d : Device}
    (hd : c.device dev = some d) {u : SubSwitch} (hu : u ∈ d.subs) :
    c.writeAddr u.ctlGrp ∈ writesOf c point (.swSet dev band chain st) ∧
      c.writeAddr u.ctlGrp ∈ readsOf c (.swSet dev band chain st) ∧
      c.writeAddr u.rbGrp ∈ readsOf c (.swSet dev band chain st) := by
  have hs : u ∈ subsOf c dev := by simpa [subsOf, hd] using hu
  have hctl := List.mem_map_of_mem (f := fun u : SubSwitch => c.writeAddr u.ctlGrp) hs
  have hrb := List.mem_map_of_mem (f := fun u : SubSwitch => c.writeAddr u.rbGrp) hs
  exact ⟨hctl, List.mem_append_left _ hctl, List.mem_append_right _ hrb⟩

/-- Every command keeps the groups it neither writes nor reads, whatever the environment answers. -/
theorem exec_keeps (i : Instr) {s t : State} {q : Nat} (ho : s.busOwner = some q) (hw : s.cfg.wf = true)
    (hm : s.latches.wf = true) (e : exec i s = .next t) :
    Kept (writesOf s.cfg ((s.req q).sweep.getD .start).next i) (readsOf s.cfg i) s t := by
  cases i with
  | lgAddr dm lg rd =>
    exact wholeCommand_keeps ho hm (.bind (.checkGroup _) fun _ => .still fun _ => ⟨rfl, rfl, rfl⟩) e
  | lgWrite dm lg b => exact wholeCommand_keeps ho hm (.bind (latchWrite_keeps hw _ _) fun _ => .pure _) e
  | lgRead dm lg => exact wholeCommand_keeps ho hm (.bind (latchRead_keeps hw _) fun _ => .pure _) e
  | swGet dev band chain =>
    refine wholeCommand_keeps ho hm (swGet_keeps hw _ _ _ fun d hd u hu => ?_) e
    exact List.mem_map_of_mem (by simpa [subsOf, hd] using hu)
  | swSet dev band chain st =>
    change execSwSet dev band chain st s = .next t at e
    unfold execSwSet at e
    split at e
    · exact wholeCommand_keeps ho hm (swSet_keeps hw _ _ _ _ fun d hd u hu => swSet_groups hd hu) e
    · rw [swSetNextUnit_next ho] at e
      cases e
      exact (swSetUnit_keeps hw _ _ _ _ _ (fun d hd u hu => swSet_groups hd hu) s rfl hm).1.unitEnd
        (State.finishSwSetUnit_end q _)
  | monSelect idx => exact wholeCommand_keeps ho hm (monSelect_keeps hw idx) e
  | monRead idx => exact wholeCommand_keeps ho hm (.bind (monReadings_keeps hw idx) fun _ => .pure _) e
  | monConvert cat raw =>
    refine wholeCommand_keeps ho hm (.still fun s => ?_) e
    unfold monConvert
    split <;> exact ⟨rfl, rfl, rfl⟩
  | monSweep =>
    change execMonSweep s = .next t at e
    simp only [execMonSweep, ho] at e
    split at e
    · cases e
      have hk := (monReadings_keeps hw ((s.req q).sweep.getD .start).next s rfl hm).1
      rw [← sweepPoint_state] at hk
      exact hk.unitEnd (.sweeping _)
    · cases e
      exact (Kept.refl hm).unitEnd (.answered _ rfl)

/-- A whole command whose work touches neither latches, lines nor hazard bits. -/
theorem wholeCommand_still {m : Run Reply} {s t : State} {q : Nat} (ho : s.busOwner = some q)
    (hm : (after (m s)).latches = s.latches ∧ (after (m s)).lines = s.lines ∧ (after (m s)).haz = s.haz)
    (e : wholeCommand m s = .next t) : t.latches = s.latches ∧ t.lines = s.lines ∧ t.haz = s.haz := by
  rw [wholeCommand_next ho] at e
  cases e
  obtain ⟨-, hh, -, -, hl, hn, -⟩ := (State.finish_end q (m s)).parts
  exact ⟨hl.trans hm.1, hn.trans hm.2.1, hh.trans hm.2.2⟩

/-- `LG_ADDR` checks the index and computes the address (41_latch_protocol.md R133). -/
theorem lgAddr_eq (g : Group) (rd : Bool) (s : State) :
    lgAddr g rd s =
      if s.cfg.validGroup g then .ok ⟨BitVec.ofNat 8 (s.cfg.groupAddr g rd), []⟩ s else .error .badIndex s := by
  by_cases hg : s.cfg.validGroup g = true
  · rw [if_pos hg]
    exact bind_ok (m := checkGroup g) (a := ()) (t := s) (by simp [checkGroup, hg])
  · rw [if_neg hg]
    exact bind_error (m := checkGroup g) (by simp [checkGroup, hg])

/-- `LG_ADDR` performs no pin primitive (41_latch_protocol.md R133). -/
theorem execLgAddr_still {dm lg : Nat} {rd : Bool} {s t : State} {q : Nat} (ho : s.busOwner = some q)
    (e : exec (.lgAddr dm lg rd) s = .next t) : t.latches = s.latches ∧ t.lines = s.lines ∧ t.haz = s.haz := by
  refine wholeCommand_still ho ?_ e
  rw [lgAddr_eq]
  split <;> exact ⟨rfl, rfl, rfl⟩

/-- `MON_CONVERT` performs no pin primitive (43_monitor_mux.md R225). -/
theorem execMonConvert_still {cat : Nat} {raw : Volts} {s t : State} {q : Nat} (ho : s.busOwner = some q)
    (e : exec (.monConvert cat raw) s = .next t) : t.latches = s.latches ∧ t.lines = s.lines ∧ t.haz = s.haz := by
  refine wholeCommand_still ho ?_ e
  unfold monConvert
  split <;> exact ⟨rfl, rfl, rfl⟩

/-- Settles O57: every meaning is work that only evolves the state and then one of the ends of a unit (`exec_unit`), and
the groups it neither writes nor reads are kept (`exec_keeps`). -/
theorem unitFrame : Obligations.UnitFrame := by
  intro i s t q ⟨ho, hq⟩ e
  obtain ⟨u, t', ht, hu, hend⟩ := exec_unit i ho
  rw [e] at ht
  cases ht
  have hreq (p : Nat) : u.req p = s.req p := by rw [State.req, hu.reqs]; rfl
  obtain ⟨hc, -, -, -, hl, -, he, hb, hlen, hother, hsub⟩ := hend.parts
  refine ⟨hc.trans hu.cfg, by simpa only [SamePremises, he] using hu.premises, fun p hp => (hother p hp).trans (hreq p),
    by rw [hlen, hu.reqs], by rw [hsub (by rwa [hu.reqs]), hreq], hb,
    fun hm => by simpa only [State.MemOk, hl, hc] using hu.mem hm, ?_, ?_, ?_, ?_⟩
  · intro hw hm hs
    have hk := exec_keeps i ho hw hm.1 e
    exact ⟨fun a ha => (hk.out a ha).of_clean hs, fun a ha hr => (hk.sr a ha hr).of_clean hs⟩
  · intro hw hm
    have hk := exec_keeps i ho hw hm.1 e
    exact ⟨fun a ha => (hk.out a ha).of_any, fun a ha hr => (hk.sr a ha hr).of_any⟩
  · rintro dm lg rd rfl
    exact execLgAddr_still ho e
  · rintro cat raw rfl
    exact execMonConvert_still ho e

/-! ## Reset -/

/-- Every requester of the launch state is idle. -/
theorem State.launch_req (c : Config) (q : Nat) : (State.launch c).req q = .idle := by
  simp only [State.req, State.launch, List.getElem?_replicate]
  split <;> rfl

/-- Settles O9: each field is read off `State.launch`, and no requester's record is anything but idle. -/
theorem resetValues : Obligations.ResetValues := by
  refine ⟨rfl, fun c => ⟨rfl, rfl, fun q => ?_, rfl, rfl, rfl, fun a => rfl, rfl⟩⟩
  rw [State.launch_req]
  exact ⟨rfl, rfl, rfl⟩

/-- A launch state meets the scheduler's invariant: every record is idle. -/
theorem State.launch_schedOk (c : Config) : (State.launch c).SchedOk := by
  refine ⟨List.length_replicate, rfl, fun r hr => ?_⟩
  rw [List.eq_of_mem_replicate hr]
  exact Requester.ok_of_none rfl rfl

/-- Settles O10: CFG-SW passes every check, and a launch state lists no latch, drives the address lines to their reset
level and has idle requesters on a clean bus. -/
theorem resetInvariants : Obligations.ResetInvariants :=
  ⟨by decide, ⟨rfl, fun _ he => absurd he List.not_mem_nil⟩, .inl rfl, State.launch_schedOk _, rfl⟩

/-! ## The response word -/

/-- The bits of a packed response, one by one. -/
theorem Response.word_getLsbD (r : Response) (k : Nat) :
    r.word.getLsbD k =
      if k < 4 then r.status.code.getLsbD k
      else if k < 6 then r.haz.getLsbD (k - 4)
      else if k < 8 then false
      else if k < 16 then r.data.getLsbD (k - 8)
      else if k < 24 then r.exp.getLsbD (k - 16)
      else r.obs.getLsbD (k - 24) := by
  simp only [Response.word, BitVec.getLsbD_append]
  grind

/-- Settles O51: bit for bit, each field is read at its place (`Response.word_getLsbD`). -/
theorem responseWord : Obligations.ResponseWord := by
  intro r
  refine ⟨?_, ?_, ?_, ?_, ?_, ?_⟩
  all_goals
    apply BitVec.eq_of_getLsbD_eq
    intro k hk
    simp only [BitVec.getLsbD_extractLsb', r.word_getLsbD]
    grind

end Sys2Proof.Machine

namespace Sys2Proof.Machine

/-! ## The block of a unit -/

/-- How a unit of `q` leaves its command, from the state `u` its work left, and the events of its end: still pending with
none, or answered with the `end` event (60_exceptions.md R287). -/
inductive Leaves (q : Nat) (u : State) : State → List Event → Prop where
  | pending (r : Requester) (hp : r.pending = (u.req q).pending) (hr : r.rsp = (u.req q).rsp) :
    Leaves q u (u.setReq q r).release []
  | answered (r : Response) : Leaves q u (u.deliver q r) [.endCmd q r]

/-- What either end leaves to the trace, the bus and the requesters. -/
theorem Leaves.parts {q : Nat} {u t : State} {ends : List Event} (h : Leaves q u t ends) (hq : q < u.reqs.length) :
    t.trace = u.trace ++ ends ∧ (∀ p, p ≠ q → t.req p = u.req p) ∧ t.busOwner = none ∧
      ((ends = [] ∧ (t.req q).pending = (u.req q).pending ∧ (t.req q).rsp = (u.req q).rsp) ∨
        ∃ r, ends = [.endCmd q r] ∧ (t.req q).pending = none ∧ (t.req q).rsp = some r ∧ (t.req q).sweep = none ∧
          (t.req q).rmw = none) := by
  cases h with
  | pending r hp hr =>
    obtain ⟨hreq, hother, -, hb⟩ := goesOn_release (r := r) hq (rfl : u.reqs = u.reqs)
    rw [hreq]
    exact ⟨(List.append_nil _).symm, hother, hb, .inl ⟨rfl, hp, hr⟩⟩
  | answered r =>
    obtain ⟨hreq, hother, -, hb⟩ := answered_deliver (r := r) hq (rfl : u.reqs = u.reqs)
    rw [hreq]
    exact ⟨rfl, hother, hb, .inr ⟨r, rfl, rfl, rfl, rfl, rfl⟩⟩

/-- A unit that delivered a response ends with an `end` event. -/
theorem Leaves.ends_ne_nil {q : Nat} {u v t : State} {ends : List Event} {r : Response} (h : Leaves q u t ends)
    (hq : q < u.reqs.length) (hp : (u.req q).pending ≠ none) (ht : t = v.deliver q r) (hv : v.reqs = u.reqs) :
    ends ≠ [] := by
  subst ht
  rintro rfl
  rcases (h.parts hq).2.2.2 with ⟨-, h1, -⟩ | ⟨r', h1, -⟩
  · rw [(answered_deliver hq hv).1] at h1
    exact hp h1.symm
  · cases h1

theorem UnitEnd.leaves {q : Nat} {u t : State} (h : UnitEnd q u t) : ∃ ends, Leaves q u t ends := by
  cases h with
  | answered r _ => exact ⟨_, .answered r⟩
  | sweeping p => exact ⟨_, .pending _ rfl rfl⟩
  | setting p => exact ⟨_, .pending _ rfl rfl⟩

/-- What the events of a unit's work tell of its end: one of them failed exactly if the command ends with `IO_FAIL`, and
after `ADDR_MISMATCH` the last is the port read that showed the byte observed (60_exceptions.md R262, R263). -/
def TellsEnd (q : Nat) (pins ends : List Event) : Prop :=
  ((∃ e ∈ pins, e.failedAt ≠ none) ↔ ∃ r, ends = [.endCmd q r] ∧ r.status = .ioFail) ∧
    ∀ r, ends = [.endCmd q r] → r.status = .addrMismatch → pins.getLast? = some (.readPort (some r.obs))

/-- Events none of which failed tell of an end other than these two. -/
theorem TellsEnd.of_none {q : Nat} {pins ends : List Event} (h : pins.filterMap Event.failedAt = [])
    (he : ∀ r, ends = [.endCmd q r] → r.status ≠ .ioFail ∧ r.status ≠ .addrMismatch) : TellsEnd q pins ends :=
  ⟨⟨fun ⟨e, hm, hf⟩ => absurd (List.filterMap_eq_nil_iff.1 h e hm) hf, fun ⟨r, hr, hs⟩ => absurd hs (he r hr).1⟩,
    fun r hr hs => absurd hs (he r hr).2⟩

/-- Events that end as a failure's do tell of the response to it. -/
theorem EndsWith.tellsEnd {f : Failure} {pins : List Event} (h : EndsWith f pins) (q : Nat) (haz : BitVec 2) :
    TellsEnd q pins [.endCmd q (f.response haz)] := by
  cases f with
  | ioFail =>
    obtain ⟨before, e, p, rfl, he, -⟩ := h
    refine ⟨⟨fun _ => ⟨_, rfl, rfl⟩, fun _ => ⟨e, by simp, by simp [he]⟩⟩, fun r hr hs => ?_⟩
    cases hr
    cases hs
  | addrMismatch exp obs =>
    obtain ⟨before, rfl, hb⟩ := h
    have hnone : (before ++ [Event.readPort (some obs)]).filterMap Event.failedAt = [] := by
      rw [List.filterMap_append, hb]; rfl
    refine ⟨⟨fun ⟨e, hm, hf⟩ => absurd (List.filterMap_eq_nil_iff.1 hnone e hm) hf, fun ⟨r, hr, hs⟩ => ?_⟩,
      fun r hr _ => ?_⟩
    · cases hr
      cases hs
    · cases hr
      exact List.getLast?_concat
  | inconsistent | badIndex | badLabel | illegal =>
    refine .of_none h fun r hr => ?_
    cases hr
    exact ⟨nofun, nofun⟩

/-- How the events of a unit that is no sweep's and its end agree. -/
theorem Told.leaves {q : Nat} {u t : State} {pins : List Event} (h : Told q u t pins) :
    ∃ ends, Leaves q u t ends ∧ (pins.filterMap Event.failedAt = [] ∨ ∃ f, EndsWith f pins) ∧
      TellsEnd q pins ends := by
  cases h with
  | goesOn h r hp hr ht =>
    subst ht
    exact ⟨_, .pending r hp hr, .inl h, .of_none h nofun⟩
  | answered h r hr ht =>
    subst ht
    refine ⟨_, .answered r, .inl h, .of_none h fun r' hr' => ?_⟩
    cases hr'
    rw [hr]
    exact ⟨nofun, nofun⟩
  | failed f h ht =>
    subst ht
    exact ⟨_, .answered _, .inr ⟨f, h⟩, h.tellsEnd q _⟩

/-- What a unit for a pending command runs: a sweep's next part, or the command, decoded. -/
theorem runUnit_pending {s : State} {q : Nat} {c : Command} (hp : (s.req q).pending = some c) :
    runUnit q s =
      if (s.req q).sweep = none then
        match decode c with
        | .illegal _ => .next (s.raise q .illegal)
        | .instr i => exec i s
      else exec .monSweep s := by
  unfold runUnit State.fetch
  rw [hp]
  cases (s.req q).sweep with
  | none => cases h : decode c <;> simp [h]
  | some p => rfl

/-- The work of a unit for a pending command, the events it recorded, and its end. -/
theorem runUnit_block {s t : State} {q : Nat} {c : Command} (ho : s.busOwner = some q) (hp : (s.req q).pending = some c)
    (h : runUnit q s = .next t) :
    ∃ u pins rs ends, Evolves s u ∧ Recorded AnyEvent s u pins rs ∧ Leaves q u t ends ∧
      (pins.filterMap Event.failedAt = [] ∨ ∃ f, EndsWith f pins) ∧
      ((s.req q).sweep = none → decode c ≠ .instr .monSweep → TellsEnd q pins ends) := by
  have sweeping (h : exec .monSweep s = .next t) : ∃ u pins rs ends, Evolves s u ∧ Recorded AnyEvent s u pins rs ∧
      Leaves q u t ends ∧ (pins.filterMap Event.failedAt = [] ∨ ∃ f, EndsWith f pins) := by
    obtain ⟨u, pins, rs, hv, hr, he, hf⟩ := execMonSweep_told ho h
    obtain ⟨ends, hl⟩ := he.leaves
    exact ⟨u, pins, rs, ends, hv, hr, hl, hf⟩
  rw [runUnit_pending hp] at h
  split at h
  · cases hd : decode c with
    | illegal =>
      rw [hd] at h
      cases h
      exact ⟨s, [], [], _, .refl s, .refl s, .answered _, .inl rfl,
        fun _ _ => EndsWith.tellsEnd (f := .illegal) (pins := []) rfl q _⟩
    | instr i =>
      rw [hd] at h
      by_cases hi : i = .monSweep
      · subst hi
        obtain ⟨u, pins, rs, ends, hv, hr, hl, hf⟩ := sweeping h
        exact ⟨u, pins, rs, ends, hv, hr, hl, hf, fun _ hne => absurd rfl hne⟩
      · obtain ⟨u, pins, rs, hv, hr, ht⟩ := exec_told i ho hi h
        obtain ⟨ends, hl, hf, htell⟩ := ht.leaves
        exact ⟨u, pins, rs, ends, hv, hr, hl, hf, fun _ _ => htell⟩
  · rename_i hs
    obtain ⟨u, pins, rs, ends, hv, hr, hl, hf⟩ := sweeping h
    exact ⟨u, pins, rs, ends, hv, hr, hl, hf, fun hn => absurd hn hs⟩

/-- A command that is neither a sweep nor a non-atomic `SW_SET` is answered by its one unit (60_exceptions.md R286). -/
theorem runUnit_answered {s t : State} {q : Nat} {c : Command} (ho : s.busOwner = some q)
    (hp : (s.req q).pending = some c) (hs : (s.req q).sweep = none) (hd : decode c ≠ .instr .monSweep)
    (ha : s.cfg.rmwAtomic = true ∨ ∀ dev band chain st, decode c ≠ .instr (.swSet dev band chain st))
    (h : runUnit q s = .next t) : ∃ (v : State) (r : Response), v.reqs = s.reqs ∧ t = v.deliver q r := by
  rw [runUnit_pending hp, if_pos hs] at h
  cases hi : decode c with
  | illegal =>
    rw [hi] at h
    cases h
    exact ⟨s, _, rfl, rfl⟩
  | instr i =>
    rw [hi] at h hd
    simp only [hi, ne_eq, Decoded.instr.injEq] at ha hd
    obtain ⟨v, r, hv, ht, -⟩ := exec_answered i ho hd ha h
    exact ⟨v, r, hv.reqs, ht⟩

/-- What the state a chosen unit runs from has of the state before the step. -/
theorem State.chooseMove_grant_parts (s : State) (q : Nat) :
    (s.chooseMove.2.grant q).cfg = s.cfg ∧ (s.chooseMove.2.grant q).reqs = s.reqs ∧
      (s.chooseMove.2.grant q).lines = s.lines := by
  obtain ⟨n, rest, he⟩ := s.chooseMove_eq
  obtain ⟨hc, hr, hl, -⟩ := s.chooseMove.2.grant_parts q
  rw [hc, hr, hl, he]
  exact ⟨rfl, rfl, rfl⟩

/-- Settles O56: granting appends the `begin` event (`State.grant_trace`), the work of the unit appends pin events only
(`Evolves`), and how these end and what the unit's end appends is told by `runUnit_block`. -/
theorem unitsAreBlocks : Obligations.UnitsAreBlocks := by
  intro s t q c h hg hp
  have hq := (State.mem_moves_grant.1 (State.chooseMove_mem hg)).1
  rw [step_grant (step_cases h).1 hg] at h
  obtain ⟨gc, gr, -⟩ := s.chooseMove_grant_parts q
  have htrace : (s.chooseMove.2.grant q).trace = s.trace ++
      if (s.req q).sweep = none ∧ (s.req q).rmw = none then [.beginCmd q c.word] else [] := by
    obtain ⟨n, rest, he⟩ := s.chooseMove_eq
    rw [he]
    exact State.grant_trace hp
  have greq : (s.chooseMove.2.grant q).req q = s.req q := by rw [State.req, gr]; rfl
  have ho := s.chooseMove.2.grant_busOwner q
  obtain ⟨u, pins, rs, ends, hv, hr, hl, hf, htell⟩ := runUnit_block ho (by rw [greq, hp]) h
  have ureqs : u.reqs = s.reqs := hv.reqs.trans gr
  have ureq (p : Nat) : u.req p = s.req p := by rw [State.req, ureqs]; rfl
  have hqu : q < u.reqs.length := by rwa [ureqs]
  obtain ⟨lt, lother, lb, lend⟩ := hl.parts hqu
  simp only [ureq, hp] at lother lend
  rw [greq] at htell
  refine ⟨_, pins, ends, ?_, ?_, rfl, lother, lb, lend, fun hs hd ha => ?_, fun i e => failed_last hf, htell⟩
  · rw [lt, hr.trace, htrace]
  · obtain ⟨seg, hseg, hpin⟩ := hv.trace
    rwa [List.append_cancel_left (hseg.symm.trans hr.trace)] at hpin
  · obtain ⟨v, r, hvr, ht⟩ := runUnit_answered ho (by rw [greq, hp]) (by rw [greq, hs]) hd (by rwa [gc]) h
    exact hl.ends_ne_nil hqu (by simp [ureq, hp]) ht (hvr.trans hv.reqs.symm)

end Sys2Proof.Machine

namespace Sys2Proof.Machine

/-! ## The address lines -/

/-- What the invariant of the address lines depends on. -/
theorem State.AddrOk.of_same {s t : State} (h : s.AddrOk) (hc : t.cfg = s.cfg) (hl : t.lines.addr = s.lines.addr) :
    t.AddrOk := by
  rw [State.AddrOk, hc, hl]
  exact h

/-- A part of a command that, on a board of this configuration, leaves no foreign address on the address lines. -/
def Run.KeepsAddr {α : Type} (c : Config) (m : Run α) : Prop :=
  ∀ s, s.cfg = c → s.AddrOk → (after (m s)).cfg = c ∧ (after (m s)).AddrOk

/-- An event that does not move the address lines. -/
def Event.OffAddress (e : Event) : Prop := ∀ l : Lines, (l.replay e).addr = l.addr

theorem foldl_replay_addr {es : List Event} (h : ∀ e ∈ es, e.OffAddress) (l : Lines) :
    (es.foldl Lines.replay l).addr = l.addr := by
  induction es generalizing l with
  | nil => rfl
  | cons e es ih =>
    obtain ⟨he, hes⟩ := List.forall_mem_cons.1 h
    exact (ih hes _).trans (he l)

theorem Event.offAddress_drive {n : Line} (hn : ∀ i, n ≠ .a i) (v ok : Bool) : (Event.drive n v ok).OffAddress := by
  intro l
  cases n with
  | a i => exact absurd rfl (hn i)
  | _ => cases ok <;> rfl

namespace Run.KeepsAddr

variable {α β : Type} {c : Config}

theorem bind {m : Run α} {f : α → Run β} (hm : Run.KeepsAddr c m) (hf : ∀ a, Run.KeepsAddr c (f a)) :
    Run.KeepsAddr c (m >>= f) := by
  intro s hc hs
  obtain ⟨h1, h2⟩ := hm s hc hs
  cases h : m s with
  | ok a t => rw [h] at h1 h2; rw [bind_ok h]; exact hf a t h1 h2
  | error e t => rw [h] at h1 h2; rw [bind_error h]; exact ⟨h1, h2⟩

/-- A part whose events move no address line. -/
theorem of_recorded {m : Run α} (hr : Run.Recorded Event.OffAddress m) (hv : Run.Evolving m) : Run.KeepsAddr c m := by
  intro s hc hs
  obtain ⟨es, rs, h⟩ := hr.after s
  refine ⟨(hv s).cfg.trans hc, hs.of_same (hv s).cfg ?_⟩
  rw [h.lines]
  exact foldl_replay_addr h.only _

/-- A part with no event and nothing else that moves a line. -/
theorem still {m : Run α} (h : ∀ s, (after (m s)).cfg = s.cfg ∧ (after (m s)).lines = s.lines) : Run.KeepsAddr c m :=
  fun s hc hs => ⟨(h s).1.trans hc, hs.of_same (h s).1 (by rw [(h s).2])⟩

theorem pure (a : α) : Run.KeepsAddr c (Pure.pure a : Run α) := still fun _ => ⟨rfl, rfl⟩

theorem orBadIndex (o : State → Option α) : Run.KeepsAddr c (fun s => Machine.orBadIndex (o s) s) :=
  .of_recorded (.orBadIndex o) fun s => orBadIndex_evolving (o s) s

/-- A successful address select leaves the address on the lines, a failed one leaves them unknown
(41_latch_protocol.md R126). -/
theorem driveAddr {a w : Nat} (hw : w ∈ c.writeAddrs) (ha : a = w ∨ a = w + 4) :
    Run.KeepsAddr c (Machine.driveAddr a) := by
  intro s hc _
  have hcfg : (after (Machine.driveAddr a s)).cfg = c := (driveAddr_evolving a s).cfg.trans hc
  refine ⟨hcfg, ?_⟩
  cases h : Machine.driveAddrLines (BitVec.ofNat 8 a) [7, 6, 5, 4, 3, 2, 1, 0] s with
  | error e t =>
    have hd : Machine.driveAddr a s = .error e t.loseAddr := bind_error (onFailure_error h)
    rw [hd]
    exact .inr (.inl rfl)
  | ok b t =>
    have hd : Machine.driveAddr a s = .ok () (t.event .settle) := bind_ok (onFailure_ok h)
    have hl : (t.event .settle).lines.addr = .ofAddr a := by rw [Run.Moves.driveAddr a s _ _ hd]
    rw [hd] at hcfg ⊢
    refine .inr (.inr ⟨w, ?_, ?_⟩)
    · rw [show (after _ : State).cfg = c from hcfg]
      exact hw
    · show (t.event .settle).lines.addr = _ ∨ (t.event .settle).lines.addr = _
      rw [hl]
      exact ha.imp (congrArg LByte.ofAddr) (congrArg LByte.ofAddr)

/-- The index check of a transaction lets only groups of the board through (41_latch_protocol.md R128). -/
theorem checkedGroup {g : Group} {f : Nat → Run α}
    (hf : c.writeAddr g ∈ c.writeAddrs → Run.KeepsAddr c (f (c.writeAddr g))) :
    Run.KeepsAddr c (do checkGroup g; let w ← writeAddrOf g; f w) := by
  intro s hc hs
  by_cases hg : s.cfg.validGroup g = true
  · have hrun : (do checkGroup g; let w ← writeAddrOf g; f w : Run α) s = f (s.cfg.writeAddr g) s :=
      (bind_ok (a := ()) (t := s) (by simp [checkGroup, hg])).trans (bind_ok rfl)
    rw [hrun, hc]
    exact hf (Config.writeAddr_mem (hc ▸ hg)) s hc hs
  · have hrun : (do checkGroup g; let w ← writeAddrOf g; f w : Run α) s = .error .badIndex s :=
      bind_error (by simp [checkGroup, hg])
    rw [hrun]
    exact ⟨hc, hs⟩

theorem startTransaction : Run.KeepsAddr c Machine.startTransaction :=
  .of_recorded .startTransaction startTransaction_evolving

theorem verify (sent : Nat) (accepted : List Nat) : Run.KeepsAddr c (Machine.verify sent accepted) :=
  .of_recorded (.verify (fun _ _ => rfl) _ _) (verify_evolving _ _)

theorem latchWrite (g : Group) (b : Byte) : Run.KeepsAddr c (Machine.latchWrite g b) := by
  refine .checkedGroup fun hw => .bind .startTransaction fun dirty => .bind (.driveAddr hw (.inl rfl)) fun _ =>
    .bind (.verify _ _) fun _ => .bind (.of_recorded ?_ ?_) fun _ => .still fun s => ?_
  · exact .onFailure (.sendByte (Event.offAddress_drive (by simp)) (Event.offAddress_drive (by simp))
      (Event.offAddress_drive (by simp)) (fun _ => rfl) b) fun s => ⟨rfl, rfl, rfl⟩
  · exact (sendByte_evolving b).onFailure fun s => .forget s _
  · cases dirty <;> exact ⟨rfl, rfl⟩

theorem latchRead (g : Group) : Run.KeepsAddr c (Machine.latchRead g) := by
  refine .checkedGroup fun hw => .bind .startTransaction fun dirty => .bind (.driveAddr hw (.inr rfl)) fun _ =>
    .bind (.verify _ _) fun _ => .bind (.still fun s => ?_) fun _ => .bind (.of_recorded ?_ receiveByte_evolving) fun v =>
      .still fun s => ?_
  · show (if s.lines.busen = .hi then s else s.setHaz hazLoaden).cfg = _ ∧
      (if s.lines.busen = .hi then s else s.setHaz hazLoaden).lines = _
    split <;> exact ⟨rfl, rfl⟩
  · exact .receiveByte (fun _ _ => rfl) (Event.offAddress_drive (by simp)) (Event.offAddress_drive (by simp))
      (Event.offAddress_drive (by simp)) fun _ => rfl
  · unfold drawIf State.readByteDraw State.countDraw
    repeat' split
    all_goals exact ⟨rfl, rfl⟩

theorem resolveReadback (band chain : Nat) (ss : List SubSwitch) :
    Run.KeepsAddr c (Machine.resolveReadback band chain ss) := by
  induction ss with
  | nil => exact .pure _
  | cons s ss ih => exact .bind (.orBadIndex _) fun _ => .bind ih fun _ => .pure _

theorem resolveControl (band chain : Nat) (ss : List SubSwitch) :
    Run.KeepsAddr c (Machine.resolveControl band chain ss) := by
  induction ss with
  | nil => exact .pure _
  | cons s ss ih =>
    exact .bind (.orBadIndex _) fun _ => .bind (.orBadIndex _) fun _ => .bind ih fun _ => .pure _

theorem readSub (s : SubSwitch) (o : Nat) : Run.KeepsAddr c (Machine.readSub s o) :=
  .bind (.latchRead _) fun _ => .pure _

theorem readSubs (ss : List (SubSwitch × Nat)) : Run.KeepsAddr c (Machine.readSubs ss) := by
  induction ss with
  | nil => exact .pure _
  | cons s ss ih => exact .bind (.readSub _ _) fun _ => .bind ih fun _ => .pure _

theorem agree (dev : Nat) (sts : List Bool) : Run.KeepsAddr c (Machine.agree dev sts) := by
  match sts with
  | [] => exact .still fun _ => ⟨rfl, rfl⟩
  | [_] => exact .pure _
  | [st0, st1] =>
    show Run.KeepsAddr c (if st0 = st1 then Pure.pure (.ofState st0) else disagree dev st0 st1)
    split
    · exact .pure _
    · exact .still fun _ => ⟨rfl, rfl⟩
  | _ :: _ :: _ :: _ => exact .still fun _ => ⟨rfl, rfl⟩

theorem swGet (dev band chain : Nat) : Run.KeepsAddr c (Machine.swGet dev band chain) :=
  .bind (.orBadIndex _) fun _ => .bind (.resolveReadback _ _ _) fun _ => .bind (.readSubs _) fun _ => .agree _ _

theorem writeSubs (st : Bool) (ss : List (SubSwitch × Nat)) : Run.KeepsAddr c (Machine.writeSubs st ss) := by
  induction ss with
  | nil => exact .pure _
  | cons s ss ih => exact .bind (.latchRead _) fun _ => .bind (.latchWrite _ _) fun _ => ih

theorem swSet (dev band chain : Nat) (st : Bool) : Run.KeepsAddr c (Machine.swSet dev band chain st) :=
  .bind (.orBadIndex _) fun _ => .bind (.resolveControl _ _ _) fun _ => .bind (.writeSubs _ _) fun _ => .swGet _ _ _

theorem swSetUnit (dev band chain : Nat) (st : Bool) (place : RmwPlace) :
    Run.KeepsAddr c (Machine.swSetUnit dev band chain st place) := by
  refine .bind (.orBadIndex _) fun d => .bind (.resolveControl _ _ _) fun cs => ?_
  cases place with
  | read j => exact .bind (.orBadIndex fun _ => _) fun _ => .bind (.latchRead _) fun _ => .pure _
  | write j cur =>
    exact .bind (.orBadIndex fun _ => _) fun _ => .bind (.orBadIndex fun _ => _) fun _ =>
      .bind (.latchWrite _ _) fun _ => .pure _
  | confirm j sts =>
    refine .bind (.orBadIndex fun _ => _) fun _ => .bind (.orBadIndex _) fun _ => .bind (.readSub _ _) fun v => ?_
    split
    · exact .pure _
    · exact .bind (.agree _ _) fun _ => .pure _

theorem selectEntry (e : MonEntry) : Run.KeepsAddr c (Machine.selectEntry e) :=
  .bind (.latchWrite _ _) fun _ => .latchWrite _ _

theorem readOuts (os : List MonOut) : Run.KeepsAddr c (Machine.readOuts os) := by
  induction os with
  | nil => exact .pure _
  | cons o os ih =>
    exact .bind (.of_recorded (.readAnalog (fun _ _ _ => rfl) _) (readAnalog_evolving _)) fun _ => .bind ih fun _ => .pure _

theorem monReadings (i : Nat) : Run.KeepsAddr c (Machine.monReadings i) :=
  .bind (.orBadIndex _) fun _ => .bind (.selectEntry _) fun _ => .readOuts _

end Run.KeepsAddr

/-- The end of a unit moves no line. -/
theorem UnitEnd.addrOk {q : Nat} {u t : State} (h : UnitEnd q u t) (hu : u.AddrOk) : t.AddrOk := by
  obtain ⟨hc, -, -, -, -, hl, -⟩ := h.parts
  exact hu.of_same hc (by rw [hl])

theorem wholeCommand_addrOk {m : Run Reply} {s t : State} {q : Nat} (ho : s.busOwner = some q) (hs : s.AddrOk)
    (hm : Run.KeepsAddr s.cfg m) (e : wholeCommand m s = .next t) : t.AddrOk := by
  rw [wholeCommand_next ho] at e
  cases e
  exact (State.finish_end q _).addrOk (hm s rfl hs).2

/-- Every command drives addresses of groups of the board only (20_memory.md R62). -/
theorem exec_addrOk (i : Instr) {s t : State} {q : Nat} (ho : s.busOwner = some q) (hs : s.AddrOk)
    (e : exec i s = .next t) : t.AddrOk := by
  cases i with
  | lgAddr dm lg rd =>
    refine wholeCommand_addrOk ho hs (.still fun s => ?_) e
    rw [lgAddr_eq]
    split <;> exact ⟨rfl, rfl⟩
  | lgWrite dm lg b => exact wholeCommand_addrOk ho hs (.bind (.latchWrite _ _) fun _ => .pure _) e
  | lgRead dm lg => exact wholeCommand_addrOk ho hs (.bind (.latchRead _) fun _ => .pure _) e
  | swGet dev band chain => exact wholeCommand_addrOk ho hs (.swGet _ _ _) e
  | swSet dev band chain st =>
    change execSwSet dev band chain st s = .next t at e
    unfold execSwSet at e
    split at e
    · exact wholeCommand_addrOk ho hs (.swSet _ _ _ _) e
    · rw [swSetNextUnit_next ho] at e
      cases e
      exact (State.finishSwSetUnit_end q _).addrOk (Run.KeepsAddr.swSetUnit _ _ _ _ _ s rfl hs).2
  | monSelect idx =>
    exact wholeCommand_addrOk ho hs (.bind (.orBadIndex _) fun _ => .bind (.selectEntry _) fun _ => .pure _) e
  | monRead idx => exact wholeCommand_addrOk ho hs (.bind (.monReadings _) fun _ => .pure _) e
  | monConvert cat raw =>
    refine wholeCommand_addrOk ho hs (.still fun s => ?_) e
    unfold monConvert
    split <;> exact ⟨rfl, rfl⟩
  | monSweep =>
    change execMonSweep s = .next t at e
    simp only [execMonSweep, ho] at e
    split at e
    · cases e
      have hk := (Run.KeepsAddr.monReadings ((s.req q).sweep.getD .start).next s rfl hs).2
      rw [← sweepPoint_state] at hk
      exact (UnitEnd.sweeping _).addrOk hk
    · cases e
      exact (UnitEnd.answered _ rfl).addrOk hs

/-- A granted unit leaves no foreign address on the lines. -/
theorem runUnit_addrOk {s t : State} {q : Nat} (ho : s.busOwner = some q) (hs : s.AddrOk) (h : runUnit q s = .next t) :
    t.AddrOk := by
  unfold runUnit at h
  split at h
  · cases h
    exact hs
  · cases h
    exact (UnitEnd.answered _ rfl).addrOk hs
  · exact exec_addrOk _ ho hs h

/-- Settles O59: outside a unit no line moves, and within one only `DriveAddr` moves the address lines, after the index
check has let a group of the board through (`Run.KeepsAddr.checkedGroup`). -/
theorem stepKeepsAddressLines : Obligations.StepKeepsAddressLines := by
  intro s t hs h
  obtain ⟨n, rest, he⟩ := s.chooseMove_eq
  obtain ⟨-, rfl | ⟨q, rfl⟩ | ⟨q, hr⟩⟩ := step_cases h
  · rw [he]
    exact hs
  · obtain ⟨k, c, l, hk⟩ := s.chooseMove.2.submit_eq q
    rw [hk, he]
    exact hs
  · obtain ⟨gc, -, gl⟩ := s.chooseMove_grant_parts q
    exact runUnit_addrOk (State.grant_busOwner _ q) (hs.of_same gc (by rw [gl])) hr

end Sys2Proof.Machine

namespace Sys2Proof

/-- Settles O6: the board's groups are the valid ones (`Config.mem_groups`), and the checked family fixes the numbers the
addresses are computed from. -/
theorem addressMap : Obligations.AddressMap := by
  intro c hw
  have hfam := Config.familyOk_iff.1 (Config.wf_iff.1 hw).2.1
  refine ⟨fun g => Config.mem_groups.symm, fun g => rfl, fun h80 => ?_, fun h8 => ?_⟩
  · rcases hfam with ⟨-, hn, hb⟩ | ⟨h8, -⟩
    · exact Config.addrs_f80 hn hb
    · rw [h80] at h8
      cases h8
  · rcases hfam with ⟨h80, -⟩ | ⟨-, hn, hb, hm | hm⟩
    · rw [h8] at h80
      cases h80
    · exact ⟨16, hm, .inl rfl, Config.addrs_f8 hn hb hm⟩
    · exact ⟨160, hm, .inr rfl, Config.addrs_f8 hn hb hm⟩

end Sys2Proof

namespace Sys2Proof.Machine

/-! ## The latch devices -/

/-- A group is write-selected exactly with bus-enable 0 and its write address on the lines (20_memory.md R63). -/
theorem State.writeSelected_iff {s : State} {w : Nat} :
    s.writeSelected = some w ↔ s.lines.busen = .lo ∧ s.atWrite = some w := by
  unfold State.writeSelected
  split <;> simp [*]

/-- A group is read-selected exactly with bus-enable 0 and its read address on the lines (20_memory.md R63). -/
theorem State.readSelected_iff {s : State} {w : Nat} :
    s.readSelected = some w ↔ s.lines.busen = .lo ∧ s.atRead = some w := by
  unfold State.readSelected
  split <;> simp [*]

/-- Settles O20: selection is bus-enable and an address on the lines (`State.atWrite_iff`, `State.atRead_iff`), and no read
address is a write address. -/
theorem selection : Obligations.Selection := by
  intro s hw
  have hwrite (w : Nat) := (State.writeSelected_iff (s := s) (w := w)).trans (and_congr_right fun _ => State.atWrite_iff hw)
  have hread (w : Nat) := (State.readSelected_iff (s := s) (w := w)).trans (and_congr_right fun _ => State.atRead_iff hw)
  refine ⟨hwrite, hread, ?_⟩
  cases hr : s.readSelected with
  | none => exact .inr rfl
  | some v =>
    obtain ⟨-, hv, ha⟩ := (hread v).1 hr
    refine .inl (Option.eq_none_iff_forall_ne_some.2 fun w hs => ?_)
    rw [State.writeSelected_iff, State.atWrite_none hw hv ha] at hs
    cases hs.2

/-- An adapter operation takes its answer from the environment and changes nothing else. -/
theorem State.ioDraw_eq (s : State) : s.ioDraw.2 = { s with env := s.ioDraw.2.env } := by
  unfold State.ioDraw State.countDraw
  repeat' split
  all_goals rfl

/-- A successful drive moves the line, after the draw of its success (41_latch_protocol.md R120). -/
theorem drive_inv {s t : State} {n : Line} {v : Bool} (h : drive n v s = .ok () t) :
    t = (s.ioDraw.2.moveLine n v).event (driven n v) := by
  unfold drive pinOp at h
  split at h <;> cases h
  rfl

/-- A successful drive of 1 on a line that was 0: the devices see a rising edge (20_memory.md R64, R67, R68). -/
theorem drive_rise_inv {s t : State} {n : Line} (hl : s.lines.get n = .lo) (h : drive n true s = .ok () t) :
    t = ((s.ioDraw.2.setLine n .hi).edge n .lo true).event (driven n true) := by
  rw [drive_inv h, State.moveLine, s.ioDraw_lines.1, hl]
  rfl

/-- A shift, at every address: the write-selected group takes the data line, else the read-selected one an unknown bit
(20_memory.md R64). -/
theorem State.shiftSelected_get {s : State} (hm : s.latches.wf = true) (a : Nat) :
    s.shiftSelected.latches.get a =
      if s.writeSelected = some a then { s.latches.get a with sr := (s.latches.get a).sr.shift s.lines.din }
      else if s.writeSelected = none ∧ s.readSelected = some a then
        { s.latches.get a with sr := (s.latches.get a).sr.shift .x }
      else s.latches.get a := by
  unfold State.shiftSelected
  cases hw : s.writeSelected with
  | some w =>
    simp only [State.setSr_latches, Memory.get_set hm]
    grind
  | none =>
    cases hr : s.readSelected with
    | some w =>
      simp only [State.setSr_latches, Memory.get_set hm]
      grind
    | none => simp

/-- A rising clock edge shifts as the selection before it says. -/
theorem drive_clk_get {s t : State} (hl : s.lines.clk = .lo) (hm : s.latches.wf = true)
    (h : drive .clk true s = .ok () t) (a : Nat) :
    t.latches.get a =
      if s.writeSelected = some a then { s.latches.get a with sr := (s.latches.get a).sr.shift s.lines.din }
      else if s.writeSelected = none ∧ s.readSelected = some a then
        { s.latches.get a with sr := (s.latches.get a).sr.shift .x }
      else s.latches.get a := by
  rw [drive_rise_inv (n := .clk) hl h, s.ioDraw_eq]
  exact State.shiftSelected_get (s := ({ s with env := s.ioDraw.2.env } : State).setLine .clk .hi) hm a

/-- Settles O17: `drive_clk_get` gives every group's content after the edge, and eight shifts fill a register
(`LByte.shift_byte`). -/
theorem clockShifts : Obligations.ClockShifts := by
  refine ⟨fun s t hl hm h => ⟨fun w hw => ?_, fun w hn hr => ?_, fun a hw hr => ?_⟩, fun v l => rfl, LByte.shift_byte⟩
  all_goals rw [drive_clk_get hl hm h]
  · rw [if_pos hw]
  · rw [if_neg (by simp [hn]), if_pos ⟨hn, hr⟩]
  · rw [if_neg hw, if_neg fun h => hr h.2]

/-- A capture, where a group's read address is on the lines (20_memory.md R67, 41_latch_protocol.md R141). -/
theorem State.capture_some {s : State} {w : Nat} (h : s.atRead = some w) :
    s.capture.latches = s.latches.set w
      { s.latches.get w with sr := if s.lines.busen = .hi then .ofByte (s.sense w).1 else .unknown } ∧
      (s.lines.busen = .hi → s.capture.env = (s.sense w).2.env) := by
  have hs := (State.sense_congr (s := s) (t := s) rfl (w := w) rfl).2
  unfold State.capture
  rw [h]
  simp only
  split
  · rw [hs]
    exact ⟨rfl, fun _ => rfl⟩
  · exact ⟨rfl, fun hb => absurd hb ‹_›⟩

/-- The lines after a successful drive (41_latch_protocol.md R120). -/
theorem drive_lines {s t : State} {n : Line} {v : Bool} (h : drive n v s = .ok () t) :
    t.lines = s.lines.set n (.ofBool v) := Run.Moves.drive n v s () t h

/-- Settles O18: a rising load-strobe edge is `State.capture`, and the group it addresses is the one whose read address is
on the lines (`State.atRead_iff`). -/
theorem loadCaptures : Obligations.LoadCaptures := by
  intro s t hw hm hl h
  have ht : t = (s.ioDraw.2.setLine .load .hi).capture.event (driven .load true) := drive_rise_inv (n := .load) hl h
  have hat : (s.ioDraw.2.setLine .load .hi).atRead = s.atRead := by rw [s.ioDraw_eq]; rfl
  refine ⟨fun w hmem ha => ?_, fun hnone => ?_, drive_lines h⟩
  · obtain ⟨hlat, henv⟩ := State.capture_some (hat.trans ((State.atRead_iff hw).2 ⟨hmem, ha⟩))
    obtain ⟨h1, h2⟩ := State.sense_congr (s := s.ioDraw.2) (t := s.ioDraw.2.setLine .load .hi) rfl (w := w) rfl
    rw [h1] at hlat
    rw [h2] at henv
    simp only [State.setLine_lines, Lines.set_load_busen, State.setLine_latches, s.ioDraw_lines] at hlat henv
    rw [ht]
    refine ⟨fun a => ?_, henv⟩
    rw [State.event_latches, hlat, Memory.get_set hm]
    grind
  · have hr : s.atRead = none := Option.eq_none_iff_forall_ne_some.2 fun w hs =>
      hnone w ((State.atRead_iff hw).1 hs).1 ((State.atRead_iff hw).1 hs).2
    rw [ht, State.capture, hat, hr]
    exact s.ioDraw_lines.2.1

/-- Settles O19: a rising edge of bus-enable is `State.transfer`, and with the line at 0 before it the group addressed for
writing is the write-selected one. -/
theorem deselectTransfers : Obligations.DeselectTransfers := by
  intro s t hm hl h
  have ht : t = (s.ioDraw.2.setLine .busen .hi).transfer.event (driven .busen true) := drive_rise_inv (n := .busen) hl h
  have hat : (s.ioDraw.2.setLine .busen .hi).atWrite = s.writeSelected := by
    rw [s.ioDraw_eq, State.writeSelected, if_pos hl]
    rfl
  refine ⟨fun w hw a => ?_, fun hn => ?_, drive_lines h⟩
  · rw [ht, State.transfer, hat, hw]
    simp only [State.event_latches, State.setOut_latches, State.setLine_latches, s.ioDraw_lines, Memory.get_set hm]
    grind
  · rw [ht, State.transfer, hat, hn]
    exact s.ioDraw_lines.2.1

/-- Settles O21: under `Loopback` the byte is the outputs with a drawn byte in the unknown bits (`LByte.orDraw_bit`), known
outputs drawing nothing, and `State.sense_congr` says that only the environment changes. -/
theorem senseLaw : Obligations.SenseLaw := by
  intro s w
  refine ⟨⟨_, (State.sense_congr (s := s) (t := s) rfl (w := w) rfl).2⟩, fun hl => ?_, fun hl hk d rest hd i => ?_,
    fun hl => ⟨?_, fun d rest hd => ?_⟩⟩
  · unfold State.sense
    rw [if_pos hl]
    split
    · exact ⟨_, LByte.orDraw_bit _ _⟩
    · exact ⟨_, LByte.orDraw_bit _ _⟩
  · have hs : s.senseDraw.1 = d := by simp [State.senseDraw, hd]
    simp only [State.sense, hl, hk, if_true, Bool.false_eq_true, if_false, hs, LByte.orDraw_bit]
  · simp [State.sense, hl]
  · simp [State.senseDraw, hd]

/-- An adapter operation that succeeds does its work. -/
theorem pinOp_drawn {α : Type} {work : State → α × State} {failed : State → State} {s u : State}
    (h : s.ioDraw = (true, u)) : pinOp work failed s = .ok (work u).1 (work u).2 := by
  simp [pinOp, h]

/-- Settles O22: the draw of the operation's success changes the environment only (`State.ioDraw_eq`) and no premise, so the
answer is that of the start, and each answer is computed from the lines and the selected group. -/
theorem pinAnswers : Obligations.PinAnswers := by
  intro s u h
  have hu : s.ioDraw.2 = u := by rw [h]
  have hb : u.env.healthyBus = s.env.healthyBus := hu ▸ s.ioDraw_evolves.premises.2.1
  obtain ⟨hlines, hlat, -⟩ : u.lines = s.lines ∧ u.latches = s.latches ∧ u.cfg = s.cfg := hu ▸ s.ioDraw_lines
  have hsel : u.readSelected = s.readSelected := by rw [← hu, s.ioDraw_eq]; rfl
  refine ⟨fun w v hr hv => ?_, fun hr => ?_, fun v hh ha => ?_, fun hh => ?_, fun d rest hd => ?_, fun d rest hd => ?_⟩
  · have hans : u.soutAnswer = (v, u) := by simp [State.soutAnswer, hsel, hr, hlat, hv]
    rw [readIn, pinOp_drawn h, hans]
  · have hans : u.soutAnswer = u.soutDraw := by
      rw [State.soutAnswer, hsel, hlat]
      rcases hr with hr | ⟨w, hr, hx⟩
      · rw [hr]
      · simp only [hr, hx, Level.toBool?]
    rw [readIn, pinOp_drawn h, hans]
  · have hans : u.portAnswer = (v, u) := by simp [State.portAnswer, hb.trans hh, hlines, ha]
    rw [readPort, pinOp_drawn h, hans]
  · have hans : u.portAnswer = u.portDraw := by simp [State.portAnswer, hb.trans hh]
    rw [readPort, pinOp_drawn h, hans]
  · simp [State.soutDraw, hd]
  · simp [State.portDraw, hd]

/-! ## Write, then read -/

/-- What a completed `LG_WRITE` on a clean bus answers and leaves (41_latch_protocol.md R130). -/
theorem lgWrite_ready {s t : State} {q dm lg : Nat} {b : Byte} (hr : s.Ready q) (hg : s.cfg.validGroup ⟨dm, lg⟩ = true)
    (h : exec (.lgWrite dm lg b) s = .next t) :
    t.cfg = s.cfg ∧ t.env = s.env ∧ t.haz = s.haz ∧ t.reqs.length = s.reqs.length ∧ t.Clean ∧
      t.latches.wf = true ∧ t.OutIs (s.cfg.writeAddr ⟨dm, lg⟩) b := by
  obtain ⟨⟨⟨ho, hq⟩, hc, hm, hh⟩, hcl⟩ := hr
  have hst : s.started = s := if_pos hcl
  have hw := latchWrite_ok hh hc hm hg b
  rw [hst, show s.lines.clean = true from hcl, if_pos rfl] at hw
  have hrun := wholeCommand_ok (m := lgWrite ⟨dm, lg⟩ b) ho ((bind_ok hw).trans rfl)
  change wholeCommand (lgWrite ⟨dm, lg⟩ b) s = .next t at h
  rw [hrun] at h
  cases h
  have hload : s.lines.load = .hi := by
    simp only [State.Clean, Lines.clean, Bool.and_eq_true, beq_iff_eq] at hcl
    exact hcl.1.2
  refine ⟨rfl, rfl, rfl, List.length_set, ?_, Memory.wf_set hm, ?_⟩
  · show Lines.clean ⟨_, _, _, s.lines.load, _⟩ = true
    rw [hload]
    rfl
  · show ((s.latches.set _ _).get _).out = _
    rw [Memory.get_set_self hm]

/-- `LG_READ` of known outputs on a clean bus under `Loopback` answers them and keeps them (41_latch_protocol.md R140). -/
theorem lgRead_ready {s : State} {q dm lg : Nat} {b : Byte} (hr : s.Ready q) (hl : s.env.loopback = true)
    (hg : s.cfg.validGroup ⟨dm, lg⟩ = true) (hb : s.OutIs (s.cfg.writeAddr ⟨dm, lg⟩) b) :
    ∃ u, exec (.lgRead dm lg) s = .next u ∧ Answered s u q (okResponse s.haz b []) ∧
      u.OutIs (s.cfg.writeAddr ⟨dm, lg⟩) b := by
  obtain ⟨⟨⟨ho, hq⟩, hc, hm, hh⟩, hcl⟩ := hr
  have hrd := latchRead_ok hh hc hm hcl hg
  rw [State.sense_known hl hb] at hrd
  have hrun := wholeCommand_ok (m := lgRead ⟨dm, lg⟩) ho ((bind_ok hrd).trans rfl)
  refine ⟨_, hrun, answered_deliver hq rfl, ?_⟩
  show ((s.latches.set _ _).get _).out = _
  rw [Memory.get_set_self hm]
  exact hb

/-- Settles O30: the write leaves the byte on the outputs and the bus clean (`lgWrite_ready`), granting touches neither, and
the read captures the outputs (`lgRead_ready`). -/
theorem roundTrip : Obligations.RoundTrip := by
  intro s t q p dm lg b hr hl hg hp h
  obtain ⟨⟨-, hc, -, hh⟩, -⟩ := id hr
  obtain ⟨tc, te, th, tl, tcl, tm, tb⟩ := lgWrite_ready hr hg h
  obtain ⟨gc, gr, gl, gm, gh, -, ge, -⟩ := t.grant_parts p
  have hready : (t.grant p).Ready p := by
    refine ⟨⟨⟨t.grant_busOwner p, ?_⟩, ?_, ?_, ?_⟩, ?_⟩
    · rwa [gr, tl]
    · rwa [gc, tc]
    · rwa [gm]
    · rwa [State.Healthy, ge, te]
    · rwa [State.Clean, gl]
  have hout : (t.grant p).OutIs ((t.grant p).cfg.writeAddr ⟨dm, lg⟩) b := by rwa [State.OutIs, gm, gc, tc]
  have hread := lgRead_ready hready (by rwa [ge, te]) (by rwa [gc, tc]) hout
  rwa [gh, th, gc, tc] at hread

end Sys2Proof.Machine
namespace Sys2Proof

/-! ## The rows of the opcode table -/

/-- Every row fixes `OPC` (30_encoding.md R101). -/
theorem Row.opc_mask : ∀ r ∈ Row.all, r.mask.extractLsb' 28 4 = 15#4 := by decide

/-- Rows with the same `OPC` are one row. -/
theorem Row.eq_of_opc : ∀ r ∈ Row.all, ∀ r' ∈ Row.all, Word.opc r.pattern = Word.opc r'.pattern → r = r' := by decide

/-- No word matches two rows (30_encoding.md R101). -/
theorem Row.eq_of_holds {r r' : Row} {w : Word} (hr : r ∈ Row.all) (hr' : r' ∈ Row.all) (h : r.holds w = true)
    (h' : r'.holds w = true) : r = r' :=
  Row.eq_of_opc r hr r' hr' <|
    (Laws.TableRow.opc_of_holds (Row.opc_mask r hr) h).symm.trans (Laws.TableRow.opc_of_holds (Row.opc_mask r' hr') h')

/-- Bits a row fixes have the row's value in every word of the row (30_encoding.md R99). -/
theorem Row.fixed_of_holds {r : Row} {w : Word} (h : r.holds w = true) (start : Nat) {len : Nat} {bits : BitVec len}
    (hr : r.mask.extractLsb' start len = BitVec.allOnes len ∧ r.pattern.extractLsb' start len = bits := by decide) :
    bits = w.extractLsb' start len := by
  have hw : w &&& r.mask = r.pattern := beq_iff_eq.1 h
  obtain ⟨hm, hp⟩ := hr
  rw [← hp, ← hw, BitVec.extractLsb'_and, hm, BitVec.and_allOnes]

/-- The row of an instruction is in the table. -/
theorem Instr.row_mem (i : Instr) : i.row ∈ Row.all := by
  cases i <;> simp [Instr.row, Row.all]

/-- An instruction carries a `raw` operand exactly if its row is that of `MON_CONVERT` (30_encoding.md R96). -/
theorem Instr.raw?_isSome_iff (i : Instr) : i.raw?.isSome = true ↔ i.row = Row.monConvert := by
  cases i with
  | monConvert => simp [Instr.row, Instr.raw?]
  | _ => simp only [Instr.row, Instr.raw?]; decide

/-- Every row is the row of some instruction, which carries the `raw` operand given where the row asks for one. -/
theorem Row.exists_instr {r : Row} (hr : r ∈ Row.all) {raw : Option Volts} (h : raw.isSome = true ↔ r = Row.monConvert) :
    ∃ i : Instr, i.row = r ∧ i.raw? = raw := by
  cases raw with
  | some v => exact ⟨.monConvert 0 v, (h.1 rfl).symm, rfl⟩
  | none =>
    have hne : r ≠ Row.monConvert := fun he => nomatch h.2 he
    simp only [Row.all, List.mem_cons, List.not_mem_nil, or_false] at hr
    rcases hr with rfl | rfl | rfl | rfl | rfl | rfl | rfl | rfl | rfl
    · exact ⟨.lgAddr 0 0 false, rfl, rfl⟩
    · exact ⟨.lgWrite 0 0 0#8, rfl, rfl⟩
    · exact ⟨.lgRead 0 0, rfl, rfl⟩
    · exact ⟨.swGet 0 0 0, rfl, rfl⟩
    · exact ⟨.swSet 0 0 0 false, rfl, rfl⟩
    · exact ⟨.monSelect 0, rfl, rfl⟩
    · exact ⟨.monRead 0, rfl, rfl⟩
    · exact absurd rfl hne
    · exact ⟨.monSweep, rfl, rfl⟩

/-! ## The fields of an instruction in a word -/

/-- The same command with its fields read from the word `w` (30_encoding.md R97). -/
def Instr.withFields (w : Word) : Instr → Instr
  | .lgAddr _ _ _ => .lgAddr (Word.dm w) (Word.lg w) (Word.rd w)
  | .lgWrite _ _ _ => .lgWrite (Word.dm w) (Word.lg w) (Word.data w)
  | .lgRead _ _ => .lgRead (Word.dm w) (Word.lg w)
  | .swGet _ _ _ => .swGet (Word.dev w) (Word.band w) (Word.chain w)
  | .swSet _ _ _ _ => .swSet (Word.dev w) (Word.band w) (Word.chain w) (Word.st w)
  | .monSelect _ => .monSelect (Word.idx w)
  | .monRead _ => .monRead (Word.idx w)
  | .monConvert _ v => .monConvert (Word.cat w) v
  | .monSweep => .monSweep

/-- A field read from a word fits its place. -/
theorem Instr.withFields_wf (i : Instr) (w : Word) : (i.withFields w).wf = true := by
  have fits {start len : Nat} : (w.extractLsb' start len).toNat < 2 ^ len := BitVec.isLt _
  cases i with
  | lgAddr | lgWrite | lgRead => exact Bool.and_eq_true_iff.2 ⟨decide_eq_true fits, decide_eq_true fits⟩
  | swGet | swSet =>
    exact Bool.and_eq_true_iff.2 ⟨Bool.and_eq_true_iff.2 ⟨decide_eq_true fits, decide_eq_true fits⟩, decide_eq_true fits⟩
  | monSelect | monRead | monConvert => exact decide_eq_true fits
  | monSweep => rfl

/-- Reading the fields of a well-formed instruction's own word gives the instruction back. -/
theorem Instr.withFields_word {i : Instr} (h : i.wf = true) : i.withFields i.word = i := by
  cases i with
  | monSweep => rfl
  | _ =>
    simp only [Instr.wf, Bool.and_eq_true, decide_eq_true_eq] at h
    -- Each field is the piece of the word that stands above the pieces to its right.
    simp only [Instr.withFields, Instr.word, Word.dm, Word.lg, Word.rd, Word.data, Word.dev, Word.band, Word.chain,
      Word.st, Word.idx, Word.cat, BitVec.extractLsb'_append_eq_of_le, BitVec.extractLsb'_append_eq_right,
      BitVec.getLsbD_append, Nat.reduceLeDiff, Nat.reduceSub]
    -- That piece holds the field unchanged, since the field fits.
    simp [h, Nat.mod_eq_of_lt]

/-- Adjacent pieces of a word make up the piece that spans both. -/
theorem append_eq_extractLsb' {w : Word} {start n m : Nat} {hi : BitVec n} {lo : BitVec m}
    (h : hi = w.extractLsb' (start + m) n) (h' : lo = w.extractLsb' start m) :
    hi ++ lo = w.extractLsb' start (n + m) := by
  rw [h, h', BitVec.extractLsb'_append_extractLsb'_eq_extractLsb' rfl]

/-- An unsigned field, encoded again. -/
theorem ofNat_extractLsb'_toNat (w : Word) (start len : Nat) :
    BitVec.ofNat len (w.extractLsb' start len).toNat = w.extractLsb' start len := by
  rw [BitVec.ofNat_toNat, BitVec.setWidth_eq]

/-- A flag, encoded again. -/
theorem ofBool_getLsbD (w : Word) (k : Nat) : BitVec.ofBool (w.getLsbD k) = w.extractLsb' k 1 := by
  refine BitVec.eq_of_getLsbD_eq fun i hi => ?_
  obtain rfl : i = 0 := by omega
  simp

/-- A word of an instruction's row is the word of the instruction with the fields read from it: pieces fixed by the row and
fields make up all 32 bits (30_encoding.md R92 to R95). -/
theorem Instr.word_withFields {i : Instr} {w : Word} (h : i.row.holds w = true) : (i.withFields w).word = w := by
  suffices hw : (i.withFields w).word = w.extractLsb' 0 32 from hw.trans BitVec.extractLsb'_eq_self
  have glue {start n m : Nat} {hi : BitVec n} {lo : BitVec m} := @append_eq_extractLsb' w start n m hi lo
  have field := ofNat_extractLsb'_toNat w
  have bit := ofBool_getLsbD w
  cases i with
  | lgAddr =>
    have fixed := @Row.fixed_of_holds .lgAddr w h
    exact glue (glue (glue (glue (fixed 28) (field 24 4)) (field 20 4)) (bit 19)) (fixed 0)
  | lgWrite =>
    have fixed := @Row.fixed_of_holds .lgWrite w h
    exact glue (glue (glue (glue (fixed 28) (field 24 4)) (field 20 4)) (fixed 8)) rfl
  | lgRead =>
    have fixed := @Row.fixed_of_holds .lgRead w h
    exact glue (glue (glue (fixed 28) (field 24 4)) (field 20 4)) (fixed 0)
  | swGet =>
    have fixed := @Row.fixed_of_holds .swGet w h
    exact glue (glue (glue (glue (glue (fixed 28) (field 20 8)) (field 19 1)) (fixed 16)) (field 8 8)) (fixed 0)
  | swSet =>
    have fixed := @Row.fixed_of_holds .swSet w h
    exact glue (glue (glue (glue (glue (glue (fixed 28) (field 20 8)) (field 19 1)) (fixed 17)) (bit 16)) (field 8 8))
      (fixed 0)
  | monSelect =>
    have fixed := @Row.fixed_of_holds .monSelect w h
    exact glue (glue (fixed 28) (fixed 8)) (field 0 8)
  | monRead =>
    have fixed := @Row.fixed_of_holds .monRead w h
    exact glue (glue (fixed 28) (fixed 8)) (field 0 8)
  | monConvert =>
    have fixed := @Row.fixed_of_holds .monConvert w h
    exact glue (glue (glue (fixed 28) (fixed 12)) (field 8 4)) (fixed 0)
  | monSweep =>
    have fixed := @Row.fixed_of_holds .monSweep w h
    exact glue (fixed 28) (fixed 0)

/-- The word of an instruction is a word of its row (30_encoding.md R99). -/
theorem Instr.row_holds_word (i : Instr) : i.row.holds i.word = true := by
  cases i with
  | lgAddr dm lg rd => exact (Laws.TableRow.lgAddr dm lg rd).1
  | lgWrite dm lg b => exact (Laws.TableRow.lgWrite dm lg b).1
  | lgRead dm lg => exact (Laws.TableRow.lgRead dm lg).1
  | swGet dev band chain => exact (Laws.TableRow.swGet dev band chain).1
  | swSet dev band chain st => exact (Laws.TableRow.swSet dev band chain st).1
  | monSelect idx => exact (Laws.TableRow.monSelect idx).1
  | monRead idx => exact (Laws.TableRow.monRead idx).1
  | monConvert cat raw => exact (Laws.TableRow.monConvert cat raw).1
  | monSweep => exact Laws.TableRow.monSweep.1

/-! ## Decoding and encoding -/

/-- When a command of a row without a `raw` operand decodes (30_encoding.md R96, R99). -/
theorem decodePlain_eq_instr_iff {r : Row} {c : Command} {i j : Instr} :
    decodePlain r c i = .instr j ↔ r.holds c.word = true ∧ c.raw = none ∧ i = j := by
  unfold decodePlain
  split <;> cases c.raw <;> simp_all

/-- When a `MON_CONVERT` command decodes (30_encoding.md R96, R99). -/
theorem decodeConvert_eq_instr_iff {c : Command} {j : Instr} :
    decodeConvert c = .instr j ↔
      Row.monConvert.holds c.word = true ∧ ∃ v, c.raw = some v ∧ .monConvert (Word.cat c.word) v = j := by
  unfold decodeConvert
  split <;> cases c.raw <;> simp_all

/-- The opcodes of the nine rows (30_encoding.md R91). -/
theorem Row.opc_patterns :
    Word.opc Row.lgAddr.pattern = 1 ∧ Word.opc Row.lgWrite.pattern = 2 ∧ Word.opc Row.lgRead.pattern = 3 ∧
      Word.opc Row.swGet.pattern = 4 ∧ Word.opc Row.swSet.pattern = 5 ∧ Word.opc Row.monSelect.pattern = 6 ∧
      Word.opc Row.monRead.pattern = 7 ∧ Word.opc Row.monConvert.pattern = 8 ∧ Word.opc Row.monSweep.pattern = 9 := by
  decide

/-- A command whose word matches the row of `i` and whose `raw` operand is that of `i` decodes to the instruction of that
row with the word's fields (30_encoding.md R99). -/
theorem decode_of_holds {c : Command} {i : Instr} (h : i.row.holds c.word = true) (hraw : c.raw = i.raw?) :
    decode c = .instr (i.withFields c.word) := by
  have hopc : Word.opc c.word = Word.opc i.row.pattern := Laws.TableRow.opc_of_holds (Row.opc_mask _ i.row_mem) h
  cases i <;>
    simp only [decode, hopc, Instr.row, Row.opc_patterns, decodePlain_eq_instr_iff, decodeConvert_eq_instr_iff]
  case monConvert cat v => exact ⟨h, v, hraw, rfl⟩
  all_goals exact ⟨h, hraw, rfl⟩

/-- What a command that decodes decodes to: an instruction of the row its word matches, with the word's fields and the
command's `raw` operand. -/
theorem decode_eq_instr {c : Command} {i : Instr} (h : decode c = .instr i) :
    i.row.holds c.word = true ∧ c.raw = i.raw? ∧ i.withFields c.word = i := by
  simp only [decode] at h
  split at h
  case h_8 =>
    obtain ⟨hw, v, hr, rfl⟩ := decodeConvert_eq_instr_iff.1 h
    exact ⟨hw, hr, rfl⟩
  case h_10 => cases h
  all_goals
    obtain ⟨hw, hr, rfl⟩ := decodePlain_eq_instr_iff.1 h
    exact ⟨hw, hr, rfl⟩

/-- Decoding inverts encoding: a command decodes to `i` exactly if `i` is well formed and the command is its encoding. -/
theorem decode_eq_instr_iff {c : Command} {i : Instr} : decode c = .instr i ↔ i.wf = true ∧ encode i = c := by
  constructor
  · intro h
    obtain ⟨hw, hr, hi⟩ := decode_eq_instr h
    have hword := Instr.word_withFields hw
    rw [hi] at hword
    exact ⟨hi ▸ i.withFields_wf c.word, by rw [encode, hword, ← hr]⟩
  · rintro ⟨hwf, rfl⟩
    exact (decode_of_holds i.row_holds_word rfl).trans (congrArg _ (Instr.withFields_word hwf))

/-- Settles O1, by `decode_eq_instr_iff`: the word of an instruction is of its row and holds its fields. -/
theorem decodeEncode : Obligations.DecodeEncode := fun _ h => decode_eq_instr_iff.2 ⟨h, rfl⟩

/-- Settles O2, by `decode_eq_instr_iff`: the row's fixed bits and the fields make up the whole word. -/
theorem encodeDecode : Obligations.EncodeDecode := fun _ _ h => decode_eq_instr_iff.1 h

/-- Settles O3: an encoding is a computation, and the word decodes to the instruction because it is its encoding. -/
theorem workedEncodings : Obligations.WorkedEncodings := by
  refine ⟨fun p hp => ?_, fun r => ?_, rfl, rfl⟩
  · have henc : p.1.wf = true ∧ encode p.1 = ⟨p.2, none⟩ := by
      revert p
      decide
    exact ⟨henc.2, decode_eq_instr_iff.2 henc⟩
  · have henc : encode (.monConvert 2 r) = ⟨0x80000200#32, some r⟩ := rfl
    exact ⟨henc, decode_eq_instr_iff.2 ⟨rfl, henc⟩⟩

/-- Settles O4: a command that decodes matches the row of its instruction (`decode_eq_instr`), each row is the row of some
instruction (`Row.exists_instr`), so its words decode, and the opcodes of the rows differ (`Row.eq_of_holds`). -/
theorem legalExactly : Obligations.LegalExactly := by
  refine ⟨fun c => ⟨?_, ?_⟩, fun w r r' => Row.eq_of_holds⟩
  · rintro ⟨i, h⟩
    obtain ⟨hw, hr, -⟩ := decode_eq_instr h
    exact ⟨i.row, i.row_mem, hw, hr ▸ i.raw?_isSome_iff⟩
  · rintro ⟨r, hmem, hw, hr⟩
    obtain ⟨i, rfl, hi⟩ := Row.exists_instr hmem hr
    exact ⟨_, decode_of_holds hw hi.symm⟩

/-- A command that matches no row, or has its `raw` operand wrongly present or absent, is illegal. -/
theorem decode_illegal {c : Command}
    (h : ¬ ∃ r ∈ Row.all, r.holds c.word = true ∧ (c.raw.isSome = true ↔ r = Row.monConvert)) :
    ∃ why, decode c = .illegal why := by
  cases hd : decode c with
  | illegal why => exact ⟨why, rfl⟩
  | instr i => exact absurd ((legalExactly.1 c).1 ⟨i, hd⟩) h

end Sys2Proof

namespace Sys2Proof.Machine

/-! ## An illegal command -/

/-- Granting the first unit of a command takes the bus and appends the `begin` event (60_exceptions.md R286). -/
theorem State.grant_first {s : State} {q : Nat} {c : Command} (hp : (s.req q).pending = some c)
    (hs : (s.req q).sweep = none) (hm : (s.req q).rmw = none) :
    s.grant q = { s with busOwner := some q, trace := s.trace ++ [.beginCmd q c.word] } := by
  have hreq : ({ s with busOwner := some q } : State).req q = s.req q := rfl
  rw [State.grant, State.beginCommand, hreq, hp, hs, hm]
  rfl

/-- An answer to a requester with neither a sweep nor a `SW_SET` in progress ends its pending command only. -/
theorem State.raise_first {s : State} {q : Nat} (hs : (s.req q).sweep = none) (hm : (s.req q).rmw = none) (f : Failure) :
    s.raise q f =
      { s with
        busOwner := none
        reqs := s.reqs.set q { s.req q with pending := none, rsp := some (f.response s.haz) }
        trace := s.trace ++ [.endCmd q (f.response s.haz)] } := by
  have hrec : { s.req q with pending := none, rsp := some (f.response s.haz), sweep := none, rmw := none } =
      { s.req q with pending := none, rsp := some (f.response s.haz) } := by rw [← hs, ← hm]
  rw [← hrec]
  rfl

/-- The unit of a new command that does not decode answers it with `ILLEGAL` and does nothing else (30_encoding.md R99,
60_exceptions.md R268). -/
theorem runUnit_illegal {s : State} {q : Nat} {c : Command} {why : Reject} (hp : (s.req q).pending = some c)
    (hs : (s.req q).sweep = none) (hm : (s.req q).rmw = none) (hd : decode c = .illegal why) :
    runUnit q s = .next
      { s with
        busOwner := none
        reqs := s.reqs.set q { s.req q with pending := none, rsp := some (failResponse .illegal s.haz) }
        trace := s.trace ++ [.endCmd q (failResponse .illegal s.haz)] } := by
  rw [runUnit_pending hp, if_pos hs, hd]
  exact congrArg Host.Outcome.next (State.raise_first hs hm .illegal)

/-- Settles O16: the command does not decode (`decode_illegal`), so the unit after its `begin` event (`State.grant_first`)
only raises `ILLEGAL` (`runUnit_illegal`); choosing the grant has changed the schedule and the count of free values only. -/
theorem illegalCommand : Obligations.IllegalCommand := by
  intro s q c hw hg hs hm hp hrow
  obtain ⟨why, hd⟩ := decode_illegal hrow
  obtain ⟨n, rest, he⟩ := s.chooseMove_eq
  have hgrant : s.chooseMove.2.grant q =
      { s.chooseMove.2 with busOwner := some q, trace := s.trace ++ [.beginCmd q c.word] } := by
    rw [he]
    exact State.grant_first hp hs hm
  have hreq : (s.chooseMove.2.grant q).req q = s.req q := by rw [hgrant, he]; rfl
  rw [step_grant hw hg, runUnit_illegal (by rwa [hreq]) (by rwa [hreq]) (by rwa [hreq]) hd, hreq, hgrant, he]
  simp

end Sys2Proof.Machine

namespace Sys2Proof.Machine

/-! ## What a step records -/

/-- A change of neither lines, trace nor log records nothing. -/
theorem Recorded.still {P : Event → Prop} {s t : State} (hl : t.lines = s.lines) (ht : t.trace = s.trace)
    (hg : t.log = s.log) : Recorded P s t [] [] := (Recorded.refl t).of_same hl ht hg

/-- Granting records at most the `begin` event. -/
theorem State.grant_recorded (s : State) (q : Nat) : ∃ es, Recorded AnyEvent s (s.grant q) es [] := by
  unfold State.grant State.beginCommand
  split
  · exact ⟨[_], rfl, (List.append_nil _).symm, by simp, rfl, rfl⟩
  · exact ⟨[], .still rfl rfl rfl⟩

/-- A unit records what it did: nothing, the answer `ILLEGAL`, or what its meaning records. -/
theorem runUnit_recorded {s t : State} {q : Nat} (h : runUnit q s = .next t) :
    ∃ es rs, Recorded AnyEvent s t es rs := by
  unfold runUnit at h
  split at h
  · cases h
    exact ⟨[], [], .still rfl rfl rfl⟩
  · cases h
    obtain ⟨es, he⟩ := (State.finish_end q (.error .illegal s)).recorded
    exact ⟨es, [], he⟩
  · exact exec_recorded _ h

/-- Every step records what it did. -/
theorem step_recorded {s t : State} (h : step s = .next t) : ∃ es rs, Recorded AnyEvent s t es rs := by
  obtain ⟨n, rest, he⟩ := s.chooseMove_eq
  have hchoose {es : List Event} {rs : List LogRec} (hr : Recorded AnyEvent s.chooseMove.2 t es rs) :
      Recorded AnyEvent s t es rs := hr.of_same (by rw [he]) (by rw [he]) (by rw [he])
  obtain ⟨-, rfl | ⟨q, rfl⟩ | ⟨q, hr⟩⟩ := step_cases h
  · exact ⟨[], [], hchoose (.refl _)⟩
  · obtain ⟨k, c, l, hk⟩ := s.chooseMove.2.submit_eq q
    rw [hk] at hchoose ⊢
    exact ⟨[], [], hchoose (.still rfl rfl rfl)⟩
  · obtain ⟨es, hg⟩ := s.chooseMove.2.grant_recorded q
    obtain ⟨fs, rs, hu⟩ := runUnit_recorded hr
    exact ⟨es ++ fs, [] ++ rs, hchoose (hg.trans hu)⟩

/-- What was appended to the trace and to the log is what was recorded. -/
theorem Recorded.of_appended {P : Event → Prop} {s t : State} {es fs : List Event} {rs ks : List LogRec}
    (h : Recorded P s t es rs) (ht : t.trace = s.trace ++ fs) (hl : t.log = s.log ++ ks) : Recorded P s t fs ks := by
  have hes : es = fs := List.append_cancel_left (h.trace.symm.trans ht)
  have hrs : rs = ks := List.append_cancel_left (h.log.symm.trans hl)
  exact hes ▸ hrs ▸ h

/-- Settles O55: idling and submitting move no line, and granting and the unit record what they do
(`State.grant_recorded`, `runUnit_recorded`): each event moves its line and each failed one has its record. -/
theorem traceTellsLinesAndFailures : Obligations.TraceTellsLinesAndFailures := by
  intro s t es rs h ht hl
  obtain ⟨fs, ks, hr⟩ := step_recorded h
  have hr := hr.of_appended ht hl
  exact ⟨hr.lines, hr.failures⟩

end Sys2Proof.Machine

namespace Sys2Proof

/-! ## Address formulas -/

/-- A valid group of a well-formed configuration, by module: the first of either family, or the second of F8
(20_memory.md R61). -/
theorem Config.mb_cases {c : Config} (hw : c.wf = true) {g : Group} (hg : c.validGroup g = true) :
    (g.dm = 1 ∧ c.mb g.dm = c.base ∧ (c.base = 80 ∨ c.base = 8)) ∨
      (g.dm = 2 ∧ c.base = 8 ∧ c.family = .f8 ∧ c.mb2 = some (c.mb g.dm) ∧ (c.mb g.dm = 16 ∨ c.mb g.dm = 160)) := by
  obtain ⟨h1, hn, -, -⟩ := Config.validGroup_iff.1 hg
  rcases Config.familyOk_iff.1 (Config.wf_iff.1 hw).2.1 with ⟨-, hm, hb⟩ | ⟨hf, hm, hb, hmb⟩
  · have hd : g.dm = 1 := by omega
    exact .inl ⟨hd, by simp [Config.mb, hd], .inl hb⟩
  · rcases (by omega : g.dm = 1 ∨ g.dm = 2) with hd | hd
    · exact .inl ⟨hd, by simp [Config.mb, hd], .inr hb⟩
    · refine .inr ⟨hd, hb, hf, ?_⟩
      rcases hmb with h | h <;> simp [Config.mb, hd, h]

/-- The blocks of the modules begin at multiples of 8. -/
theorem Config.mb_mod {c : Config} (hw : c.wf = true) {g : Group} (hg : c.validGroup g = true) : c.mb g.dm % 8 = 0 := by
  rcases Config.mb_cases hw hg with ⟨-, hb, h | h⟩ | ⟨-, -, -, -, h | h⟩ <;> omega

/-- Above a multiple of 8, adding 4 to an offset of at most 3 sets bit 2, which was 0. -/
theorem bit_two_of_block {m k : Nat} (hm : m % 8 = 0) (hk : k ≤ 3) :
    (m + k).testBit 2 = false ∧ m + k + 4 = (m + k) ||| 4 := by
  obtain ⟨j, rfl⟩ : ∃ j, m = 2 ^ 3 * j := ⟨m / 8, by omega⟩
  have hor {b : Nat} (hb : b < 2 ^ 3) : 2 ^ 3 * j + b = 2 ^ 3 * j ||| b := Nat.two_pow_add_eq_or_of_lt hb j
  have hk4 : k + 4 = k ||| 4 := by decide +revert
  refine ⟨?_, ?_⟩
  · rw [Nat.testBit_eq_decide_div_mod_eq, decide_eq_false_iff_not]
    omega
  · rw [Nat.add_assoc, hor (by omega), hor (by omega), hk4, Nat.or_assoc]

/-- Settles O7: the blocks begin at multiples of 8 (`Config.mb_mod`), so bit 2 is the read bit (`bit_two_of_block`), and the
source's formula puts module 2's block 8 above `BASE` (`Config.mb_cases`). -/
theorem addressFormula : Obligations.AddressFormula := by
  intro c hw dm lg hg
  obtain ⟨-, hn, hlg, hlg4⟩ := Config.validGroup_iff.1 hg
  have hk : lg - 1 ≤ 3 := by simp only at hlg4; omega
  have hmod : c.mb dm % 8 = 0 := Config.mb_mod hw hg
  obtain ⟨hbit, hor⟩ := bit_two_of_block hmod hk
  refine ⟨⟨rfl, fun h8 => ?_⟩, rfl, rfl, fun rd => rfl, ⟨hmod, hk, hbit, hor⟩, fun rd => ?_⟩
  · rcases Config.familyOk_iff.1 (Config.wf_iff.1 hw).2.1 with ⟨h, -⟩ | ⟨-, -, -, h | h⟩
    · rw [h8] at h; cases h
    · simp [Config.mb, h]
    · simp [Config.mb, h]
  · rw [Config.groupAddr, Config.writeAddr, Nat.shiftLeft_eq, Nat.shiftLeft_eq]
    rcases Config.mb_cases hw hg with ⟨hd, hb, -⟩ | ⟨hd, hb, hf, hm2, h⟩
    · simp only at hd hb ⊢
      rw [hb]
      simp only [hd, or_true, true_or, iff_true]
      omega
    · simp only at hd hb hm2 h ⊢
      rw [hm2, hf, hd, hb]
      simp only [reduceCtorEq, false_or, Option.some.injEq]
      omega

end Sys2Proof

namespace Sys2Proof.Machine

/-! ## Selecting an address -/

/-- The address lines in the order they are driven, `A7` first (41_latch_protocol.md R126). -/
def addrOrder : List (Fin 8) := [7, 6, 5, 4, 3, 2, 1, 0]

/-- The lines after driving these address lines with their bits of `v`. -/
def Lines.driveBits (v : Byte) (l : Lines) (is : List (Fin 8)) : Lines :=
  is.foldl (fun k i => k.set (.a i) (.ofBool (v.getLsbD i))) l

theorem driveAddrLines_append (v : Byte) (is js : List (Fin 8)) :
    driveAddrLines v (is ++ js) = driveAddrLines v is >>= fun _ => driveAddrLines v js := by
  induction is with
  | nil => rfl
  | cons i is ih => simp only [List.cons_append, driveAddrLines, ih, bind_assoc]

/-- Address lines driven where the script says that every drive succeeds. -/
theorem driveAddrLines_scripted {s : State} (h : s.env.noIOFail = false) (v : Byte) (is : List (Fin 8)) {rest : List Bool}
    (hio : s.env.io = List.replicate is.length true ++ rest) :
    driveAddrLines v is s = .ok ()
      { s with
        lines := s.lines.driveBits v is
        trace := s.trace ++ is.map fun i => driven (.a i) (v.getLsbD i)
        env := { s.env with io := rest } } := by
  induction is generalizing s with
  | nil =>
    simp only [List.length_nil, List.replicate_zero, List.nil_append] at hio
    simp only [driveAddrLines, Lines.driveBits, List.foldl_nil, List.map_nil, List.append_nil, ← hio]
    rfl
  | cons i is ih =>
    refine (bind_ok (drive_addr_scripted h hio i _)).trans ?_
    rw [ih (by exact h) rfl]
    simp [Lines.driveBits]

/-- Driving address lines moves no other line. -/
theorem Lines.driveBits_withAddr (v : Byte) (l : Lines) (is : List (Fin 8)) (a : LByte) :
    { l.driveBits v is with addr := a } = { l with addr := a } := by
  induction is generalizing l with
  | nil => rfl
  | cons i is ih => exact ih (l.set (.a i) _)

/-- Address lines driven where the script says that the drive of line `i` is the first to fail: no later one is driven, and
every address line is lost (41_latch_protocol.md R126). -/
theorem driveAddrLines_fails {s : State} (h : s.env.noIOFail = false) (v : Byte) (is js : List (Fin 8)) (i : Fin 8)
    {rest : List Bool} (hio : s.env.io = List.replicate is.length true ++ false :: rest) :
    onFailure State.loseAddr (driveAddrLines v (is ++ i :: js)) s = .error .ioFail
      { s with
        lines := { s.lines with addr := .unknown }
        trace := s.trace ++ (is.map fun i => driven (.a i) (v.getLsbD i)) ++ [.drive (.a i) (v.getLsbD i) false]
        log := s.log ++ [.io (.line (.a i))]
        env := { s.env with io := rest } } := by
  rw [driveAddrLines_append]
  refine (onFailure_error ((bind_ok (driveAddrLines_scripted h v is hio)).trans
    (bind_error (drive_addr_fails (by exact h) rfl i _)))).trans ?_
  rw [← Lines.driveBits_withAddr v s.lines is]
  rfl

/-- The eight bits of a byte, driven in order, put the byte on the address lines. -/
theorem Lines.driveBits_all (v : Byte) (l : Lines) : l.driveBits v addrOrder = { l with addr := .ofByte v } := by
  rw [← LByte.set_all l.addr v]
  rfl

/-- The events of a successful address select: the eight drives in order, and the settle. -/
theorem selectEvents_eq (v : Byte) :
    selectEvents v.toNat = (addrOrder.map fun i : Fin 8 => driven (.a i) (v.getLsbD i)) ++ [.settle] := by
  rw [selectEvents, BitVec.ofNat_toNat, BitVec.setWidth_eq]
  rfl

theorem driveAddr_eq (v : Byte) :
    driveAddr v.toNat = onFailure State.loseAddr (driveAddrLines v addrOrder) >>= fun _ => settle := by
  rw [driveAddr, BitVec.ofNat_toNat, BitVec.setWidth_eq]
  rfl

/-- Before line `A(7 - k)` the first `k` lines are driven. -/
theorem addrOrder_split (k : Fin 8) : addrOrder = addrOrder.take k ++ k.rev :: addrOrder.drop (k + 1) := by
  decide +revert

/-- Settles O23: under `NoIOFail` by `driveAddr_ok`; by script each line is driven in order, and the drives before the one
that fails are those of the lines before it (`addrOrder_split`). -/
theorem addressSelect : Obligations.AddressSelect := by
  intro s v
  refine ⟨fun h => ?_, fun h rest hio => ?_, fun h k rest hio => ?_⟩
  · rw [driveAddr_ok h, LByte.ofAddr, BitVec.ofNat_toNat, BitVec.setWidth_eq]
  · have hall := driveAddrLines_scripted h v addrOrder hio
    rw [driveAddr_eq, bind_ok (onFailure_ok hall), settle_ok, Lines.driveBits_all, selectEvents_eq, ← List.append_assoc]
    rfl
  · have hlen : (addrOrder.take k).length = k := List.length_take_of_le (Nat.le_of_lt k.isLt)
    have hfail := driveAddrLines_fails h v (addrOrder.take k) (addrOrder.drop (k + 1)) k.rev (by rw [hlen]; exact hio)
    rw [← addrOrder_split] at hfail
    have htake : (selectEvents v.toNat).take k =
        (addrOrder.take k).map fun i : Fin 8 => driven (.a i) (v.getLsbD i) := by
      rw [selectEvents_eq, List.take_append_of_le_length (by simp [addrOrder]), List.map_take]
    rw [driveAddr_eq, bind_error hfail, htake]

/-! ## LG_ADDR, and an index outside the board -/

/-- Settles O24: the address of a group of the board is at most 255 with either value of `rd` (`Config.readAddr_le`), so
the byte holds it. -/
theorem lgAddrResult : Obligations.LgAddrResult := by
  intro s q dm lg rd ho hw hg
  have hle := Config.readAddr_le hw (Config.writeAddr_mem hg)
  have hrd : rd.toNat ≤ 1 := rd.toNat_le
  refine ⟨BitVec.ofNat 8 (s.cfg.groupAddr ⟨dm, lg⟩ rd), ?_, ?_⟩
  · rw [BitVec.toNat_ofNat, Config.groupAddr]
    omega
  · exact wholeCommand_ok (m := lgAddr ⟨dm, lg⟩ rd) ho.1 ((lgAddr_eq _ _ _).trans (if_pos hg))

/-- Settles O25: the index check comes first in each of the three commands, and touches nothing. -/
theorem latchBadIndex : Obligations.LatchBadIndex := by
  intro s q dm lg rd b ho hn i hi
  have hg : ¬ s.cfg.validGroup ⟨dm, lg⟩ = true := fun h => hn (Config.validGroup_iff.1 h)
  have hcheck : checkGroup ⟨dm, lg⟩ s = .error .badIndex s := if_neg hg
  simp only [List.mem_cons, List.not_mem_nil, or_false] at hi
  rcases hi with rfl | rfl | rfl
  · exact wholeCommand_error (m := lgAddr ⟨dm, lg⟩ rd) ho.1 (bind_error hcheck)
  · exact wholeCommand_error (m := lgWrite ⟨dm, lg⟩ b) ho.1 (bind_error (bind_error hcheck))
  · exact wholeCommand_error (m := lgRead ⟨dm, lg⟩) ho.1 (bind_error (bind_error hcheck))

/-! ## LG_WRITE and LG_READ whose primitives succeed -/

theorem State.Running.sound {s : State} {q : Nat} (h : s.Running q) : s.Sound := ⟨h.2.2.2, h.2.1, h.2.2.1⟩

theorem State.not_clean {s : State} (h : ¬ s.Clean) : s.lines.clean = false := by simpa [State.Clean] using h

/-- What a completed `LG_WRITE` answers and leaves, whatever the start (41_latch_protocol.md R129 to R131). -/
theorem lgWrite_leaves {s : State} {q dm lg : Nat} (b : Byte) (hr : s.Running q)
    (hg : s.cfg.validGroup ⟨dm, lg⟩ = true) :
    let w := s.cfg.writeAddr ⟨dm, lg⟩
    ∃ t, exec (.lgWrite dm lg b) s = .next t ∧ Answered s t q (okResponse s.hazAfterWrite 0#8 []) ∧
      t.lines = ⟨.ofAddr w, .hi, .ofBool (b.getLsbD 0), s.lines.load, .hi⟩ ∧
      (∀ a, t.latches.get a = wroteLatch s.cfg (!s.lines.clean) w b s.latches.get a) ∧
      t.trace = s.trace ++ writeEvents w b ++ [.endCmd q (okResponse s.hazAfterWrite 0#8 [])] ∧
      t.haz = s.hazAfterWrite ∧ t.log = s.log ∧ t.cfg = s.cfg ∧ t.env = s.env := by
  obtain ⟨ho, hq⟩ := hr.1
  obtain ⟨u, hu, -, hget, he⟩ := latchWrite_leaves hr.sound hg b
  have hrun := wholeCommand_ok (m := lgWrite ⟨dm, lg⟩ b) ho ((bind_ok hu).trans rfl)
  have hhaz : u.haz = s.hazAfterWrite := by rw [he]
  rw [hhaz] at hrun
  have htrace : u.trace = s.trace ++ writeEvents (s.cfg.writeAddr ⟨dm, lg⟩) b := by rw [he]
  have hlog : u.log = s.log := by rw [he]
  have hcfg : u.cfg = s.cfg := by rw [he]
  have henv : u.env = s.env := by rw [he]
  have hlines : u.lines = ⟨.ofAddr (s.cfg.writeAddr ⟨dm, lg⟩), .hi, .ofBool (b.getLsbD 0), s.lines.load, .hi⟩ := by rw [he]
  exact ⟨_, hrun, answered_deliver hq (by rw [he]), hlines, hget, congrArg (· ++ [_]) htrace, hhaz, hlog, hcfg, henv⟩

/-- Settles O26: on a clean bus the hazard bits stay, and only the written group changes. -/
theorem lgWriteClean : Obligations.LgWriteClean := by
  intro s q dm lg b ⟨hr, hcl⟩ hg
  have hclean : s.lines.clean = true := hcl
  have hload : s.lines.load = .hi := (Lines.clean_iff.1 hcl).2.1
  have hhaz : s.hazAfterWrite = s.haz := if_pos hclean
  obtain ⟨t, ht, ha, hl, hget, hrest⟩ := lgWrite_leaves b hr hg
  rw [hhaz] at ha hrest
  rw [hload] at hl
  refine ⟨t, ht, ha, hl, fun a => ?_, hrest⟩
  simp [hget, wroteLatch, hclean]

/-- Settles O27: a dirty start sets `HAZ[0]` and forgets the board; the load-strobe is the only line of a clean bus that a
write leaves alone. -/
theorem lgWriteDirty : Obligations.LgWriteDirty := by
  intro s q dm lg b hr hcl hg
  have hclean := State.not_clean hcl
  have hhaz : s.hazAfterWrite = s.haz ||| 0b01#2 := by simp [State.hazAfterWrite, hclean]
  obtain ⟨t, ht, ha, hl, hget, hrest⟩ := lgWrite_leaves b hr hg
  rw [hhaz] at ha hrest
  refine ⟨t, ht, ha, hl, ?_, fun a => ?_, fun a hne => ?_, hrest⟩
  · simp [State.Clean, hl, Lines.clean_iff]
  · have hmem := Config.writeAddr_mem hg
    rw [hget, wroteLatch]
    split
    · simp_all
    · split <;> simp_all [Latch.unknown]
  · rw [hget, wroteLatch, if_neg hne]
    split <;> simp_all [Latch.unknown]

/-- Settles O28: the captured byte is `SENSE` of the group, and the lines of a clean bus end as they began but for the
address. -/
theorem lgReadClean : Obligations.LgReadClean := by
  intro s q dm lg ⟨hr, hcl⟩ hg
  obtain ⟨ho, hq⟩ := hr.1
  obtain ⟨hh, hc, hm⟩ := hr.sound
  have hrun := wholeCommand_ok (m := lgRead ⟨dm, lg⟩) ho ((bind_ok (latchRead_ok hh hc hm hcl hg)).trans rfl)
  refine ⟨_, hrun, answered_deliver hq rfl, rfl, fun a => (Memory.get_set hm).trans ?_, rfl, rfl, rfl, rfl, rfl⟩
  split <;> simp [*]

/-- A dirty start forgets the board (41_latch_protocol.md R129). -/
theorem State.startLatch_dirty {s : State} (h : ¬ s.Clean) (a : Nat) :
    (s.startLatch a).out = (if a ∈ s.cfg.writeAddrs then .unknown else (s.latches.get a).out) ∧
      (s.startLatch a).sr = if a ∈ s.cfg.writeAddrs then .unknown else (s.latches.get a).sr := by
  simp only [State.startLatch, State.not_clean h, true_and]
  split <;> exact ⟨rfl, rfl⟩

/-- Settles O29: what a completed read leaves from a start that is not clean (`latchRead_leaves`,
`State.startLatch_dirty`). -/
theorem lgReadDirty : Obligations.LgReadDirty := by
  intro s q dm lg hr hcl hg haz
  obtain ⟨ho, hq⟩ := hr.1
  obtain ⟨v, u, hu, ⟨hl, hhaz, hc, hp, hout, hother, -, hdraw⟩, hw, hlog, -⟩ := latchRead_leaves hr.sound hg
  have hreqs : u.reqs = s.reqs := by
    have hev := latchRead_evolving ⟨dm, lg⟩ s
    rw [hu] at hev
    exact hev.reqs
  have hhaz : u.haz = haz := by simp [hhaz, State.hazAfterRead, State.not_clean hcl, haz]
  have hrun := wholeCommand_ok (m := lgRead ⟨dm, lg⟩) ho ((bind_ok hu).trans rfl)
  rw [hhaz] at hrun
  refine ⟨_, v, hrun, answered_deliver hq hreqs, hdraw hcl, hl, hw.clean, fun a => ?_, fun a hne => ?_, hhaz, hlog, hc,
    hp⟩
  · exact (hout a).trans (State.startLatch_dirty hcl a).1
  · exact (congrArg Latch.sr (hother a hne)).trans (State.startLatch_dirty hcl a).2

/-! ## How a transaction opens: the start, the address select and the verification -/

/-- The address a transaction at the group `w` sends: its write address for a write, its read address for a read. -/
def sentAddr (write : Bool) (w : Nat) : Nat := if write then w else w + 4

/-- The readbacks it accepts (41_latch_protocol.md R132, R143). -/
def acceptedAddrs (write : Bool) (w : Nat) : List Nat := if write then [w] else [w + 4, w]

/-- What a write and a read of the group at `w` begin with; whether the start is dirty. -/
def opening (write : Bool) (w : Nat) : Run Bool := do
  let dirty ← startTransaction
  driveAddr (sentAddr write w)
  verify (sentAddr write w) (acceptedAddrs write w)
  pure dirty

/-- A write of a valid group opens, sends the byte and forgets the outputs after a dirty start (41_latch_protocol.md
R130). -/
theorem latchWrite_eq (g : Group) (b : Byte) (s : State) :
    latchWrite g b s =
      if s.cfg.validGroup g then
        (do
          let dirty ← opening true (s.cfg.writeAddr g)
          onFailure (fun u => u.forget (s.cfg.writeAddr g)) (sendByte b)
          forgetOutIf dirty (s.cfg.writeAddr g) : Run Unit) s
      else .error .badIndex s := by
  split
  · rename_i hg
    refine (bind_ok (if_pos hg)).trans ((bind_ok rfl).trans ?_)
    simp only [opening, bind_assoc, pure_bind]
    rfl
  · rename_i hg
    exact bind_error (if_neg hg)

/-- A read of a valid group opens, receives a byte and draws it after a dirty start (41_latch_protocol.md R140). -/
theorem latchRead_eq (g : Group) (s : State) :
    latchRead g s =
      if s.cfg.validGroup g then
        (do
          let dirty ← opening false (s.cfg.writeAddr g)
          checkLoadHazard
          let v ← receiveByte
          drawIf dirty v : Run Byte) s
      else .error .badIndex s := by
  split
  · rename_i hg
    refine (bind_ok (if_pos hg)).trans ((bind_ok rfl).trans ?_)
    simp only [opening, bind_assoc, pure_bind]
    rfl
  · rename_i hg
    exact bind_error (if_neg hg)

/-- The state after an opening at address `a` in which the port showed `rb`, `rest` being left of the script. -/
def State.opened (s : State) (a : Nat) (rb : Byte) (rest : List Byte) : State :=
  { s.started.moved { s.started.lines with addr := .ofAddr a } (selectEvents a) with
    env := { s.started.env with port := rest } }.event (.readPort (some rb))

/-- What an opening leaves of the state before it. -/
theorem State.opened_parts (s : State) (a : Nat) (rb : Byte) (rest : List Byte) :
    (s.opened a rb rest).cfg = s.cfg ∧ (s.opened a rb rest).lines = { s.lines with addr := .ofAddr a } ∧
      (s.opened a rb rest).env = { s.env with port := rest } ∧ (s.opened a rb rest).log = s.log ∧
      (s.opened a rb rest).trace = s.trace ++ selectEvents a ++ [.readPort (some rb)] := by
  obtain ⟨sc, sl, se, st, sg, -⟩ := s.started_same
  simp [State.opened, sc, sl, se, st, sg]

/-- An opening with a clean start forgets nothing and sets no hazard bit (41_latch_protocol.md R129). -/
theorem State.opened_clean {s : State} (h : s.Clean) (a : Nat) (rb : Byte) (rest : List Byte) :
    (s.opened a rb rest).latches = s.latches ∧ (s.opened a rb rest).haz = s.haz := by
  have hst : s.started = s := if_pos h
  rw [State.opened, hst]
  exact ⟨rfl, rfl⟩

/-- An opening whose drives succeed and whose port shows a scripted byte: it goes on exactly if the byte is an accepted
address (41_latch_protocol.md R132, R143). -/
theorem opening_scripted {s : State} (h : s.env.noIOFail = true) (hb : s.env.healthyBus = false) {rb : Byte}
    {rest : List Byte} (hp : s.env.port = rb :: rest) (write : Bool) (w : Nat) :
    opening write w s =
      if rb.toNat ∈ acceptedAddrs write w then .ok (!s.lines.clean) (s.opened (sentAddr write w) rb rest)
      else .error (.addrMismatch (BitVec.ofNat 8 (sentAddr write w)) rb)
        ((s.opened (sentAddr write w) rb rest).record (.addr (BitVec.ofNat 8 (sentAddr write w)) rb)) := by
  obtain ⟨-, -, se, -⟩ := s.started_same
  have hdrive := driveAddr_ok (s := s.started) (by rwa [se]) (sentAddr write w)
  have hport := readPort_drawn (s := s.started.moved { s.started.lines with addr := .ofAddr (sentAddr write w) }
    (selectEvents (sentAddr write w))) (rb := rb) (rest := rest) (by rwa [se]) (by rwa [se]) (by rwa [se])
  refine (bind_ok (startTransaction_eq s)).trans ((bind_ok hdrive).trans ?_)
  split
  · rename_i hacc
    refine bind_ok (a := ()) ((bind_ok hport).trans ?_)
    rw [if_pos (List.contains_iff_mem.2 hacc)]
    rfl
  · rename_i hacc
    refine bind_error ((bind_ok hport).trans ?_)
    rw [if_neg (mt List.contains_iff_mem.1 hacc)]
    rfl

/-! ## The verification -/

/-- A whole command that replies with this data. -/
theorem wholeCommand_replies {m : Run Reply} {s u : State} {q : Nat} {v : Byte} (ho : s.OwnedBy q)
    (hv : Run.Evolving m) (hm : m s = .ok ⟨v, []⟩ u) :
    wholeCommand m s = .next (u.deliver q (okResponse u.haz v [])) ∧
      Answered s (u.deliver q (okResponse u.haz v [])) q (okResponse u.haz v []) := by
  have hev := hv s
  rw [hm] at hev
  exact ⟨wholeCommand_ok ho.1 hm, answered_deliver ho.2 hev.reqs⟩

/-- A whole command whose opening found another address on the port ends right there (41_latch_protocol.md R132, R143). -/
theorem wholeCommand_rejects {m : Run Reply} {s : State} {q a : Nat} {rb : Byte} {rest : List Byte} (ho : s.OwnedBy q)
    (hv : Run.Evolving m) (hm : m s = .error (.addrMismatch (BitVec.ofNat 8 a) rb)
      ((s.opened a rb rest).record (.addr (BitVec.ofNat 8 a) rb))) :
    ∃ t, wholeCommand m s = .next t ∧ Answered s t q (mismatchResponse t.haz a rb) ∧
      t.lines = { s.lines with addr := .ofAddr a } ∧ t.log = s.log ++ [.addr (BitVec.ofNat 8 a) rb] ∧
      t.trace = s.trace ++ selectEvents a ++ [.readPort (some rb), .endCmd q (mismatchResponse t.haz a rb)] ∧
      (s.Clean → t.latches = s.latches ∧ t.haz = s.haz) := by
  obtain ⟨-, ul, -, ug, ut⟩ := s.opened_parts a rb rest
  have hev := hv s
  rw [hm] at hev
  refine ⟨_, wholeCommand_error ho.1 hm, answered_deliver ho.2 hev.reqs, ul, congrArg (· ++ [_]) ug, ?_,
    fun hcl => State.opened_clean hcl a rb rest⟩
  refine (congrArg (· ++ [_]) ut).trans ?_
  rw [List.append_assoc]
  rfl

/-- The rest of an accepted write whose primitives succeed (41_latch_protocol.md R130). -/
theorem writeBody_ok {u : State} (h : u.env.noIOFail = true) {w : Nat} (hw : u.atWrite = some w)
    (hm : u.latches.wf = true) (b : Byte) (dirty : Bool) :
    ∃ t, (do onFailure (fun u => u.forget w) (sendByte b); forgetOutIf dirty w : Run Unit) u = .ok () t ∧
      (dirty = false → t.OutIs w b) := by
  refine ⟨_, (bind_ok (onFailure_ok (sendByte_ok h hw hm b))).trans rfl, ?_⟩
  rintro rfl
  exact congrArg Latch.out (Memory.get_set_self hm)

/-- Settles O31: the opening goes on exactly with the write address (`opening_scripted`); then the byte is sent
(`writeBody_ok`), else the command ends where the opening did (`wholeCommand_rejects`). -/
theorem writeVerification : Obligations.WriteVerification := by
  intro s q dm lg b rb rest ho hc hm hio hb hp hg w
  have hmem : w ∈ s.cfg.writeAddrs := Config.writeAddr_mem hg
  have hopen := opening_scripted hio hb hp true w
  have hrun := latchWrite_eq ⟨dm, lg⟩ b s
  rw [if_pos hg] at hrun
  by_cases hacc : rb.toNat = w
  · rw [if_pos (by simp [acceptedAddrs, hacc])] at hopen
    obtain ⟨uc, ul, ue, -⟩ := s.opened_parts w rb rest
    have hat : (s.opened w rb rest).atWrite = some w := State.atWrite_eq (by rwa [uc]) (by rwa [uc]) (by rw [ul])
    obtain ⟨t, ht, hout⟩ :=
      writeBody_ok (u := s.opened w rb rest) (by rwa [ue]) hat (State.started_wf hm) b (!s.lines.clean)
    have hwrite := hrun.trans ((bind_ok hopen).trans ht)
    obtain ⟨he, ha⟩ := wholeCommand_replies ho (lgWrite_evolving _ b) ((bind_ok hwrite).trans rfl)
    refine ⟨_, he, fun _ => ⟨ha, fun hcl => hout ?_⟩, fun hne => absurd hacc hne⟩
    rw [show s.lines.clean = true from hcl, Bool.not_true]
  · rw [if_neg (by simp [acceptedAddrs, hacc])] at hopen
    obtain ⟨t, he, ht⟩ := wholeCommand_rejects ho (lgWrite_evolving _ b) (bind_error (hrun.trans (bind_error hopen)))
    exact ⟨t, he, fun h => absurd h hacc, fun _ => ht⟩

/-- `SENSE` of a group depends on its outputs, on `Loopback` and on the status bytes to come only (20_memory.md R66). -/
theorem State.sense_fst {s t : State} {w : Nat} (hl : t.env.loopback = s.env.loopback) (hs : t.env.sense = s.env.sense)
    (hd : t.env.drawn = s.env.drawn) (ho : (t.latches.get w).out = (s.latches.get w).out) :
    (t.sense w).1 = (s.sense w).1 := by
  unfold State.sense State.senseDraw
  rw [hl, hs, hd, ho]
  repeat' split
  all_goals rfl

/-- The rest of an accepted read whose primitives succeed (41_latch_protocol.md R140). -/
theorem readBody_succeeds {u : State} (h : u.env.noIOFail = true) (dirty : Bool) :
    ∃ v t, (do checkLoadHazard; let v ← receiveByte; drawIf dirty v : Run Byte) u = .ok v t := by
  have hhaz : checkLoadHazard u = .ok () (if u.lines.busen = .hi then u else u.setHaz hazLoaden) := rfl
  obtain ⟨v, t, ht, -⟩ := receiveByte_succeeds (s := if u.lines.busen = .hi then u else u.setHaz hazLoaden)
    (by split <;> exact h)
  rw [bind_ok hhaz, bind_ok ht]
  cases dirty
  · exact ⟨_, _, rfl⟩
  · exact ⟨_, _, rfl⟩

/-- The rest of an accepted read on a clean bus: the byte is `SENSE` of the addressed group (41_latch_protocol.md R140). -/
theorem readBody_ok {u : State} (h : u.env.noIOFail = true) {w : Nat} (hcl : u.Clean) (hn : u.atWrite = none)
    (hw : u.atRead = some w) (hm : u.latches.wf = true) :
    ∃ t, (do checkLoadHazard; let v ← receiveByte; drawIf false v : Run Byte) u = .ok (u.sense w).1 t := by
  obtain ⟨hb, -, hc⟩ := Lines.clean_iff.1 hcl
  exact ⟨_, (bind_ok (checkLoadHazard_ok hb)).trans ((bind_ok (receiveByte_ok h hb hc hn hw hm)).trans rfl)⟩

/-- Settles O32: the opening goes on exactly with the read address or the write address (`opening_scripted`); then a byte is
received, `SENSE` on a clean bus (`readBody_ok`), else the command ends where the opening did (`wholeCommand_rejects`). -/
theorem readVerification : Obligations.ReadVerification := by
  intro s q dm lg rb rest ho hc hm hio hb hp hg w
  have hmem : w ∈ s.cfg.writeAddrs := Config.writeAddr_mem hg
  have hopen := opening_scripted hio hb hp false w
  have hrun := latchRead_eq ⟨dm, lg⟩ s
  rw [if_pos hg] at hrun
  by_cases hacc : rb.toNat = w + 4 ∨ rb.toNat = w
  · rw [if_pos (by simpa [acceptedAddrs] using hacc)] at hopen
    obtain ⟨uc, ul, ue, -⟩ := s.opened_parts (w + 4) rb rest
    have hread : ∃ v t, latchRead ⟨dm, lg⟩ s = .ok v t ∧ (s.Clean → v = (s.sense w).1) := by
      by_cases hcl : s.Clean
      · have hsense : ((s.opened (w + 4) rb rest).sense w).1 = (s.sense w).1 :=
          State.sense_fst (by rw [ue]) (by rw [ue]) (by rw [ue])
            (by rw [(State.opened_clean hcl _ rb rest).1])
        obtain ⟨t, ht⟩ := readBody_ok (u := s.opened (w + 4) rb rest) (w := w) (by rwa [ue])
          (by rw [State.Clean, ul]; exact hcl)
          (State.atWrite_none (by rwa [uc]) (by rwa [uc]) (by rw [ul]))
          (State.atRead_eq (by rwa [uc]) (by rwa [uc]) (by rw [ul])) (State.started_wf hm)
        rw [show s.lines.clean = true from hcl, Bool.not_true] at hopen
        exact ⟨_, t, hrun.trans ((bind_ok hopen).trans ht), fun _ => hsense⟩
      · obtain ⟨v, t, ht⟩ := readBody_succeeds (u := s.opened (w + 4) rb rest) (by rwa [ue]) (!s.lines.clean)
        exact ⟨v, t, hrun.trans ((bind_ok hopen).trans ht), fun h => absurd h hcl⟩
    obtain ⟨v, t, ht, hv⟩ := hread
    obtain ⟨he, ha⟩ := wholeCommand_replies ho (lgRead_evolving _) ((bind_ok ht).trans rfl)
    exact ⟨_, he, fun _ => ⟨v, ha, hv⟩, fun h4 h => absurd hacc (not_or.2 ⟨h4, h⟩)⟩
  · rw [if_neg (by simpa [acceptedAddrs] using hacc)] at hopen
    obtain ⟨t, he, ht⟩ := wholeCommand_rejects ho (lgRead_evolving _) (bind_error (hrun.trans (bind_error hopen)))
    exact ⟨t, he, fun h => absurd h hacc, fun _ _ => ht⟩

/-! ## Where a part of a command ends -/

/-- A failure of two parts is one of the first, or one of the second after the first. -/
theorem bind_error_inv {α β : Type} {m : Run α} {f : α → Run β} {s t : State} {e : Failure}
    (h : (m >>= f) s = .error e t) : m s = .error e t ∨ ∃ a u, m s = .ok a u ∧ f a u = .error e t := by
  cases hm : m s with
  | ok a u => exact .inr ⟨a, u, rfl, (bind_ok hm).symm.trans h⟩
  | error e' u =>
    rw [bind_error hm] at h
    cases h
    exact .inl rfl

/-- A success of two parts is one of both. -/
theorem bind_ok_inv {α β : Type} {m : Run α} {f : α → Run β} {s t : State} {b : β} (h : (m >>= f) s = .ok b t) :
    ∃ a u, m s = .ok a u ∧ f a u = .ok b t := by
  cases hm : m s with
  | ok a u => exact ⟨a, u, rfl, (bind_ok hm).symm.trans h⟩
  | error e' u => cases (bind_error (f := f) hm).symm.trans h

/-- A failed drive leaves its line unknown (41_latch_protocol.md R120). -/
theorem drive_error {n : Line} {v : Bool} {s t : State} {e : Failure} (h : drive n v s = .error e t) :
    e = .ioFail ∧ t.lines = s.lines.set n .x := by
  unfold drive pinOp at h
  split at h
  · cases h
  · cases h
    exact ⟨rfl, congrArg (·.set n .x) s.ioDraw_lines.1⟩

/-! ## Events that leave bus-enable alone -/

/-- An event that is no drive of bus-enable. -/
def Event.OffEnable (e : Event) : Prop := ∀ v ok, e ≠ .drive .busen v ok

theorem Event.OffEnable.busen {e : Event} (h : e.OffEnable) (l : Lines) : (l.replay e).busen = l.busen := by
  cases e with
  | drive n v ok =>
    cases n with
    | busen => exact absurd rfl (h v ok)
    | _ => cases ok <;> rfl
  | _ => rfl

/-- Such events leave bus-enable where it was. -/
theorem Recorded.busen {s t : State} {es : List Event} {rs : List LogRec} (h : Recorded Event.OffEnable s t es rs) :
    t.lines.busen = s.lines.busen := by
  rw [h.lines]
  generalize s.lines = l
  have hes := h.only
  clear h
  induction es generalizing l with
  | nil => rfl
  | cons e es ih =>
    exact (ih _ fun x hx => hes x (List.mem_cons_of_mem _ hx)).trans ((hes e List.mem_cons_self).busen l)

/-- Among such events the drive that selects a group is not. -/
theorem not_enableAttempted {es : List Event} (h : ∀ e ∈ es, e.OffEnable) : ¬ enableAttempted es :=
  fun ⟨ok, he⟩ => h _ he false ok rfl

theorem opening_recorded (write : Bool) (w : Nat) : Run.Recorded Event.OffEnable (opening write w) :=
  .bind .startTransaction fun _ => .bind (.driveAddr (by simp [Event.OffEnable]) (by simp [Event.OffEnable]) _) fun _ =>
    .bind (.verify (by simp [Event.OffEnable]) _ _) fun _ => .pure _

theorem writeBits_recorded (vs : List Bool) : Run.Recorded Event.OffEnable (writeBits vs) :=
  .writeBits (by simp [Event.OffEnable]) (by simp [Event.OffEnable]) (by simp [Event.OffEnable]) vs

theorem readBits_recorded (n : Nat) : Run.Recorded Event.OffEnable (readBits n) :=
  .readBits (by simp [Event.OffEnable]) (by simp [Event.OffEnable]) (by simp [Event.OffEnable]) n

/-! ## Work with a group selected -/

/-- Select, work, deselect: steps 3 to 5 of a write (41_latch_protocol.md R130), steps 4 to 6 of a read (R140). -/
def selected {α : Type} (m : Run α) : Run α := do
  drive .busen false
  settle
  let a ← m
  drive .busen true
  settle
  pure a

theorem sendByte_eq (b : Byte) : sendByte b = selected (writeBits (Byte.msbFirst b)) := by
  simp [sendByte, selected]

theorem receiveByte_eq :
    receiveByte = (do
      (do drive .load false; drive .load true; settle : Run Unit)
      let bits ← selected (readBits 7)
      pure (Byte.ofMsbFirst bits)) := by
  simp [receiveByte, selected]

/-- A failure with a group selected leaves bus-enable not deselected (41_latch_protocol.md R131, R142). -/
theorem selected_error {α : Type} {m : Run α} (hm : Run.Recorded Event.OffEnable m) {s t : State} {e : Failure}
    (h : selected m s = .error e t) : t.lines.busen ≠ .hi := by
  rcases bind_error_inv h with h | ⟨_, u, hu, h⟩
  · rw [(drive_error h).2]
    exact nofun
  rw [bind_ok (settle_ok u)] at h
  rcases bind_error_inv h with h | ⟨a, v, _, h⟩
  · obtain ⟨es, rs, hr, -⟩ := (hm _).2 e t h
    rw [hr.busen, State.event_lines, drive_lines hu]
    exact nofun
  rcases bind_error_inv h with h | ⟨_, v', _, h⟩
  · rw [(drive_error h).2]
    exact nofun
  · rw [bind_ok (settle_ok v')] at h
    cases h

/-- What the devices do at a drive is no event. -/
theorem State.moveLine_trace (s : State) (n : Line) (v : Bool) : (s.moveLine n v).trace = s.trace := by
  unfold State.moveLine State.edge State.shiftSelected State.capture State.transfer State.sense State.senseDraw
    State.countDraw
  repeat' split
  all_goals rfl

/-- A drive is attempted, whether it succeeds or not. -/
theorem drive_trace (n : Line) (v : Bool) (s : State) :
    ∃ ok, (after (drive n v s)).trace = s.trace ++ [.drive n v ok] := by
  have hio : s.ioDraw.2.trace = s.trace := by rw [s.ioDraw_eq]
  unfold drive pinOp
  split
  · exact ⟨true, congrArg (· ++ [_]) ((State.moveLine_trace _ n v).trans hio)⟩
  · exact ⟨false, congrArg (· ++ [_]) hio⟩

/-- Later parts only append to the trace. -/
theorem bind_trace {α β : Type} {m : Run α} {f : α → Run β} (hf : ∀ a, Run.Evolving (f a)) (s : State) :
    ∃ es, (after ((m >>= f) s)).trace = (after (m s)).trace ++ es := by
  cases h : m s with
  | ok a t =>
    rw [bind_ok h]
    obtain ⟨es, he, -⟩ := (hf a t).trace
    exact ⟨es, he⟩
  | error e t =>
    rw [bind_error h]
    exact ⟨[], (List.append_nil _).symm⟩

theorem selected_attempts {α : Type} {m : Run α} (hm : Run.Evolving m) {s : State} {es : List Event}
    (h : (after (selected m s)).trace = s.trace ++ es) : enableAttempted es := by
  obtain ⟨ok, hd⟩ := drive_trace .busen false s
  obtain ⟨fs, hf⟩ : ∃ fs, (after (selected m s)).trace = (after (drive .busen false s)).trace ++ fs :=
    bind_trace (fun _ => .bind settle_evolving fun _ => .bind hm fun _ => .bind (drive_evolving _ _) fun _ =>
      .bind settle_evolving fun _ => .pure _) s
  rw [hd, List.append_assoc] at hf
  rw [List.append_cancel_left (h.symm.trans hf)]
  exact ⟨ok, List.mem_append_left _ List.mem_cons_self⟩

/-- A failure before or while a group is selected: bus-enable was not driven, or is not deselected
(41_latch_protocol.md R142). -/
theorem receiveByte_error {s t : State} {e : Failure} (h : receiveByte s = .error e t) :
    (∃ es rs, Recorded Event.OffEnable s t es rs) ∨ t.lines.busen ≠ .hi := by
  have hload (v : Bool) : Run.Recorded Event.OffEnable (drive .load v) := .drive (by simp) (by simp [Event.OffEnable]) v
  have hcapture : Run.Recorded Event.OffEnable (do drive .load false; drive .load true; settle) :=
    .bind (hload false) fun _ => .bind (hload true) fun _ => .settle (by simp [Event.OffEnable])
  rw [receiveByte_eq] at h
  rcases bind_error_inv h with h | ⟨_, u, _, h⟩
  · obtain ⟨es, rs, hr, -⟩ := (hcapture s).2 e t h
    exact .inl ⟨es, rs, hr⟩
  rcases bind_error_inv h with h | ⟨bits, v, _, h⟩
  · exact .inr (selected_error (readBits_recorded 7) h)
  · cases h

/-! ## Sending a byte, whatever the environment answers -/

/-- An event of the data, clock and enable lines. -/
def Event.OnWires (e : Event) : Prop := e = .settle ∨ ∃ n v ok, (∀ i, n ≠ .a i) ∧ e = .drive n v ok

theorem sendByte_recorded (b : Byte) : Run.Recorded Event.OnWires (sendByte b) := by
  refine .sendByte (fun v ok => .inr ⟨.din, v, ok, nofun, rfl⟩) (fun v ok => .inr ⟨.clk, v, ok, nofun, rfl⟩)
    (fun v ok => .inr ⟨.busen, v, ok, nofun, rfl⟩) (.inl rfl) b

theorem drive_raises_ioFail (n : Line) (v : Bool) : Run.Raises (· = .ioFail) (drive n v) :=
  fun _ _ _ h => (drive_error h).1

theorem settle_raises_ioFail : Run.Raises (· = .ioFail) settle := fun _ _ _ h => by cases h

theorem sendByte_raises_ioFail (b : Byte) : Run.Raises (· = .ioFail) (sendByte b) := by
  have hbits (vs : List Bool) : Run.Raises (· = .ioFail) (writeBits vs) := by
    induction vs with
    | nil => exact .pure _
    | cons v vs ih =>
      exact .bind (.bind (drive_raises_ioFail _ _) fun _ => .bind (drive_raises_ioFail _ _) fun _ =>
        .bind (drive_raises_ioFail _ _) fun _ => settle_raises_ioFail) fun _ => ih
  exact .bind (drive_raises_ioFail _ _) fun _ => .bind settle_raises_ioFail fun _ => .bind (hbits _) fun _ =>
    .bind (drive_raises_ioFail _ _) fun _ => settle_raises_ioFail

theorem Lines.get_set_self (l : Lines) {n : Line} (hn : ∀ i, n ≠ .a i) (v : Level) : (l.set n v).get n = v := by
  cases n with
  | a i => exact absurd rfl (hn i)
  | _ => rfl

/-- A failed drive of another line than the address lines leaves that line unknown. -/
theorem Lines.replay_failed (l : Lines) {n : Line} (hn : ∀ i, n ≠ .a i) (v : Bool) :
    l.replay (.drive n v false) = l.set n .x := by
  cases n with
  | a i => exact absurd rfl (hn i)
  | _ => rfl

/-- The one drive that failed is among the events, and its line is unknown (41_latch_protocol.md R131). -/
def FailedDrive (es : List Event) (l : Lines) : Prop :=
  ∃ n v, es.filterMap Event.failedAt = [.line n] ∧ Event.drive n v false ∈ es ∧ l.get n = .x

theorem sendByte_failedDrive {b : Byte} {s t : State} {f : Failure} {es : List Event} (h : sendByte b s = .error f t)
    (ht : t.trace = s.trace ++ es) : FailedDrive es t.lines := by
  cases sendByte_raises_ioFail b s f t h
  obtain ⟨fs, rs, hr, es0, e, p, rfl, hp, h0⟩ := (sendByte_recorded b s).2 _ t h
  cases List.append_cancel_left (ht.symm.trans hr.trace)
  rcases hr.only e (by simp) with rfl | ⟨n, v, ok, hn, rfl⟩
  · cases hp
  cases ok with
  | true => cases hp
  | false =>
    refine ⟨n, v, by simp [h0, Event.failedAt], by simp, ?_⟩
    rw [hr.lines, List.foldl_append, List.foldl_cons, List.foldl_nil, Lines.replay_failed _ hn, Lines.get_set_self _ hn]

/-- A shift looks at no answer of the environment (20_memory.md R64). -/
theorem State.shiftSelected_env (s : State) (e : Env) :
    ({ s with env := e } : State).shiftSelected = { s.shiftSelected with env := e } := by
  have hw : ({ s with env := e } : State).writeSelected = s.writeSelected := rfl
  have hr : ({ s with env := e } : State).readSelected = s.readSelected := rfl
  rw [State.shiftSelected, State.shiftSelected, hw, hr]
  cases s.writeSelected with
  | some w => rfl
  | none => cases s.readSelected <;> rfl

/-- Nor does a transfer (20_memory.md R68). -/
theorem State.transfer_env (s : State) (e : Env) :
    ({ s with env := e } : State).transfer = { s.transfer with env := e } := by
  have hw : ({ s with env := e } : State).atWrite = s.atWrite := rfl
  rw [State.transfer, State.transfer, hw]
  cases s.atWrite <;> rfl

/-- Only at the load-strobe do the devices look at an answer of the environment. -/
theorem State.moveLine_env {n : Line} (hn : n ≠ .load) (s : State) (v : Bool) (e : Env) :
    ({ s with env := e } : State).moveLine n v = { s.moveLine n v with env := e } := by
  have hset : ({ s with env := e } : State).setLine n (.ofBool v) = { s.setLine n (.ofBool v) with env := e } := rfl
  rw [State.moveLine, State.moveLine, hset]
  unfold State.edge
  split
  · cases n with
    | clk => exact State.shiftSelected_env _ e
    | busen => exact State.transfer_env _ e
    | load => exact absurd rfl hn
    | _ => rfl
  · rfl

/-- A byte cut off leaves bus-enable not deselected (41_latch_protocol.md R131). -/
theorem sendByte_error {b : Byte} {s t : State} {f : Failure} (h : sendByte b s = .error f t) : t.lines.busen ≠ .hi :=
  selected_error (writeBits_recorded _) (by rwa [← sendByte_eq])

/-- A part of a command whose success depends on the environment in whether its primitives succeed only. -/
def Run.EnvFree {α : Type} (m : Run α) : Prop :=
  ∀ s a t, m s = .ok a t → ∀ e : Env, e.noIOFail = true → m { s with env := e } = .ok a { t with env := e }

namespace Run.EnvFree

variable {α β : Type}

theorem bind {m : Run α} {f : α → Run β} (hm : Run.EnvFree m) (hf : ∀ a, Run.EnvFree (f a)) : Run.EnvFree (m >>= f) := by
  intro s b t h e he
  obtain ⟨a, u, hu, ht⟩ := bind_ok_inv h
  rw [bind_ok (hm s a u hu e he)]
  exact hf a u b t ht e he

theorem settle : Run.EnvFree Machine.settle := by
  intro s a t h e he
  cases h
  rfl

/-- A drive of any line but the load-strobe, at which a device captures `SENSE`. -/
theorem drive {n : Line} (hn : n ≠ .load) (v : Bool) : Run.EnvFree (Machine.drive n v) := by
  intro s a t h e he
  rw [drive_ok he, State.moveLine_env hn s v e, drive_inv h, s.ioDraw_eq, State.moveLine_env hn s v s.ioDraw.2.env]
  rfl

theorem writeBits (vs : List Bool) : Run.EnvFree (Machine.writeBits vs) := by
  induction vs with
  | nil =>
    intro s a t h e he
    cases h
    rfl
  | cons v vs ih =>
    exact bind (bind (drive (by simp) _) fun _ => bind (drive (by simp) _) fun _ => bind (drive (by simp) _) fun _ =>
      settle) fun _ => ih

theorem sendByte (b : Byte) : Run.EnvFree (Machine.sendByte b) :=
  bind (drive (by simp) _) fun _ => bind settle fun _ => bind (writeBits _) fun _ =>
    bind (drive (by simp) _) fun _ => settle

end Run.EnvFree

/-- A byte sent to an addressed group is in its outputs and its shift register (41_latch_protocol.md R131). -/
theorem sendByte_latches {s t : State} {w : Nat} {b : Byte} (hw : s.atWrite = some w) (hm : s.latches.wf = true)
    (h : sendByte b s = .ok () t) : t.latches = s.latches.set w ⟨.ofByte b, .ofByte b⟩ := by
  have hsure := Run.EnvFree.sendByte b s () t h { s.env with noIOFail := true } rfl
  rw [sendByte_ok (s := { s with env := { s.env with noIOFail := true } }) rfl hw hm b] at hsure
  injection hsure with _ hst
  exact (congrArg State.latches hst).symm

/-! ## A transaction, whatever the environment answers -/

theorem readPort_latches (s : State) : (after (readPort s)).latches = s.latches := by
  have hans (u : State) : u.portAnswer.2.latches = u.latches := by
    unfold State.portAnswer State.portDraw State.countDraw
    repeat' split
    all_goals rfl
  unfold readPort pinOp
  split
  · exact (hans _).trans s.ioDraw_lines.2.1
  · exact s.ioDraw_lines.2.1

/-- Parts that change no latch content, one after the other. -/
theorem bind_latches {α β : Type} {m : Run α} {f : α → Run β} (hm : ∀ s, (after (m s)).latches = s.latches)
    (hf : ∀ a s, (after (f a s)).latches = s.latches) (s : State) : (after ((m >>= f) s)).latches = s.latches := by
  have h := hm s
  cases hs : m s with
  | error e t =>
    rw [hs] at h
    rw [bind_error hs]
    exact h
  | ok a t =>
    rw [hs] at h
    rw [bind_ok hs]
    exact (hf a t).trans h

theorem verify_latches (sent : Nat) (accepted : List Nat) (s : State) :
    (after (verify sent accepted s)).latches = s.latches := by
  refine bind_latches readPort_latches (fun rb u => ?_) s
  split <;> rfl

/-- An opening leaves the latches as the start left them (41_latch_protocol.md R129). -/
theorem opening_latches (write : Bool) (w : Nat) (s : State) :
    (after (opening write w s)).latches = s.started.latches := by
  unfold opening
  rw [bind_ok (startTransaction_eq s)]
  exact bind_latches (fun u => (driveAddr_latches _ u).1) (fun _ => bind_latches (verify_latches _ _) fun _ _ => rfl) _

/-- An opening that goes on tells whether the start was dirty, and leaves the address of the transaction on the lines
(41_latch_protocol.md R126, R129). -/
theorem opening_addressed {s u : State} {write dirty : Bool} {w : Nat} (hc : s.cfg.wf = true) (hw : w ∈ s.cfg.writeAddrs)
    (h : opening write w s = .ok dirty u) : dirty = (!s.lines.clean) ∧ Addressed write w u := by
  rw [opening, bind_ok (startTransaction_eq s)] at h
  obtain ⟨a, t, hdrive, h⟩ := bind_ok_inv h
  obtain ⟨a', t', hverify, h⟩ := bind_ok_inv h
  cases h
  have hcu : u.cfg = s.cfg := by
    have hv := verify_evolving (sentAddr write w) (acceptedAddrs write w) t
    have hd := (driveAddr_latches (sentAddr write w) s.started).2
    rw [hverify] at hv
    rw [hdrive] at hd
    exact hv.cfg.trans (hd.trans s.started_same.1)
  have hlines := (Run.Moves.verify _ _ _ _ _ hverify).trans (Run.Moves.driveAddr _ _ _ _ hdrive)
  exact ⟨rfl, by rwa [hcu], by rwa [hcu], congrArg Lines.addr hlines⟩

/-- How a write of the group at `w` and the events `es` it appended end (41_latch_protocol.md R131): before bus-enable was
driven, from that drive on, or with success. -/
inductive WriteEnds (s : State) (w : Nat) (b : Byte) : EStateM.Result Failure State Unit → List Event → Prop where
  | unopened {f : Failure} {t : State} {es : List Event} (he : ¬ enableAttempted es)
    (hl : t.latches = s.started.latches) : WriteEnds s w b (.error f t) es
  | cut {f : Failure} {t : State} {es : List Event} (he : enableAttempted es)
    (hl : ∀ a, a ≠ w → t.latches.get a = s.started.latches.get a) (hw : t.latches.get w = .unknown)
    (hb : t.lines.busen ≠ .hi) (hf : FailedDrive es t.lines) : WriteEnds s w b (.error f t) es
  | done {t : State} {es : List Event} (he : enableAttempted es)
    (hl : ∀ a, a ≠ w → t.latches.get a = s.started.latches.get a)
    (hw : (t.latches.get w).out = if s.lines.clean then .ofByte b else .unknown) : WriteEnds s w b (.ok () t) es

theorem enableAttempted.append {es fs : List Event} (h : enableAttempted fs) : enableAttempted (es ++ fs) := by
  obtain ⟨ok, h⟩ := h
  exact ⟨ok, List.mem_append_right _ h⟩

/-- Events none of which failed do not change which drive failed. -/
theorem FailedDrive.append {es fs : List Event} {l : Lines} (h : FailedDrive fs l)
    (he : es.filterMap Event.failedAt = []) : FailedDrive (es ++ fs) l := by
  obtain ⟨n, v, hf, hm, hx⟩ := h
  exact ⟨n, v, by rw [List.filterMap_append, he, hf]; rfl, List.mem_append_right _ hm, hx⟩

theorem latchWrite_ends {s : State} (hc : s.cfg.wf = true) (hm : s.latches.wf = true) {g : Group}
    (hg : s.cfg.validGroup g = true) (b : Byte) {es : List Event}
    (ht : (after (latchWrite g b s)).trace = s.trace ++ es) :
    WriteEnds s (s.cfg.writeAddr g) b (latchWrite g b s) es := by
  have hmem := Config.writeAddr_mem hg
  rw [latchWrite_eq, if_pos hg] at ht ⊢
  generalize s.cfg.writeAddr g = w at *
  have hlat := opening_latches true w s
  obtain ⟨hrok, hrerr⟩ := opening_recorded true w s
  cases ho : opening true w s with
  | error f t =>
    rw [bind_error ho] at ht ⊢
    rw [ho] at hlat
    obtain ⟨fs, rs, hr, -⟩ := hrerr f t ho
    rw [List.append_cancel_left (ht.symm.trans hr.trace)]
    exact .unopened (not_enableAttempted hr.only) hlat
  | ok dirty u =>
    rw [bind_ok ho] at ht ⊢
    rw [ho] at hlat
    change u.latches = _ at hlat
    obtain ⟨fs, rs, hr, hfs⟩ := hrok dirty u ho
    obtain ⟨rfl, hadr⟩ := opening_addressed hc hmem ho
    have hum : u.latches.wf = true := by rw [hlat]; exact State.started_wf hm
    have hlocal := Run.Local.sendByte b u hadr
    have hother (a : Nat) (ha : a ≠ w) := ((hlocal.2.2 hum).2 a : Touch true w a _ _) ha
    obtain ⟨gs, hgs, -⟩ := (sendByte_evolving b u).trace
    have hsent : enableAttempted gs := selected_attempts (writeBits_evolving _) (by rwa [← sendByte_eq])
    have hjoin (h : (after (sendByte b u)).trace = s.trace ++ es) : es = fs ++ gs := by
      rw [hgs, hr.trace, List.append_assoc] at h
      exact (List.append_cancel_left h).symm
    cases hs : sendByte b u with
    | error f t =>
      rw [hs] at hgs hother hlocal hjoin
      rw [bind_error (onFailure_error hs)] at ht ⊢
      rw [hjoin ht]
      have hbusen : t.lines.busen ≠ .hi := sendByte_error hs
      refine .cut hsent.append (fun a ha => ?_) (Memory.get_set_self (hlocal.2.2 hum).1) hbusen
        ((sendByte_failedDrive hs hgs).append hfs)
      exact (Memory.get_set_other ha).trans ((hother a ha).trans (by rw [hlat]))
    | ok x t =>
      have hbyte := sendByte_latches hadr.atWrite hum hs
      rw [hs] at hjoin hother
      rw [bind_ok (onFailure_ok hs)] at ht ⊢
      have hold (a : Nat) (ha : a ≠ w) : t.latches.get a = s.started.latches.get a := (hother a ha).trans (by rw [hlat])
      have hwf : t.latches.wf = true := by rw [hbyte]; exact Memory.wf_set hum
      cases hcl : s.lines.clean with
      | true =>
        rw [hcl] at ht
        rw [hjoin ht]
        refine .done hsent.append hold ?_
        show (t.latches.get w).out = _
        rw [hbyte, Memory.get_set_self hum, hcl]
        rfl
      | false =>
        rw [hcl] at ht
        rw [hjoin ht]
        refine .done hsent.append (fun a ha => (Memory.get_set_other ha).trans (hold a ha)) ?_
        show ((t.latches.set w _).get w).out = _
        rw [Memory.get_set_self hwf, hcl]
        rfl

/-! ## The answer of a command with one transaction -/

theorem Failure.response_ne_ok (f : Failure) (haz : BitVec 2) : (f.response haz).status ≠ .ok := by
  cases f <;> exact nofun

/-- A whole command that replies with what its work gives: the response, the events of the work before the `end` event,
and the state the work left. -/
theorem wholeCommand_delivers {α : Type} {m : Run α} {f : α → Reply} {s t : State} {q : Nat} {r : Response}
    {es : List Event} (hv : Run.Evolving m) (ho : s.OwnedBy q) (e : wholeCommand (m >>= fun a => pure (f a)) s = .next t)
    (hr : (t.req q).rsp = some r) (ht : t.trace = s.trace ++ es) :
    ∃ fs, es = fs ++ [.endCmd q r] ∧ (after (m s)).trace = s.trace ++ fs ∧ t = (after (m s)).deliver q r ∧
      ((∃ a u, m s = .ok a u ∧ r.status = .ok) ∨ ∃ x u, m s = .error x u ∧ r = x.response u.haz) := by
  have hev := hv s
  have key {r' : Response} (h : wholeCommand (m >>= fun a => pure (f a)) s = .next ((after (m s)).deliver q r')) :
      r' = r ∧ ∃ fs, es = fs ++ [.endCmd q r] ∧ (after (m s)).trace = s.trace ++ fs ∧ t = (after (m s)).deliver q r := by
    rw [h] at e
    cases e
    rw [(answered_deliver ho.2 hev.reqs).1] at hr
    cases hr
    obtain ⟨fs, hfs, -⟩ := hev.trace
    refine ⟨rfl, fs, ?_, hfs, rfl⟩
    have h1 : ((after (m s)).deliver q r).trace = (after (m s)).trace ++ [.endCmd q r] := rfl
    rw [h1, hfs, List.append_assoc] at ht
    exact (List.append_cancel_left ht).symm
  cases hm : m s with
  | ok a u =>
    rw [hm] at key
    obtain ⟨rfl, fs, h1, h2, h3⟩ := key (wholeCommand_ok ho.1 ((bind_ok hm).trans rfl))
    exact ⟨fs, h1, h2, h3, .inl ⟨a, u, rfl, rfl⟩⟩
  | error x u =>
    rw [hm] at key
    obtain ⟨rfl, fs, h1, h2, h3⟩ := key (wholeCommand_error ho.1 (bind_error hm))
    exact ⟨fs, h1, h2, h3, .inr ⟨x, u, rfl, rfl⟩⟩

theorem enableAttempted_end {es : List Event} {q : Nat} {r : Response} :
    enableAttempted (es ++ [.endCmd q r]) ↔ enableAttempted es := by
  simp [enableAttempted]

/-- The lines are where the events a command appended put them (41_latch_protocol.md R120, R126). -/
theorem exec_lines {i : Instr} {s t : State} {es : List Event} (e : exec i s = .next t) (ht : t.trace = s.trace ++ es) :
    t.lines = es.foldl Lines.replay s.lines := by
  obtain ⟨fs, rs, hr⟩ := exec_recorded i e
  rw [List.append_cancel_left (ht.symm.trans hr.trace)]
  exact hr.lines

/-- Outputs and shift registers as a dirty start leaves them (41_latch_protocol.md R129). -/
theorem State.started_parts {s : State} (hm : s.latches.wf = true) (a : Nat) :
    (s.started.latches.get a).out =
        (if s.lines.clean = false ∧ a ∈ s.cfg.writeAddrs then .unknown else (s.latches.get a).out) ∧
      (s.started.latches.get a).sr =
        if s.lines.clean = false ∧ a ∈ s.cfg.writeAddrs then .unknown else (s.latches.get a).sr := by
  rw [State.started_get hm]
  split <;> exact ⟨rfl, rfl⟩

/-- Settles O33: a write of a valid group ends in one of the ways of `WriteEnds`, any other in nothing, and the answer only
adds the `end` event (`wholeCommand_delivers`). -/
theorem writeEffect : Obligations.WriteEffect := by
  intro s t q dm lg b es r ho hc hm e hr ht w dirty
  have hlines := exec_lines e ht
  obtain ⟨fs, rfl, hfs, htu, hend⟩ :=
    wholeCommand_delivers (m := latchWrite ⟨dm, lg⟩ b) (f := fun _ => ⟨0#8, []⟩) (latchWrite_evolving _ b) ho e hr ht
  have htl : t.latches = (after (latchWrite ⟨dm, lg⟩ b s)).latches := by rw [htu]; rfl
  have htlines : t.lines = (after (latchWrite ⟨dm, lg⟩ b s)).lines := by rw [htu]; rfl
  have hfailed {f : Failure} {haz : BitVec 2} {p : Prop} (h : r = f.response haz) (hok : r.status = .ok) : p :=
    absurd (h ▸ hok) (f.response_ne_ok haz)
  rw [enableAttempted_end]
  by_cases hg : s.cfg.validGroup ⟨dm, lg⟩ = true
  · have hd (a : Nat) : (s.started.latches.get a).out =
        if dirty = true ∧ a ∈ s.cfg.writeAddrs then .unknown else (s.latches.get a).out := by
      simp [State.started_parts hm, dirty, hg]
    have hE := latchWrite_ends hc hm hg b hfs
    generalize latchWrite ⟨dm, lg⟩ b s = res at *
    cases hE with
    | unopened he hl =>
      obtain ⟨_, _, h, -⟩ | ⟨_, u, -, hr⟩ := hend
      · cases h
      refine ⟨fun a _ => ?_, hfailed hr, fun _ h => absurd h he, hlines⟩
      rw [htl, ← hd]
      exact congrArg (fun m : Memory => (m.get a).out) hl
    | cut he hl hw hb hf =>
      obtain ⟨_, _, h, -⟩ | ⟨_, u, -, hr⟩ := hend
      · cases h
      obtain ⟨n, v, hn, hmem, hx⟩ := hf
      refine ⟨fun a ha => ?_, hfailed hr, fun _ _ => ⟨?_, ?_, n, v, ?_, List.mem_append_left _ hmem, ?_⟩, hlines⟩
      · rw [htl, ← hd]
        exact congrArg Latch.out (hl a (ha.resolve_right (not_not_intro he)))
      · rw [htl]
        exact hw
      · rw [htlines]
        exact hb
      · rw [List.filterMap_append, hn]
        rfl
      · rw [htlines]
        exact hx
    | done he hl hw =>
      obtain ⟨_, _, -, hok⟩ | ⟨_, _, h, -⟩ := hend
      · refine ⟨fun a ha => ?_, fun _ => ⟨he, ?_⟩, fun h => absurd hok h, hlines⟩
        · rw [htl, ← hd]
          exact congrArg Latch.out (hl a (ha.resolve_right (not_not_intro he)))
        · rw [htl]
          exact hw
      · cases h
  · have hres : latchWrite ⟨dm, lg⟩ b s = .error .badIndex s := (latchWrite_eq _ b s).trans (if_neg hg)
    rw [hres] at hfs htl hend
    have hnil : fs = [] := List.append_cancel_left (hfs.symm.trans (List.append_nil _).symm)
    have hnot : ¬ enableAttempted fs := by simp [hnil, enableAttempted]
    obtain ⟨_, _, h, -⟩ | ⟨_, u, -, hr⟩ := hend
    · cases h
    refine ⟨fun a _ => ?_, hfailed hr, fun _ h => absurd h hnot, hlines⟩
    rw [htl]
    simp [dirty, hg, after]

/-- What comes after the opening of a read touches the shift register of its group only (41_latch_protocol.md R142). -/
theorem readBody_local (w : Nat) (dirty : Bool) :
    Run.Local false w (do checkLoadHazard; let v ← receiveByte; drawIf dirty v : Run Byte) := by
  refine .bind (fun s _ => ?_) fun _ => .bind .receiveByte fun v s _ => ?_
  · unfold checkLoadHazard
    split <;> exact .of_same rfl rfl rfl
  · unfold drawIf State.readByteDraw State.countDraw
    repeat' split
    all_goals exact .of_same rfl rfl rfl

/-- Where it fails, bus-enable was not driven or is not deselected (`receiveByte_error`). -/
theorem readBody_error {s t : State} {dirty : Bool} {f : Failure}
    (h : (do checkLoadHazard; let v ← receiveByte; drawIf dirty v : Run Byte) s = .error f t) :
    (∃ es rs, Recorded Event.OffEnable s t es rs) ∨ t.lines.busen ≠ .hi := by
  have hhaz : checkLoadHazard s = .ok () (if s.lines.busen = .hi then s else s.setHaz hazLoaden) := rfl
  rw [bind_ok hhaz] at h
  rcases bind_error_inv h with h | ⟨v, u, _, h⟩
  · refine (receiveByte_error h).imp_left fun ⟨es, rs, hr⟩ => ⟨es, rs, hr.of_same ?_ ?_ ?_⟩
    all_goals split <;> rfl
  · cases dirty <;> cases h

/-- What a read of a valid group leaves, whatever the environment answers (41_latch_protocol.md R142): the outputs, and the
shift registers of the other groups, as the start left them, and after a failure from the bus-enable drive on bus-enable
not deselected. -/
theorem latchRead_ends {s : State} (hc : s.cfg.wf = true) (hm : s.latches.wf = true) {g : Group}
    (hg : s.cfg.validGroup g = true) {es : List Event} (ht : (after (latchRead g s)).trace = s.trace ++ es) :
    (∀ a, Touch false (s.cfg.writeAddr g) a (s.started.latches.get a) ((after (latchRead g s)).latches.get a)) ∧
      ∀ f t, latchRead g s = .error f t → enableAttempted es → t.lines.busen ≠ .hi := by
  have hmem := Config.writeAddr_mem hg
  rw [latchRead_eq, if_pos hg] at ht ⊢
  generalize s.cfg.writeAddr g = w at *
  have hlat := opening_latches false w s
  obtain ⟨hrok, hrerr⟩ := opening_recorded false w s
  cases ho : opening false w s with
  | error f t =>
    rw [bind_error ho] at ht ⊢
    rw [ho] at hlat
    obtain ⟨fs, rs, hr, -⟩ := hrerr f t ho
    rw [List.append_cancel_left (ht.symm.trans hr.trace)]
    refine ⟨fun a => ?_, fun _ _ _ hen => absurd hen (not_enableAttempted hr.only)⟩
    rw [← hlat]
    exact .refl _ _ _ _
  | ok dirty u =>
    rw [bind_ok ho] at ht ⊢
    rw [ho] at hlat
    change u.latches = _ at hlat
    obtain ⟨fs, rs, hr, -⟩ := hrok dirty u ho
    obtain ⟨-, hadr⟩ := opening_addressed hc hmem ho
    refine ⟨fun a => ?_, fun f t h hen => ?_⟩
    · rw [← hlat]
      exact ((readBody_local w dirty u hadr).2.2 (by rw [hlat]; exact State.started_wf hm)).2 a
    · obtain ⟨gs, ks, hb⟩ | hb := readBody_error h
      · rw [h] at ht
        rw [List.append_cancel_left (ht.symm.trans (hr.trans hb).trace)] at hen
        exact absurd hen (not_enableAttempted (hr.trans hb).only)
      · exact hb

/-- A failure of the bus or of an operand check answers no data (60_exceptions.md R260). -/
theorem Failure.OfBus.response_data {f : Failure} (h : f.OfBus) (haz : BitVec 2) : (f.response haz).data = 0#8 := by
  cases h <;> rfl

/-- Settles O34: a read of a valid group leaves what `latchRead_ends` says, any other changes nothing, and the answer only
adds the `end` event (`wholeCommand_delivers`). -/
theorem readEffect : Obligations.ReadEffect := by
  intro s t q dm lg es r ho hc hm e hr ht w dirty
  have hlines := exec_lines e ht
  obtain ⟨fs, rfl, hfs, htu, hend⟩ :=
    wholeCommand_delivers (m := latchRead ⟨dm, lg⟩) (f := fun v => ⟨v, []⟩) (latchRead_evolving _) ho e hr ht
  have htl : t.latches = (after (latchRead ⟨dm, lg⟩ s)).latches := by rw [htu]; rfl
  have hfailed (hne : r.status ≠ .ok) : r.data = 0#8 ∧ ∃ f u, latchRead ⟨dm, lg⟩ s = .error f u := by
    obtain ⟨_, _, -, hok⟩ | ⟨f, u, h, rfl⟩ := hend
    · exact absurd hok hne
    · exact ⟨(latchRead_raises _ s f u h).response_data _, f, u, h⟩
  have hsel (h : Event.drive .busen false true ∈ fs ++ [.endCmd q r]) : enableAttempted fs :=
    enableAttempted_end.1 ⟨true, h⟩
  rw [htl]
  by_cases hg : s.cfg.validGroup ⟨dm, lg⟩ = true
  · obtain ⟨htouch, hbusen⟩ := latchRead_ends hc hm hg hfs
    have hd (a : Nat) : dirty = true ∧ a ∈ s.cfg.writeAddrs ↔ s.lines.clean = false ∧ a ∈ s.cfg.writeAddrs := by
      simp [dirty, hg]
    simp only [hd, ← State.started_parts hm]
    refine ⟨fun a => (htouch a).1, fun a => (htouch a).2, fun hne => ?_, hlines⟩
    obtain ⟨hdata, f, u, h⟩ := hfailed hne
    refine ⟨hdata, fun hmem => ?_⟩
    rw [htu, h]
    exact hbusen f u h (hsel hmem)
  · have hres : latchRead ⟨dm, lg⟩ s = .error .badIndex s := (latchRead_eq _ s).trans (if_neg hg)
    have hd (a : Nat) : ¬ (dirty = true ∧ a ∈ s.cfg.writeAddrs) := by simp [dirty, hg]
    rw [hres] at hfs
    have hnil : fs = [] := List.append_cancel_left (hfs.symm.trans (List.append_nil _).symm)
    simp only [hd, if_false, hres]
    refine ⟨fun _ => rfl, fun _ _ => rfl, fun hne => ⟨(hfailed hne).1, fun hmem => ?_⟩, hlines⟩
    simp [hnil] at hmem

end Sys2Proof.Machine

namespace Sys2Proof

/-! ## The bit operations of the switch decoder -/

/-- A bit of `WithBit`, for every offset: beyond bit 7 it changes nothing (42_switch_state.md R174). -/
theorem withBit_getLsbD (v : Byte) (o : Nat) (lvl : Bool) {k : Nat} (hk : k < 8) :
    (withBit v o lvl).getLsbD k = if k = o then lvl else v.getLsbD k := by
  have hone : ∀ j, (1#8).getLsbD j = decide (j = 0) := fun j => by simp
  have hlvl : ∀ j, (BitVec.ofNat 8 lvl.toNat).getLsbD j = (decide (j = 0) && lvl) := fun j => by
    cases lvl <;> simp
  have hones : (0xFF#8).getLsbD k = true := (BitVec.getLsbD_allOnes (v := 8)).trans (decide_eq_true hk)
  simp only [withBit, BitVec.getLsbD_or, BitVec.getLsbD_and, BitVec.getLsbD_xor, BitVec.getLsbD_shiftLeft, hone, hlvl,
    hones, hk]
  rcases Nat.lt_trichotomy k o with h | rfl | h
  · simp [h, Nat.ne_of_lt h]
  · simp
  · simp [Nat.ne_of_gt h, Nat.not_lt.2 (Nat.le_of_lt h), Nat.sub_eq_zero_iff_le, Nat.not_le.2 h]

/-- Writing the bit that is there changes nothing (42_switch_state.md R174). -/
theorem withBit_self (v : Byte) (o : Nat) : withBit v o (v.getLsbD o) = v := by
  refine BitVec.eq_of_getLsbD_eq fun k hk => ?_
  rw [withBit_getLsbD v o _ hk]
  split <;> simp [*]

theorem LByte.get_ofByte (b : Byte) (i : Fin 8) : (LByte.ofByte b).get i = .ofBool (b.getLsbD i) := by
  revert i
  simp [Fin.forall_fin_succ, LByte.get, LByte.ofByte]

/-- An entry of a band map is a bit of a byte (10_state.md R42). -/
theorem BandMap.lookup_lt {m : BandMap} {band chain k : Nat} (h : m.lookup band chain = some k) : k < 8 := by
  obtain ⟨r, -, rfl⟩ := Option.map_eq_some_iff.1 h
  exact r.off.isLt

namespace Machine

/-- What `ResolveOff` answers (42_switch_state.md R172). -/
theorem resolveOff_of_some {s : State} {off : Off} {band chain k : Nat} (h : s.cfg.resolveOff off band chain = some k) :
    resolveOff off band chain s = .ok k s := by
  simp [resolveOff, orBadIndex, h]

theorem resolveOff_of_none {s : State} {off : Off} {band chain : Nat} (h : s.cfg.resolveOff off band chain = none) :
    resolveOff off band chain s = .error .badIndex s := by
  simp [resolveOff, orBadIndex, h]

/-- Settles O8: the bits of `withBit` one by one (`withBit_getLsbD`), and an offset resolves as the configuration's tables
say. -/
theorem decoderFunctions : Obligations.DecoderFunctions := by
  refine ⟨fun b => by cases b <;> decide, fun v o _ => ⟨fun lvl k hk => withBit_getLsbD v o lvl hk, withBit_self v o,
    fun p => rfl⟩, fun s band chain => ⟨fun k => rfl, fun t m hm => ⟨fun k hk => ⟨BandMap.lookup_lt hk, ?_⟩, fun hn => ?_⟩⟩⟩
  · exact resolveOff_of_some (by simp [Config.resolveOff, hm, hk])
  · exact resolveOff_of_none (by simp [Config.resolveOff, hm, hn])

/-! ## The index checks of the switch commands -/

/-- Entry by entry, what a list maps to when every entry has a value. -/
theorem mapM_eq_some_iff {α β : Type} {f : α → Option β} {l : List α} {bs : List β} :
    l.mapM f = some bs ↔ l.map f = bs.map some := by
  induction l generalizing bs with
  | nil => cases bs <;> simp
  | cons a l ih => cases bs <;> cases f a <;> simp [List.mapM_cons, ih, Option.bind_eq_some_iff]

/-- A list maps to none exactly where an entry has no value. -/
theorem mapM_eq_none_iff {α β : Type} {f : α → Option β} {l : List α} :
    l.mapM f = none ↔ ∃ a ∈ l, f a = none := by
  induction l with
  | nil => simp
  | cons a l ih =>
    cases h : f a with
    | none => simp [List.mapM_cons, h]
    | some b =>
      have hcons : (a :: l).mapM f = none ↔ l.mapM f = none := by
        cases ht : l.mapM f <;> simp [List.mapM_cons, h, ht]
      rw [hcons, ih]
      simp [h]

/-- What stands at one place of a list mapped entry by entry. -/
theorem mapM_getElem? {α β : Type} {f : α → Option β} {l : List α} {bs : List β} (h : l.mapM f = some bs) {j : Nat}
    {a : α} {b : β} (ha : l[j]? = some a) (hb : bs[j]? = some b) : f a = some b := by
  have := congrArg (·[j]?) (mapM_eq_some_iff.1 h)
  simpa [ha, hb] using this

/-- A device outside the table is refused (42_switch_state.md R175). -/
theorem checkDev_error {dev : Nat} {s : State} (h : s.cfg.devtab.length ≤ dev) :
    checkDev dev s = .error .badIndex s := by
  simp [checkDev, orBadIndex, Config.device, h]

/-- `SW_GET` stops at an index outside the tables before any bus use (42_switch_state.md R180). -/
theorem swGet_badIndex {s : State} {dev band chain : Nat}
    (h : s.cfg.devtab.length ≤ dev ∨ ∃ d, s.cfg.device dev = some d ∧ ∃ u ∈ d.subs,
      s.cfg.resolveOff u.rbOff band chain = none) : swGet dev band chain s = .error .badIndex s := by
  obtain hdev | ⟨d, hd, u, hu, hn⟩ := h
  · exact bind_error (checkDev_error hdev)
  · refine (bind_ok (checkDev_ok hd)).trans (bind_error ?_)
    rw [resolveReadback_eq, mapM_eq_none_iff.2 ⟨u, hu, hn⟩]

/-- `SW_SET` stops at an index outside the tables before any bus use (42_switch_state.md R190). -/
theorem swSet_badIndex {s : State} {dev band chain : Nat} {st : Bool}
    (h : s.cfg.devtab.length ≤ dev ∨ ∃ d, s.cfg.device dev = some d ∧ ∃ u ∈ d.subs,
      s.cfg.resolveOff u.rbOff band chain = none ∨ s.cfg.resolveOff u.ctlOff band chain = none) :
    swSet dev band chain st s = .error .badIndex s ∧
      ∀ place, swSetUnit dev band chain st place s = .error .badIndex s := by
  obtain hdev | ⟨d, hd, hoff⟩ := h
  · exact ⟨bind_error (checkDev_error hdev), fun _ => bind_error (checkDev_error hdev)⟩
  · have hres := resolveControl_error hoff
    exact ⟨(bind_ok (checkDev_ok hd)).trans (bind_error hres), fun _ => (bind_ok (checkDev_ok hd)).trans (bind_error hres)⟩

/-- `SW_SET` on a board with `RMW_ATOMIC` is one whole command (42_switch_state.md R190). -/
theorem exec_swSet_atomic {s : State} {dev band chain : Nat} {st : Bool} (h : s.cfg.rmwAtomic = true) :
    exec (.swSet dev band chain st) s = wholeCommand (swSet dev band chain st) s :=
  if_pos h

/-- Without `RMW_ATOMIC` each unit of a `SW_SET` is the one its place names, first the read of sub 0
(42_switch_state.md R193). -/
theorem exec_swSet_unit {s : State} {q dev band chain : Nat} {st : Bool} (ho : s.busOwner = some q)
    (h : s.cfg.rmwAtomic = false) :
    exec (.swSet dev band chain st) s =
      .next (.finishSwSetUnit q (swSetUnit dev band chain st ((s.req q).rmw.getD (.read 0)) s)) :=
  (if_neg (by simp [h])).trans (swSetNextUnit_next ho)

/-- Settles O35: both commands check their indices before any bus use (`swGet_badIndex`, `swSet_badIndex`), in whichever
unit. -/
theorem switchBadIndex : Obligations.SwitchBadIndex := by
  intro s q dev band chain st ho
  refine ⟨fun h => wholeCommand_error (m := swGet dev band chain) ho.1 (swGet_badIndex h), fun h => ?_⟩
  obtain ⟨hset, hunit⟩ := swSet_badIndex (st := st) h
  cases ha : s.cfg.rmwAtomic with
  | true => exact (exec_swSet_atomic ha).trans (wholeCommand_error ho.1 hset)
  | false =>
    rw [exec_swSet_unit ho.1 ha, hunit]
    rfl

/-! ## The units of a non-atomic SW_SET -/

/-- What a part of a command does when it ends with a value. -/
theorem Run.Evolving.of_ok {α : Type} {m : Run α} (hm : Run.Evolving m) {s t : State} {a : α} (h : m s = .ok a t) :
    Evolves s t := by
  have hev := hm s
  rwa [h] at hev

/-- The state after a command of `q` that reports what a device's sub-switches show (42_switch_state.md R181). -/
def State.reported (u : State) (q dev : Nat) (sts : List Bool) : State :=
  ({ u with log := u.log ++ stateLog dev sts }).deliver q (stateReport u.haz sts)

theorem State.reported_answered {s u : State} {q : Nat} (hq : q < s.reqs.length) (hr : u.reqs = s.reqs) (dev : Nat)
    (sts : List Bool) : Answered s (u.reported q dev sts) q (stateReport u.haz sts) :=
  answered_deliver hq hr

/-- A unit that leaves a place to go on from keeps its command pending (60_exceptions.md R287). -/
theorem finishSwSetUnit_more {s u : State} {q : Nat} (hq : q < s.reqs.length) (hr : u.reqs = s.reqs) (p : RmwPlace) :
    GoesOn s (State.finishSwSetUnit q (.ok (.more p) u)) q { s.req q with rmw := some p } := by
  have hreq : u.req q = s.req q := by simp [State.req, hr]
  rw [← hreq]
  exact goesOn_release hq hr

/-- The last unit ends its command as `SW_GET` does (42_switch_state.md R192). -/
theorem finishSwSetUnit_agree {u : State} {q dev : Nat} {sts : List Bool} (hl : sts.length = 1 ∨ sts.length = 2) :
    State.finishSwSetUnit q ((do let r ← agree dev sts; pure (.done r) : Run SwSetStep) u) = u.reported q dev sts := by
  refine Eq.trans ?_ (finish_agree hl)
  cases h : agree dev sts u with
  | ok r t =>
    rw [bind_ok h]
    rfl
  | error f t =>
    rw [bind_error h]
    rfl

section

variable {s t : State} {dev band chain j : Nat} {st : Bool} {d : Device} {cs os : List Nat} {u : SubSwitch}
  (hd : s.cfg.device dev = some d)
  (hcs : d.subs.mapM (fun u => s.cfg.resolveOff u.ctlOff band chain) = some cs)
  (hos : d.subs.mapM (fun u => s.cfg.resolveOff u.rbOff band chain) = some os)
  (hj : d.subs[j]? = some u)

include hd hcs hos hj

/-- The unit at the read of sub `j` (42_switch_state.md R190, R193). -/
theorem swSetUnit_read {v : Byte} (hr : latchRead u.ctlGrp s = .ok v t) :
    swSetUnit dev band chain st (.read j) s = .ok (.more (.write j v)) t := by
  refine (bind_ok (checkDev_ok hd)).trans ((bind_ok (resolveControl_ok hcs hos)).trans ?_)
  simp only [hj]
  exact (bind_ok rfl).trans ((bind_ok hr).trans rfl)

/-- The unit at the write of sub `j` (42_switch_state.md R190, R193). -/
theorem swSetUnit_write {o : Nat} {cur : Byte} (ho : cs[j]? = some o)
    (hw : latchWrite u.ctlGrp (newControl cur o u.pol st) s = .ok () t) :
    swSetUnit dev band chain st (.write j cur) s =
      .ok (.more (if j + 1 < d.subs.length then .read (j + 1) else .confirm 0 [])) t := by
  refine (bind_ok (checkDev_ok hd)).trans ((bind_ok (resolveControl_ok hcs hos)).trans ?_)
  simp only [hj, ho]
  exact (bind_ok rfl).trans ((bind_ok rfl).trans ((bind_ok hw).trans rfl))

/-- The unit at the confirming read of sub `j` (42_switch_state.md R192, R193). -/
theorem swSetUnit_confirm {o : Nat} {sts : List Bool} {v : Byte} (ho : os[j]? = some o)
    (hr : latchRead u.rbGrp s = .ok v t) :
    swSetUnit dev band chain st (.confirm j sts) s =
      if j + 1 < d.subs.length then .ok (.more (.confirm (j + 1) (sts ++ [bitState v o u.pol]))) t
      else (do let r ← agree dev (sts ++ [bitState v o u.pol]); pure (.done r) : Run SwSetStep) t := by
  refine (bind_ok (checkDev_ok hd)).trans ((bind_ok (resolveControl_ok hcs hos)).trans ?_)
  simp only [hj]
  refine (bind_ok rfl).trans ((bind_ok (resolveOff_of_some (mapM_getElem? hos hj ho))).trans ?_)
  refine (bind_ok (m := readSub u o) ((bind_ok hr).trans rfl)).trans ?_
  split <;> rfl

end

/-- Settles O39: the unit is one read of the control group (`latchRead_leaves`), and goes on at the write. -/
theorem swSetReadUnit : Obligations.SwSetReadUnit := by
  intro s q dev band chain j st d cs os u hr ha hd hcs hos hj hplace w
  have hplace : (s.req q).rmw.getD (.read 0) = .read j := by
    obtain h | ⟨h, rfl⟩ := hplace <;> rw [h] <;> rfl
  obtain ⟨v, t, hread, hleaves, -, hlog, htrace⟩ :=
    latchRead_leaves hr.sound (Config.subGroups_valid hr.2.1 hd (List.mem_of_getElem? hj)).1
  have hexec := exec_swSet_unit (dev := dev) (band := band) (chain := chain) (st := st) hr.1.1 ha
  rw [hplace, swSetUnit_read hd hcs hos hj hread] at hexec
  have hreqs := ((latchRead_evolving _).of_ok hread).reqs
  exact ⟨_, v, hexec, hleaves, finishSwSetUnit_more hr.1.2 hreqs _, hlog, htrace⟩

/-- Settles O40: the unit is one write of the control group (`latchWrite_leaves`), and goes on at the next read. -/
theorem swSetWriteUnit : Obligations.SwSetWriteUnit := by
  intro s q dev band chain j st d cs os u o cur hr ha hd hcs hos hj ho hplace w new
  obtain ⟨t, hwrite, -, hget, ht⟩ :=
    latchWrite_leaves hr.sound (Config.subGroups_valid hr.2.1 hd (List.mem_of_getElem? hj)).1 new
  have hexec := exec_swSet_unit (dev := dev) (band := band) (chain := chain) (st := st) hr.1.1 ha
  rw [hplace, Option.getD_some, swSetUnit_write hd hcs hos hj ho hwrite] at hexec
  have hev := (latchWrite_evolving _ _).of_ok hwrite
  have hlog : t.log = s.log := by rw [ht]
  exact ⟨_, hexec, finishSwSetUnit_more hr.1.2 hev.reqs _, hget, congrArg State.lines ht, congrArg State.trace ht,
    congrArg State.haz ht, hlog, hev.cfg⟩

/-- Settles O41: the unit is one read of the readback group (`latchRead_leaves`); at the last sub there are as many states
as sub-switches, which are one or two, and they are reported (`finishSwSetUnit_agree`). -/
theorem swSetConfirmUnit : Obligations.SwSetConfirmUnit := by
  intro s q dev band chain j st d cs os u o sts hr ha hd hcs hos hj ho hplace hsts w
  obtain ⟨v, t, hread, hleaves, -, hlog, htrace⟩ :=
    latchRead_leaves hr.sound (Config.subGroups_valid hr.2.1 hd (List.mem_of_getElem? hj)).2
  have hexec := exec_swSet_unit (dev := dev) (band := band) (chain := chain) (st := st) hr.1.1 ha
  have hreqs := ((latchRead_evolving _).of_ok hread).reqs
  rw [hplace, Option.getD_some, swSetUnit_confirm hd hcs hos hj ho hread] at hexec
  by_cases hlast : j + 1 < d.subs.length
  · rw [if_pos hlast] at hexec
    exact ⟨_, v, hexec, hleaves, fun _ => ⟨finishSwSetUnit_more hr.1.2 hreqs _, hlog, htrace⟩,
      fun h => absurd hlast (Nat.not_lt.2 h)⟩
  · have hlen : d.subs.length = j + 1 := by
      have := (List.getElem?_eq_some_iff.1 hj).1
      omega
    have hall : (sts ++ [bitState v o u.pol]).length = d.subs.length := by simp [hsts, hlen]
    rw [if_neg hlast, finishSwSetUnit_agree (hall ▸ Config.subs_length hr.2.1 hd)] at hexec
    refine ⟨_, v, hexec, hleaves, fun h => absurd h hlast, fun _ => ?_⟩
    rw [← hleaves.2.1, ← hlog]
    exact ⟨State.reported_answered hr.1.2 hreqs dev _, rfl, fun hcl => congrArg (· ++ [_]) (htrace hcl)⟩

/-! ## SW_GET -/

/-- A whole command that ends by reporting states. -/
theorem wholeCommand_agree {m : Run Reply} {s u : State} {q dev : Nat} {sts : List Bool} (ho : s.busOwner = some q)
    (hl : sts.length = 1 ∨ sts.length = 2) (hm : m s = agree dev sts u) :
    wholeCommand m s = .next (u.reported q dev sts) := by
  rw [wholeCommand_next ho, hm, finish_agree hl]
  rfl

/-- `SW_GET` reads the sub-switches and reports them (42_switch_state.md R180). -/
theorem swGet_reads {s t : State} {dev band chain : Nat} {d : Device} {os : List Nat} {sts : List Bool}
    (hd : s.cfg.device dev = some d) (hos : d.subs.mapM (fun u => s.cfg.resolveOff u.rbOff band chain) = some os)
    (hr : readSubs (d.subs.zip os) s = .ok sts t) : swGet dev band chain s = agree dev sts t :=
  (bind_ok (checkDev_ok hd)).trans ((bind_ok (resolveReadback_ok hos)).trans (bind_ok hr))

/-- `readSubs_works` for the sub-switches of a device and their offsets. -/
theorem readSubs_clean {s : State} (h : s.Works) {subs : List SubSwitch} {os : List Nat} (hl : os.length = subs.length)
    (hg : ∀ u ∈ subs, s.cfg.validGroup u.rbGrp = true) :
    let ws := subs.map fun u => s.cfg.writeAddr u.rbGrp
    let vs := (s.senses ws).1
    ∃ t, readSubs (subs.zip os) s = .ok (subStates subs os vs) t ∧ t.Works ∧ SameOut s t ∧
      (∀ a, a ∉ ws → t.latches.get a = s.latches.get a) ∧
      t = { s with
        lines := ws.foldl (fun k w => { k with addr := .ofAddr (w + 4) }) s.lines
        latches := t.latches
        env := (s.senses ws).2.env
        trace := s.trace ++ readsEvents ws vs } := by
  have hmap : (subs.zip os).map (fun p => s.cfg.writeAddr p.1.rbGrp) = subs.map fun u => s.cfg.writeAddr u.rbGrp := by
    conv => rhs; rw [← List.map_fst_zip (Nat.le_of_eq hl.symm), List.map_map]
    rfl
  have hreads := readSubs_works h (subs.zip os) fun p hp => hg _ (List.of_mem_zip hp).1
  rwa [hmap, List.map_fst_zip (Nat.le_of_eq hl.symm), List.map_snd_zip (Nat.le_of_eq hl)] at hreads

/-- Successive address selects leave the last address on the lines. -/
theorem foldl_addr {ws : List Nat} {w : Nat} (h : ws.getLast? = some w) (l : Lines) :
    ws.foldl (fun k w => { k with addr := .ofAddr (w + 4) }) l = { l with addr := .ofAddr (w + 4) } := by
  induction ws generalizing l with
  | nil => simp at h
  | cons x ws ih =>
    cases ws with
    | nil => simp_all
    | cons y ws => exact ih (by simpa using h) _

/-- What successive completed reads of the groups at `ws` leave, whether the first started clean or dirty
(41_latch_protocol.md R129, R140 to R142): it left `u`, and they returned `vs`. -/
structure ReadsLeave (s u t : State) (ws : List Nat) (vs : List Byte) : Prop where
  lines : ∀ w, ws.getLast? = some w → t.lines = ⟨.ofAddr (w + 4), .hi, s.lines.din, .hi, .hi⟩
  out : ∀ a, (t.latches.get a).out = (s.startLatch a).out
  other : ∀ a, a ∉ ws → t.latches.get a = s.startLatch a
  haz : t.haz = s.hazAfterRead
  log : t.log = s.log
  cfg : t.cfg = s.cfg
  env : t.env = (u.senses ws.tail).2.env
  clean : s.Clean → vs = (s.senses ws).1 ∧ t.env = (s.senses ws).2.env ∧ t.trace = s.trace ++ readsEvents ws vs

/-- Reading sub-switches one after the other, from any start: the first read leaves the bus clean
(`latchRead_leaves`), so the others are clean reads (`readSubs_clean`). -/
theorem readSubs_leaves {s : State} (h : s.Sound) {sub : SubSwitch} {subs : List SubSwitch} {os : List Nat}
    (hl : os.length = (sub :: subs).length) (hg : ∀ u ∈ sub :: subs, s.cfg.validGroup u.rbGrp = true) :
    let ws := (sub :: subs).map fun u => s.cfg.writeAddr u.rbGrp
    ∃ u v t, ReadLeaves s u (s.cfg.writeAddr sub.rbGrp) v ∧
      let vs := v :: (u.senses ws.tail).1
      readSubs ((sub :: subs).zip os) s = .ok (subStates (sub :: subs) os vs) t ∧ ReadsLeave s u t ws vs := by
  obtain ⟨o, os, rfl⟩ := List.exists_cons_of_length_eq_add_one hl
  obtain ⟨v, u, hread, hu, hworks, hulog, hutrace⟩ := latchRead_leaves h (hg sub (by simp))
  obtain ⟨hulines, huhaz, hucfg, -, huout, huother, huclean, -⟩ := id hu
  obtain ⟨t, hreads, -, hout, hother, ht⟩ := readSubs_clean hworks (by simpa using hl)
    fun p hp => by rw [hucfg]; exact hg p (by simp [hp])
  rw [hucfg] at hreads hother ht
  refine ⟨u, v, t, hu, ?_, ?_⟩
  · exact (bind_ok (m := readSub sub o) ((bind_ok hread).trans rfl)).trans ((bind_ok hreads).trans rfl)
  · refine ⟨fun w hw => ?_, fun a => (hout a).trans (huout a), fun a ha => ?_, ?_, ?_, ?_, ?_, fun hcl => ?_⟩
    · rw [ht, hulines]
      exact foldl_addr hw ⟨.unknown, .hi, s.lines.din, .hi, .hi⟩
    · simp only [List.map_cons, List.mem_cons, not_or] at ha
      rw [hother a ha.2, huother a ha.1]
    · rw [ht, huhaz]
    · rw [ht, hulog]
    · rw [ht]
    · rw [ht]
      rfl
    · obtain ⟨hv, -, henv⟩ := huclean hcl
      obtain ⟨hvs, henvs⟩ := senses_congr (s := (s.sense (s.cfg.writeAddr sub.rbGrp)).2) henv
        (fun a => by rw [huout, State.startLatch_clean hcl, State.sense_eq])
        (subs.map fun u => s.cfg.writeAddr u.rbGrp)
      refine ⟨?_, ?_, ?_⟩
      · simp only [List.map_cons, List.tail_cons, State.senses, hvs, hv]
      · rw [ht]
        exact henvs
      · rw [ht, hutrace hcl]
        simp only [List.map_cons, List.tail_cons, readsEvents, List.append_assoc]

/-- Settles O36: the reads (`readSubs_leaves`) and the report of one or two states (`wholeCommand_agree`). -/
theorem swGetResult : Obligations.SwGetResult := by
  intro s q dev band chain d os hr hd hos ws
  have hlen := Config.subs_length hr.2.1 hd
  have hl := length_of_mapM hos
  obtain ⟨sub, subs, hsubs⟩ : ∃ sub subs, d.subs = sub :: subs :=
    List.exists_cons_of_ne_nil (List.ne_nil_of_length_pos (by omega))
  have hg : ∀ u ∈ d.subs, s.cfg.validGroup u.rbGrp = true := fun u hu => (Config.subGroups_valid hr.2.1 hd hu).2
  obtain ⟨u, v, t, hu, hreads, hleave⟩ := readSubs_leaves hr.sound (hsubs ▸ hl) (hsubs ▸ hg)
  rw [← hsubs] at hreads hleave
  have hvs : (v :: (u.senses ws.tail).1).length = d.subs.length := by simp [senses_length, ws, hsubs]
  have hsts := subStates_length hl hvs
  have hexec := wholeCommand_agree (q := q) hr.1.1 (hsts ▸ hlen) (swGet_reads hd hos hreads)
  have hreqs := ((readSubs_evolving _).of_ok hreads).reqs
  refine ⟨_, u, _, v, by simp [ws, hsubs], hu, hexec, hvs, ?_, congrArg (· ++ _) hleave.log, hleave.lines, hleave.out,
    fun a ha => congrArg Latch.sr (hleave.other a ha), hleave.haz, hleave.cfg, hleave.env, fun hcl => ?_⟩
  · rw [← hleave.haz]
    exact State.reported_answered hr.1.2 hreqs dev _
  · obtain ⟨hbytes, henv, htrace⟩ := hleave.clean hcl
    rw [← hleave.haz]
    exact ⟨hbytes, henv, congrArg (· ++ [_]) htrace⟩

/-! ## SW_SET as one unit -/

/-- A fact about every entry of a list, said over its pairing with a list as long. -/
theorem forall_mem_zip_fst {α β : Type} {l : List α} {l' : List β} (h : l'.length = l.length) {P : α → Prop} :
    (∀ p ∈ l.zip l', P p.1) ↔ ∀ a ∈ l, P a := by
  conv => rhs; rw [← List.map_fst_zip (Nat.le_of_eq h.symm)]
  exact List.forall_mem_map.symm

/-- Setting sub-switches changes no bit of a control byte but theirs (42_switch_state.md R191). -/
theorem bytesSet_getLsbD {c : Config} {st : Bool} {l : List (SubSwitch × Nat)} {a k : Nat} (hk : k < 8)
    (h : ∀ p ∈ l, a = c.writeAddr p.1.ctlGrp → k ≠ p.2) (f : Nat → Byte) :
    (bytesSet c st l f a).getLsbD k = (f a).getLsbD k := by
  induction l generalizing f with
  | nil => rfl
  | cons p l ih =>
    refine (ih (fun p' hp => h p' (List.mem_cons_of_mem _ hp)) _).trans ?_
    split
    · rw [withBit_getLsbD _ _ _ hk, if_neg (h p List.mem_cons_self ‹_›)]
    · rfl

/-- Captures of known outputs under `Loopback` take them, and draw nothing (20_memory.md R66). -/
theorem State.senses_known {s : State} (h : s.env.loopback = true) {ws : List Nat} {g : Nat → Byte}
    (ho : ∀ w ∈ ws, s.OutIs w (g w)) : s.senses ws = (ws.map g, s) := by
  induction ws with
  | nil => rfl
  | cons w ws ih =>
    have hw := State.sense_known h (ho w List.mem_cons_self)
    simp only [State.senses, hw, ih fun w' hw' => ho w' (List.mem_cons_of_mem _ hw'), List.map_cons]

/-- `writeSubs_works` for the sub-switches of a device and their offsets: known outputs end as `bytesSet` says. -/
theorem writeSubs_clean (st : Bool) {s : State} (h : s.Works) (hlb : s.env.loopback = true) {subs : List SubSwitch}
    {cs : List Nat} (hl : cs.length = subs.length) (f : Nat → Byte)
    (hg : ∀ u ∈ subs, s.cfg.validGroup u.ctlGrp = true)
    (hf : ∀ u ∈ subs, s.OutIs (s.cfg.writeAddr u.ctlGrp) (f (s.cfg.writeAddr u.ctlGrp))) :
    let g := bytesSet s.cfg st (subs.zip cs) f
    ∃ t, writeSubs st (subs.zip cs) s = .ok () t ∧ t.Works ∧
      (∀ a, s.OutIs a (f a) → t.OutIs a (g a)) ∧
      (∀ a, (∀ u ∈ subs, a ≠ s.cfg.writeAddr u.ctlGrp) → t.latches.get a = s.latches.get a) ∧
      t = { s with
        lines := t.lines
        latches := t.latches
        trace := s.trace ++ setEvents s.cfg st (subs.zip cs) f } := by
  intro g
  obtain ⟨t, hwrites, hworks, hin, hout, ht⟩ := writeSubs_works st h hlb (subs.zip cs) f
    ((forall_mem_zip_fst hl).2 hg) ((forall_mem_zip_fst hl).2 hf)
  have hctl : ∀ u ∈ subs, t.OutIs (s.cfg.writeAddr u.ctlGrp) (g (s.cfg.writeAddr u.ctlGrp)) :=
    (forall_mem_zip_fst hl).1 hin
  have hother : ∀ a, (∀ u ∈ subs, a ≠ s.cfg.writeAddr u.ctlGrp) → t.latches.get a = s.latches.get a ∧ g a = f a :=
    fun a ha => hout a ((forall_mem_zip_fst hl).2 ha)
  refine ⟨t, hwrites, hworks, fun a hs => ?_, fun a ha => (hother a ha).1, ht⟩
  by_cases ha : ∃ u ∈ subs, a = s.cfg.writeAddr u.ctlGrp
  · obtain ⟨u, hu, rfl⟩ := ha
    exact hctl u hu
  · obtain ⟨hsame, hbyte⟩ := hother a fun u hu he => ha ⟨u, hu, he⟩
    rwa [State.OutIs, hsame, hbyte]

/-- `SW_SET` writes the sub-switches, reads them and reports what they show (42_switch_state.md R190, R192). -/
theorem swSet_reads {s u t : State} {dev band chain : Nat} {st : Bool} {d : Device} {cs os : List Nat} {sts : List Bool}
    (hd : s.cfg.device dev = some d) (hcs : d.subs.mapM (fun u => s.cfg.resolveOff u.ctlOff band chain) = some cs)
    (hos : d.subs.mapM (fun u => s.cfg.resolveOff u.rbOff band chain) = some os) (hcfg : u.cfg = s.cfg)
    (hw : writeSubs st (d.subs.zip cs) s = .ok () u) (hr : readSubs (d.subs.zip os) u = .ok sts t) :
    swSet dev band chain st s = agree dev sts t :=
  (bind_ok (checkDev_ok hd)).trans ((bind_ok (resolveControl_ok hcs hos)).trans ((bind_ok hw).trans
    (swGet_reads (by rwa [hcfg]) (by rwa [hcfg]) hr)))

/-- What a `SW_SET` answers once its sub-switches are written and the bus is left working: the confirming reads are clean
reads of the groups as they then are (42_switch_state.md R192). -/
theorem exec_swSet_confirms {s u : State} {q dev band chain : Nat} {st : Bool} {d : Device} {cs os : List Nat}
    (hr : s.Running q) (ha : s.cfg.rmwAtomic = true) (hd : s.cfg.device dev = some d)
    (hcs : d.subs.mapM (fun u => s.cfg.resolveOff u.ctlOff band chain) = some cs)
    (hos : d.subs.mapM (fun u => s.cfg.resolveOff u.rbOff band chain) = some os)
    (hw : writeSubs st (d.subs.zip cs) s = .ok () u) (hu : u.Works) :
    let ws := d.subs.map fun u => s.cfg.writeAddr u.rbGrp
    let sts := subStates d.subs os (u.senses ws).1
    ∃ t, exec (.swSet dev band chain st) s = .next t ∧ Answered s t q (stateReport u.haz sts) ∧
      t.log = u.log ++ stateLog dev sts ∧ t.Clean ∧ SameOut u t ∧
      (∀ a, a ∉ ws → t.latches.get a = u.latches.get a) ∧
      t.trace = u.trace ++ readsEvents ws (u.senses ws).1 ++ [.endCmd q (stateReport u.haz sts)] ∧
      t.haz = u.haz ∧ t.cfg = s.cfg ∧ t.env = (u.senses ws).2.env ∧ SamePremises s t := by
  have hev := (writeSubs_evolving _ _).of_ok hw
  have hl := length_of_mapM hos
  obtain ⟨t, hreads, hworks, hout, hother, ht⟩ := readSubs_clean hu hl
    fun p hp => by rw [hev.cfg]; exact (Config.subGroups_valid hr.2.1 hd hp).2
  have hevt := hev.trans ((readSubs_evolving _).of_ok hreads)
  rw [hev.cfg] at hreads hother ht
  have hlen := subStates_length hl ((senses_length u _).trans (List.length_map fun u => s.cfg.writeAddr u.rbGrp))
  have hexec := (exec_swSet_atomic ha).trans (wholeCommand_agree (q := q) hr.1.1
    (hlen ▸ Config.subs_length hr.2.1 hd) (swSet_reads hd hcs hos hev.cfg hw hreads))
  have hhaz : t.haz = u.haz := by rw [ht]
  have hlog : t.log = u.log := by rw [ht]
  have htrace := congrArg State.trace ht
  have henv := congrArg State.env ht
  refine ⟨_, hexec, ?_, congrArg (· ++ _) hlog, hworks.clean, hout, hother, ?_, hhaz, hevt.cfg, henv, hevt.premises⟩
  · rw [← hhaz]
    exact State.reported_answered hr.1.2 hevt.reqs dev _
  · rw [← hhaz]
    exact congrArg (· ++ [_]) htrace

/-- Settles O37. In both parts the answer is that of the confirming reads (`exec_swSet_confirms`). Where the bytes are known,
the writes leave them as `bytesSet` says (`writeSubs_clean`) and the confirming reads take them (`State.senses_known`); from
any start the bytes read and the outputs left are those of `writeSubs_leaves`. -/
theorem swSetResult : Obligations.SwSetResult := by
  constructor
  · intro s q dev band chain st d cs os f hr hlb ha hd hcs hos hf g ws sts
    obtain ⟨hh, hc, hm⟩ := hr.1.sound
    obtain ⟨u, hwrites, hworks, hknown, hother, hu⟩ := writeSubs_clean st ⟨hh, hc, hm, hr.2⟩ hlb (length_of_mapM hcs) f
      (fun u hu => (Config.subGroups_valid hc hd hu).1) fun u hu => (hf u hu).1
    have henv : u.env = s.env := by rw [hu]
    have hhaz : u.haz = s.haz := by rw [hu]
    have hlog : u.log = s.log := by rw [hu]
    have htrace : u.trace = s.trace ++ setEvents s.cfg st (d.subs.zip cs) f := congrArg State.trace hu
    have hsenses : u.senses ws = (ws.map g, u) :=
      State.senses_known (by rwa [henv]) (List.forall_mem_map.2 fun v hv => hknown _ (hf v hv).2)
    obtain ⟨t, hexec, hans, htlog, hcl, htout, htother, httrace, hthaz, htcfg, htenv, -⟩ :=
      exec_swSet_confirms hr.1 ha hd hcs hos hwrites hworks
    rw [hsenses] at hans htlog httrace htenv
    rw [hhaz] at hans hthaz httrace
    refine ⟨t, hexec, hans, hlog ▸ htlog, hcl, fun v hv => ?_, fun a ha => ?_, fun a ha => ?_, htrace ▸ httrace, hthaz,
      htcfg, htenv.trans henv⟩
    · rw [State.OutIs, htout]
      exact hknown _ (hf v hv).1
    · rw [htout, hother a ha]
    · rw [htother, hother a fun v hv => (ha v hv).1]
      simpa [ws, eq_comm] using fun v hv => (ha v hv).2
  · intro s q dev band chain st d cs os hr ha hd hcs hos ctl rb
    have hlen := Config.subs_length hr.2.1 hd
    obtain ⟨vs, u, hvs, hwrites, hworks, huout, huother, hushows, husenses, hudraw, hutrace, huhaz, hulog⟩ :=
      writeSubs_leaves st hr.sound (length_of_mapM hcs) (.inr (List.ne_nil_of_length_pos (by omega)))
        fun u hu => (Config.subGroups_valid hr.2.1 hd hu).1
    obtain ⟨t, hexec, hans, htlog, hcl, htout, htother, httrace, hthaz, htcfg, htenv, htprem⟩ :=
      exec_swSet_confirms hr ha hd hcs hos hwrites hworks
    obtain ⟨-, -, hlbu⟩ := ((writeSubs_evolving _ _).of_ok hwrites).premises
    rw [huhaz] at hans httrace hthaz
    rw [hulog] at htlog
    refine ⟨t, vs, (u.senses rb).1, hvs, (senses_length u rb).trans (List.length_map _), hexec, hans, htlog, hcl,
      fun a => (htout a).trans (huout a), fun a hctl hrb => (htother a hrb).trans (huother a hctl),
      fun hlb => ⟨hushows hlb, fun j w v hw hv => ?_⟩, fun hlb hs => ?_, hudraw, fun hs => hutrace hs ▸ httrace, hthaz,
      htcfg, htprem⟩
    · rw [← huout]
      exact State.senses_show (hlbu.trans hlb) rb hw hv
    · obtain ⟨hbytes, henv⟩ := husenses hlb hs
      obtain ⟨hrs, hrsenv⟩ := State.senses_env henv (henv ▸ hlbu.trans hlb) rb
      rw [State.senses_append, hbytes, hrs]
      exact ⟨rfl, htenv.trans hrsenv⟩

/-- Settles O38: an offset without an entry leaves the latches alone (`swSet_badIndex`); else the outputs are those after
the writes, which hold the bytes `bytesSet` says (`writeSubs_clean`, `bytesSet_getLsbD`). -/
theorem swSetPreservesBits : Obligations.SwSetPreservesBits := by
  intro s t q dev band chain st d cs f hr hlb ha hd hcs hf e a i hi
  cases hos : d.subs.mapM (fun u => s.cfg.resolveOff u.rbOff band chain) with
  | none =>
    obtain ⟨u, hu, hn⟩ := mapM_eq_none_iff.1 hos
    have hbad := (swSet_badIndex (st := st) (.inr ⟨d, hd, u, hu, .inl hn⟩)).1
    rw [exec_swSet_atomic ha, wholeCommand_error hr.1.1.1 hbad] at e
    cases e
    rfl
  | some os =>
    obtain ⟨hh, hc, hm⟩ := hr.1.sound
    obtain ⟨u, hwrites, hworks, hknown, hother, -⟩ := writeSubs_clean st ⟨hh, hc, hm, hr.2⟩ hlb (length_of_mapM hcs) f
      (fun u hu => (Config.subGroups_valid hc hd hu).1) hf
    obtain ⟨t', hexec, -, -, -, htout, -⟩ := exec_swSet_confirms hr.1 ha hd hcs hos hwrites hworks
    cases hexec.symm.trans e
    rw [htout]
    by_cases hctl : ∃ u ∈ d.subs, a = s.cfg.writeAddr u.ctlGrp
    · obtain ⟨v, hv, rfl⟩ := hctl
      rw [hknown _ (hf v hv), hf v hv, LByte.get_ofByte, LByte.get_ofByte, bytesSet_getLsbD i.isLt hi]
    · rw [hother a fun v hv he => hctl ⟨v, hv, he⟩]

end Machine
end Sys2Proof

namespace Sys2Proof.Machine

/-! ## The index check of the monitor commands -/

/-- An index of the table passes the check (43_monitor_mux.md R220). -/
theorem checkMon_ok {s : State} {i : Nat} {e : MonEntry} (h : s.cfg.monEntry i = some e) : checkMon i s = .ok e s := by
  simp [checkMon, orBadIndex, h]

/-- An index outside `1..8` does not (43_monitor_mux.md R220). -/
theorem checkMon_error {i : Nat} (h : ¬ (1 ≤ i ∧ i ≤ 8)) (s : State) : checkMon i s = .error .badIndex s := by
  have hnone : s.cfg.monEntry i = none := if_neg h
  simp [checkMon, orBadIndex, hnone]

/-- Settles O42: the index check comes first in both commands, and touches nothing. -/
theorem monitorBadIndex : Obligations.MonitorBadIndex := by
  intro s q idx ho hn i hi
  have hcheck := checkMon_error hn s
  simp only [List.mem_cons, List.not_mem_nil, or_false] at hi
  rcases hi with rfl | rfl
  · exact wholeCommand_error (m := monSelect idx) ho.1 (bind_error hcheck)
  · exact wholeCommand_error (m := monRead idx) ho.1 (bind_error (bind_error hcheck))

/-! ## MON_CONVERT -/

/-- A code that names a category converts, and changes nothing (43_monitor_mux.md R225). -/
theorem monConvert_ok {cat : Nat} {k : Category} (h : categoryOf cat = some k) (raw : Volts) (s : State) :
    monConvert cat raw s = .ok ⟨0#8, [.converted (convert s.cfg k raw)]⟩ s := by
  simp [monConvert, h]

/-- Settles O45: each of the four codes names its category, whose conversion is its formula (43_monitor_mux.md R224). -/
theorem monConvertResult : Obligations.MonConvertResult := by
  intro s q cat raw ho hcat
  have hexec {k : Category} (h : categoryOf cat = some k) :=
    wholeCommand_ok (m := monConvert cat raw) ho.1 (monConvert_ok h raw s)
  refine ⟨Rat.mkRat_eq_div 4 1000, Rat.mkRat_eq_div 105542 10000, ?_⟩
  match cat, hcat with
  | 0, _ => exact hexec rfl
  | 1, _ => exact hexec rfl
  | 2, _ => exact hexec rfl
  | 3, _ => exact hexec rfl

/-! ## Selecting a monitor point and reading it -/

/-- What the work on the point of `e` leaves, from any start: the two select writes, then the events `es`, which took the
environment to `env` (43_monitor_mux.md R221, R223). -/
structure PointLeaves (s u : State) (e : MonEntry) (es : List Event) (env : Env) : Prop where
  latches : ∀ a, u.latches.get a = s.selectedLatch e a
  lines : u.lines = s.selectedLines e
  trace : u.trace = s.trace ++ writeEvents (s.cfg.writeAddr e.selA.grp) e.selA.val ++
    writeEvents (s.cfg.writeAddr e.selB.grp) e.selB.val ++ es
  haz : u.haz = s.hazAfterWrite
  log : u.log = s.log
  cfg : u.cfg = s.cfg
  env : u.env = env
  reqs : u.reqs = s.reqs

/-- The select of a point does its two writes and nothing after them. -/
theorem selectEntry_point {s : State} (h : s.Sound) {e : MonEntry} (hm : e ∈ s.cfg.montab) :
    ∃ u, selectEntry e s = .ok () u ∧ PointLeaves s u e [] s.env := by
  obtain ⟨hA, hB⟩ := Config.selectGroups_valid h.2.1 hm
  obtain ⟨u, hu, -, hlat, he⟩ := selectEntry_leaves h hA hB
  refine ⟨u, hu, hlat, ?_, ?_, ?_, ?_, ?_, ?_, ?_⟩ <;> rw [he]
  exact (List.append_nil _).symm

/-- Reading a point selects it, then reads one channel per output in table order (43_monitor_mux.md R223). -/
theorem monReadings_point {s : State} (h : s.Sound) {i : Nat} {e : MonEntry} (he : s.cfg.monEntry i = some e)
    (hm : e ∈ s.cfg.montab) :
    let vs := (s.voltsDraws e.outs.length).1
    vs.length = e.outs.length ∧ ∃ u, monReadings i s = .ok (e.outs.zip vs) u ∧
      PointLeaves s u e (e.outs.zipWith (fun o v => .readAnalog o.ch (some v)) vs)
        (s.voltsDraws e.outs.length).2.env := by
  obtain ⟨hlen, u, hu, hlat, hrec⟩ := monReadings_leaves h he hm
  refine ⟨hlen, u, hu, hlat, ?_, ?_, ?_, ?_, ?_, ?_, ?_⟩ <;> rw [hrec]

/-- Settles O43: the select from any start (`selectEntry_point`), then the answer. -/
theorem monSelectResult : Obligations.MonSelectResult := by
  intro s q idx hr h1 h8
  obtain ⟨e, hget, he, hm⟩ := Config.monEntry_some hr.2.1 h1 h8
  obtain ⟨u, hu, hp⟩ := selectEntry_point hr.sound hm
  have hrun := wholeCommand_ok (m := monSelect idx) hr.1.1 ((bind_ok (checkMon_ok he)).trans ((bind_ok hu).trans rfl))
  rw [hp.haz] at hrun
  exact ⟨e, hget, _, hrun, answered_deliver hr.1.2 hp.reqs, hp.latches, hp.lines,
    congrArg (· ++ [_]) (hp.trace.trans (List.append_nil _)), hp.haz, hp.log, hp.cfg, hp.env⟩

/-- Settles O44: the point is selected and read from any start (`monReadings_point`); the response pairs each channel with
its reading. -/
theorem monReadResult : Obligations.MonReadResult := by
  intro s q idx hr h1 h8
  obtain ⟨e, hget, he, hm⟩ := Config.monEntry_some hr.2.1 h1 h8
  obtain ⟨hlen, u, hu, hp⟩ := monReadings_point hr.sound he hm
  have hrun := wholeCommand_ok (m := monRead idx) hr.1.1 ((bind_ok hu).trans rfl)
  rw [hp.haz, List.map_zip_eq_zipWith] at hrun
  exact ⟨e, hget, _, hrun, hlen, answered_deliver hr.1.2 hp.reqs, hp.latches, hp.lines,
    congrArg (· ++ [_]) hp.trace, hp.haz, hp.log, hp.cfg, hp.env⟩

/-! ## A point of a sweep -/

/-- A point that succeeds adds its labelled converted values (43_monitor_mux.md R231). -/
theorem sweepPoint_ok {p : Sweep} {s t : State} {vals : List (MonOut × Volts)} (h : monReadings p.next s = .ok vals t) :
    sweepPoint p s = (⟨p.next + 1, p.acc ++ labelledValues s.cfg vals, p.failed⟩, t) := by
  simp [sweepPoint, h]

/-- A point that fails adds nothing and marks the sweep (43_monitor_mux.md R231). -/
theorem sweepPoint_error {p : Sweep} {s t : State} {f : Failure} (h : monReadings p.next s = .error f t) :
    sweepPoint p s = (⟨p.next + 1, p.acc, true⟩, t) := by
  simp [sweepPoint, h]

theorem sweepPoint_next (p : Sweep) (s : State) : (sweepPoint p s).1.next = p.next + 1 := by
  unfold sweepPoint
  split <;> rfl

/-- The unit of a sweep at a point (43_monitor_mux.md R230, R236). -/
theorem exec_monSweep_point {s : State} {q : Nat} {p : Sweep} (ho : s.busOwner = some q)
    (hp : (s.req q).sweep.getD .start = p) (hle : p.next ≤ 8) :
    exec .monSweep s = .next (.finishPoint q (sweepPoint p s)) := by
  subst hp
  simp only [exec, execMonSweep, ho]
  exact if_pos hle

/-- The unit of a sweep after its last point (43_monitor_mux.md R232). -/
theorem exec_monSweep_end {s : State} {q : Nat} {p : Sweep} (ho : s.busOwner = some q)
    (hp : (s.req q).sweep.getD .start = p) (hlt : 8 < p.next) :
    exec .monSweep s = .next (s.deliver q (p.response s.haz)) := by
  subst hp
  simp only [exec, execMonSweep, ho]
  exact if_neg (Nat.not_le.2 hlt)

/-- The unit of a point leaves its progress and keeps the command pending (60_exceptions.md R287). -/
theorem finishPoint_goesOn {s : State} {q : Nat} (hq : q < s.reqs.length) (p : Sweep) :
    GoesOn s (.finishPoint q (sweepPoint p s)) q { s.req q with sweep := some (sweepPoint p s).1 } := by
  have hreqs := (sweepPoint_evolves p s).reqs
  have hreq : (sweepPoint p s).2.req q = s.req q := by simp [State.req, hreqs]
  rw [← hreq]
  exact goesOn_release hq hreqs

/-- Settles O47: the point's work is `MON_READ`'s (`monReadings_point`), and it succeeds. -/
theorem sweepPointResult : Obligations.SweepPointResult := by
  intro s q p hr hp h1 h8
  obtain ⟨e, hget, he, hm⟩ := Config.monEntry_some hr.2.1 h1 h8
  obtain ⟨-, u, hu, hpt⟩ := monReadings_point hr.sound he hm
  have hgo := finishPoint_goesOn hr.1.2 p
  have hexec := exec_monSweep_point hr.1.1 hp h8
  rw [sweepPoint_ok hu] at hgo hexec
  exact ⟨e, hget, _, hexec, hgo, hpt.latches, hpt.lines, hpt.trace, hpt.haz, hpt.log, hpt.cfg⟩

/-- Settles O48: whether the point's readings succeed (`sweepPoint_ok`) or fail (`sweepPoint_error`), its unit keeps the
progress and releases the bus. -/
theorem sweepPointGoesOn : Obligations.SweepPointGoesOn := by
  intro s q p ho hp h8
  refine ⟨_, (sweepPoint p s).1, exec_monSweep_point ho.1 hp h8, finishPoint_goesOn ho.2 p, sweepPoint_next p s, ?_⟩
  cases h : monReadings p.next s with
  | ok vs t =>
    rw [sweepPoint_ok h]
    exact .inl ⟨vs, t, rfl, rfl, rfl⟩
  | error f t =>
    rw [sweepPoint_error h]
    exact .inr ⟨f, t, rfl, rfl, rfl⟩

/-! ## The end of a sweep -/

/-- Settles O49: the unit after the last point only answers the command. -/
theorem sweepEnd : Obligations.SweepEnd := by
  intro s q p ho hs hlt
  exact exec_monSweep_end ho.1 (by simp [hs]) hlt

theorem Sweep.response_status (p : Sweep) (haz : BitVec 2) :
    (p.response haz).status = .ok ∨ (p.response haz).status = .partialSweep := by
  cases h : p.failed <;> simp [Sweep.response, h]

/-- The next unit of `q` is a sweep's, at point `n`, the one after the last standing for the end. -/
def State.SweepsAt (s : State) (q n : Nat) : Prop :=
  q < s.reqs.length ∧ s.fetch q = some (.instr .monSweep) ∧ ((s.req q).sweep.getD .start).next = n

/-- The sweep of `q` is answered, with `OK` or `PARTIAL`, and the bus is free (43_monitor_mux.md R232). -/
def State.SweepAnswered (s : State) (q : Nat) : Prop :=
  ∃ r, (s.req q).rsp = some r ∧ (r.status = .ok ∨ r.status = .partialSweep) ∧ (s.req q).pending = none ∧
    (s.req q).sweep = none ∧ s.busOwner = none

theorem State.grant_reqs (s : State) (q : Nat) : (s.grant q).reqs = s.reqs := (s.grant_parts q).2.1

/-- Granting changes no requester's record. -/
theorem State.grant_req (s : State) (q p : Nat) : (s.grant q).req p = s.req p := by
  simp [State.req, State.grant_reqs]

/-- The granted unit of a sweep. -/
theorem State.unit_monSweep {s t : State} {q : Nat} (hf : s.fetch q = some (.instr .monSweep))
    (h : exec .monSweep (s.grant q) = .next t) : s.unit q = t := by
  have hfetch : (s.grant q).fetch q = some (.instr .monSweep) := by rwa [State.fetch, State.grant_req]
  simp [State.unit, runUnit, hfetch, h]

/-- The unit of a point brings the sweep to the next point (43_monitor_mux.md R231). -/
theorem State.SweepsAt.point {s : State} {q n : Nat} (h : s.SweepsAt q n) (hn : n ≤ 8) :
    (s.unit q).SweepsAt q (n + 1) := by
  obtain ⟨hq, hf, hnext⟩ := h
  have hreqs := s.grant_reqs q
  have hreq := s.grant_req q q
  have hexec := exec_monSweep_point (s.grant_busOwner q) rfl (by rw [hreq, hnext]; exact hn)
  obtain ⟨hrec, -, hlen, -⟩ := finishPoint_goesOn (s := s.grant q) (hreqs ▸ hq) (((s.grant q).req q).sweep.getD .start)
  rw [State.unit_monSweep hf hexec]
  refine ⟨by rwa [hlen, hreqs], by simp [State.fetch, hrec], ?_⟩
  rw [hrec, ← hnext, ← hreq]
  exact sweepPoint_next _ _

/-- The unit after the last point answers the sweep (43_monitor_mux.md R232). -/
theorem State.SweepsAt.answered {s : State} {q n : Nat} (h : s.SweepsAt q n) (hn : 8 < n) :
    (s.unit q).SweepAnswered q := by
  obtain ⟨hq, hf, hnext⟩ := h
  have hreqs := s.grant_reqs q
  have hreq := s.grant_req q q
  have hexec := exec_monSweep_end (s.grant_busOwner q) rfl (by rw [hreq, hnext]; exact hn)
  obtain ⟨hrec, -, -, hbus⟩ := answered_deliver (s := s.grant q) (hreqs ▸ hq) rfl
    (r := (((s.grant q).req q).sweep.getD .start).response (s.grant q).haz)
  rw [State.unit_monSweep hf hexec]
  exact ⟨_, by rw [hrec], Sweep.response_status _ _, by rw [hrec], by rw [hrec], hbus⟩

/-- The units left from point `n` on, by induction on the points still to run (43_monitor_mux.md R230 to R232). -/
theorem State.SweepsAt.finishes {k : Nat} : ∀ {s : State} {q n : Nat}, s.SweepsAt q n → n + k = 9 →
    (State.units q (k + 1) s).SweepAnswered q := by
  induction k with
  | zero => exact fun h hn => h.answered (by omega)
  | succ k ih => exact fun h hn => ih (h.point (by omega)) (by omega)

/-- Settles O50: the command is fetched as a sweep at point 1, and eight points and the end unit are left
(`State.SweepsAt.finishes`). -/
theorem sweepFinishes : Obligations.SweepFinishes := by
  intro s q c hq hp hd hs
  have hat : s.SweepsAt q 1 := ⟨hq, by simp [State.fetch, hp, hd, hs], by simp [hs, Sweep.start]⟩
  exact hat.finishes (k := 8) rfl

end Sys2Proof.Machine

namespace Sys2Proof.Machine

/-! ## The step of a chosen move -/

/-- Choosing a move changes no record. -/
theorem State.chooseMove_req (s : State) (q : Nat) : s.chooseMove.2.req q = s.req q := by
  rw [State.req, s.chooseMove_evolves.reqs, State.req]

/-- Choosing a move appends no event. -/
theorem State.chooseMove_trace (s : State) : s.chooseMove.2.trace = s.trace := by
  obtain ⟨n, rest, he⟩ := s.chooseMove_eq
  rw [he]

/-- The step under a scripted choice of an enabled move is that move, and leaves the script as it was. -/
theorem step_choosing {s : State} {m : Move} (hw : s.cfg.wf = true) (h : m ∈ s.moves) :
    ∃ n, step (s.choosing n) = runMove m s := by
  obtain ⟨n, hn⟩ := State.can_choose h
  have hwf : (s.choosing n).cfg.wf = true := hw
  exact ⟨n, by rw [step, if_pos hwf, hn]⟩

/-- A choice of the environment makes the step idle (60_exceptions.md R288). -/
theorem step_choosing_idle {s : State} (hw : s.cfg.wf = true) : ∃ n, step (s.choosing n) = .next s := by
  obtain ⟨n, hn⟩ := s.can_idle
  have hwf : (s.choosing n).cfg.wf = true := hw
  exact ⟨n, by rw [step, if_pos hwf, hn]⟩

/-- A step whose chosen move is a submission is that submission. -/
theorem step_submit {s : State} {q : Nat} (hw : s.cfg.wf = true) (h : s.chooseMove.1 = some (.submit q)) :
    step s = .next (s.chooseMove.2.submit q) := by
  rw [step, if_pos hw, h]
  rfl

/-! ## Submitting -/

/-- The requesters that may submit are those that do not wait (60_exceptions.md R285, R286). -/
theorem State.canSubmit_eq (s : State) (q : Nat) : s.canSubmit q = !s.waiting q := by
  unfold State.canSubmit State.waiting
  cases (s.req q).pending <;> cases (s.req q).sweep <;> rfl

/-- A requester with nothing pending and no sweep has a submit move (60_exceptions.md R285). -/
theorem State.submit_mem_moves {s : State} {q : Nat} (hq : q < s.reqs.length) (hp : (s.req q).pending = none)
    (hs : (s.req q).sweep = none) : Move.submit q ∈ s.moves :=
  State.mem_moves_submit.2 ⟨hq, by simp [State.canSubmit, hp, hs]⟩

/-- The command submitted is the next one listed. -/
theorem State.submit_listed {s : State} {q : Nat} {c : Command} {rest : List Command}
    (h : (s.req q).toSubmit = c :: rest) :
    s.submit q = { s with reqs := s.reqs.set q { s.req q with pending := some c, toSubmit := rest } } := by
  simp only [State.submit, h]
  rfl

/-- With no command listed the command submitted is a free value (log 6). -/
theorem State.submit_free {s : State} {q : Nat} (h : (s.req q).toSubmit = []) :
    ∃ c, s.submit q = { s with
      reqs := s.reqs.set q { s.req q with pending := some c }
      env := { s.env with drawn := s.env.drawn + 1 } } := by
  simp only [State.submit, h]
  exact ⟨_, rfl⟩

/-- Settles O13: a waiting requester has no submit move (`State.canSubmit_eq`), and any other has one, which the environment
may choose (`step_choosing`) and which changes what `State.submit_listed` and `State.submit_free` say. -/
theorem submitStep : Obligations.SubmitStep := by
  intro s q hw hq
  refine ⟨fun hwait hm => ?_, fun c rest hp hs hl => ?_, fun hp hs hl => ?_⟩
  · have hcan := (State.mem_moves_submit.1 hm).2
    rw [State.canSubmit_eq, hwait] at hcan
    cases hcan
  · obtain ⟨n, hn⟩ := step_choosing hw (State.submit_mem_moves hq hp hs)
    exact ⟨n, hn.trans (congrArg _ (State.submit_listed hl))⟩
  · obtain ⟨n, hn⟩ := step_choosing hw (State.submit_mem_moves hq hp hs)
    obtain ⟨c, hc⟩ := State.submit_free hl
    exact ⟨n, c, hn.trans (congrArg _ hc)⟩

/-! ## What the granted unit runs -/

/-- Granting a later unit of a command takes the bus only (logs 8 and 9). -/
theorem State.grant_later {s : State} {q : Nat} (h : (s.req q).sweep ≠ none ∨ (s.req q).rmw ≠ none) :
    s.grant q = { s with busOwner := some q } := by
  have hreq : ({ s with busOwner := some q } : State).req q = s.req q := rfl
  rw [State.grant, State.beginCommand, hreq]
  split
  · rename_i hs hm
    rcases h with h | h
    · exact absurd hs h
    · exact absurd hm h
  · rfl

/-- The unit of a pending command with no sweep in progress is its meaning. -/
theorem runUnit_decoded {s : State} {q : Nat} {c : Command} {i : Instr} (hp : (s.req q).pending = some c)
    (hs : (s.req q).sweep = none) (hd : decode c = .instr i) : runUnit q s = exec i s := by
  rw [runUnit_pending hp, if_pos hs, hd]

/-- The unit of a requester with a sweep in progress is the sweep's. -/
theorem runUnit_sweeping {s : State} {q : Nat} {p : Sweep} (hs : (s.req q).sweep = some p) :
    runUnit q s = exec .monSweep s := by
  simp [runUnit, State.fetch, hs]

/-- Settles O15: the step is the granted unit (`step_grant`), granting appends the `begin` event at a first unit only
(`State.grant_first`, `State.grant_later`), and choosing changes the schedule and the count of free values
(`State.chooseMove_eq`). -/
theorem stepRunsDecoded : Obligations.StepRunsDecoded := by
  intro s q hw hg
  refine ⟨s.chooseMove_eq, ?_⟩
  rw [step_grant hw hg, ← s.chooseMove_req, ← s.chooseMove_trace]
  refine ⟨fun c i hs hm hp hd => ?_, fun c i p hs hm hp hd => ?_, fun p hs => ?_⟩
  · rw [State.grant_first hp hs hm]
    exact runUnit_decoded hp hs hd
  · rw [State.grant_later (.inr (by simp [hm]))]
    exact runUnit_decoded hp hs hd
  · rw [State.grant_later (.inl (by simp [hs]))]
    exact runUnit_sweeping hs

/-! ## A code of no category -/

/-- The codes from 4 on name no category (30_encoding.md R98). -/
theorem categoryOf_eq_none {cat : Nat} (h : 4 ≤ cat) : categoryOf cat = none := by
  obtain ⟨k, rfl⟩ := Nat.exists_eq_add_of_le' h
  rfl

/-- A code that names no category is logged and raised (43_monitor_mux.md R225, 60_exceptions.md R266). -/
theorem monConvert_error {cat : Nat} (h : categoryOf cat = none) (raw : Volts) (s : State) :
    monConvert cat raw s = .error .badLabel (s.record (.label cat)) := by
  simp [monConvert, h]

/-- Settles O46: the code names no category, so the command only logs it and fails. -/
theorem monConvertBadLabel : Obligations.MonConvertBadLabel := by
  intro s q cat raw ho hcat
  exact wholeCommand_error (m := monConvert cat raw) ho.1 (monConvert_error (categoryOf_eq_none hcat) raw s)

/-! ## Which command may end with which status -/

/-- A response that reports a success, or a failure that is `P` (60_exceptions.md R260). -/
def Response.OkOr (P : Failure → Prop) (r : Response) : Prop :=
  r.status = .ok ∨ ∃ f haz, P f ∧ r = Failure.response f haz

/-- A transaction or an operand check reports one of these (60_exceptions.md R261). -/
theorem Response.OkOr.bus_status {r : Response} (h : r.OkOr Failure.OfBus) :
    r.status ∈ [Status.ok, .ioFail, .addrMismatch, .badIndex] := by
  rcases h with h | ⟨f, haz, hf, rfl⟩
  · simp [h]
  · cases hf <;> simp [Failure.response]

/-- A switch command reports one of these (60_exceptions.md R261). -/
theorem Response.OkOr.switch_status {r : Response} (h : r.OkOr Failure.OfSwitch) :
    r.status ∈ [Status.ok, .ioFail, .addrMismatch, .inconsistent, .badIndex] := by
  rcases h with h | ⟨f, haz, hf, rfl⟩
  · simp [h]
  · cases hf with
    | bus hf => cases hf <;> simp [Failure.response]
    | inconsistent _ => simp [Failure.response]

/-- A command with one failure reports it or success. -/
theorem Response.OkOr.single_status {r : Response} {f : Failure} (h : r.OkOr (· = f)) :
    r.status ∈ [Status.ok, (f.response 0#2).status] := by
  rcases h with h | ⟨f, haz, rfl, rfl⟩
  · simp [h]
  · cases f <;> simp [Failure.response]

/-- The only failure of `LG_ADDR` is its index check's (41_latch_protocol.md R133). -/
theorem lgAddr_raises_badIndex (g : Group) (rd : Bool) : Run.Raises (· = .badIndex) (lgAddr g rd) := by
  intro s f t h
  rw [lgAddr_eq] at h
  split at h <;> cases h
  rfl

/-- A whole command answers with success or with a failure it raises. -/
theorem wholeCommand_okOr {m : Run Reply} {s t : State} {q : Nat} {r : Response} {P : Failure → Prop} (ho : s.OwnedBy q)
    (e : wholeCommand m s = .next t) (ha : Answered s t q r) (hv : Run.Evolving m) (hr : Run.Raises P m) : r.OkOr P := by
  have hev := hv s
  cases hm : m s with
  | ok v u =>
    rw [hm] at hev
    rw [wholeCommand_ok ho.1 hm] at e
    cases e
    exact .inl (congrArg Response.status (ha.of_deliver ho.2 hev.reqs))
  | error f u =>
    rw [hm] at hev
    rw [wholeCommand_error ho.1 hm] at e
    cases e
    exact .inr ⟨f, _, hr s f u hm, ha.of_deliver ho.2 hev.reqs⟩

/-- A unit of a `SW_SET` that answers it does so with success or with a failure of a switch command. -/
theorem swSetNextUnit_okOr {dev band chain : Nat} {st : Bool} {s t : State} {q : Nat} {r : Response} (ho : s.OwnedBy q)
    (e : swSetNextUnit dev band chain st s = .next t) (ha : Answered s t q r) : r.OkOr Failure.OfSwitch := by
  rw [swSetNextUnit_next ho.1] at e
  cases e
  have hev := swSetUnit_evolving dev band chain st ((s.req q).rmw.getD (.read 0)) s
  cases hm : swSetUnit dev band chain st ((s.req q).rmw.getD (.read 0)) s with
  | error f u =>
    rw [hm] at hev ha
    exact .inr ⟨f, _, swSetUnit_raises _ _ _ _ _ s f u hm, ha.of_deliver ho.2 hev.reqs⟩
  | ok v u =>
    rw [hm] at hev ha
    cases v with
    | more pl => cases (ha.not_goesOn (goesOn_release ho.2 hev.reqs)).2
    | done v => exact .inl (congrArg Response.status (ha.of_deliver ho.2 hev.reqs))

/-- A sweep is answered after its last point only, with `OK` or `PARTIAL` (43_monitor_mux.md R232). -/
theorem execMonSweep_status {s t : State} {q : Nat} {r : Response} (ho : s.OwnedBy q) (e : exec .monSweep s = .next t)
    (ha : Answered s t q r) : r.status = .ok ∨ r.status = .partialSweep := by
  by_cases hle : ((s.req q).sweep.getD .start).next ≤ 8
  · rw [exec_monSweep_point ho.1 rfl hle] at e
    cases e
    cases (ha.not_goesOn (finishPoint_goesOn ho.2 _)).1
  · rw [exec_monSweep_end ho.1 rfl (by omega)] at e
    cases e
    rw [ha.of_deliver ho.2 rfl]
    exact Sweep.response_status _ _

/-- Every command that ends does so with a status of its row of the table (60_exceptions.md R261). -/
theorem exec_status (i : Instr) {s t : State} {q : Nat} {r : Response} (ho : s.OwnedBy q) (e : exec i s = .next t)
    (ha : Answered s t q r) : r.status ∈ statusesOf i := by
  cases i with
  | lgAddr dm lg rd => exact (wholeCommand_okOr ho e ha (lgAddr_evolving _ _) (lgAddr_raises_badIndex _ _)).single_status
  | lgWrite dm lg b => exact (wholeCommand_okOr ho e ha (lgWrite_evolving _ _) (lgWrite_raises _ _)).bus_status
  | lgRead dm lg => exact (wholeCommand_okOr ho e ha (lgRead_evolving _) (lgRead_raises _)).bus_status
  | swGet dev band chain => exact (wholeCommand_okOr ho e ha (swGet_evolving _ _ _) (swGet_raises _ _ _)).switch_status
  | swSet dev band chain st =>
    change execSwSet dev band chain st s = .next t at e
    unfold execSwSet at e
    split at e
    · exact (wholeCommand_okOr ho e ha (swSet_evolving _ _ _ _) (swSet_raises _ _ _ _)).switch_status
    · exact (swSetNextUnit_okOr ho e ha).switch_status
  | monSelect idx => exact (wholeCommand_okOr ho e ha (monSelect_evolving _) (monSelect_raises _)).bus_status
  | monRead idx => exact (wholeCommand_okOr ho e ha (monRead_evolving _) (monRead_raises _)).bus_status
  | monConvert cat raw =>
    exact (wholeCommand_okOr ho e ha (monConvert_evolving _ _) (monConvert_raises _ _)).single_status
  | monSweep => simpa [statusesOf] using execMonSweep_status ho e ha

/-- Settles O52: the codes are computed, and a command ends with success or with a failure it raises (`exec_status`). -/
theorem statusTable : Obligations.StatusTable := by
  refine ⟨rfl, fun st => ?_, fun i s t q r => exec_status i⟩
  cases st <;> decide

/-! ## Who a step leaves alone -/

/-- A submission changes the record of its requester only. -/
theorem State.submit_req_other (s : State) {p q : Nat} (h : q ≠ p) : (s.submit p).req q = s.req q := by
  obtain ⟨n, c, rest, he⟩ := s.submit_eq p
  rw [he]
  exact State.setReq_req_other s p q _ h

/-- After a submission its requester waits. -/
theorem State.submit_waiting (s : State) {q : Nat} (hq : q < s.reqs.length) : (s.submit q).waiting q = true := by
  obtain ⟨n, c, rest, he⟩ := s.submit_eq q
  rw [he]
  simp [State.waiting, State.req, hq]

/-- A granted unit changes the record of its requester only (60_exceptions.md R287). -/
theorem runUnit_req_other {s t : State} {p q : Nat} (ho : s.busOwner = some p) (h : runUnit p s = .next t) (hq : q ≠ p) :
    t.req q = s.req q := by
  obtain ⟨t', ht, hend⟩ := runUnit_unit ho
  rw [h] at ht
  cases ht
  rcases hend with rfl | ⟨u, hu, he⟩
  · rfl
  · obtain ⟨-, -, -, -, -, -, -, -, -, hother, -⟩ := he.parts
    rw [hother q hq, State.req, hu.reqs]
    rfl

/-- A step that is no move of a requester leaves its record as it was. -/
theorem step_req_other {s t : State} {q : Nat} (h : step s = .next t) (hs : s.chooseMove.1 ≠ some (.submit q))
    (hg : s.chooseMove.1 ≠ some (.grant q)) : t.req q = s.req q := by
  have hreq := s.chooseMove_req q
  rcases step_move_cases h with ⟨-, rfl⟩ | ⟨p, hp, -, -, rfl⟩ | ⟨p, hp, -, hr⟩
  · exact hreq
  · have hne : q ≠ p := by rintro rfl; exact hs hp
    rw [State.submit_req_other _ hne, hreq]
  · have hne : q ≠ p := by rintro rfl; exact hg hp
    rw [runUnit_req_other (State.grant_busOwner _ p) hr hne, State.grant_req, hreq]

/-- A waiting requester's record is left as it was by every step but its own grant: it has no submit move. -/
theorem step_req_waiting {s t : State} {q : Nat} (h : step s = .next t) (hw : s.waiting q = true)
    (hg : s.chooseMove.1 ≠ some (.grant q)) : t.req q = s.req q := by
  refine step_req_other h (fun hs => ?_) hg
  have hcan := (State.mem_moves_submit.1 (State.chooseMove_mem hs)).2
  rw [State.canSubmit_eq, hw] at hcan
  cases hcan

/-! ## A run of picked choices -/

/-- The states passed when each choice is picked from the state it is made in. -/
def State.playing (s : State) (pick : State → Nat) : Nat → State
  | 0 => s
  | n + 1 => ((s.playing pick n).choosing (pick (s.playing pick n))).stepped

/-- They are those of the run with these choices. -/
theorem State.run_playing (s : State) (pick : State → Nat) (n : Nat) :
    s.run (fun k => pick (s.playing pick k)) n = s.playing pick n := by
  induction n with
  | zero => rfl
  | succ n ih => rw [State.run, ih, State.playing]

/-- Choices that suit the states they are made in make up a run. -/
theorem State.exists_choices {R : State → Nat → Prop} (h : ∀ t, ∃ n, R t n) (s : State) :
    ∃ choices, ∀ n, R (s.run choices n) (choices n) := by
  obtain ⟨pick, hpick⟩ := Classical.skolem.1 h
  exact ⟨fun n => pick (s.playing pick n), fun n => by rw [State.run_playing]; exact hpick _⟩

/-! ## Starvation -/

/-- The move that serves `p`: its grant if it waits, else its submission. -/
def State.serve (s : State) (p : Nat) : Move := if s.waiting p then .grant p else .submit p

/-- On a free bus every requester has the move that serves it. -/
theorem State.serve_mem {s : State} {p : Nat} (hb : s.busOwner = none) (hp : p < s.reqs.length) : s.serve p ∈ s.moves := by
  unfold State.serve
  split
  · rename_i hw
    exact State.mem_moves_grant.2 ⟨hp, by simp [State.canGrant, hb, hw]⟩
  · rename_i hw
    exact State.mem_moves_submit.2 ⟨hp, by simp [State.canSubmit_eq, hw]⟩

/-- Serving `p` is no move of another requester. -/
theorem State.serve_ne {p q : Nat} (h : p ≠ q) (s : State) :
    some (s.serve p) ≠ some (.submit q) ∧ some (s.serve p) ≠ some (.grant q) := by
  unfold State.serve
  split <;> simp [h]

/-- Some run serves `p` at every step. -/
theorem State.exists_serving {s : State} {p : Nat} (hw : s.cfg.wf = true) (hb : s.busOwner = none)
    (hp : p < s.reqs.length) :
    ∃ choices, ∀ n, ((s.run choices n).choosing (choices n)).chooseMove.1 = some ((s.run choices n).serve p) := by
  have hpick (t : State) : ∃ n, t.serve p ∈ t.moves → (t.choosing n).chooseMove.1 = some (t.serve p) := by
    by_cases hm : t.serve p ∈ t.moves
    · obtain ⟨n, hn⟩ := State.can_choose hm
      exact ⟨n, fun _ => by rw [hn]⟩
    · exact ⟨0, fun h => absurd h hm⟩
  obtain ⟨choices, h⟩ := s.exists_choices hpick
  refine ⟨choices, fun n => h n ?_⟩
  obtain ⟨-, hbn, hln, -⟩ := s.run_steps choices hw hb n
  exact State.serve_mem hbn (by rwa [hln])

/-- Such a run grants `p` again and again: where `p` does not wait it submits, and its grant is next. -/
theorem State.serving_grants {s : State} {p : Nat} {choices : Nat → Nat} (hw : s.cfg.wf = true) (hb : s.busOwner = none)
    (hp : p < s.reqs.length)
    (hserve : ∀ n, ((s.run choices n).choosing (choices n)).chooseMove.1 = some ((s.run choices n).serve p)) (n : Nat) :
    ∃ m, n ≤ m ∧ s.Grants choices m p := by
  have grants {m : Nat} (h : (s.run choices m).waiting p = true) : s.Grants choices m p :=
    (hserve m).trans (by rw [State.serve, if_pos h])
  by_cases hwait : (s.run choices n).waiting p = true
  · exact ⟨n, Nat.le_refl n, grants hwait⟩
  · refine ⟨n + 1, Nat.le_succ n, grants ?_⟩
    obtain ⟨hstep, -, hln, hcn⟩ := s.run_steps choices hw hb n
    have hsub := hserve n
    rw [State.serve, if_neg hwait] at hsub
    have hwf : ((s.run choices n).choosing (choices n)).cfg.wf = true := by rw [← hcn] at hw; exact hw
    rw [step_submit hwf hsub] at hstep
    rw [← Host.Outcome.next.inj hstep]
    refine State.submit_waiting _ ?_
    rw [(State.chooseMove_evolves _).reqs]
    exact hln ▸ hp

/-- Without fairness a waiting requester may starve (60_exceptions.md R288). -/
theorem State.starves {s : State} {p q : Nat} (hw : s.cfg.wf = true) (hb : s.busOwner = none) (hp : p < s.reqs.length)
    (hpq : p ≠ q) : ∃ choices, ∀ n, (s.run choices n).req q = s.req q ∧ ∃ m, n ≤ m ∧ s.Grants choices m p := by
  obtain ⟨choices, hserve⟩ := State.exists_serving hw hb hp
  refine ⟨choices, fun n => ⟨?_, State.serving_grants hw hb hp hserve n⟩⟩
  induction n with
  | zero => rfl
  | succ n ih =>
    obtain ⟨hs, hg⟩ := State.serve_ne hpq (s.run choices n)
    rw [← hserve n] at hs hg
    exact (step_req_other (s.run_steps choices hw hb n).1 hs hg).trans ih

/-! ## Weak fairness -/

/-- The step from `s` to `t` ends the command of `q` with the response `r` (60_exceptions.md R287). -/
def Responds (s t : State) (q : Nat) (r : Response) : Prop :=
  (∃ es, t.trace = s.trace ++ es ++ [.endCmd q r]) ∧ (t.req q).rsp = some r ∧ (t.req q).pending = none ∧
    (t.req q).sweep = none

/-- A step that grants a waiting requester ends its command, or brings it to a later place (`runUnit_progress`). -/
theorem step_grant_progress {s t : State} {q : Nat} (hs : s.SchedOk) (h : step s = .next t)
    (hg : s.chooseMove.1 = some (.grant q)) :
    (∃ r, Responds s t q r) ∨ t.waiting q = true ∧ (t.req q).rank < (s.req q).rank := by
  have hw := (step_cases h).1
  obtain ⟨gc, gr, -⟩ := s.chooseMove_grant_parts q
  have greq : (s.chooseMove.2.grant q).req q = s.req q := by rw [State.req, gr]; rfl
  have hcan := (State.mem_moves_grant.1 (State.chooseMove_mem hg)).2
  obtain ⟨hq, hok, c, hp⟩ := hs.pending (Bool.and_eq_true_iff.1 hcan).2
  rw [step_grant hw hg] at h
  obtain ⟨u, t', ht, hu, hend⟩ := runUnit_progress (s := s.chooseMove.2.grant q) (by rwa [gc])
    (State.grant_busOwner _ q) (by rwa [greq, gc]) (by rwa [greq])
  rw [h] at ht
  cases ht
  have ureqs : u.reqs = s.reqs := hu.reqs.trans gr
  rcases hend with ⟨r, rfl⟩ | ⟨r, rfl, -, hpend, hrank⟩
  · refine .inl ⟨r, ?_, ?_⟩
    · obtain ⟨begins, hb⟩ := (Advances.grant s.chooseMove.2 q).trace
      obtain ⟨pins, hpins, -⟩ := hu.trace
      refine ⟨begins ++ pins, ?_⟩
      rw [← List.append_assoc, ← s.chooseMove_trace, ← hb, ← hpins]
      rfl
    · rw [(answered_deliver hq ureqs).1]
      exact ⟨rfl, rfl, rfl⟩
  · obtain ⟨hreq, -⟩ := goesOn_release (r := r) hq ureqs
    rw [State.waiting, hreq, hpend]
    exact .inr ⟨rfl, by rwa [greq] at hrank⟩

/-- The scheduler's invariant holds along a run. -/
theorem State.SchedOk.run {s : State} (hs : s.SchedOk) (hw : s.cfg.wf = true) (choices : Nat → Nat) (n : Nat) :
    (s.run choices n).SchedOk := by
  induction n with
  | zero => exact hs
  | succ n ih =>
    exact stepKeepsSchedule ((s.run choices n).choosing (choices n)) _ ih (s.run_steps choices hw hs.2.1 n).1

/-- A waiting requester is granted with its record as it was, or still has that record. -/
theorem State.run_grant_or_keeps {s : State} {choices : Nat → Nat} {q n : Nat} (hw : s.cfg.wf = true)
    (hb : s.busOwner = none) (hwait : (s.run choices n).waiting q = true) (k : Nat) :
    (∃ m, n ≤ m ∧ s.Grants choices m q ∧ (s.run choices m).req q = (s.run choices n).req q) ∨
      (s.run choices (n + k)).req q = (s.run choices n).req q := by
  induction k with
  | zero => exact .inr rfl
  | succ k ih =>
    rcases ih with hg | hreq
    · exact .inl hg
    · by_cases hg : s.Grants choices (n + k) q
      · exact .inl ⟨n + k, Nat.le_add_right n k, hg, hreq⟩
      · have hstill : (s.run choices (n + k)).waiting q = true := by rwa [State.waiting, hreq]
        exact .inr ((step_req_waiting (s.run_steps choices hw hb (n + k)).1 hstill hg).trans hreq)

/-- In a weakly fair run a waiting requester is granted with its record as it was: without such a grant it would wait
forever. -/
theorem State.WeaklyFair.next_grant {s : State} {choices : Nat → Nat} (hf : s.WeaklyFair choices) (hw : s.cfg.wf = true)
    (hb : s.busOwner = none) {q n : Nat} (hwait : (s.run choices n).waiting q = true) :
    ∃ m, n ≤ m ∧ s.Grants choices m q ∧ (s.run choices m).req q = (s.run choices n).req q := by
  refine Classical.byContradiction fun hno => ?_
  have hkeeps (m : Nat) (hm : n ≤ m) : (s.run choices m).req q = (s.run choices n).req q := by
    have h := (State.run_grant_or_keeps hw hb hwait (m - n)).resolve_left hno
    rwa [Nat.add_sub_cancel' hm] at h
  obtain ⟨m, hm, hg⟩ := hf q n fun m hm => by rwa [State.waiting, hkeeps m hm]
  exact hno ⟨m, hm, hg, hkeeps m hm⟩

/-- Under weak fairness a waiting requester gets its response (60_exceptions.md R288), by induction on the places its
command has left: each grant ends it or brings it to a later one. -/
theorem State.WeaklyFair.responds {s : State} {choices : Nat → Nat} (hf : s.WeaklyFair choices) (hw : s.cfg.wf = true)
    (hs : s.SchedOk) {q n : Nat} (hwait : (s.run choices n).waiting q = true) :
    ∃ m r, n ≤ m ∧ Responds (s.run choices m) (s.run choices (m + 1)) q r := by
  induction hk : ((s.run choices n).req q).rank using Nat.strongRecOn generalizing n with
  | ind k ih =>
    obtain ⟨m, hm, hg, hreq⟩ := hf.next_grant hw hs.2.1 hwait
    rcases step_grant_progress (s := (s.run choices m).choosing (choices m)) (hs.run hw choices m)
      (s.run_steps choices hw hs.2.1 m).1 hg with ⟨r, hr⟩ | ⟨hwait', hrank⟩
    · exact ⟨m, r, hm, hr⟩
    · obtain ⟨m', r, hm', hr⟩ := ih _ (by rw [← hk, ← hreq]; exact hrank) hwait' rfl
      exact ⟨m', r, by omega, hr⟩

/-- Settles O14: the grant of a waiting requester is an enabled move, which the environment may choose or not
(`step_choosing`, `step_choosing_idle`); serving another requester at every step starves it (`State.starves`); and under
weak fairness its grants come, and are few (`State.WeaklyFair.responds`). -/
theorem anyWaitingRequesterMayBeGranted : Obligations.AnyWaitingRequesterMayBeGranted := by
  refine ⟨fun s q hw hb hq hwait => ⟨?_, step_choosing_idle hw⟩, fun s p q hw hs hp hpq _ => ?_,
    fun s choices hw hs hf q n hwait => hf.responds hw hs hwait⟩
  · exact step_choosing hw (State.mem_moves_grant.2 ⟨hq, by simp [State.canGrant, hb, hwait]⟩)
  · exact State.starves hw hs.2.1 hp hpq

end Sys2Proof.Machine
